-- ==== Sys2Proof/Word.lean ====
section
/-! DEFINITION. The machine's words and their plainest arithmetic (00_scope.md section 5, notation). -/

namespace Sys2Proof

/-- One byte of the codestream (20_memory.md R57, R58). -/
abbrev Byte := BitVec 8

/-- One 32-bit register, command word or block-memory word. -/
abbrev Word := BitVec 32

/-- `r <- v` for an integer `v` and a register of `w` bits. Every rule stores a value that fits; one that
does not is reduced modulo `2^w` (log 8). -/
def storeInt (w : Nat) (v : Int) : BitVec w := BitVec.ofInt w v

/-- A Boolean as the bit 1 or 0. -/
def bit (b : Bool) : Nat := if b then 1 else 0

end Sys2Proof
end

