-- ==== Sys2Proof/Syntax.lean ====
section
/-! DEFINITION. The 25 commands (30_encoding.md R80), one constructor per row of the opcode table. An
operand has the width of its field (R71 to R79), so every term is one legal command word. -/

namespace Sys2Proof

/-- A command of J4D. Flags `c` (cost-only), `h` (header), `m` (reset the bank first) and the coded bit `b`
are single bits; the other operands are unsigned fields (R79). -/
inductive Instr where
  /-- `NOP` (45_system_codestream.md R170). -/
  | nop
  /-- `SRST`: soft reset (R171). -/
  | srst
  /-- `MRST`: reset every model (40_model_bank.md R97). -/
  | mrst
  /-- `MRST1 ctx`: reset one model (R98). -/
  | mrst1 (ctx : BitVec 8)
  /-- `MUPD ctx, b`: update one model (R99). -/
  | mupd (b : Bool) (ctx : BitVec 8)
  /-- `MRATE ctx, b`: the rate of one bit (R100). -/
  | mrate (b : Bool) (ctx : BitVec 8)
  /-- `RCLR`: clear the rate accumulator (R101). -/
  | rclr
  /-- `SNAP slot`: copy the bank into a slot (R102). -/
  | snap (slot : BitVec 4)
  /-- `REST slot`: copy a slot into the bank (R103). -/
  | rest (slot : BitVec 4)
  /-- `EINIT[.M]`: open an encode segment (41_arith_encoder.md R116). -/
  | einit (m : Bool)
  /-- `ENCB[.C] ctx, b`: code one bit (R117). -/
  | encb (c b : Bool) (ctx : BitVec 8)
  /-- `ENCI[.C] n, v`: code an integer (R118). -/
  | enci (c : Bool) (n : BitVec 5) (v : BitVec 16)
  /-- `EFIN`: close the encode segment (R119). -/
  | efin
  /-- `DINIT[.M]`: open a decode segment (42_arith_decoder.md R123). -/
  | dinit (m : Bool)
  /-- `DECB ctx`: decode one bit (R124). -/
  | decb (ctx : BitVec 8)
  /-- `DECI n`: decode an integer (R125). -/
  | deci (n : BitVec 5)
  /-- `DFIN`: close the decode segment (R126). -/
  | dfin
  /-- `ENBLK[.C][.H]`: code the current block (43_bitplane.md R137). -/
  | enblk (c h : Bool)
  /-- `DEBLK[.H]`: decode the current block (R140). -/
  | deblk (h : Bool)
  /-- `TFWD`: forward transform (44_transform.md R161). -/
  | tfwd
  /-- `TINV`: inverse transform (R162). -/
  | tinv
  /-- `TFLUSH`: empty the caches (R163). -/
  | tflush
  /-- `CSPUT byte`: append a byte to the sink (45_system_codestream.md R172). -/
  | csput (byte : BitVec 8)
  /-- `CSGET`: read a byte of the source (R173). -/
  | csget
  /-- `CSRW k`: move the cursor back (R174). -/
  | csrw (k : BitVec 24)
deriving DecidableEq, Repr

end Sys2Proof
end

