-- ==== Sys2Proof/Decode.lean ====
section
/-! DEFINITION. Decoding of a command word, total and rejecting by name, and the encoder (30_encoding.md). -/

namespace Sys2Proof

/-- The 25 opcodes of R80. -/
inductive Op where
  | nop | srst | mrst | mrst1 | mupd | mrate | rclr | snap | rest | einit | encb | enci | efin
  | dinit | decb | deci | dfin | enblk | deblk | tfwd | tinv | tflush | csput | csget | csrw
deriving DecidableEq, Repr

/-- The row of R80 whose opcode is `op = w[31:24]`. -/
def opOfCode (op : Nat) : Option Op :=
  match op with
  | 0x00 => some .nop
  | 0x01 => some .srst
  | 0x10 => some .mrst
  | 0x11 => some .mrst1
  | 0x12 => some .mupd
  | 0x13 => some .mrate
  | 0x14 => some .rclr
  | 0x18 => some .snap
  | 0x19 => some .rest
  | 0x20 => some .einit
  | 0x21 => some .encb
  | 0x22 => some .enci
  | 0x23 => some .efin
  | 0x30 => some .dinit
  | 0x31 => some .decb
  | 0x32 => some .deci
  | 0x33 => some .dfin
  | 0x40 => some .enblk
  | 0x41 => some .deblk
  | 0x50 => some .tfwd
  | 0x51 => some .tinv
  | 0x52 => some .tflush
  | 0x60 => some .csput
  | 0x61 => some .csget
  | 0x62 => some .csrw
  | _ => none

/-- The column `mask` of R80: the bits the row fixes. -/
def opMask : Op → Word
  | .nop | .srst | .mrst | .rclr | .efin | .dfin | .tfwd | .tinv | .tflush | .csget => 0xFFFFFFFF#32
  | .mrst1 | .decb | .csput => 0xFFFFFF00#32
  | .mupd | .mrate => 0xFFFEFF00#32
  | .snap | .rest => 0xFFFFFFF0#32
  | .einit | .dinit => 0xFFDFFFFF#32
  | .encb => 0xFF7EFF00#32
  | .enci => 0xFF600000#32
  | .deci => 0xFFE0FFFF#32
  | .enblk => 0xFF3FFFFF#32
  | .deblk => 0xFFBFFFFF#32
  | .csrw => 0xFF000000#32

/-- The column `match` of R80: the value of the fixed bits. -/
def opMatch : Op → Word
  | .nop => 0x00000000#32
  | .srst => 0x01000000#32
  | .mrst => 0x10000000#32
  | .mrst1 => 0x11000000#32
  | .mupd => 0x12000000#32
  | .mrate => 0x13000000#32
  | .rclr => 0x14000000#32
  | .snap => 0x18000000#32
  | .rest => 0x19000000#32
  | .einit => 0x20000000#32
  | .encb => 0x21000000#32
  | .enci => 0x22000000#32
  | .efin => 0x23000000#32
  | .dinit => 0x30000000#32
  | .decb => 0x31000000#32
  | .deci => 0x32000000#32
  | .dfin => 0x33000000#32
  | .enblk => 0x40000000#32
  | .deblk => 0x41000000#32
  | .tfwd => 0x50000000#32
  | .tinv => 0x51000000#32
  | .tflush => 0x52000000#32
  | .csput => 0x60000000#32
  | .csget => 0x61000000#32
  | .csrw => 0x62000000#32

/-! The operand fields of R72 to R78. -/

/-- `C = w[23]` (R73, R74, R76). -/
def fieldC (w : Word) : Bool := w.getLsbD 23

/-- `H = w[22]` (R76). -/
def fieldH (w : Word) : Bool := w.getLsbD 22

/-- `M = w[21]` (R76). -/
def fieldM (w : Word) : Bool := w.getLsbD 21

/-- `b = w[16]` (R73). -/
def fieldB (w : Word) : Bool := w.getLsbD 16

/-- `ctx = w[7:0]` (R73). -/
def fieldCtx (w : Word) : BitVec 8 := w.extractLsb' 0 8

/-- `n = w[20:16]` (R74, R79). -/
def fieldN (w : Word) : BitVec 5 := w.extractLsb' 16 5

/-- `v = w[15:0]` (R74). -/
def fieldV (w : Word) : BitVec 16 := w.extractLsb' 0 16

/-- `slot = w[3:0]` (R75). -/
def fieldSlot (w : Word) : BitVec 4 := w.extractLsb' 0 4

/-- `k = w[23:0]` (R77). -/
def fieldK (w : Word) : BitVec 24 := w.extractLsb' 0 24

/-- `byte = w[7:0]` (R78). -/
def fieldByte (w : Word) : BitVec 8 := w.extractLsb' 0 8

/-- The command of the row `op` with the operands that `w` holds (R80, "flags / operands"). -/
def instrOf (op : Op) (w : Word) : Instr :=
  match op with
  | .nop => .nop
  | .srst => .srst
  | .mrst => .mrst
  | .mrst1 => .mrst1 (fieldCtx w)
  | .mupd => .mupd (fieldB w) (fieldCtx w)
  | .mrate => .mrate (fieldB w) (fieldCtx w)
  | .rclr => .rclr
  | .snap => .snap (fieldSlot w)
  | .rest => .rest (fieldSlot w)
  | .einit => .einit (fieldM w)
  | .encb => .encb (fieldC w) (fieldB w) (fieldCtx w)
  | .enci => .enci (fieldC w) (fieldN w) (fieldV w)
  | .efin => .efin
  | .dinit => .dinit (fieldM w)
  | .decb => .decb (fieldCtx w)
  | .deci => .deci (fieldN w)
  | .dfin => .dfin
  | .enblk => .enblk (fieldC w) (fieldH w)
  | .deblk => .deblk (fieldH w)
  | .tfwd => .tfwd
  | .tinv => .tinv
  | .tflush => .tflush
  | .csput => .csput (fieldByte w)
  | .csget => .csget
  | .csrw => .csrw (fieldK w)

/-- Why a word is illegal (R81). Either way executing it raises `E_ILL` with `ERRINFO = w`. -/
inductive Illegal where
  /-- `w[31:24]` is none of the 25 opcodes. -/
  | unknownOpcode
  /-- The opcode is known and some bit its row fixes at 0 is 1. -/
  | reservedBit
deriving DecidableEq, Repr

/-- Decodes one command word: the row of its opcode, then `w & mask = match` (R70, R80, R81). -/
def decode (w : Word) : Except Illegal Instr :=
  match opOfCode (w.extractLsb' 24 8).toNat with
  | none => .error .unknownOpcode
  | some op => if w &&& opMask op = opMatch op then .ok (instrOf op w) else .error .reservedBit

/-- The instruction the decoder reads from a word whose `nbits` low bits are `w` and whose other bits are
zero; a command is one 32-bit word (R70). -/
def decodeTableWord (nbits w : Nat) : Option Instr :=
  match decode (BitVec.ofNat 32 (w % 2 ^ nbits)) with
  | .ok i => some i
  | .error _ => none

/-! The encoder, from the formats of R71: opcode, `[23]`, `[22]`, `[21]`, `[20:17]`, `[16]`, `[15:0]`. -/

/-- Format N (R72). -/
def encodeN (op : BitVec 8) : Word := op ++ 0#24

/-- Format M (R73). -/
def encodeM (op : BitVec 8) (c b : Bool) (ctx : BitVec 8) : Word :=
  op ++ BitVec.ofBool c ++ 0#6 ++ BitVec.ofBool b ++ 0#8 ++ ctx

/-- Format I (R74). -/
def encodeI (op : BitVec 8) (c : Bool) (n : BitVec 5) (v : BitVec 16) : Word :=
  op ++ BitVec.ofBool c ++ 0#2 ++ n ++ v

/-- Format S (R75). -/
def encodeS (op : BitVec 8) (slot : BitVec 4) : Word := op ++ 0#20 ++ slot

/-- Format B (R76). -/
def encodeB (op : BitVec 8) (c h m : Bool) : Word :=
  op ++ BitVec.ofBool c ++ BitVec.ofBool h ++ BitVec.ofBool m ++ 0#21

/-- Format R (R77). -/
def encodeR (op : BitVec 8) (k : BitVec 24) : Word := op ++ k

/-- Format Y (R78). -/
def encodeY (op : BitVec 8) (byte : BitVec 8) : Word := op ++ 0#16 ++ byte

/-- The command word of an instruction (R80). -/
def encode : Instr → Word
  | .nop => encodeN 0x00#8
  | .srst => encodeN 0x01#8
  | .mrst => encodeN 0x10#8
  | .mrst1 ctx => encodeM 0x11#8 false false ctx
  | .mupd b ctx => encodeM 0x12#8 false b ctx
  | .mrate b ctx => encodeM 0x13#8 false b ctx
  | .rclr => encodeN 0x14#8
  | .snap slot => encodeS 0x18#8 slot
  | .rest slot => encodeS 0x19#8 slot
  | .einit m => encodeB 0x20#8 false false m
  | .encb c b ctx => encodeM 0x21#8 c b ctx
  | .enci c n v => encodeI 0x22#8 c n v
  | .efin => encodeN 0x23#8
  | .dinit m => encodeB 0x30#8 false false m
  | .decb ctx => encodeM 0x31#8 false false ctx
  | .deci n => encodeI 0x32#8 false n 0#16
  | .dfin => encodeN 0x33#8
  | .enblk c h => encodeB 0x40#8 c h false
  | .deblk h => encodeB 0x41#8 false h false
  | .tfwd => encodeN 0x50#8
  | .tinv => encodeN 0x51#8
  | .tflush => encodeN 0x52#8
  | .csput byte => encodeY 0x60#8 byte
  | .csget => encodeN 0x61#8
  | .csrw k => encodeR 0x62#8 k

end Sys2Proof
end

