-- ==== Sys2Proof/Config.lean ====
section
/-! DEFINITION. What an implementation fixes (00_scope.md R4), the parameter left to the platform
(20_memory.md R63), and the free values: opaque constants that nothing can evaluate, for the values the
spec leaves unspecified. -/

namespace Sys2Proof

/-- `NCTX`, the number of probability models in the bank (R4). -/
abbrev Config.nctx : Nat := 161

/-- `MAXTOT`, the value of `total` that triggers the rescale (R4). -/
abbrev Config.maxTot : Nat := 4095

/-- `SUPMAX`, the largest legal `SUP` (R4). -/
abbrev Config.supMax : Nat := 30

/-- The number of slot numbers a command word can name, and the largest `NSLOT` (30_encoding.md R75, D24). -/
abbrev Config.slotNumbers : Nat := 16

/-- The largest legal length of `TLEN` on an axis: the constant of 44_transform.md R150 and 60_exceptions.md
R187, whatever `MAXLEN` is. -/
abbrev Config.maxTransformLen : Nat := 64

/-- The identification word (10_state.md R21). -/
abbrev Config.idWord : Word := 0x4A344401#32

/-- The parameters 00_scope.md R4 marks "argument". A machine has one value of them for good (log 3). -/
structure Params where
  /-- `NSLOT`: number of bank snapshot slots, at most 16 (D24). -/
  nslot : Nat
  /-- `MAXLEN`: largest length of one block axis, at most 64 (D3). -/
  maxLen : Nat
  /-- `BLKCAP`: number of words in block memory, at most `2^18` (D3). -/
  blkCap : Nat
deriving DecidableEq, Repr

/-- R4's defaults of the arguments. -/
def Params.default : Params := { nslot := 16, maxLen := 64, blkCap := 262144 }

/-- The values of the arguments: the upper bounds are those of 92_eei_decisions.md D3 and D24. DESIGN CHOICE: the
lower bounds are the model's, since the spec gives none (log 25). -/
abbrev Params.ok (p : Params) : Prop :=
  1 ≤ p.nslot ∧ p.nslot ≤ Config.slotNumbers ∧ 1 ≤ p.maxLen ∧ p.maxLen ≤ 64 ∧
    1 ≤ p.blkCap ∧ p.blkCap ≤ 262144

/-- `MODE`, the coder's mode (10_state.md R19). The value 3 never occurs: there is no fourth mode. -/
inductive Mode where
  | idle
  | enc
  | dec
deriving DecidableEq, Repr

/-- `REGBASE`: where the register block sits in the host's address space, left to the platform with no
default (R63, 93_implementation_defined.md U11; log 12). -/
opaque Config.regBase : Nat

/-- The host's bus address of the register at byte offset `off` (R63). -/
def Config.regAddress (off : Nat) : Nat := Config.regBase + off

/-- FREE VALUE: what block-memory word `addr` holds after power-on number `seed` until something writes it
(R51, U6: any value, the same at every read; log 4). -/
opaque Config.bmemInit (seed addr : Nat) : Word

/-! FREE VALUES after an imprecise `E_EOS` (42_arith_decoder.md R129, 60_exceptions.md R181, U3; log 5) and,
for the coder registers, after a `HostLoad` while decoding (70_reset_and_hazards.md R207, U4; log 6). The
argument `k` is the draw's number, so that two draws have nothing to do with each other. -/

/-- FREE VALUE of `LOW`. -/
opaque Config.freeLow (k : Nat) : BitVec 16

/-- FREE VALUE of `HIGH`. -/
opaque Config.freeHigh (k : Nat) : BitVec 16

/-- FREE VALUE of `CODE`. -/
opaque Config.freeCode (k : Nat) : BitVec 16

/-- FREE VALUE of `DB`. -/
opaque Config.freeDb (k : Nat) : BitVec 8

/-- FREE VALUE of `DBN`. -/
opaque Config.freeDbn (k : Nat) : BitVec 4

/-- FREE VALUE of `RESULT`. -/
opaque Config.freeResult (k : Nat) : Word

/-- FREE VALUE of the zero count of model `c`. -/
opaque Config.freeZeros (k c : Nat) : BitVec 12

/-- FREE VALUE of the total count of model `c`. -/
opaque Config.freeTotal (k c : Nat) : BitVec 12

/-- FREE VALUE of `INF`. -/
opaque Config.freeInf (k : Nat) : BitVec 5

/-- FREE VALUE of the block-memory word at `addr`. -/
opaque Config.freeWord (k addr : Nat) : Word

/-- FREE VALUE of the 2-bit field `MODE`, before R19's exclusion of the value 3. -/
opaque Config.freeModeIndex (k : Nat) : Fin 3

/-- FREE VALUE of `MODE`: any of the three modes (R19, R129). -/
def Config.freeMode (k : Nat) : Mode :=
  if Config.freeModeIndex k = 0 then .idle else if Config.freeModeIndex k = 1 then .enc else .dec

end Sys2Proof
end

