-- ==== Sys2Proof/Machine/State.lean ====
section
/-! DEFINITION. The state of J4D as plain data (10_state.md R11), its reset value (R48), the host actions
that drive it (R10), and the reasons the model itself can stop. -/

namespace Sys2Proof.Machine

/-- The four axes of a 4D block (00_scope.md section 6). -/
inductive Axis where
  | t
  | s
  | v
  | u
deriving DecidableEq, Repr

/-- One value per axis: lengths, positions, gains. -/
structure Axes (α : Type) where
  t : α
  s : α
  v : α
  u : α
deriving DecidableEq, Repr

/-- A probability model: the count of zero symbols and the count of all symbols (R14). -/
structure Model where
  /-- `BANK[c].z`. -/
  z : BitVec 12
  /-- `BANK[c].t`. -/
  t : BitVec 12
deriving DecidableEq, Repr

/-- The bank: `NCTX = 161` models (R14). -/
abbrev Bank := Vector Model Config.nctx

/-- Block memory (20_memory.md R51): the words written since power-on, by address. -/
structure Memory where
  /-- Which power-on the unspecified words belong to (the model's own, log 4). -/
  seed : Nat
  /-- (address, word) pairs, addresses strictly rising. -/
  cells : List (Nat × Word)
deriving DecidableEq, Repr

/-- What the host (or the platform) can do to J4D: R10, R59, 70_reset_and_hazards.md R200. -/
inductive HostAction where
  /-- A bus read of `bits` bits at byte offset `off` of the register block; `RegRead(off)` when `bits = 32`
  (20_memory.md R52, R53). -/
  | read (bits off : Nat)
  /-- A bus write of `bits` bits at byte offset `off`; `RegWrite(off, v)` when `bits = 32` (R52, R53). -/
  | write (bits off : Nat) (v : Word)
  /-- `HostLoad(bytes)` (R59). -/
  | load (bytes : List Byte)
  /-- `HostAppend(bytes)` (R59). -/
  | append (bytes : List Byte)
  /-- `HostTake()`: read the sink's bytes from position `start` on (R59). -/
  | take (start : Nat)
  /-- The platform's reset line: a hardware reset without power loss (R200). -/
  | resetLine
  /-- Power-on (R200). -/
  | powerOn
deriving DecidableEq, Repr

/-- What the host gets back from its last action (the model's own field, log 2). -/
inductive HostResp where
  /-- No action has been performed. -/
  | none
  /-- The action completed and returns nothing. -/
  | done
  /-- The value a register read returned (R52). -/
  | data (v : Word)
  /-- The bytes a `HostTake` returned (R59). -/
  | bytes (bs : List Byte)
  /-- The bus error of R53. -/
  | busError
deriving DecidableEq, Repr

/-- The nine faults of 60_exceptions.md R180. Taking one is a next state (R183). -/
inductive FaultCode where
  | ill
  | mode
  | arg
  | slot
  | cfg
  | range
  | eos
  | rewind
  | ovf
deriving DecidableEq, Repr

/-- The state of J4D. The last four fields are the model's own (logs 1, 2, 3, 7). -/
structure State where
  /-- `MODE` (R19). -/
  mode : Mode
  /-- `FAULT` (R13). -/
  fault : Bool
  /-- `TSAT` (R13). -/
  tsat : Bool
  /-- `ERR[7:0]` (R24). -/
  err : BitVec 8
  /-- `ERRINFO` (R25). -/
  errInfo : Word
  /-- `CMDCNT` (R26). -/
  cmdCnt : Word
  /-- `RESULT` (R27). -/
  result : Word
  /-- `RATE_OUT` (R28). -/
  rateOut : Word
  /-- `RATEACC`, that is `RATE_HI ++ RATE_LO` (R29). -/
  rateAcc : BitVec 64
  /-- `LOW` (R30). -/
  low : BitVec 16
  /-- `HIGH` (R30). -/
  high : BitVec 16
  /-- `PEND` (R17, R31). -/
  pend : Word
  /-- `CODE` (R17, R32). -/
  code : BitVec 16
  /-- `BB`, the bits collected for the next output byte (R17, R33). -/
  bb : BitVec 8
  /-- `BBN`, their number (R17, R33). -/
  bbn : BitVec 4
  /-- `DB`, the bits not yet consumed of the last byte fetched (R17, R33). -/
  db : BitVec 8
  /-- `DBN`, their number (R17, R33). -/
  dbn : BitVec 4
  /-- `SUP` (R34). -/
  sup : BitVec 5
  /-- `INF` (R34). -/
  inf : BitVec 5
  /-- `BLK_BASE` (R35). -/
  blkBase : Word
  /-- `BLK_LEN`: `LT, LS, LV, LU` (R36). -/
  blkLen : Axes (BitVec 7)
  /-- `TLEN`: `TT, TS, TV, TU` (R37). -/
  tlen : Axes (BitVec 7)
  /-- `GAIN_T, GAIN_S, GAIN_V, GAIN_U` (R38). -/
  gain : Axes (BitVec 24)
  /-- `MIDX` (R39). -/
  midx : BitVec 8
  /-- `BM_ADDR` (R41). -/
  bmAddr : BitVec 18
  /-- `BANK` (R14). -/
  bank : Bank
  /-- The snapshot slots: `some b` when `SLOTV[s] = 1` and the slot holds `b`, `none` when `SLOTV[s] = 0`
  (R16, R47; log 10). -/
  slots : Vector (Option Bank) Config.slotNumbers
  /-- The lengths `N` with `(FWD, N)` in `TCV`, strictly rising (R18; log 18). -/
  tcvFwd : List Nat
  /-- The lengths `N` with `(INV, N)` in `TCV`, strictly rising (R18). -/
  tcvInv : List Nat
  /-- Per axis `a` the lengths `L` with `(a, L)` in `GCV`, strictly rising (R18). -/
  gcv : Axes (List Nat)
  /-- `TCFILLS` (R46). -/
  tcFills : Word
  /-- `GCFILLS` (R46). -/
  gcFills : Word
  /-- `OUTCNT` (R45). -/
  outCnt : Word
  /-- `BMEM` (20_memory.md R51). -/
  mem : Memory
  /-- `IN`, the source's bytes (R58). -/
  inp : List Byte
  /-- `CUR`, the source's cursor (R58). -/
  cur : Nat
  /-- `OUT`, the bytes pushed to the sink (R57). -/
  out : List Byte
  /-- The host actions still to perform, next first: the rest of the program (00_scope.md section 5; log 1). -/
  host : List HostAction
  /-- The answer to the last host action (log 2). -/
  resp : HostResp
  /-- The machine's parameters (00_scope.md R4; log 3). -/
  par : Params
  /-- How many times free values have been drawn (log 7). -/
  freeCtr : Nat
deriving DecidableEq, Repr

/-- Why the MODEL stops; J4D's own faults are next states (60_exceptions.md R183). -/
inductive Fault where
  /-- Raised by a `BM_DATA` access when `BM_ADDR >= BLKCAP`: the spec has no such word (20_memory.md R51).
  No run from reset reaches it, because a write of `BM_ADDR` reduces it modulo `BLKCAP` (R41). Safe: the
  model stops where the spec has nothing. -/
  | noSuchWord (addr : Nat)
deriving DecidableEq, Repr

/-- Why the model has no meaning for an instruction. -/
inductive Refusal where
  /-- Raised by an arm of `exec` whose instruction has no meaning yet; no arm does. Safe: the model stops. -/
  | notModelled (mnemonic : String)
deriving DecidableEq, Repr

/-- The three outcomes of a step of this machine. -/
abbrev Result := Host.Outcome State Fault Refusal

/-- A model after `ResetModel` (40_model_bank.md R93). -/
def Model.fresh : Model := { z := 1#12, t := 2#12 }

/-- The bank after reset: every model `(1, 2)` (R48). -/
def Bank.fresh : Bank := Vector.replicate Config.nctx Model.fresh

/-- The machine right after power-on reset (R48, R201): every value is the spec's but for the model's own
fields (`host`, `resp`, `par`, `freeCtr`, `mem.seed`: logs 1, 2, 3, 7). -/
def State.reset : State where
  mode := .idle
  fault := false
  tsat := false
  err := 0#8
  errInfo := 0#32
  cmdCnt := 0#32
  result := 0#32
  rateOut := 0#32
  rateAcc := 0#64
  low := 0x0000#16
  high := 0xFFFF#16
  pend := 0#32
  code := 0#16
  bb := 0#8
  bbn := 0#4
  db := 0#8
  dbn := 0#4
  sup := 0#5
  inf := 0#5
  blkBase := 0#32
  blkLen := ⟨1#7, 1#7, 1#7, 1#7⟩
  tlen := ⟨1#7, 1#7, 1#7, 1#7⟩
  gain := ⟨0x010000#24, 0x010000#24, 0x010000#24, 0x010000#24⟩
  midx := 0#8
  bmAddr := 0#18
  bank := Bank.fresh
  slots := Vector.replicate Config.slotNumbers none
  tcvFwd := []
  tcvInv := []
  gcv := ⟨[], [], [], []⟩
  tcFills := 0#32
  gcFills := 0#32
  outCnt := 0#32
  mem := { seed := 0, cells := [] }
  inp := []
  cur := 0
  out := []
  host := []
  resp := .none
  par := Params.default
  freeCtr := 0

end Sys2Proof.Machine
end

