-- ==== Sys2Proof/Machine/Ops.lean ====
section
/-! DEFINITION. The named operations over memory, bank, sink, source and caches (00_scope.md section 5),
taking a fault (60_exceptions.md R183), retiring (45_system_codestream.md R175) and resetting (R171, R200).
Nothing returns from a fault: the fault state is left by a reset only (R185). -/

namespace Sys2Proof.Machine

/-! Block memory (20_memory.md R51). -/

/-- The word written to address `a`, if one was. -/
def cellsGet : List (Nat × Word) → Nat → Option Word
  | [], _ => none
  | (b, w) :: rest, a => if a = b then some w else cellsGet rest a

/-- The cells with the word at address `a` replaced by `v`, kept in rising order. -/
def cellsSet : List (Nat × Word) → Nat → Word → List (Nat × Word)
  | [], a, v => [(a, v)]
  | (b, w) :: rest, a, v =>
    if a < b then (a, v) :: (b, w) :: rest
    else if a = b then (a, v) :: rest
    else (b, w) :: cellsSet rest a v

/-- Addresses strictly rising: the canonical form of a memory. An unlisted address was never written, which
no listed word equals (log 4). -/
abbrev Memory.wf (m : Memory) : Prop := m.cells.Pairwise (fun x y => x.1 < y.1)

/-- `MemRead(a)` of memory `m`: the word last written, else the unspecified power-on word (R51, U6). -/
def Memory.read (m : Memory) (a : Nat) : Word := (cellsGet m.cells a).getD (Config.bmemInit m.seed a)

/-- `MemWrite(a, v)` of memory `m`. -/
def Memory.write (m : Memory) (a : Nat) (v : Word) : Memory := { m with cells := cellsSet m.cells a v }

/-- `MemRead(a)` as the signed integer it holds (R51). -/
def memRead (s : State) (a : Nat) : Int := (s.mem.read a).toInt

/-- `MemWrite(a, v)`: stores the 32-bit two's complement pattern `v` (R51). -/
def memWrite (a : Nat) (v : Word) (s : State) : State := { s with mem := s.mem.write a v }

/-! Codestream sink and source (R57, R58). -/

/-- `SinkPush(b)` (R57). -/
def sinkPush (b : Byte) (s : State) : State :=
  { s with out := s.out ++ [b], outCnt := s.outCnt + 1#32 }

/-- `SrcNext()`: the byte `IN[CUR]` and the state with the cursor moved, or nothing at the end of the source,
where the caller raises `E_EOS` (R58). -/
def srcNext (s : State) : Option (Byte × State) :=
  match s.inp[s.cur]? with
  | none => none
  | some b => some (b, { s with cur := s.cur + 1 })

/-! The model bank (10_state.md R14). -/

/-- `BANK[c]`. Every caller's `c` is below 161. -/
def bankGet (s : State) (c : Nat) : Model := s.bank.getD c Model.fresh

/-- `BANK[c] <- m`. -/
def bankSet (c : Nat) (m : Model) (s : State) : State := { s with bank := s.bank.setIfInBounds c m }

/-! The cache key sets (R18). -/

/-- A strictly rising list of lengths with `n` added. -/
def keyInsert (n : Nat) : List Nat → List Nat
  | [] => [n]
  | m :: rest => if n < m then n :: m :: rest else if n = m then m :: rest else m :: keyInsert n rest

/-- The value on axis `a`. -/
def Axes.get {α : Type} (x : Axes α) : Axis → α
  | .t => x.t
  | .s => x.s
  | .v => x.v
  | .u => x.u

/-- The value on axis `a` replaced. -/
def Axes.set {α : Type} (x : Axes α) (a : Axis) (y : α) : Axes α :=
  match a with
  | .t => { x with t := y }
  | .s => { x with s := y }
  | .v => { x with v := y }
  | .u => { x with u := y }

/-- A function applied on every axis. -/
def Axes.map {α β : Type} (f : α → β) (x : Axes α) : Axes β := ⟨f x.t, f x.s, f x.v, f x.u⟩

/-! Faults (60_exceptions.md). -/

/-- `code(E)` (R180). -/
def FaultCode.code : FaultCode → BitVec 8
  | .ill => 1#8
  | .mode => 2#8
  | .arg => 3#8
  | .slot => 4#8
  | .cfg => 5#8
  | .range => 6#8
  | .eos => 7#8
  | .rewind => 8#8
  | .ovf => 9#8

/-- Fault entry `Fault(E, info)` (R183): `FAULT`, `ERR` and `ERRINFO` record it; nothing else is saved and
control goes nowhere. -/
def takeFault (e : FaultCode) (info : Word) (s : State) : State :=
  { s with fault := true, err := e.code, errInfo := info }

/-- `raise E(info)` as the outcome of a command (00_scope.md section 5). -/
def raise (e : FaultCode) (info : Word) (s : State) : Result := .next (takeFault e info s)

/-- The unspecified bank of draw `k` (42_arith_decoder.md R129). -/
def freeBank (k : Nat) : Bank :=
  Vector.ofFn fun c => { z := Config.freeZeros k c.val, t := Config.freeTotal k c.val }

/-- The imprecise `E_EOS` of a decoding command with word `w`, from the state BEFORE the command (R129,
R181): `CUR = len(IN)`; `LOW`, `HIGH`, `CODE`, `DB`, `DBN`, `RESULT` and every model are free values; all
else is as before. `DINIT` and `DEBLK` free more (`exhaustedInit`, `exhaustedBlock`). -/
def exhausted (w : Word) (s : State) : State :=
  takeFault .eos w
    { s with
      low := Config.freeLow s.freeCtr, high := Config.freeHigh s.freeCtr
      code := Config.freeCode s.freeCtr, db := Config.freeDb s.freeCtr, dbn := Config.freeDbn s.freeCtr
      result := Config.freeResult s.freeCtr, bank := freeBank s.freeCtr
      cur := s.inp.length, freeCtr := s.freeCtr + 1 }

/-- The imprecise `E_EOS` of `DINIT`: `MODE` too is unspecified (R129). -/
def exhaustedInit (w : Word) (s : State) : State :=
  { exhausted w s with mode := Config.freeMode s.freeCtr }

/-- Free values of draw `k` in the `n` words from address `a` on. -/
def freeWords (k : Nat) : Nat → Nat → State → State
  | 0, _, s => s
  | n + 1, a, s => freeWords k n (a + 1) (memWrite a (Config.freeWord k a) s)

/-- The imprecise `E_EOS` of `DEBLK`: `INF` and the `nel` words of the current block from `base` on too are
unspecified (R129). -/
def exhaustedBlock (w : Word) (base nel : Nat) (s : State) : State :=
  freeWords s.freeCtr nel base { exhausted w s with inf := Config.freeInf s.freeCtr }

/-! Retiring and resetting. -/

/-- `retire` (45_system_codestream.md R175). -/
def retire (s : State) : State := { s with cmdCnt := s.cmdCnt + 1#32 }

/-- A command that retires. -/
def retired (s : State) : Result := .next (retire s)

/-- The table of 10_state.md R48 for a reset without power loss and for `SRST`: every piece of state at its
reset value, but `BMEM`, `IN`, `CUR` and `OUT` unchanged. The model's own fields are no state of J4D and stay
(log 20). -/
def resetKeepingMemory (s : State) : State :=
  { State.reset with
    mem := s.mem, inp := s.inp, cur := s.cur, out := s.out
    host := s.host, resp := s.resp, par := s.par, freeCtr := s.freeCtr }

/-- Power-on (R48, R200): as above, and `BMEM` becomes unspecified, `IN` and `OUT` empty, `CUR = 0`. -/
def powerOn (s : State) : State :=
  { State.reset with
    mem := { seed := s.mem.seed + 1, cells := [] }
    host := s.host, resp := s.resp, par := s.par, freeCtr := s.freeCtr }

end Sys2Proof.Machine
end

