-- ==== Sys2Proof/Machine/Flags.lean ====
section
/-! DEFINITION. The status flags (10_state.md R13, R23, R47): `EOD`, `TSAT` with the clamp that sets it, and the
`STATUS` and `SLOTV` words. There are no condition codes (R13). -/

namespace Sys2Proof.Machine

/-- `EOD`: 1 exactly when `CUR >= len(IN)` (R13, R23). -/
def eod (s : State) : Bool := s.inp.length ≤ s.cur

/-- The encoding of `MODE` (R19). -/
def Mode.index : Mode → Nat
  | .idle => 0
  | .enc => 1
  | .dec => 2

/-- The word `STATUS` reads as (R23). -/
def statusWord (s : State) : Word :=
  BitVec.ofNat 32 (Mode.index s.mode + 4 * bit s.fault + 8 * bit (eod s) + 16 * bit s.tsat)

/-- `SLOTV[k]` (R16, R47). -/
def slotValid (s : State) (k : Nat) : Bool := (s.slots.getD k none).isSome

/-- The word `SLOTV` reads as: bit `k` is the valid bit of slot `k` (R47). -/
def slotvWord (s : State) : Word :=
  BitVec.ofNat 32 (((List.range Config.slotNumbers).map fun k => bit (slotValid s k) * 2 ^ k).sum)

/-- Whether `sat32(x)` clamps (44_transform.md R154). -/
def clamps (x : Int) : Bool := x < -2147483648 || 2147483647 < x

/-- `sat32(x)`: `x` clamped into the signed 32-bit range (R154). -/
def sat32 (x : Int) : Word :=
  BitVec.ofInt 32 (if 2147483647 < x then 2147483647 else if x < -2147483648 then -2147483648 else x)

/-- The effect of clamping `x` on the sticky flag `TSAT` (R154). -/
def noteClamp (x : Int) (s : State) : State := { s with tsat := s.tsat || clamps x }

end Sys2Proof.Machine
end

