-- ==== Sys2Proof/Machine/ProbModel.lean ====
section
/-! DEFINITION. The probability model (40_model_bank.md R90 to R96): update, reset, rate, cost, and the use
of the 161 contexts. -/

namespace Sys2Proof.Machine

/-- `CTX_AUX`: sign bits and fixed-width integers (R91). -/
abbrev ctxAux : Nat := 0

/-- `CTX_MAG(p)`: the magnitude bit of plane `p` (R91). -/
def ctxMag (p : Nat) : Nat := 1 + p

/-- `CTX_SEG(p, k)`: sub-flag `k` of the segmentation flag at plane `p` (R91). -/
def ctxSeg (p k : Nat) : Nat := 33 + 2 * p + k

/-- The counters of a model after `Update` (R92), on integers: each symbol count is halved with a lower
bound of 1 when `total` reaches 4095. -/
def updateCounts (z t : Nat) (b : Bool) : Nat × Nat :=
  let z1 := if b then z else z + 1
  let t1 := t + 1
  if t1 = Config.maxTot then
    let z2 := max 1 (z1 / 2)
    let o2 := max 1 ((t1 - z1) / 2)
    (z2, z2 + o2)
  else (z1, t1)

/-- D0's `update(bit)` on one model (R92). -/
def Model.update (m : Model) (b : Bool) : Model :=
  let zt := updateCounts m.z.toNat m.t.toNat b
  { z := BitVec.ofNat 12 zt.1, t := BitVec.ofNat 12 zt.2 }

/-- `Update(c, b)` (R92). -/
def update (c : Nat) (b : Bool) (s : State) : State := bankSet c ((bankGet s c).update b) s

/-- `ResetModel(c)` (R93). -/
def resetModel (c : Nat) (s : State) : State := bankSet c Model.fresh s

/-- `for c in 0..160: ResetModel(c)` (R97, R116, R123). -/
def resetBank (s : State) : State := { s with bank := Bank.fresh }

/-- The 16 squarings of R94: `n` rounds from the mantissa `x` and the fraction bits `f` so far. -/
def log2Loop : Nat → Nat → Nat → Nat
  | 0, _, f => f
  | n + 1, x, f =>
    let y := (x * x) / 2 ^ 30
    if 2 ^ 31 ≤ y then log2Loop n (y / 2) (2 * f + 1) else log2Loop n y (2 * f)

/-- `LOG2Q(k)` for `1 <= k <= 4095` (R94). -/
def log2q (k : Nat) : Nat :=
  let e := Nat.log2 k
  e * 65536 + log2Loop 16 (k * 2 ^ (30 - e)) 0

/-- `Rate(c, b)` of a model (R95): a difference of integers, since the invariant of R15 makes it positive. -/
def Model.rate (m : Model) (b : Bool) : Int :=
  let n := if b then m.t.toNat - m.z.toNat else m.z.toNat
  (log2q m.t.toNat : Int) - (log2q n : Int)

/-- `Cost(c, b)` (R96): the rate under the model before the update is accumulated, then the model updated. -/
def cost (c : Nat) (b : Bool) (s : State) : State :=
  update c b { s with rateAcc := s.rateAcc + BitVec.ofInt 64 ((bankGet s c).rate b) }

end Sys2Proof.Machine
end

