-- ==== Sys2Proof/Machine/Bank.lean ====
section
/-! DEFINITION. The model bank commands (40_model_bank.md R97 to R103). -/

namespace Sys2Proof.Machine

/-- `MRST` (R97). -/
def execMrst (s : State) : Result := retired (resetBank s)

/-- `MRST1 ctx` (R98). -/
def execMrst1 (ctx : BitVec 8) (s : State) : Result :=
  if Config.nctx ≤ ctx.toNat then raise .arg (encode (.mrst1 ctx)) s
  else retired (resetModel ctx.toNat s)

/-- `MUPD ctx, b` (R99). -/
def execMupd (b : Bool) (ctx : BitVec 8) (s : State) : Result :=
  if Config.nctx ≤ ctx.toNat then raise .arg (encode (.mupd b ctx)) s
  else retired (update ctx.toNat b s)

/-- `MRATE ctx, b` (R100). -/
def execMrate (b : Bool) (ctx : BitVec 8) (s : State) : Result :=
  if Config.nctx ≤ ctx.toNat then raise .arg (encode (.mrate b ctx)) s
  else retired { s with rateOut := storeInt 32 ((bankGet s ctx.toNat).rate b) }

/-- `RCLR` (R101). -/
def execRclr (s : State) : Result := retired { s with rateAcc := 0#64 }

/-- `SNAP slot` (R102): `E_ARG` for a slot the machine does not have. -/
def execSnap (slot : BitVec 4) (s : State) : Result :=
  if s.par.nslot ≤ slot.toNat then raise .arg (encode (.snap slot)) s
  else retired { s with slots := s.slots.setIfInBounds slot.toNat (some s.bank) }

/-- `REST slot` (R103): `E_ARG` for a slot the machine does not have, then `E_SLOT` for an invalid one. -/
def execRest (slot : BitVec 4) (s : State) : Result :=
  if s.par.nslot ≤ slot.toNat then raise .arg (encode (.rest slot)) s
  else
    match s.slots.getD slot.toNat none with
    | none => raise .slot (slot.setWidth 32) s
    | some b => retired { s with bank := b }

end Sys2Proof.Machine
end

