-- ==== Sys2Proof/Machine/Coder.lean ====
section
/-! DEFINITION. The arithmetic coder's procedures (41_arith_encoder.md R110 to R115, 42_arith_decoder.md R120,
R121), shared by the encoder, decoder and bitplane commands. -/

namespace Sys2Proof.Machine

/-- `Split(c)` (R111), on integers. -/
def split (c : Nat) (s : State) : Int :=
  ((s.high.toNat : Int) - s.low.toNat + 1) * ((bankGet s c).z.toNat : Int) / ((bankGet s c).t.toNat : Int)

/-! Output bits (R112). -/

/-- `EmitBit(x)` (R112). -/
def emitBit (x : Bool) (s : State) : State :=
  let bb := s.bb <<< 1 ||| BitVec.ofNat 8 (bit x)
  let bbn := s.bbn + 1#4
  if bbn = 8#4 then sinkPush bb { s with bb := 0#8, bbn := 0#4 } else { s with bb := bb, bbn := bbn }

/-- `EmitBit(x)`, `n` times. -/
def emitMany : Nat → Bool → State → State
  | 0, _, s => s
  | n + 1, x, s => emitMany n x (emitBit x s)

/-- `EmitWithPending(x)` (R112): the bit, then `PEND` copies of its complement. -/
def emitWithPending (x : Bool) (s : State) : State :=
  let s1 := emitBit x s
  { emitMany s1.pend.toNat (!x) s1 with pend := 0#32 }

/-! Renormalisation (R113): both sides take the same passes. -/

/-- What the loop of R113 does next. -/
inductive Renorm where
  /-- Case (a): the top bits agree. -/
  | same
  /-- Case (b): `LOW` in the second quarter and `HIGH` in the third. -/
  | straddle
  /-- Neither: the loop ends. -/
  | settled
deriving DecidableEq, Repr

/-- The test of R113, case (a) first. -/
def renormCase (low high : BitVec 16) : Renorm :=
  if low.msb = high.msb then .same
  else if low.getLsbD 14 = true ∧ high.getLsbD 14 = false then .straddle
  else .settled

/-- `(2*x) mod 65536 + b`. -/
def shiftIn (x : BitVec 16) (b : Bool) : BitVec 16 := x <<< 1 ||| BitVec.ofNat 16 (bit b)

/-- `x ^ 0x8000`. -/
def flipTop (x : BitVec 16) : BitVec 16 := x ^^^ 0x8000#16

/-- At most `n` passes of `EncRenorm` (R113). -/
def encRenormLoop : Nat → State → State
  | 0, s => s
  | n + 1, s =>
    match renormCase s.low s.high with
    | .same =>
      encRenormLoop n
        { emitWithPending s.low.msb s with low := shiftIn s.low false, high := shiftIn s.high true }
    | .straddle =>
      encRenormLoop n
        { s with
          pend := s.pend + 1#32, low := flipTop (shiftIn s.low false), high := flipTop (shiftIn s.high true) }
    | .settled => s

/-- The number of passes after which the loop of R113 has always ended, whatever the interval (R113, R214;
log 15). -/
abbrev renormPasses : Nat := 16

/-- `EncRenorm()` (R113). -/
def encRenorm (s : State) : State := encRenormLoop renormPasses s

/-- The narrowing of R114 and R121: the one symbol owns the upper part, the zero symbol the lower. -/
def narrow (c : Nat) (b : Bool) (s : State) : State :=
  if b then { s with low := storeInt 16 (s.low.toNat + split c s) }
  else { s with high := storeInt 16 (s.low.toNat + split c s - 1) }

/-- `EncodeBit(c, b)` (R114). -/
def encodeBit (c : Nat) (b : Bool) (s : State) : State := update c b (encRenorm (narrow c b s))

/-- `CodeBit(c, b, C)` (R115). -/
def codeBit (c : Nat) (b costOnly : Bool) (s : State) : State :=
  if costOnly then cost c b s else encodeBit c b s

/-- `CodeInt(n, v, C)` (R115): bits `n-1` down to 0 of `v`, in `CTX_AUX`. -/
def codeInt : Nat → Nat → Bool → State → State
  | 0, _, _, s => s
  | i + 1, v, costOnly, s => codeInt i v costOnly (codeBit ctxAux (v.testBit i) costOnly s)

/-! Input bits and decoding; `none` where the source is exhausted (R120). -/

/-- `GetBit()` (R120). -/
def getBit (s : State) : Option (Bool × State) :=
  if s.dbn = 0#4 then
    match srcNext s with
    | none => none
    | some (byte, s1) => some (byte.msb, { s1 with db := byte <<< 1, dbn := 7#4 })
  else some (s.db.msb, { s with db := s.db <<< 1, dbn := s.dbn - 1#4 })

/-- At most `n` passes of the loop of R121. -/
def decRenormLoop : Nat → State → Option State
  | 0, s => some s
  | n + 1, s =>
    match renormCase s.low s.high with
    | .same =>
      match getBit s with
      | none => none
      | some (x, s1) =>
        decRenormLoop n
          { s1 with
            low := shiftIn s.low false, high := shiftIn s.high true, code := shiftIn s.code x }
    | .straddle =>
      match getBit s with
      | none => none
      | some (x, s1) =>
        decRenormLoop n
          { s1 with
            low := flipTop (shiftIn s.low false), high := flipTop (shiftIn s.high true)
            code := flipTop (shiftIn s.code x) }
    | .settled => some s

/-- The decision of R121: the zero symbol owns `[LOW, LOW+s-1]`. -/
def decodedBit (c : Nat) (s : State) : Bool := split c s ≤ (s.code.toNat : Int) - s.low.toNat

/-- `DecodeBit(c)` (R121). -/
def decodeBit (c : Nat) (s : State) : Option (Bool × State) :=
  let b := decodedBit c s
  match decRenormLoop renormPasses (narrow c b s) with
  | none => none
  | some s1 => some (b, update c b s1)

/-- `n` further bits of `DecodeInt`, after the value `v` (R121). -/
def decodeIntLoop : Nat → Nat → State → Option (Nat × State)
  | 0, v, s => some (v, s)
  | n + 1, v, s =>
    match decodeBit ctxAux s with
    | none => none
    | some (b, s1) => decodeIntLoop n (2 * v + bit b) s1

/-- `DecodeInt(n)` (R121). -/
def decodeInt (n : Nat) (s : State) : Option (Nat × State) := decodeIntLoop n 0 s

end Sys2Proof.Machine
end

