-- ==== Sys2Proof/Machine/Operands.lean ====
section
/-! DEFINITION. The operands commands take from the configuration registers (10_state.md R12): the current block
(20_memory.md R55), the bitplane range and the transform's lengths and weights, with their checks
(43_bitplane.md R130, R131; 44_transform.md R150, R153). -/

namespace Sys2Proof.Machine

/-- The axes in index order. -/
def allAxes : List Axis := [.t, .s, .v, .u]

/-- A block of `BMEM`: the word address of element (0,0,0,0) and the four lengths (R55). -/
structure Block where
  base : Nat
  len : Axes Nat
deriving DecidableEq, Repr

/-- The current block, read when a command starts (R130, R150). -/
def currentBlock (s : State) : Block := { base := s.blkBase.toNat, len := s.blkLen.map BitVec.toNat }

/-- The configured transform lengths `TLEN_a` (R150). -/
def transformLen (s : State) : Axes Nat := s.tlen.map BitVec.toNat

/-- `NEL`, the number of elements (R55). -/
def Axes.product (l : Axes Nat) : Nat := l.t * l.s * l.v * l.u

/-- `Addr(t, s, v, u)`: the word address of an element (R55). -/
def Block.addr (b : Block) (pos : Axes Nat) : Nat :=
  b.base + pos.t * (b.len.s * b.len.v * b.len.u) + pos.s * (b.len.v * b.len.u) + pos.v * b.len.u + pos.u

/-- Some length is 0 or greater than the largest legal one. -/
def badLength (limit : Nat) (l : Axes Nat) : Bool := allAxes.any fun a => l.get a = 0 || limit < l.get a

/-- `BlockCheck()` for the command word `w` (R131): the fault and its information word, or none. DESIGN CHOICE:
the limit of a block length is `MAXLEN` (10_state.md R36), which R131 writes as its default 64 (log 24). -/
def blockCheck (w : Word) (s : State) : Option (FaultCode × Word) :=
  let b := currentBlock s
  if badLength s.par.maxLen b.len then some (.cfg, 1#32)
  else if s.par.blkCap < b.base + b.len.product then some (.ovf, w)
  else none

/-- `PlaneCheck()` (R131). -/
def planeCheck (s : State) : Option (FaultCode × Word) :=
  if Config.supMax < s.sup.toNat then some (.cfg, 4#32)
  else if s.sup.toNat < s.inf.toNat then some (.cfg, 5#32)
  else none

/-- `DEBLK`'s checks of the planes (R140): with `H` the old `INF` is not used. -/
def planeCheckDec (h : Bool) (s : State) : Option (FaultCode × Word) :=
  if Config.supMax < s.sup.toNat then some (.cfg, 4#32)
  else if h = false ∧ s.sup.toNat < s.inf.toNat then some (.cfg, 5#32)
  else none

/-- `n` further bits of the integer square root, from the root `r` of the bits above. -/
def isqrtLoop (x : Nat) : Nat → Nat → Nat
  | 0, r => r
  | n + 1, r => if (r + 2 ^ n) * (r + 2 ^ n) ≤ x then isqrtLoop x n (r + 2 ^ n) else isqrtLoop x n r

/-- `isqrt(x)`, the largest `r` with `r*r <= x`, for `x < 2^64` (00_scope.md section 5). -/
def isqrt (x : Nat) : Nat := isqrtLoop x 32 0

/-- `R(a, L)` of the configured length `tl` (44_transform.md R153). -/
def ratioRoot (tl l : Nat) : Nat := isqrt ((tl * 2 ^ 32) / l)

/-- `W(a, L)` from `TLEN_a` and `GAIN_a` (R153). -/
def weightOf (tl gain l : Nat) : Nat := (gain * ratioRoot tl l) / 2 ^ 16

/-- `WINV(a, L)` from `W` (R153). -/
def inverseWeight (w : Nat) : Nat := 2 ^ 32 / w

/-- `W(a, L)` from the registers (R153). -/
def weight (s : State) (a : Axis) (l : Nat) : Nat :=
  weightOf ((transformLen s).get a) ((s.gain.get a).toNat) l

/-- `TxCheck()` for the command word `w` (R150); the limit of `TLEN` is R150's 64, not `MAXLEN`. -/
def txCheck (w : Word) (s : State) : Option (FaultCode × Word) :=
  let b := currentBlock s
  match blockCheck w s with
  | some f => some f
  | none =>
    if badLength Config.maxTransformLen (transformLen s) then some (.cfg, 2#32)
    else if allAxes.any fun a => (transformLen s).get a < b.len.get a then some (.cfg, 3#32)
    else if allAxes.any fun a => weight s a (b.len.get a) = 0 then some (.cfg, 6#32)
    else none

end Sys2Proof.Machine
end

