-- ==== Sys2Proof/Machine/Bitplane.lean ====
section
/-! DEFINITION. The hierarchical bitplane coder (43_bitplane.md). -/

namespace Sys2Proof.Machine

/-- A sub-block: its position and its shape (R130). -/
structure Sub where
  pos : Axes Nat
  len : Axes Nat
deriving DecidableEq, Repr

/-- `Halves(x, l)` (R132). -/
def halves (x l : Nat) : List (Nat × Nat) :=
  if l = 1 then [(x, 1)] else [(x, l / 2), (x + l / 2, l - l / 2)]

/-- `Children(pos, len)`, T outermost and U innermost (R132). -/
def children (b : Sub) : List Sub :=
  (halves b.pos.t b.len.t).flatMap fun t =>
    (halves b.pos.s b.len.s).flatMap fun s =>
      (halves b.pos.v b.len.v).flatMap fun v =>
        (halves b.pos.u b.len.u).map fun u =>
          { pos := ⟨t.1, s.1, v.1, u.1⟩, len := ⟨t.2, s.2, v.2, u.2⟩ }

/-- The positions of a sub-block, in the order of rising address (R130, R55). -/
def Sub.cells (b : Sub) : List (Axes Nat) :=
  (List.range b.len.t).flatMap fun t =>
    (List.range b.len.s).flatMap fun s =>
      (List.range b.len.v).flatMap fun v =>
        (List.range b.len.u).map fun u => ⟨b.pos.t + t, b.pos.s + s, b.pos.v + v, b.pos.u + u⟩

/-- The whole block as a sub-block (R137). -/
def Block.root (b : Block) : Sub := { pos := ⟨0, 0, 0, 0⟩, len := b.len }

/-- A sub-block of one element (R135). -/
def Sub.single (b : Sub) : Bool := b.len = ⟨1, 1, 1, 1⟩

/-- The three segmentation flags (R133). -/
inductive SegFlag where
  | zeroBlock
  | lowerBitPlane
  | splitBlock
deriving DecidableEq, Repr

/-- The largest magnitude in a sub-block (R134). -/
def maxMagnitude (blk : Block) (b : Sub) (s : State) : Nat :=
  b.cells.foldl (fun m e => max m (memRead s (blk.addr e)).natAbs) 0

/-- `ChooseFlag(pos, len, p)` (R134). -/
def chooseFlag (blk : Block) (inf : Nat) (b : Sub) (p : Nat) (s : State) : SegFlag :=
  let m := maxMagnitude blk b s
  if m < 2 ^ inf then .zeroBlock else if m < 2 ^ p then .lowerBitPlane else .splitBlock

/-- The planes `p, p-1, …, inf` (R135, R138). -/
def planesDown (p inf : Nat) : List Nat := (List.range (p + 1 - inf)).map fun i => p - i

/-- Bit `q` of the magnitude of `c` (R130). -/
def magnitudeBit (c : Int) (q : Nat) : Bool := c.natAbs.testBit q

/-- `EncTerminal(pos, p, C)` (R135), `p >= INF`. -/
def encTerminal (blk : Block) (inf : Nat) (pos : Axes Nat) (p : Nat) (costOnly : Bool) (s : State) : State :=
  let c := memRead s (blk.addr pos)
  let planes := planesDown p inf
  let s1 := planes.foldl (fun st q => codeBit (ctxMag q) (magnitudeBit c q) costOnly st) s
  if planes.any (magnitudeBit c) then codeBit ctxAux (c < 0) costOnly s1 else s1

/-- `WalkEnc(pos, len, p, C)` with at most `n` nested calls (R136). -/
def walkEncLoop (blk : Block) (inf : Nat) (costOnly : Bool) : Nat → Sub → Int → State → State
  | 0, _, _, s => s
  | n + 1, b, p, s =>
    if p < inf then s
    else if b.single then encTerminal blk inf b.pos p.toNat costOnly s
    else
      match chooseFlag blk inf b p.toNat s with
      | .zeroBlock => codeBit (ctxSeg p.toNat 0) true costOnly s
      | .lowerBitPlane =>
        walkEncLoop blk inf costOnly n b (p - 1)
          (codeBit (ctxSeg p.toNat 1) false costOnly (codeBit (ctxSeg p.toNat 0) false costOnly s))
      | .splitBlock =>
        (children b).foldl (fun st child => walkEncLoop blk inf costOnly n child p st)
          (codeBit (ctxSeg p.toNat 1) true costOnly (codeBit (ctxSeg p.toNat 0) false costOnly s))

/-- More nested calls than any walk makes: 32 planes (30 down to -1), 6 halvings and the root (R136, R214;
log 15). -/
abbrev walkDepth : Nat := 40

/-- `WalkEnc` from the root of the block at plane `sup` (R136, R137). -/
def walkEnc (blk : Block) (sup inf : Nat) (costOnly : Bool) (s : State) : State :=
  walkEncLoop blk inf costOnly walkDepth blk.root sup s

/-- The lowest address of a word of the block with magnitude `>= 2^(SUP+1)` (R137). -/
def firstOutOfRange (blk : Block) (sup : Nat) (s : State) : Option Nat :=
  ((List.range blk.len.product).find? fun i => 2 ^ (sup + 1) ≤ (memRead s (blk.base + i)).natAbs).map
    (blk.base + ·)

/-- `ENBLK`'s checks after the mode's, in order (R137). -/
def enblkCheck (w : Word) (s : State) : Option (FaultCode × Word) :=
  match blockCheck w s with
  | some f => some f
  | none =>
    match planeCheck s with
    | some f => some f
    | none =>
      match firstOutOfRange (currentBlock s) s.sup.toNat s with
      | some a => some (.range, BitVec.ofNat 32 a)
      | none => none

/-- What `ENBLK` codes once its checks have passed: the `INF` header if asked, then the walk (R137). -/
def codeBlock (c h : Bool) (s : State) : State :=
  walkEnc (currentBlock s) s.sup.toNat s.inf.toNat c (if h then codeInt 5 s.inf.toNat c s else s)

/-- `ENBLK[.C][.H]` (R137). -/
def execEnblk (c h : Bool) (s : State) : Result :=
  if c = false ∧ s.mode ≠ .enc then raise .mode (encode (.enblk c h)) s
  else
    match enblkCheck (encode (.enblk c h)) s with
    | some (e, info) => raise e info s
    | none => retired (codeBlock c h s)

/-! Decoding. -/

/-- `Fill0(pos, len)` (R139). -/
def fill0 (blk : Block) (b : Sub) (s : State) : State :=
  b.cells.foldl (fun st e => memWrite (blk.addr e) 0#32 st) s

/-- The magnitude bits of R138, from the planes still to decode and the magnitude so far. -/
def decMagnitude : List Nat → Nat → State → Option (Nat × State)
  | [], m, s => some (m, s)
  | q :: rest, m, s =>
    match decodeBit (ctxMag q) s with
    | none => none
    | some (b, s1) => decMagnitude rest (m + 2 ^ q * bit b) s1

/-- `DecTerminal(pos, p)` (R138), `p >= INF`. -/
def decTerminal (blk : Block) (inf : Nat) (pos : Axes Nat) (p : Nat) (s : State) : Option State :=
  match decMagnitude (planesDown p inf) 0 s with
  | none => none
  | some (m, s1) =>
    if m = 0 then some (memWrite (blk.addr pos) 0#32 s1)
    else
      match decodeBit ctxAux s1 with
      | none => none
      | some (sign, s2) => some (memWrite (blk.addr pos) (storeInt 32 (if sign then -(m : Int) else m)) s2)

/-- `WalkDec(pos, len, p)` with at most `n` nested calls (R139). -/
def walkDecLoop (blk : Block) (inf : Nat) : Nat → Sub → Int → State → Option State
  | 0, _, _, s => some s
  | n + 1, b, p, s =>
    if p < inf then some (fill0 blk b s)
    else if b.single then decTerminal blk inf b.pos p.toNat s
    else
      match decodeBit (ctxSeg p.toNat 0) s with
      | none => none
      | some (true, s1) => some (fill0 blk b s1)
      | some (false, s1) =>
        match decodeBit (ctxSeg p.toNat 1) s1 with
        | none => none
        | some (false, s2) => walkDecLoop blk inf n b (p - 1) s2
        | some (true, s2) => (children b).foldlM (fun st child => walkDecLoop blk inf n child p st) s2

/-- `WalkDec` from the root of the block at plane `sup` (R139, R140). -/
def walkDec (blk : Block) (sup inf : Nat) (s : State) : Option State :=
  walkDecLoop blk inf walkDepth blk.root sup s

/-- The header of `DEBLK` (R140): with `H`, `INF <- DecodeInt(5)`. -/
def decodeHeader (h : Bool) (s : State) : Option State :=
  if h then
    match decodeInt 5 s with
    | none => none
    | some (v, s1) => some { s1 with inf := BitVec.ofNat 5 v }
  else some s

/-- What `DEBLK` decodes once its checks have passed: the header, then the walk (R140). -/
def decodeBlock (h : Bool) (s : State) : Option State :=
  match decodeHeader h s with
  | none => none
  | some s1 => walkDec (currentBlock s) s.sup.toNat s1.inf.toNat s1

/-- `DEBLK`'s checks after the mode's, in order (R140). -/
def deblkCheck (h : Bool) (w : Word) (s : State) : Option (FaultCode × Word) :=
  match blockCheck w s with
  | some f => some f
  | none => planeCheckDec h s

/-- `DEBLK[.H]` (R140). -/
def execDeblk (h : Bool) (s : State) : Result :=
  if s.mode ≠ .dec then raise .mode (encode (.deblk h)) s
  else
    match deblkCheck h (encode (.deblk h)) s with
    | some (e, info) => raise e info s
    | none =>
      match decodeBlock h s with
      | none =>
        .next (exhaustedBlock (encode (.deblk h)) s.blkBase.toNat (currentBlock s).len.product s)
      | some s1 => retired s1

end Sys2Proof.Machine
end

