-- ==== Sys2Proof/Machine/Decoder.lean ====
section
/-! DEFINITION. The arithmetic decoder commands (42_arith_decoder.md R123 to R126). Where the source runs out
in the middle of a command, the state is the one R129 leaves: the state before the command with the named
pieces unspecified. -/

namespace Sys2Proof.Machine

/-- The coder registers of a fresh decode segment (R123). -/
def openDecoder (s : State) : State :=
  { s with low := 0x0000#16, high := 0xFFFF#16, db := 0#8, dbn := 0#4, code := 0#16, mode := .dec }

/-- `repeat n times: CODE <- (2*CODE) mod 65536 + GetBit()` (R123). -/
def primeCode : Nat → State → Option State
  | 0, s => some s
  | n + 1, s =>
    match getBit s with
    | none => none
    | some (x, s1) => primeCode n { s1 with code := shiftIn s1.code x }

/-- `DINIT[.M]` (R123). -/
def execDinit (m : Bool) (s : State) : Result :=
  if s.mode ≠ .idle then raise .mode (encode (.dinit m)) s
  else
    match primeCode 16 (openDecoder (if m then resetBank s else s)) with
    | none => .next (exhaustedInit (encode (.dinit m)) s)
    | some s1 => retired s1

/-- `DECB ctx` (R124). -/
def execDecb (ctx : BitVec 8) (s : State) : Result :=
  if s.mode ≠ .dec then raise .mode (encode (.decb ctx)) s
  else if Config.nctx ≤ ctx.toNat then raise .arg (encode (.decb ctx)) s
  else
    match decodeBit ctx.toNat s with
    | none => .next (exhausted (encode (.decb ctx)) s)
    | some (b, s1) => retired { s1 with result := BitVec.ofNat 32 (bit b) }

/-- `DECI n` (R125). -/
def execDeci (n : BitVec 5) (s : State) : Result :=
  if s.mode ≠ .dec then raise .mode (encode (.deci n)) s
  else if n = 0#5 ∨ 16 < n.toNat then raise .arg (encode (.deci n)) s
  else
    match decodeInt n.toNat s with
    | none => .next (exhausted (encode (.deci n)) s)
    | some (v, s1) => retired { s1 with result := BitVec.ofNat 32 v }

/-- `DFIN` (R126). -/
def execDfin (s : State) : Result :=
  if s.mode ≠ .dec then raise .mode (encode .dfin) s
  else
    retired
      { s with low := 0x0000#16, high := 0xFFFF#16, code := 0#16, db := 0#8, dbn := 0#4, mode := .idle }

end Sys2Proof.Machine
end

