-- ==== Sys2Proof/Machine/Encoder.lean ====
section
/-! DEFINITION. The arithmetic encoder commands (41_arith_encoder.md R116 to R119). -/

namespace Sys2Proof.Machine

/-- The coder registers of a fresh encode segment (R116). -/
def openEncoder (s : State) : State :=
  { s with low := 0x0000#16, high := 0xFFFF#16, pend := 0#32, bb := 0#8, bbn := 0#4, mode := .enc }

/-- `EINIT[.M]` (R116). -/
def execEinit (m : Bool) (s : State) : Result :=
  if s.mode ≠ .idle then raise .mode (encode (.einit m)) s
  else retired (openEncoder (if m then resetBank s else s))

/-- `ENCB[.C] ctx, b` (R117). -/
def execEncb (c b : Bool) (ctx : BitVec 8) (s : State) : Result :=
  if c = false ∧ s.mode ≠ .enc then raise .mode (encode (.encb c b ctx)) s
  else if Config.nctx ≤ ctx.toNat then raise .arg (encode (.encb c b ctx)) s
  else retired (codeBit ctx.toNat b c s)

/-- `ENCI[.C] n, v` (R118). -/
def execEnci (c : Bool) (n : BitVec 5) (v : BitVec 16) (s : State) : Result :=
  if c = false ∧ s.mode ≠ .enc then raise .mode (encode (.enci c n v)) s
  else if n = 0#5 ∨ 16 < n.toNat ∨ 2 ^ n.toNat ≤ v.toNat then raise .arg (encode (.enci c n v)) s
  else retired (codeInt n.toNat v.toNat c s)

/-- `for i from n-1 down to 0: EmitBit(v[i])` (R119). -/
def emitBits : Nat → BitVec 16 → State → State
  | 0, _, s => s
  | i + 1, v, s => emitBits i v (emitBit (v.getLsbD i) s)

/-- `while BBN != 0: EmitBit(0)` (R119), at most `n` bits; 16 are enough for any 4-bit `BBN`. -/
def padByte : Nat → State → State
  | 0, s => s
  | n + 1, s => if s.bbn = 0#4 then s else padByte n (emitBit false s)

/-- The flush of R119: 16 bits of `LOW` with the pending bits after the first, padded to a byte. -/
def flushEncoder (s : State) : State := padByte 16 (emitBits 15 s.low (emitWithPending s.low.msb s))

/-- `EFIN` (R119). -/
def execEfin (s : State) : Result :=
  if s.mode ≠ .enc then raise .mode (encode .efin) s
  else retired { flushEncoder s with low := 0x0000#16, high := 0xFFFF#16, pend := 0#32, mode := .idle }

end Sys2Proof.Machine
end

