-- ==== Sys2Proof/Machine/System.lean ====
section
/-! DEFINITION. The system and codestream commands (45_system_codestream.md R170 to R174). -/

namespace Sys2Proof.Machine

/-- `NOP` (R170). -/
def execNop (s : State) : Result := retired s

/-- `SRST` (R171): the reset values of R48, memory and codestream kept; it does not retire. -/
def execSrst (s : State) : Result := .next (resetKeepingMemory s)

/-- `CSPUT byte` (R172). -/
def execCsput (byte : BitVec 8) (s : State) : Result :=
  if s.mode = .enc then raise .mode (encode (.csput byte)) s else retired (sinkPush byte s)

/-- `CSGET` (R173): its `E_EOS` is precise. -/
def execCsget (s : State) : Result :=
  if s.mode = .dec then raise .mode (encode .csget) s
  else
    match srcNext s with
    | none => raise .eos (encode .csget) s
    | some (b, s1) => retired { s1 with result := b.setWidth 32 }

/-- `CSRW k` (R174). -/
def execCsrw (k : BitVec 24) (s : State) : Result :=
  if s.mode = .dec then raise .mode (encode (.csrw k)) s
  else if s.cur < k.toNat then raise .rewind (k.setWidth 32) s
  else retired { s with cur := s.cur - k.toNat }

end Sys2Proof.Machine
end

