-- ==== Sys2Proof/Machine/CosTable.lean ====
section
/-! DEFINITION. The coefficient function `CF` of 44_transform.md R151, tabulated.

`CF_N[k][n]` depends, for `k >= 1`, only on `N` and the angle `(2n+1)k` in units of `pi/(2N)`, so the
table holds the first quadrant of each length and `cf` folds the other three onto it. -/

namespace Sys2Proof.Machine

/-- `CF_N[0][n]`, the integer nearest to `2^30 * sqrt (1/N)`, for `N = 1 .. 64` (R151, `s_0`). -/
def dcRow : List Nat :=
  [1073741824, 759250125, 619925131, 536870912, 480191942, 438353264, 405836263, 379625062, 357913941,
   339546978, 323745341, 309962566, 297802400, 286969573, 277238947, 268435456, 260420644, 253083375,
   246333269, 240095971, 234309675, 228922526, 223890647, 219176632, 214748365, 210578097, 206641710,
   202918131, 199388851, 196037539, 192849725, 189812531, 186914460, 184145204, 181495494, 178956971,
   176522068, 174183925, 171936296, 169773489, 167690300, 165681960, 163744093, 161872671, 160063981,
   158314595, 156621342, 154981283, 153391689, 151850025, 150353929, 148901200, 147489782, 146117755,
   144783318, 143484787, 142220579, 140989209, 139789279, 138619473, 137478553, 136365348, 135278754,
   134217728]

/-- Entry `m` of the row of `N` is the integer nearest to `2^30 * sqrt (2/N) * cos (pi*m/(2N))`,
`m = 0 .. N`: rows `N = 1 .. 8` (R151). -/
def cosRows1to8 : List (List Nat) :=
  [[1518500250, 0],
   [1073741824, 759250125, 0],
   [876706528, 759250125, 438353264, 0],
   [759250125, 701455651, 536870912, 290552444, 0],
   [679093957, 645856733, 549398552, 399161413, 209851573, 0],
   [619925131, 598801695, 536870912, 438353264, 309962566, 160448430, 0],
   [573939147, 559549294, 517101303, 448723694, 357845205, 249022863, 127713475, 0],
   [536870912, 526555088, 496004047, 446391849, 379625062, 298269498, 205451603, 104738319, 0]]

/-- Entry `m` of the row of `N` is the integer nearest to `2^30 * sqrt (2/N) * cos (pi*m/(2N))`,
`m = 0 .. N`: rows `N = 9 .. 16` (R151). -/
def cosRows9to16 : List (List Nat) :=
  [[506166750, 498476940, 475641160, 438353264, 387746226, 325357715, 253083375, 173119224, 87894934, 0],
   [480191942, 474279982, 456689675, 427854153, 388483441, 339546978, 282249742, 218002580, 148387471,
    75118570, 0],
   [457845052, 453184850, 439299111, 416470508, 385163768, 346016203, 299824747, 247529723, 190195708,
    128989857, 65158145, 0],
   [438353264, 434603091, 423416739, 404985609, 379625062, 347769026, 309962566, 266852559, 219176632,
    167750532, 113454173, 57216582, 0],
   [421156193, 418085490, 408918160, 393787881, 372915289, 346604752, 315239937, 279278214, 239243986,
    195721042, 149344044, 100789274, 50764769, 0],
   [405836263, 403284449, 395661100, 383062083, 365645838, 343631385, 317295567, 286969573, 253034771,
    215917910, 176085755, 134039220, 90307064, 45439245, 0],
   [392075079, 389927250, 383507297, 372885558, 358178407, 339546978, 317195402, 291368566, 262349435,
    230455949, 196037539, 159471301, 121157862, 81516993, 40983005, 0],
   [379625062, 377797064, 372330673, 363278535, 350727825, 334799415, 315646704, 293454142, 268435456,
    240831590, 210908384, 178954016, 145276222, 110199339, 74061176, 37209763, 0]]

/-- Entry `m` of the row of `N` is the integer nearest to `2^30 * sqrt (2/N) * cos (pi*m/(2N))`,
`m = 0 .. N`: rows `N = 17 .. 24` (R151). -/
def cosRows17to24 : List (List Nat) :=
  [[368290407, 366719345, 362019563, 354231158, 343420577, 329680053, 313126815, 293902090, 272169895,
    248115643, 221944556, 193879916, 164161161, 133041840, 100787454, 67673185, 33981552, 0],
   [357913941, 356551971, 352476424, 345718320, 336329090, 324380192, 309962566, 293185937, 274177986,
    253083375, 230062647, 205291003, 178956971, 151260968, 122413778, 92634945, 62151104, 31194255, 0],
   [348367849, 347177996, 343616566, 337707886, 329492318, 319025984, 306380379, 291641885, 274911182,
    256302556, 235943124, 213971962, 190539153, 165804770, 139937771, 113114856, 85519251, 57339463,
    28767989, 0],
   [339546978, 338500268, 335366592, 330165268, 322928366, 313700504, 302538573, 289511391, 274699276,
    258193548, 240095971, 220518122, 199580706, 177412809, 154151102, 129939003, 104925787, 79265668,
    53116850, 26640549, 0],
   [331363921, 330437360, 327662860, 323055936, 316642352, 308457975, 298548577, 286969573, 273785720,
    259070745, 242906942, 225384705, 206602025, 186663943, 165681960, 143773417, 121060834, 97671230,
    73735409, 49387230, 24762857, 0],
   [323745341, 322920475, 320450080, 316346745, 310631380, 303333108, 294489121, 284144484, 272351912,
    259171497, 244670404, 228922526, 212008112, 194013353, 175029946, 155154627, 134488675, 113137400,
    91209603, 68817022, 46073766, 23095728, 0],
   [316629190, 315891054, 313680089, 310006601, 304887721, 298347312, 290415871, 281130377, 270534124,
    258676515, 245612838, 231403999, 216116249, 199820865, 182593823, 164515445, 145670020, 126145414,
    106032660, 85425533, 64420113, 43114336, 21607540, 0],
   [309962566, 309298912, 307310793, 304006722, 299400847, 293512892, 286368070, 277996976, 268435456,
    257724454, 245909837, 233042196, 219176632, 204372520, 188693254, 172205975, 154981283, 137092937,
    118617538, 99634201, 80224215, 60470697, 40458233, 20272522, 0]]

/-- Entry `m` of the row of `N` is the integer nearest to `2^30 * sqrt (2/N) * cos (pi*m/(2N))`,
`m = 0 .. N`: rows `N = 25 .. 32` (R151). -/
def cosRows25to32 : List (List Nat) :=
  [[303700050, 303100767, 301305284, 298320687, 294158754, 288835912, 282373165, 274796021, 266134383,
    256422433, 245698502, 234004910, 221387809, 207896990, 193585698, 178510411, 162730624, 146308615,
    129309192, 111799445, 93848477, 75527131, 56907715, 38063709, 19069484, 0],
   [297802400, 297259076, 295631085, 292924369, 289148804, 284318166, 278450081, 271565963, 263690930,
    254853717, 245086571, 234425130, 222908297, 210578097, 197479519, 183660361, 169171045, 154064443,
    138395676, 122221919, 105602186, 88597124, 71268779, 53680383, 35896113, 17980861, 0],
   [292235509, 291741093, 290259517, 287795795, 284358263, 279958553, 274611552, 268335352, 261151190,
    253083375, 244159206, 234408880, 223865388, 212564407, 200544175, 187845365, 174510945, 160586036,
    146117755, 131155057, 115748572, 99950431, 83814089, 67394146, 50746164, 33926472, 16991984, 0],
   [286969573, 286518117, 285165169, 282914986, 279774647, 275754034, 270865797, 265125315, 258550652,
    251162492, 242984082, 234041155, 224361847, 213976614, 202918131, 191221193, 178922602, 166061055,
    152677018, 138812603, 124511432, 109818501, 94780042, 79443369, 63856737, 48069189, 32130398, 16090512,
    0],
   [281978417, 281564872, 280325448, 278263781, 275385919, 271700302, 267217741, 261951385, 255916681,
    249131328, 241615231, 233390434, 224481063, 214913250, 204715060, 193916405, 182548960, 170646067,
    158242641, 145375061, 132081071, 118399664, 104370971, 90036140, 75437218, 60617025, 45619031, 30487230,
    15266004, 0],
   [277238947, 276859000, 275720203, 273825675, 271180611, 267792259, 263669907, 258824854, 253270381,
    247021710, 240095971, 232512145, 224291019, 215455128, 206028689, 196037539, 185509065, 174472122,
    162956964, 150995152, 138619473, 125863848, 112763239, 99353553, 85671546, 71754719, 57641218, 43369726,
    28979361, 14509565, 0],
   [272730696, 272380648, 271331403, 269585654, 267147883, 264024346, 260223064, 255753792, 250628004,
    244858857, 238461161, 231451339, 223847385, 215668817, 206936631, 197673241, 187902427, 177649271,
    166940091, 155802378, 144264723, 132356742, 120109003, 107552947, 94720803, 81645513, 68360640,
    54900285, 41299003, 27591707, 13813583, 0],
   [268435456, 268112114, 267142866, 265530048, 263277544, 260390782, 256876715, 252743810, 248002024,
    242662778, 236738937, 230244771, 223195925, 215609380, 207503414, 198897553, 189812531, 180270234,
    170293651, 159906814, 149134749, 138003405, 126539598, 114770946, 102725802, 90433181, 77922700,
    65224495, 52369160, 39387662, 26311276, 13171504, 0]]

/-- Entry `m` of the row of `N` is the integer nearest to `2^30 * sqrt (2/N) * cos (pi*m/(2N))`,
`m = 0 .. N`: rows `N = 33 .. 40` (R151). -/
def cosRows33to40 : List (List Nat) :=
  [[264336964, 264037560, 263140026, 261646395, 259560051, 256885720, 253629460, 249798647, 245401961,
    240449360, 234952064, 228922526, 222374405, 215322534, 207782889, 199772548, 191309658, 182413391,
    173103898, 163402270, 153330482, 142911352, 132168482, 121126208, 109809543, 98244125, 86456152,
    74472329, 62319801, 50026099, 37619072, 25126826, 12577659, 0],
   [260420644, 260142769, 259309736, 257923323, 255986488, 253503365, 250479254, 246920607, 242835019,
    238231209, 233119001, 227509306, 221414094, 214846374, 207820161, 200350448, 192453178, 184145204,
    175444254, 166368897, 156938500, 147173189, 137093803, 126721852, 116079470, 105189368, 94074787,
    82759446, 71267492, 59623450, 47852168, 35978767, 24028586, 12027126, 0],
   [256673389, 256414936, 255640098, 254350434, 252548542, 250238052, 247423615, 244110900, 240306578,
    236018310, 231254733, 226025440, 220340961, 214212746, 207653134, 200675337, 193293406, 185522208,
    177377392, 168875363, 160033241, 150868833, 141400595, 131647596, 121629476, 111366410, 100879067,
    90188567, 79316439, 68284579, 57115202, 45830803, 34454107, 23008025, 11515608, 0],
   [253083375, 252842496, 252120316, 250918212, 249238470, 247084288, 244459768, 241369905, 237820580,
    233818550, 229371434, 224487695, 219176632, 213448354, 207313764, 200784541, 193873113, 186592637,
    178956971, 170980650, 162678858, 154067397, 145162660, 135981598, 126541687, 116860897, 106957656,
    96850815, 86559612, 76103639, 65502797, 54777268, 43947467, 33034009, 22057670, 11039342, 0],
   [249639903, 249414969, 248740573, 247617929, 246049061, 244036795, 241584759, 238697371, 235379834,
    231638127, 227478992, 222909925, 217939159, 212575652, 206829069, 200709766, 194228770, 187397762,
    180229049, 172735552, 164930774, 156828779, 148444169, 139792051, 130888020, 121748119, 112388819,
    102826988, 93079855, 83164986, 73100248, 62903779, 52593953, 42189348, 31708716, 21170943, 10595018, 0],
   [246333269, 246122840, 245491916, 244441572, 242973604, 241090519, 238795536, 236092574, 232986253,
    229481878, 225585437, 221303587, 216643644, 211613568, 206221955, 200478015, 194391561, 187972993,
    181233276, 174183925, 166836983, 159205004, 151301025, 143138551, 134731528, 126094317, 117241677,
    108188731, 98950947, 89544107, 79984282, 70287805, 60471242, 50551366, 40545123, 30469610, 20342040,
    10179716, 0],
   [243154642, 242957443, 242366166, 241381770, 240005853, 238240645, 236089010, 233554437, 230641039,
    227353539, 223697272, 219678167, 215302743, 210578097, 205511892, 200112347, 194388219, 188348792,
    182003863, 175363723, 168439142, 161241352, 153782029, 146073270, 138127580, 129957846, 121577321,
    112999596, 104238586, 95308501, 86223824, 76999293, 67649868, 58190715, 48637176, 39004748, 29309053,
    19565820, 9790850, 0],
   [240095971, 239910866, 239355835, 238431735, 237139991, 235482594, 233462100, 231081624, 228344838,
    225255960, 221819753, 218041517, 213927076, 209482776, 204715468, 199632504, 194241721, 188551431,
    182570409, 176307876, 169773489, 162977324, 155929860, 148641963, 141124871, 133390174, 125449800,
    117315991, 109001290, 100518516, 91880750, 83101311, 74193735, 65171758, 56049291, 46840400, 37559285,
    28220256, 18837713, 9426124, 0]]

/-- Entry `m` of the row of `N` is the integer nearest to `2^30 * sqrt (2/N) * cos (pi*m/(2N))`,
`m = 0 .. N`: rows `N = 41 .. 48` (R151). -/
def cosRows41to48 : List (List Nat) :=
  [[237149896, 236975871, 236454052, 235585203, 234370600, 232812026, 230911769, 228672617, 226097856,
    223191265, 219957110, 216400138, 212525569, 208339089, 203846843, 199055424, 193971863, 188603622,
    182958579, 177045019, 170871621, 164447446, 157781921, 150884829, 143766293, 136436761, 128906988,
    121188027, 113291206, 105228114, 97010585, 88650680, 80160668, 71553009, 62840336, 54035436, 45151232,
    36200762, 27197162, 18153647, 9083489, 0],
   [234309675, 234145824, 233654498, 232836385, 231692630, 230224831, 228435043, 226325767, 223899954,
    221160997, 218112726, 214759405, 211105723, 207156791, 202918131, 198395672, 193595739, 188525045,
    183190681, 177600108, 171761146, 165681960, 159371053, 152837252, 146089693, 139137815, 131991340,
    124660263, 117154838, 109485561, 101663158, 93698570, 85602937, 77387580, 69063989, 60643806, 52138808,
    43560888, 34922045, 26234360, 17509984, 8761119, 0],
   [231569117, 231414625, 230951356, 230179928, 229101370, 227717122, 226029029, 224039346, 221750726,
    219166223, 216289286, 213123753, 209673849, 205944176, 201939712, 197665798, 193128138, 188332787,
    183286143, 177994940, 172466237, 166707412, 160726149, 154530428, 148128517, 141528957, 134740555,
    127772369, 120633695, 113334059, 105883201, 98291063, 90567775, 82723642, 74769130, 66714854, 58571560,
    50350114, 42061485, 33716734, 25326994, 16903461, 8457373, 0],
   [228922526, 228776662, 228339258, 227610869, 226592425, 225285223, 223690929, 221811575, 219649555,
    217207626, 214488898, 211496836, 208235254, 204708308, 200920491, 196876632, 192581884, 188041719,
    183261923, 178248588, 173008102, 167547143, 161872671, 155991916, 149912373, 143641790, 137188157,
    130559699, 123764862, 116812305, 109710889, 102469662, 95097854, 87604858, 80000223, 72293639, 64494929,
    56614029, 48660983, 40645926, 32579072, 24470701, 16331146, 8170779, 0],
   [226364652, 226226757, 225813239, 225124603, 224161687, 222925664, 221418041, 219640655, 217595669,
    215285578, 212713193, 209881651, 206794400, 203455202, 199868125, 196037539, 191968112, 187664802,
    183132851, 178377780, 173405384, 168221720, 162833104, 157246100, 151467517, 145504394, 139363996,
    133053804, 126581507, 119954990, 113182326, 106271767, 99231732, 92070799, 84797691, 77421271, 69950524,
    62394554, 54762566, 47063858, 39307809, 31503871, 23661549, 15790400, 7900012, 0],
   [223890647, 223760124, 223368707, 222716851, 221805318, 220635169, 219207770, 217524785, 215588175,
    213400199, 210963408, 208280643, 205355032, 202189986, 198789196, 195156627, 191296514, 187213357,
    182911918, 178397212, 173674503, 168749297, 163627337, 158314595, 152817265, 147141757, 141294688,
    135282876, 129113331, 122793244, 116329987, 109731094, 103004259, 96157326, 89198278, 82135229,
    74976413, 67730179, 60404974, 53009339, 45551898, 38041346, 30486439, 22895987, 15278838, 7643875, 0],
   [221496026, 221372335, 221001399, 220383632, 219519725, 218410643, 217057623, 215462178, 213626090,
    211551408, 209240450, 206695797, 203920291, 200917033, 197689375, 194240924, 190575531, 186697289,
    182610529, 178319817, 173829945, 169145927, 164272994, 159216589, 153982360, 148576152, 143004003,
    137272138, 131386956, 125355032, 119183103, 112878061, 106446949, 99896949, 93235377, 86469673,
    79607393, 72656202, 65623864, 58518232, 51347242, 44118904, 36841291, 29522531, 22170798, 14794303,
    7401285, 0],
   [219176632, 219059282, 218707358, 218121237, 217301546, 216249163, 214965214, 213451076, 211708369,
    209738960, 207544957, 205128709, 202492804, 199640065, 196573547, 193296532, 189812531, 186125274,
    182238709, 178156999, 173884513, 169425828, 164785717, 159969149, 154981283, 149827458, 144513195,
    139044183, 133426280, 127665500, 121768013, 115740133, 109588316, 103319149, 96939346, 90455737,
    83875266, 77204979, 70452019, 63623618, 56727087, 49769811, 42759240, 35702881, 28608291, 21483067,
    14334838, 7171258, 0]]

/-- Entry `m` of the row of `N` is the integer nearest to `2^30 * sqrt (2/N) * cos (pi*m/(2N))`,
`m = 0 .. N`: rows `N = 49 .. 56` (R151). -/
def cosRows49to56 : List (List Nat) :=
  [[216928607, 216817153, 216482904, 215926205, 215147626, 214147969, 212928261, 211489754, 209833927,
    207962482, 205877341, 203580648, 201074761, 198362257, 195445922, 192328753, 189013953, 185504928,
    181805285, 177918825, 173849541, 169601615, 165179411, 160587475, 155830524, 150913447, 145841296,
    140619283, 135252774, 129747284, 124108470, 118342126, 112454178, 106450675, 100337787, 94121795,
    87809087, 81406149, 74919560, 68355987, 61722173, 55024936, 48271156, 41467775, 34621783, 27740215,
    20830141, 13898664, 6952904, 0],
   [214748365, 214642399, 214324608, 213795304, 213055010, 212104456, 210944581, 209576529, 208001650,
    206221499, 204237832, 202052607, 199667980, 197086305, 194310130, 191342194, 188185427, 184842943,
    181318041, 177614201, 173735077, 169684497, 165466459, 161085126, 156544821, 151850025, 147005372,
    142015642, 136885759, 131620788, 126225922, 120706486, 115067928, 109315812, 103455814, 97493717,
    91435407, 85286860, 79054146, 72743414, 66360894, 59912884, 53405747, 46845904, 40239831, 33594046,
    26915107, 20209606, 13484161, 6745409, 0],
   [212632566, 212531718, 212229272, 211725513, 211020919, 210116160, 209012092, 207709764, 206210411,
    204515454, 202626503, 200545347, 198273963, 195814503, 193169302, 190340867, 187331883, 184145204,
    180783851, 177251014, 173550044, 169684451, 165657901, 161474216, 157137362, 152651454, 148020747,
    143249633, 138342639, 133304417, 128139749, 122853532, 117450781, 111936621, 106316283, 100595097,
    94778490, 88871981, 82881170, 76811742, 70669454, 64460131, 58189664, 51864000, 45489140, 39071131,
    32616061, 26130053, 19619258, 13089853, 6548032, 0],
   [210578097, 210482028, 210193908, 209714002, 209042745, 208180752, 207128808, 205887873, 204459080,
    202843732, 201043303, 199059436, 196893941, 194548793, 192026134, 189328264, 186457645, 183416896,
    180208791, 176836259, 173302376, 169610366, 165763599, 161765584, 157619969, 153330536, 148901200,
    144336002, 139639107, 134814801, 129867486, 124801676, 119621993, 114333163, 108940012, 103447461,
    97860521, 92184290, 86423947, 80584749, 74672022, 68691162, 62647627, 56546930, 50394637, 44196363,
    37957763, 31684529, 25382385, 19057081, 12714389, 6360096, 0],
   [208582051, 208490449, 208215725, 207758119, 207118033, 206296030, 205292832, 204109320, 202746533,
    201205668, 199488079, 197595274, 195528915, 193290819, 190882950, 188307423, 185566500, 182662590,
    179598242, 176376148, 172999139, 169470179, 165792369, 161968940, 158003248, 153898778, 149659135,
    145288042, 140789339, 136166976, 131425015, 126567619, 121599055, 116523688, 111345975, 106070464,
    100701788, 95244663, 89703882, 84084312, 78390888, 72628611, 66802543, 60917800, 54979552, 48993013,
    42963443, 36896136, 30796423, 24669661, 18521230, 12356532, 6180980, 0],
   [206641710, 206554291, 206292105, 205855376, 205244473, 204459913, 203502358, 202372621, 201071656,
    199600565, 197960591, 196153123, 194179690, 192041962, 189741747, 187280991, 184661777, 181886321,
    178956971, 175876205, 172646630, 169270979, 165752108, 162092995, 158296734, 154366538, 150305733,
    146117755, 141806146, 137374555, 132826731, 128166523, 123397873, 118524816, 113551475, 108482058,
    103320855, 98072232, 92740630, 87330560, 81846600, 76293390, 70675627, 64998066, 59265511, 53482810,
    47654858, 41786585, 35882956, 29948967, 23989638, 18010012, 12015147, 6010116, 0],
   [204754532, 204671032, 204420599, 204003437, 203419888, 202670426, 201755663, 200676346, 199433354,
    198027702, 196460535, 194733132, 192846902, 190803383, 188604242, 186251273, 183746395, 181091651,
    178289205, 175341345, 172250473, 169019112, 165649896, 162145574, 158509003, 154743150, 150851087,
    146835987, 142701126, 138449875, 134085703, 129612169, 125032921, 120351694, 115572307, 110698658,
    105734721, 100684545, 95552249, 90342020, 85058107, 79704818, 74286522, 68807636, 63272630, 57686018,
    52052356, 46376240, 40662298, 34915192, 29139608, 23340258, 17521871, 11689193, 5846981, 0],
   [202918131, 202838309, 202598904, 202200104, 201642225, 200925704, 200051105, 199019116, 197830550,
    196486341, 194987547, 193335347, 191531042, 189576049, 187471908, 185220274, 182822919, 180281728,
    177598701, 174775949, 171815692, 168720260, 165492088, 162133715, 158647783, 155037037, 151304315,
    147452555, 143484787, 139404132, 135213802, 130917093, 126517385, 122018141, 117422898, 112735274,
    107958955, 103097700, 98155333, 93135742, 88042878, 82880745, 77653407, 72364975, 67019610, 61621518,
    56174945, 50684176, 45153532, 39587364, 33990050, 28365994, 22719622, 17055375, 11377710, 5691094, 0]]

/-- Entry `m` of the row of `N` is the integer nearest to `2^30 * sqrt (2/N) * cos (pi*m/(2N))`,
`m = 0 .. N`: rows `N = 57 .. 64` (R151). -/
def cosRows57to64 : List (List Nat) :=
  [[201130272, 201053904, 200824859, 200443310, 199909547, 199223976, 198387117, 197399605, 196262191,
    194975739, 193541224, 191959737, 190232479, 188360760, 186346003, 184189738, 181893601, 179459337,
    176888794, 174183925, 171346782, 168379521, 165284395, 162063754, 158720045, 155255806, 151673667,
    147976350, 144166662, 140247495, 136221826, 132092713, 127863290, 123536770, 119116437, 114605649,
    110007832, 105326475, 100565136, 95727428, 90817027, 85837660, 80793110, 75687206, 70523827, 65306892,
    60040365, 54728244, 49374563, 43983387, 38558811, 33104955, 27625958, 22125983, 16609206, 11079816,
    5542012, 0],
   [199388851, 199315732, 199096430, 198731105, 198220025, 197563565, 196762207, 195816537, 194727251,
    193495146, 192121126, 190606199, 188951477, 187158172, 185227601, 183161178, 180960420, 178626941,
    176162451, 173568760, 170847768, 168001472, 165031958, 161941406, 158732082, 155406339, 151966617,
    148415438, 144755407, 140989209, 137119605, 133149434, 129081608, 124919109, 120664991, 116322375,
    111894444, 107384447, 102795691, 98131542, 93395421, 88590801, 83721206, 78790207, 73801422, 68758508,
    63665165, 58525129, 53342168, 48120085, 42862709, 37573897, 32257526, 26917498, 21557727, 16182145,
    10794695, 5399327, 0],
   [197691894, 197621834, 197411704, 197061654, 196571930, 195942880, 195174951, 194268686, 193224727,
    192043815, 190726787, 189274576, 187688211, 185968817, 184117613, 182135910, 180025113, 177786718,
    175422312, 172933571, 170322258, 167590225, 164739407, 161771826, 158689584, 155494867, 152189938,
    148777141, 145258893, 141637690, 137916097, 134096752, 130182362, 126175701, 122079611, 117896993,
    113630812, 109284092, 104859914, 100361414, 95791779, 91154250, 86452112, 81688700, 76867388, 71991594,
    67064774, 62090420, 57072058, 52013244, 46917565, 41788631, 36630079, 31445564, 26238761, 21013360,
    15773066, 10521593, 5262661, 0],
   [196037539, 195970362, 195768877, 195433221, 194963625, 194360411, 193623992, 192754873, 191753649,
    190621006, 189357722, 187964661, 186442779, 184793118, 183016810, 181115070, 179089204, 176940598,
    174670727, 172281144, 169773489, 167149480, 164410914, 161559670, 158597701, 155527037, 152349782,
    149068114, 145684283, 142200607, 138619473, 134943337, 131174718, 127316197, 123370421, 119340093,
    115227975, 111036885, 106769696, 102429333, 98018770, 93541029, 88999180, 84396336, 79735651, 75020318,
    70253571, 65438675, 60578931, 55677669, 50738249, 45764055, 40758496, 35725004, 30667028, 25588034,
    20491503, 15380928, 10259812, 5131665, 0],
   [194424034, 194359576, 194166245, 193844170, 193393563, 192814723, 192108035, 191273967, 190313071,
    189225986, 188013431, 186676212, 185215214, 183631406, 181925839, 180099643, 178154029, 176090288,
    173909787, 171613973, 169204367, 166682569, 164050248, 161309152, 158461097, 155507973, 152451736,
    149294414, 146038100, 142684954, 139237198, 135697118, 132067063, 128349438, 124546710, 120661399,
    116696082, 112653387, 108535996, 104346639, 100088093, 95763182, 91374774, 86925779, 82419146, 77857864,
    73244957, 68583484, 63876535, 59127233, 54338725, 49514187, 44656817, 39769838, 34856488, 29920027,
    24963726, 19990873, 15004765, 10008707, 5006013, 0],
   [192849725, 192787834, 192602203, 192292951, 191860275, 191304454, 190625844, 189824881, 188902079,
    187858031, 186693406, 185408952, 184005493, 182483930, 180845240, 179090475, 177220761, 175237298,
    173141358, 170934288, 168617504, 166192493, 163660811, 161024084, 158284004, 155442329, 152500883,
    149461555, 146326295, 143097116, 139776089, 136365348, 132867081, 129283533, 125617004, 121869848,
    118044470, 114143325, 110168918, 106123799, 102010564, 97831853, 93590350, 89288775, 84929891, 80516494,
    76051418, 71537528, 66977722, 62374927, 57732096, 53052210, 48338272, 43593308, 38820364, 34022503,
    29202805, 24364363, 19510283, 14643680, 9767678, 4885407, 0],
   [191313049, 191253585, 191075232, 190778099, 190362371, 189828308, 189176240, 188406574, 187519787,
    186516431, 185397130, 184162580, 182813547, 181350871, 179775460, 178088295, 176290424, 174382964,
    172367101, 170244089, 168015247, 165681960, 163245680, 160707921, 158070259, 155334335, 152501850,
    149574565, 146554298, 143442928, 140242389, 136954670, 133581815, 130125920, 126589135, 122973657,
    119281735, 115515663, 111677782, 107770478, 103796180, 99757359, 95656524, 91496227, 87279052, 83007621,
    78684590, 74312645, 69894505, 65432916, 60930652, 56390511, 51815316, 47207910, 42571158, 37907943,
    33221162, 28513730, 23788573, 19048628, 14296842, 9536168, 4769567, 0],
   [189812531, 189755363, 189583894, 189298226, 188898532, 188385053, 187758097, 187018043, 186165337,
    185200491, 184124088, 182936775, 181639267, 180232347, 178716862, 177093725, 175363913, 173528468,
    171588496, 169545166, 167399708, 165153414, 162807639, 160363794, 157823352, 155187843, 152458855,
    149638031, 146727071, 143727728, 140641809, 137471172, 134217728, 130883436, 127470305, 123980391,
    120415795, 116778666, 113071193, 109295610, 105454192, 101549252, 97583143, 93558254, 89477008,
    85341865, 81155315, 76919880, 72638111, 68312588, 63945916, 59540725, 55099669, 50625424, 46120683,
    41588161, 37030588, 32450709, 27851283, 23235080, 18604882, 13963476, 9313659, 4658233, 0]]

/-- The first-quadrant rows of every length `N = 1 .. 64`, in order. -/
def cosRows : List (List Nat) :=
  cosRows1to8 ++ cosRows9to16 ++ cosRows17to24 ++ cosRows25to32 ++
    cosRows33to40 ++ cosRows41to48 ++ cosRows49to56 ++ cosRows57to64

/-- The integer nearest to `2^30 * sqrt (2/N) * cos (pi*m/(2N))` for any `m`, by the symmetries of the
cosine: the angle is reduced modulo a full turn `4N` and folded onto the first quadrant. -/
def cosEntry (n m : Nat) : Int :=
  let row := cosRows.getD (n - 1) []
  let r := m % (4 * n)
  if r ≤ n then (row.getD r 0 : Int)
  else if r ≤ 2 * n then -(row.getD (2 * n - r) 0 : Int)
  else if r ≤ 3 * n then -(row.getD (r - 2 * n) 0 : Int)
  else (row.getD (4 * n - r) 0 : Int)

/-- `CF_N[k][n]` of R151, as a fixed-point number with 30 fraction bits. -/
def cf (len k n : Nat) : Int :=
  if k = 0 then (dcRow.getD (len - 1) 0 : Int) else cosEntry len ((2 * n + 1) * k)

end Sys2Proof.Machine
end

