-- ==== Sys2Proof/Machine/Transform.lean ====
section
/-! DEFINITION. The separable 4D transform and its caches (44_transform.md). -/

namespace Sys2Proof.Machine

/-- The transform's direction, the first half of a coefficient cache key (10_state.md R18). -/
inductive Dir where
  | fwd
  | inv
deriving DecidableEq, Repr

/-- The sum of `f i` for `i = 0 .. n-1`. -/
def sumUpTo (f : Nat → Int) : Nat → Int
  | 0 => 0
  | n + 1 => sumUpTo f n + f n

/-- The rounding of R155 and R156: `floor((a * w + 2^45) / 2^46)`. -/
def roundWeighted (a : Int) (w : Nat) : Int := (a * w + 2 ^ 45) / 2 ^ 46

/-- `Fwd1D(x, N, W)` before the clamp (R155). -/
def fwd1D (x : List Int) (w : Nat) : List Int :=
  let n := x.length
  (List.range n).map fun k => roundWeighted (sumUpTo (fun i => cf n k i * x.getD i 0) n) w

/-- `Inv1D(y, N, WINV)` before the clamp (R156): the same table with its indices exchanged (R152). -/
def inv1D (y : List Int) (winv : Nat) : List Int :=
  let n := y.length
  (List.range n).map fun i => roundWeighted (sumUpTo (fun k => cf n k i * y.getD k 0) n) winv

/-- The addresses of a block's lines along axis `a` (R157): one list per line, in increasing index. -/
def lines (blk : Block) (a : Axis) : List (List Nat) :=
  let rest := blk.len.set a 1
  (List.range rest.t).flatMap fun t =>
    (List.range rest.s).flatMap fun s =>
      (List.range rest.v).flatMap fun v =>
        (List.range rest.u).map fun u =>
          (List.range (blk.len.get a)).map fun i => blk.addr (Axes.set ⟨t, s, v, u⟩ a i)

/-- The results of a line written back through `sat32` (R154, R157). -/
def writeLine : List Nat → List Int → State → State
  | a :: addrs, y :: ys, s => writeLine addrs ys (noteClamp y (memWrite a (sat32 y) s))
  | _, _, s => s

/-- One line transformed by `f` (R157): read whole, computed, written whole. -/
def transformLine (f : List Int → List Int) (s : State) (addrs : List Nat) : State :=
  writeLine addrs (f (addrs.map (memRead s))) s

/-- The transform of every line along `a` (R157). -/
def transformLines (f : List Int → List Int) (blk : Block) (a : Axis) (s : State) : State :=
  (lines blk a).foldl (transformLine f) s

/-- `TouchTC(dir, N)` (R159). -/
def touchTC (d : Dir) (n : Nat) (s : State) : State :=
  match d with
  | .fwd =>
    if n ∈ s.tcvFwd then s else { s with tcvFwd := keyInsert n s.tcvFwd, tcFills := s.tcFills + 1#32 }
  | .inv =>
    if n ∈ s.tcvInv then s else { s with tcvInv := keyInsert n s.tcvInv, tcFills := s.tcFills + 1#32 }

/-- `TouchGC(a, L)` (R160). -/
def touchGC (a : Axis) (l : Nat) (s : State) : State :=
  if l ∈ s.gcv.get a then s
  else { s with gcv := s.gcv.set a (keyInsert l (s.gcv.get a)), gcFills := s.gcFills + 1#32 }

/-- One pass along `a` (R157, R161, R162): touch the caches, then transform every line. The weight is the one
the registers give when the command starts (R160). -/
def pass (d : Dir) (blk : Block) (wgt : Axis → Nat) (s : State) (a : Axis) : State :=
  let n := blk.len.get a
  let f := match d with
    | .fwd => fun x => fwd1D x (wgt a)
    | .inv => fun y => inv1D y (inverseWeight (wgt a))
  transformLines f blk a (touchGC a n (touchTC d n s))

/-- The pass order (R158). -/
def passOrder : Dir → List Axis
  | .fwd => [.u, .v, .s, .t]
  | .inv => [.t, .s, .v, .u]

/-- The four passes on the current block (R158, R161, R162). -/
def transformBlock (d : Dir) (s : State) : State :=
  let blk := currentBlock s
  (passOrder d).foldl (pass d blk fun a => weight s a (blk.len.get a)) s

/-- `TFWD` (R161). -/
def execTfwd (s : State) : Result :=
  match txCheck (encode .tfwd) s with
  | some (e, info) => raise e info s
  | none => retired (transformBlock .fwd s)

/-- `TINV` (R162). -/
def execTinv (s : State) : Result :=
  match txCheck (encode .tinv) s with
  | some (e, info) => raise e info s
  | none => retired (transformBlock .inv s)

/-- `TFLUSH` (R163): both caches empty, the fill counters kept. -/
def execTflush (s : State) : Result :=
  retired { s with tcvFwd := [], tcvInv := [], gcv := ⟨[], [], [], []⟩ }

end Sys2Proof.Machine
end

