-- ==== Sys2Proof/Machine/Dispatch.lean ====
section
/-! DEFINITION. One arm per command: what executing it does, once the command step has found `FAULT = 0` and
decoded the word (45_system_codestream.md R176). -/

namespace Sys2Proof.Machine

def exec (i : Instr) (s : State) : Host.Outcome State Fault Refusal :=
  match i with
  | .nop => Sys2Proof.Machine.execNop s
  | .srst => Sys2Proof.Machine.execSrst s
  | .mrst => Sys2Proof.Machine.execMrst s
  | .mrst1 ctx => Sys2Proof.Machine.execMrst1 ctx s
  | .mupd b ctx => Sys2Proof.Machine.execMupd b ctx s
  | .mrate b ctx => Sys2Proof.Machine.execMrate b ctx s
  | .rclr => Sys2Proof.Machine.execRclr s
  | .snap slot => Sys2Proof.Machine.execSnap slot s
  | .rest slot => Sys2Proof.Machine.execRest slot s
  | .einit m => Sys2Proof.Machine.execEinit m s
  | .encb c b ctx => Sys2Proof.Machine.execEncb c b ctx s
  | .enci c n v => Sys2Proof.Machine.execEnci c n v s
  | .efin => Sys2Proof.Machine.execEfin s
  | .dinit m => Sys2Proof.Machine.execDinit m s
  | .decb ctx => Sys2Proof.Machine.execDecb ctx s
  | .deci n => Sys2Proof.Machine.execDeci n s
  | .dfin => Sys2Proof.Machine.execDfin s
  | .enblk c h => Sys2Proof.Machine.execEnblk c h s
  | .deblk h => Sys2Proof.Machine.execDeblk h s
  | .tfwd => Sys2Proof.Machine.execTfwd s
  | .tinv => Sys2Proof.Machine.execTinv s
  | .tflush => Sys2Proof.Machine.execTflush s
  | .csput byte => Sys2Proof.Machine.execCsput byte s
  | .csget => Sys2Proof.Machine.execCsget s
  | .csrw k => Sys2Proof.Machine.execCsrw k s

end Sys2Proof.Machine
end

