-- ==== Sys2Proof/Machine/Registers.lean ====
section
/-! DEFINITION. The register block (10_state.md section 3): offsets, what every register reads as, and what a
write does, but for a write of `CMD` (the command step, Command.lean). -/

namespace Sys2Proof.Machine

/-- The 34 registers of the block (10_state.md section 3). -/
inductive Reg where
  | id
  | cmd
  | status
  | err
  | errInfo
  | cmdCnt
  | result
  | rateOut
  | rateLo
  | rateHi
  | acLow
  | acHigh
  | acPend
  | acCode
  | acBits
  | bplane
  | blkBase
  | blkLen
  | tlen
  | gain (a : Axis)
  | midx
  | mval
  | bmAddr
  | bmData
  | csCur
  | csLen
  | csPeek
  | outCnt
  | tcFills
  | gcFills
  | slotv
deriving DecidableEq, Repr

/-- The register at a byte offset; an offset that is misaligned or holds none has no register (R49,
20_memory.md R53). -/
def regAt (off : Nat) : Option Reg :=
  match off with
  | 0x00 => some .id
  | 0x04 => some .cmd
  | 0x08 => some .status
  | 0x0C => some .err
  | 0x10 => some .errInfo
  | 0x14 => some .cmdCnt
  | 0x18 => some .result
  | 0x1C => some .rateOut
  | 0x20 => some .rateLo
  | 0x24 => some .rateHi
  | 0x28 => some .acLow
  | 0x2C => some .acHigh
  | 0x30 => some .acPend
  | 0x34 => some .acCode
  | 0x38 => some .acBits
  | 0x40 => some .bplane
  | 0x44 => some .blkBase
  | 0x48 => some .blkLen
  | 0x4C => some .tlen
  | 0x50 => some (.gain .t)
  | 0x54 => some (.gain .s)
  | 0x58 => some (.gain .v)
  | 0x5C => some (.gain .u)
  | 0x60 => some .midx
  | 0x64 => some .mval
  | 0x68 => some .bmAddr
  | 0x6C => some .bmData
  | 0x70 => some .csCur
  | 0x74 => some .csLen
  | 0x78 => some .csPeek
  | 0x7C => some .outCnt
  | 0x80 => some .tcFills
  | 0x84 => some .gcFills
  | 0x88 => some .slotv
  | _ => none

/-- Four fields of a register, each in the low bits of its byte: `T` in `[31:24]` down to `U` in `[7:0]`
(R36, R37). -/
def packBytes (x : Axes (BitVec 7)) : Word :=
  BitVec.ofNat 32 (x.t.toNat * 2 ^ 24 + x.s.toNat * 2 ^ 16 + x.v.toNat * 2 ^ 8 + x.u.toNat)

/-- The four 7-bit fields of a written word (R36, R37); bits 7, 15, 23, 31 are ignored. -/
def unpackBytes (v : Word) : Axes (BitVec 7) :=
  ⟨v.extractLsb' 24 7, v.extractLsb' 16 7, v.extractLsb' 8 7, v.extractLsb' 0 7⟩

/-- `CS_PEEK` (R44): the next byte of the source, or bit 8 set. -/
def peekWord (s : State) : Word :=
  match s.inp[s.cur]? with
  | some b => b.setWidth 32
  | none => 0x00000100#32

/-- The word a register reads as (R21 to R47); the read of `BM_DATA` also moves `BM_ADDR` (`readReg`). -/
def regValue (s : State) : Reg → Word
  | .id => Config.idWord
  | .cmd => 0#32
  | .status => statusWord s
  | .err => s.err.setWidth 32
  | .errInfo => s.errInfo
  | .cmdCnt => s.cmdCnt
  | .result => s.result
  | .rateOut => s.rateOut
  | .rateLo => s.rateAcc.extractLsb' 0 32
  | .rateHi => s.rateAcc.extractLsb' 32 32
  | .acLow => s.low.setWidth 32
  | .acHigh => s.high.setWidth 32
  | .acPend => s.pend
  | .acCode => s.code.setWidth 32
  | .acBits => 0#4 ++ s.dbn ++ s.db ++ 0#4 ++ s.bbn ++ s.bb
  | .bplane => 0#19 ++ s.inf ++ 0#3 ++ s.sup
  | .blkBase => s.blkBase
  | .blkLen => packBytes s.blkLen
  | .tlen => packBytes s.tlen
  | .gain a => (s.gain.get a).setWidth 32
  | .midx => s.midx.setWidth 32
  | .mval => 0#4 ++ (bankGet s s.midx.toNat).t ++ 0#4 ++ (bankGet s s.midx.toNat).z
  | .bmAddr => s.bmAddr.setWidth 32
  | .bmData => s.mem.read s.bmAddr.toNat
  | .csCur => BitVec.ofNat 32 s.cur
  | .csLen => BitVec.ofNat 32 s.inp.length
  | .csPeek => peekWord s
  | .outCnt => s.outCnt
  | .tcFills => s.tcFills
  | .gcFills => s.gcFills
  | .slotv => slotvWord s

/-- `BM_ADDR <- (BM_ADDR + 1) mod BLKCAP` (R42). -/
def advanceBmAddr (s : State) : State :=
  { s with bmAddr := BitVec.ofNat 18 ((s.bmAddr.toNat + 1) % s.par.blkCap) }

/-- The side effect of a register read: `BM_DATA` moves `BM_ADDR`, nothing else has one (20_memory.md R61). -/
def readEffect (r : Reg) (s : State) : State := if r = .bmData then advanceBmAddr s else s

/-- The effect of writing `v` to a register other than `CMD` (R23, R34 to R42); a read-only register ignores
it (20_memory.md R54). DESIGN CHOICE: a write of `BM_ADDR` reduces the whole 32-bit word modulo `BLKCAP` (R41),
which ignores its bits `[31:18]` (R54) only where `BLKCAP` is a power of two (log 26). -/
def writeEffect (r : Reg) (v : Word) (s : State) : State :=
  match r with
  | .status => if v.getLsbD 4 then { s with tsat := false } else s
  | .bplane => { s with sup := v.extractLsb' 0 5, inf := v.extractLsb' 8 5 }
  | .blkBase => { s with blkBase := v }
  | .blkLen => { s with blkLen := unpackBytes v }
  | .tlen => { s with tlen := unpackBytes v, gcv := ⟨[], [], [], []⟩ }
  | .gain a => { s with gain := s.gain.set a (v.extractLsb' 0 24), gcv := s.gcv.set a [] }
  | .midx => if v.toNat % 256 < Config.nctx then { s with midx := v.extractLsb' 0 8 } else s
  | .bmAddr => { s with bmAddr := BitVec.ofNat 18 (v.toNat % s.par.blkCap) }
  | .bmData => advanceBmAddr (memWrite s.bmAddr.toNat v s)
  | .id | .cmd | .err | .errInfo | .cmdCnt | .result | .rateOut | .rateLo | .rateHi | .acLow | .acHigh
  | .acPend | .acCode | .acBits | .mval | .csCur | .csLen | .csPeek | .outCnt | .tcFills | .gcFills
  | .slotv => s

end Sys2Proof.Machine
end

