-- ==== Sys2Proof/Machine/Command.lean ====
section
/-! DEFINITION. The command step every `CMD` write goes through (45_system_codestream.md R176) and the effect
of each host action (10_state.md R10, 20_memory.md R52, R53, R59; 70_reset_and_hazards.md R200, R207). -/

namespace Sys2Proof.Machine

/-- The one word the fault state does not drop (R176, 60_exceptions.md R184). -/
abbrev srstWord : Word := 0x01000000#32

/-- `CmdWrite(w)` (R176). -/
def cmdWrite (w : Word) (s : State) : Result :=
  if s.fault then
    if w = srstWord then exec .srst s else .next s
  else
    match decode w with
    | .error _ => raise .ill w s
    | .ok i => exec i s

/-- The state with the answer to the host's action. -/
def answer (r : HostResp) (s : State) : State := { s with resp := r }

/-- The register a bus access of `bits` bits at `off` reaches; none means a bus error (20_memory.md R53). -/
def accessed (bits off : Nat) : Option Reg := if bits = 32 then regAt off else none

/-- A `BM_DATA` access with `BM_ADDR >= BLKCAP` names a word that does not exist (R51; log 16). -/
def outsideBmem (r : Reg) (s : State) : Bool := r = .bmData && s.par.blkCap ≤ s.bmAddr.toNat

/-- A bus read (R52, R53, R61). -/
def busRead (bits off : Nat) (s : State) : Result :=
  match accessed bits off with
  | none => .next (answer .busError s)
  | some r =>
    if outsideBmem r s then .fault (.noSuchWord s.bmAddr.toNat)
    else .next (answer (.data (regValue s r)) (readEffect r s))

/-- A bus write (R52, R53, R54, R61); a write of `CMD` executes a command (10_state.md R22). -/
def busWrite (bits off : Nat) (v : Word) (s : State) : Result :=
  match accessed bits off with
  | none => .next (answer .busError s)
  | some r =>
    if r = .cmd then cmdWrite v (answer .done s)
    else if outsideBmem r s then .fault (.noSuchWord s.bmAddr.toNat)
    else .next (answer .done (writeEffect r v s))

/-- `LOW`, `HIGH`, `CODE`, `DB` and `DBN` become free values: what a `HostLoad` does to them while
`MODE = DEC` and `FAULT = 0` (R207, U4; log 6). -/
def freeCoder (s : State) : State :=
  { s with
    low := Config.freeLow s.freeCtr, high := Config.freeHigh s.freeCtr, code := Config.freeCode s.freeCtr
    db := Config.freeDb s.freeCtr, dbn := Config.freeDbn s.freeCtr, freeCtr := s.freeCtr + 1 }

/-- `HostLoad(bytes)` (R59, R207). -/
def hostLoad (bytes : List Byte) (s : State) : State :=
  { (if s.mode = .dec ∧ s.fault = false then freeCoder s else s) with inp := bytes, cur := 0 }

/-- `HostAppend(bytes)` (R59). -/
def hostAppend (bytes : List Byte) (s : State) : State := { s with inp := s.inp ++ bytes }

/-- What one host action does. -/
def hostStep (a : HostAction) (s : State) : Result :=
  match a with
  | .read bits off => busRead bits off s
  | .write bits off v => busWrite bits off v s
  | .load bytes => .next (answer .done (hostLoad bytes s))
  | .append bytes => .next (answer .done (hostAppend bytes s))
  | .take start => .next (answer (.bytes (s.out.drop start)) s)
  | .resetLine => .next (answer .done (resetKeepingMemory s))
  | .powerOn => .next (answer .done (powerOn s))

/-- The host action that writes the command word `w`. -/
def cmdAction (w : Word) : HostAction := .write 32 0x04 w

end Sys2Proof.Machine
end

