-- ==== Sys2Proof/Machine/Step.lean ====
section
/-! DEFINITION. One step: J4D performs the host's next action, the whole command it may start included
(10_state.md R10, 20_memory.md R64). -/

namespace Sys2Proof.Machine

/-- The host's next action is taken off the program and performed. With none left J4D waits for register
accesses and nothing changes (70_reset_and_hazards.md R202). -/
def step (s : State) : Host.Outcome State Fault Refusal :=
  match s.host with
  | [] => .next s
  | a :: rest => hostStep a { s with host := rest }

/-- `s` with the write of a command word as the host's next action (log 1). A command has no other home: it
is the data of a `CMD` write (10_state.md R20, R22). -/
def State.withFetchWord (s : State) (nbits w : Nat) : State :=
  { s with host := cmdAction (BitVec.ofNat 32 (w % 2 ^ nbits)) :: s.host }

end Sys2Proof.Machine
end

