-- ==== Sys2Proof/WellFormed.lean ====
section
/-! DEFINITION. Well-formed commands: the operand ranges 30_encoding.md R79 lists. They are no part of
decoding: a word that fails them is a legal encoding whose execution raises `E_ARG` (or `E_MODE` first). -/

namespace Sys2Proof

/-- `ctx < 161`, `1 <= n <= 16` and `v < 2^n` (R79); commands without such an operand are well-formed. A slot
number is checked against the machine's `NSLOT` (40_model_bank.md R102), not here. -/
def Instr.wellFormed : Instr → Bool
  | .mrst1 ctx | .mupd _ ctx | .mrate _ ctx | .encb _ _ ctx | .decb ctx => ctx.toNat < Config.nctx
  | .enci _ n v => 1 ≤ n.toNat && n.toNat ≤ 16 && v.toNat < 2 ^ n.toNat
  | .deci n => 1 ≤ n.toNat && n.toNat ≤ 16
  | .nop | .srst | .mrst | .rclr | .snap _ | .rest _ | .einit _ | .efin | .dinit _ | .dfin
  | .enblk _ _ | .deblk _ | .tfwd | .tinv | .tflush | .csput _ | .csget | .csrw _ => true

end Sys2Proof
end

