-- ==== Sys2Proof/Safety.lean ====
section
/-! DEFINITION. What the spec promises of every state between host actions (10_state.md R15, R30, R32, R33;
20_memory.md R51, R58; 41_arith_encoder.md R110; 42_arith_decoder.md R122), and the table of the commands each
mode admits (R19). -/

namespace Sys2Proof.Machine

/-- The invariant of one model (R15): both symbol counts are at least 1 and the total at most 4094. -/
abbrev Model.ok (m : Model) : Prop := 1 ≤ m.z.toNat ∧ m.z.toNat + 1 ≤ m.t.toNat ∧ m.t.toNat ≤ 4094

/-- Every model of a bank satisfies R15. -/
abbrev Bank.ok (b : Bank) : Prop := ∀ m ∈ b.toList, m.ok

/-- The interval of R30 and R110: it straddles the midpoint and case (b) of R113 does not hold. -/
abbrev intervalOk (low high : BitVec 16) : Prop :=
  low.toNat < 0x8000 ∧ 0x8000 ≤ high.toNat ∧ ¬(0x4000 ≤ low.toNat ∧ high.toNat < 0xC000)

/-- A key set of a cache (R18): strictly rising lengths from 1 to `MAXLEN`. -/
abbrev keysOk (maxLen : Nat) (l : List Nat) : Prop := l.Pairwise (· < ·) ∧ ∀ n ∈ l, 1 ≤ n ∧ n ≤ maxLen

/-- The invariant of the state between host actions. -/
structure State.Inv (s : State) : Prop where
  /-- The parameters are ones an integrator may choose (R4). -/
  par : s.par.ok
  /-- Block memory is in canonical form. -/
  memForm : s.mem.wf
  /-- Only words of `0 .. BLKCAP-1` were written (R51). -/
  memRange : ∀ c ∈ s.mem.cells, c.1 < s.par.blkCap
  /-- `0 <= CUR <= len(IN)` (R58). -/
  cursor : s.cur ≤ s.inp.length
  /-- `BM_ADDR` names a word (R41). -/
  bmAddr : s.bmAddr.toNat < s.par.blkCap
  /-- `MIDX` names a model (R39). -/
  midx : s.midx.toNat < Config.nctx
  /-- `BBN` is 0..7 and `BB` is zero above its collected bits (R17, R33). -/
  bitBuffer : s.bbn.toNat ≤ 7 ∧ s.bb.toNat < 2 ^ s.bbn.toNat
  /-- Every valid slot holds a bank that satisfies R15 (R16). -/
  slots : ∀ x ∈ s.slots.toList, ∀ b, x = some b → b.ok
  /-- No slot the machine does not have is valid (R102). -/
  noSlot : ∀ k, s.par.nslot ≤ k → s.slots.getD k none = none
  /-- With `FAULT = 0` nothing is recorded (R24, R25) and the bank satisfies R15. -/
  noFault : s.fault = false → s.err = 0#8 ∧ s.errInfo = 0#32 ∧ s.bank.ok
  /-- With `FAULT = 1` the code is one of the nine (R180). -/
  faultCode : s.fault = true → 1 ≤ s.err.toNat ∧ s.err.toNat ≤ 9
  /-- The cache key sets are in canonical form (R18). -/
  caches : keysOk s.par.maxLen s.tcvFwd ∧ keysOk s.par.maxLen s.tcvInv ∧
    ∀ a, keysOk s.par.maxLen (s.gcv.get a)

/-- The invariant of the coder registers, for a host that keeps R207 (no `HostLoad` while decoding). -/
structure State.CoderInv (s : State) : Prop where
  /-- With `FAULT = 0` the interval is settled (R30, R110); outside a segment it is the whole range. -/
  interval : s.fault = false → intervalOk s.low s.high
  /-- Outside a segment the interval is `[0x0000, 0xFFFF]` (R48, R119, R126). -/
  idle : s.fault = false → s.mode = .idle → s.low = 0x0000#16 ∧ s.high = 0xFFFF#16
  /-- While decoding, `LOW <= CODE <= HIGH` (R32, R122). -/
  code : s.fault = false → s.mode = .dec →
    s.low.toNat ≤ s.code.toNat ∧ s.code.toNat ≤ s.high.toNat
  /-- While decoding, `DBN` is 0..8 (R17). -/
  byteBuffer : s.fault = false → s.mode = .dec → s.dbn.toNat ≤ 8

/-- The host's next action is not a `HostLoad` while decoding (R207). -/
def keepsSource (s : State) : Prop := ∀ bytes rest, s.host = .load bytes :: rest → s.mode = .dec → s.fault = true

/-- The table of R19: the commands a mode admits. -/
def admits (m : Mode) : Instr → Bool
  | .nop | .srst | .mrst | .mrst1 _ | .mupd _ _ | .mrate _ _ | .rclr | .snap _ | .rest _ | .tfwd | .tinv
  | .tflush => true
  | .encb c _ _ | .enci c _ _ | .enblk c _ => c || m = .enc
  | .einit _ | .dinit _ => m = .idle
  | .efin => m = .enc
  | .decb _ | .deci _ | .deblk _ | .dfin => m = .dec
  | .csput _ => m ≠ .enc
  | .csget | .csrw _ => m ≠ .dec

/-! Frames: `t` differs from `s` at most in the named pieces. -/

/-- What coding a bit may change: the interval, the output bits and bytes, the models and `RATEACC`
(41_arith_encoder.md R117). -/
abbrev onlyEncoder (s t : State) : Prop :=
  t = { s with
        low := t.low, high := t.high, pend := t.pend, bb := t.bb, bbn := t.bbn, out := t.out
        outCnt := t.outCnt, bank := t.bank, rateAcc := t.rateAcc }

/-- What decoding a bit may change: the interval, the code value, the input bits, the cursor and the models
(42_arith_decoder.md R124). -/
abbrev onlyDecoder (s t : State) : Prop :=
  t = { s with
        low := t.low, high := t.high, code := t.code, db := t.db, dbn := t.dbn, cur := t.cur
        bank := t.bank }

/-- What decoding a block may change: the decoder's pieces and block memory (43_bitplane.md R140). -/
abbrev onlyBlockDecoder (s t : State) : Prop :=
  t = { s with
        low := t.low, high := t.high, code := t.code, db := t.db, dbn := t.dbn, cur := t.cur
        bank := t.bank, mem := t.mem }

/-- What a transform may change: block memory, `TSAT` and the caches with their counters
(44_transform.md R161). -/
abbrev onlyTransform (s t : State) : Prop :=
  t = { s with
        mem := t.mem, tsat := t.tsat, tcvFwd := t.tcvFwd, tcvInv := t.tcvInv, gcv := t.gcv
        tcFills := t.tcFills, gcFills := t.gcFills }

end Sys2Proof.Machine
end

