-- ==== Sys2Proof/Certificates/Slice0/Obligations.lean ====
section
/-! DEFINITION. The statements for the provers, each with the rules of spec/ it formalises. -/

open Sys2Proof Sys2Proof.Machine

namespace Sys2Proof.Claims

/-- Commands executed one after another (20_memory.md R64). -/
def runAll : List Instr → State → Result
  | [], s => .next s
  | i :: rest, s =>
    match exec i s with
    | .next t => runAll rest t
    | .fault r => .fault r
    | .refused r => .refused r

/-- `DECB` in each context of a list, with the `RESULT` of each; nothing once a fault is taken. -/
def decodeRun : List (BitVec 8) → State → Option (List Word × State)
  | [], s => some ([], s)
  | ctx :: rest, s =>
    match exec (.decb ctx) s with
    | .next t =>
      if t.fault then none
      else
        match decodeRun rest t with
        | some (rs, u) => some (t.result :: rs, u)
        | none => none
    | .fault _ => none
    | .refused _ => none

/-- The bits of a byte, most significant first (20_memory.md R60). -/
def byteBits (b : Byte) : List Bool := (List.range 8).map fun i => b.getLsbD (7 - i)

/-- The bits waiting in `BB`, oldest first (10_state.md R33). -/
def waitingBits (s : State) : List Bool := (List.range s.bbn.toNat).map fun i => s.bb.getLsbD (s.bbn.toNat - 1 - i)

/-- The state after the fault with code `code` and information word `info` (60_exceptions.md R183). -/
def faulted (s : State) (code : BitVec 8) (info : Word) : State :=
  { s with fault := true, err := code, errInfo := info }

/-- Every length of the current block is in `1 .. MAXLEN` (10_state.md R36). -/
def lengthsLegal (s : State) : Prop :=
  ∀ a, 1 ≤ (s.blkLen.get a).toNat ∧ (s.blkLen.get a).toNat ≤ s.par.maxLen

/-- `NEL` of the current block, from `BLK_LEN` (20_memory.md R55). -/
def nel (s : State) : Nat :=
  s.blkLen.t.toNat * s.blkLen.s.toNat * s.blkLen.v.toNat * s.blkLen.u.toNat

/-- The current block passes `BlockCheck` (43_bitplane.md R131). -/
def blockLegal (s : State) : Prop := lengthsLegal s ∧ s.blkBase.toNat + nel s ≤ s.par.blkCap

/-- The address `a` holds an element of the current block (20_memory.md R55). -/
def inBlock (s : State) (a : Nat) : Prop := s.blkBase.toNat ≤ a ∧ a < s.blkBase.toNat + nel s

/-- Every configured transform length is in `1 .. 64` (44_transform.md R150). -/
def transformLengthsLegal (s : State) : Prop := ∀ a, 1 ≤ (s.tlen.get a).toNat ∧ (s.tlen.get a).toNat ≤ 64

/-- The configuration passes `TxCheck` (44_transform.md R150). -/
def transformLegal (s : State) : Prop :=
  blockLegal s ∧ transformLengthsLegal s ∧ (∀ a, (s.blkLen.get a).toNat ≤ (s.tlen.get a).toNat) ∧
    ∀ a, weight s a (s.blkLen.get a).toNat ≠ 0

/-- `(HIGH - LOW + 1) * z div t` on natural numbers (41_arith_encoder.md R111). -/
def splitNat (s : State) (c : Nat) : Nat :=
  (s.high.toNat - s.low.toNat + 1) * (bankGet s c).z.toNat / (bankGet s c).t.toNat

/-- `Addr(t, s, v, u)` of the current block (20_memory.md R55). -/
def elementAddr (s : State) (pos : Axes Nat) : Nat :=
  s.blkBase.toNat + pos.t * (s.blkLen.s.toNat * s.blkLen.v.toNat * s.blkLen.u.toNat) +
    pos.s * (s.blkLen.v.toNat * s.blkLen.u.toNat) + pos.v * s.blkLen.u.toNat + pos.u

/-- `W(a, L_a)` with the exact square root (44_transform.md R153). -/
def weightNat (s : State) (a : Axis) : Nat :=
  (s.gain.get a).toNat * Nat.sqrt ((s.tlen.get a).toNat * 2 ^ 32 / (s.blkLen.get a).toNat) / 2 ^ 16

/-- `x` clamped into the signed 32-bit range (44_transform.md R154). -/
def clamp32 (x : Int) : Int := max (-2147483648) (min 2147483647 x)

/-- The words of a block, by position. -/
abbrev Words := Axes Nat → Int

/-- The forward pass along `a` with the weight `W(a, L_a)`, on every line at once (44_transform.md R155, R157). -/
def forwardPass (s : State) (a : Axis) (x : Words) : Words := fun pos =>
  let n := (s.blkLen.get a).toNat
  clamp32 (((∑ j ∈ Finset.range n, cf n (pos.get a) j * x (pos.set a j)) * weightNat s a + 2 ^ 45) / 2 ^ 46)

/-- The inverse pass along `a` with `WINV(a, L_a)`: the table's indices exchanged (R152, R153, R156, R157). -/
def inversePass (s : State) (a : Axis) (y : Words) : Words := fun pos =>
  let n := (s.blkLen.get a).toNat
  clamp32 (((∑ j ∈ Finset.range n, cf n j (pos.get a) * y (pos.set a j)) * ((2 ^ 32 / weightNat s a : Nat) : Int) +
    2 ^ 45) / 2 ^ 46)

/-- The commands whose `E_EOS` is imprecise (42_arith_decoder.md R129). -/
def decodes : Instr → Bool
  | .dinit _ | .decb _ | .deci _ | .deblk _ => true
  | _ => false

/-- The commands that overwrite the current block (70_reset_and_hazards.md R213). -/
def writesBlock : Instr → Bool
  | .deblk _ | .tfwd | .tinv => true
  | _ => false

/-- The offsets of the 34 registers (10_state.md section 3). -/
def registerOffsets : List Nat :=
  ((List.range 15).map (4 * ·)) ++ ((List.range 19).map fun i => 0x40 + 4 * i)

/-- What each register but `BM_DATA` reads as, by offset (10_state.md section 3, R21 to R47). -/
def registerWords (s : State) : List (Nat × Nat) :=
  [(0x00, 0x4A344401), (0x04, 0),
    (0x08, (match s.mode with | .idle => 0 | .enc => 1 | .dec => 2) + (if s.fault then 4 else 0) +
      (if s.inp.length ≤ s.cur then 8 else 0) + (if s.tsat then 16 else 0)),
    (0x0C, s.err.toNat), (0x10, s.errInfo.toNat), (0x14, s.cmdCnt.toNat), (0x18, s.result.toNat),
    (0x1C, s.rateOut.toNat), (0x20, s.rateAcc.toNat % 2 ^ 32), (0x24, s.rateAcc.toNat / 2 ^ 32),
    (0x28, s.low.toNat), (0x2C, s.high.toNat), (0x30, s.pend.toNat), (0x34, s.code.toNat),
    (0x38, s.bb.toNat + s.bbn.toNat * 2 ^ 8 + s.db.toNat * 2 ^ 16 + s.dbn.toNat * 2 ^ 24)] ++
  [(0x40, s.sup.toNat + s.inf.toNat * 2 ^ 8), (0x44, s.blkBase.toNat),
    (0x48, s.blkLen.t.toNat * 2 ^ 24 + s.blkLen.s.toNat * 2 ^ 16 + s.blkLen.v.toNat * 2 ^ 8 + s.blkLen.u.toNat),
    (0x4C, s.tlen.t.toNat * 2 ^ 24 + s.tlen.s.toNat * 2 ^ 16 + s.tlen.v.toNat * 2 ^ 8 + s.tlen.u.toNat),
    (0x50, s.gain.t.toNat), (0x54, s.gain.s.toNat), (0x58, s.gain.v.toNat), (0x5C, s.gain.u.toNat),
    (0x60, s.midx.toNat),
    (0x64, (bankGet s s.midx.toNat).t.toNat * 2 ^ 16 + (bankGet s s.midx.toNat).z.toNat),
    (0x68, s.bmAddr.toNat)] ++
  [(0x70, s.cur % 2 ^ 32), (0x74, s.inp.length % 2 ^ 32),
    (0x78, match s.inp[s.cur]? with | some b => b.toNat | none => 0x100), (0x7C, s.outCnt.toNat),
    (0x80, s.tcFills.toNat), (0x84, s.gcFills.toNat),
    (0x88, ∑ k ∈ Finset.range 16, if (s.slots.getD k none).isSome then 2 ^ k else 0)]

/-- The configuration registers with the bits that they hold (R34 to R38). -/
def configBits : List (Nat × Word) :=
  [(0x40, 0x00001F1F#32), (0x44, 0xFFFFFFFF#32), (0x48, 0x7F7F7F7F#32), (0x4C, 0x7F7F7F7F#32),
    (0x50, 0x00FFFFFF#32), (0x54, 0x00FFFFFF#32), (0x58, 0x00FFFFFF#32), (0x5C, 0x00FFFFFF#32)]

/-- `s` with a host access of 32 bits to perform first. -/
def withAction (s : State) (a : HostAction) (rest : List HostAction) : State := { s with host := a :: rest }

/-- The offsets of the registers a write does not change: `RO` in 10_state.md section 3. -/
def readOnlyOffsets : List Nat :=
  [0x00, 0x0C, 0x10, 0x14, 0x18, 0x1C, 0x20, 0x24, 0x28, 0x2C, 0x30, 0x34, 0x38, 0x64, 0x70, 0x74, 0x78, 0x7C,
    0x80, 0x84, 0x88]

/-- The bits a write of a writable register looks at (R23, R34 to R39). -/
def writtenBits : List (Nat × Word) :=
  [(0x08, 0x00000010#32), (0x40, 0x00001F1F#32), (0x44, 0xFFFFFFFF#32), (0x48, 0x7F7F7F7F#32),
    (0x4C, 0x7F7F7F7F#32), (0x50, 0x00FFFFFF#32), (0x54, 0x00FFFFFF#32), (0x58, 0x00FFFFFF#32),
    (0x5C, 0x00FFFFFF#32), (0x60, 0x000000FF#32), (0x6C, 0xFFFFFFFF#32)]

end Sys2Proof.Claims

open Sys2Proof.Claims

/-! ## Encoding (30_encoding.md) -/

/-- Every command, with every operand at every value, is read back from its word (R70, R71, R79, R80). -/
def Obligations.DecodeOfEncode : Prop := ∀ i : Instr, decode (encode i) = .ok i

/-- A word the decoder accepts is the encoding of what it reads: no bit of a legal word is dropped (R71, R80,
R81). -/
def Obligations.EncodeOfDecode : Prop := ∀ (w : Word) (i : Instr), decode w = .ok i → encode i = w

/-- R80: `w & mask == match` holds exactly for the legal encodings of the row's command. -/
def Obligations.MaskAndMatchDecide : Prop :=
  ∀ (op : Op) (w : Word), w &&& opMask op = opMatch op ↔ decode w = .ok (instrOf op w)

/-- The example words of R84 and of the commands' rules decode to the commands they stand for. -/
def Obligations.SampleWordsDecode : Prop :=
  decode 0x00000000#32 = .ok .nop ∧ decode 0x01000000#32 = .ok .srst ∧
  decode 0x11000005#32 = .ok (.mrst1 5#8) ∧ decode 0x12010007#32 = .ok (.mupd true 7#8) ∧
  decode 0x18000003#32 = .ok (.snap 3#4) ∧ decode 0x20200000#32 = .ok (.einit true) ∧
  decode 0x21010021#32 = .ok (.encb false true 33#8) ∧ decode 0x21800000#32 = .ok (.encb true false 0#8) ∧
  decode 0x22050003#32 = .ok (.enci false 5#5 3#16) ∧ decode 0x32050000#32 = .ok (.deci 5#5) ∧
  decode 0x40400000#32 = .ok (.enblk false true) ∧ decode 0x40C00000#32 = .ok (.enblk true true) ∧
  decode 0x51000000#32 = .ok .tinv ∧ decode 0x600000FF#32 = .ok (.csput 0xFF#8) ∧
  decode 0x62000002#32 = .ok (.csrw 2#24)

/-- R81: a word with no row of R80 raises `E_ILL` with `ERRINFO = w` and changes nothing else; every other word
is one of the 25 commands. -/
def Obligations.IllegalWordsFault : Prop :=
  ∀ (w : Word) (s : State), s.fault = false →
    ((∀ op, w &&& opMask op ≠ opMatch op) → cmdWrite w s = .next (faulted s 1#8 w)) ∧
    ((∃ op, w &&& opMask op = opMatch op) → ∃ i, decode w = .ok i ∧ cmdWrite w s = exec i s)

/-! ## The step (10_state.md R10, R20, R22; 45_system_codestream.md R176) -/

/-- When the host's next action writes a legal command word and `FAULT = 0`, step is `exec` of the command, on
the state with the action taken off and answered; the same from `withFetchWord`; and with no action left
nothing changes (70_reset_and_hazards.md R202). -/
def Obligations.StepRunsCommand : Prop :=
  (∀ (s : State) (w : Word) (i : Instr) (rest : List HostAction),
    s.host = .write 32 4 w :: rest → s.fault = false → decode w = .ok i →
    step s = exec i { s with host := rest, resp := .done }) ∧
  (∀ (s : State) (w : Nat) (i : Instr), s.fault = false → w < 2 ^ 32 → decode (BitVec.ofNat 32 w) = .ok i →
    step (s.withFetchWord 32 w) = exec i { s with resp := .done }) ∧
  ∀ s : State, s.host = [] → step s = .next s

/-- In the fault state a `CMD` write of any word but `0x01000000` has no effect, and that word runs `SRST`
(60_exceptions.md R184, R176). -/
def Obligations.FaultStateDropsCommands : Prop :=
  ∀ (s : State) (w : Word) (rest : List HostAction), s.fault = true → s.host = .write 32 4 w :: rest →
    (w ≠ 0x01000000#32 → step s = .next { s with host := rest, resp := .done }) ∧
    (w = 0x01000000#32 → step s = exec .srst { s with host := rest, resp := .done })

/-- R185: the only ways out of the fault state are `SRST` and hardware reset. -/
def Obligations.OnlyResetLeavesFaultState : Prop :=
  ∀ s t : State, s.fault = true → step s = .next t → t.fault = false →
    ∃ a rest, s.host = a :: rest ∧ (a = .write 32 4 0x01000000#32 ∨ a = .resetLine ∨ a = .powerOn)

/-- No command stops the model, and from a state with the invariant no host action does: every fault of J4D is a
next state (R183). -/
def Obligations.StepNeverStops : Prop :=
  (∀ (i : Instr) (s : State), ∃ t, exec i s = .next t) ∧
  ∀ s : State, s.Inv → ∃ t, step s = .next t

/-! ## Reset (10_state.md R48; 45_system_codestream.md R171; 70_reset_and_hazards.md R200) -/

/-- The values R48 gives for power-on reset, piece by piece, as a host reads them where it can. -/
def Obligations.ResetState : Prop :=
  State.reset.mode = .idle ∧ State.reset.fault = false ∧ State.reset.tsat = false ∧
  State.reset.low = 0x0000#16 ∧ State.reset.high = 0xFFFF#16 ∧
  (∀ c, c < 161 → bankGet State.reset c = { z := 1#12, t := 2#12 }) ∧
  (∀ k, slotValid State.reset k = false) ∧
  State.reset.tcvFwd = [] ∧ State.reset.tcvInv = [] ∧ (∀ a, State.reset.gcv.get a = []) ∧
  State.reset.inp = [] ∧ State.reset.cur = 0 ∧ State.reset.out = [] ∧
  regValue State.reset .status = 0x00000008#32 ∧ regValue State.reset .blkLen = 0x01010101#32 ∧
  regValue State.reset .tlen = 0x01010101#32 ∧ (∀ a, regValue State.reset (.gain a) = 0x00010000#32) ∧
  regValue State.reset .mval = 0x00020001#32 ∧ regValue State.reset .csPeek = 0x00000100#32 ∧
  ∀ r ∈ [Reg.err, .errInfo, .cmdCnt, .result, .rateOut, .rateLo, .rateHi, .acLow, .acPend, .acCode, .acBits,
    .bplane, .blkBase, .midx, .bmAddr, .outCnt, .tcFills, .gcFills, .slotv], regValue State.reset r = 0#32

/-- R171: `SRST` gives every piece of state its value of R48 with `BMEM`, `IN`, `CUR`, `OUT` unchanged; it does
not retire. The reset line does the same; power-on empties the codestream too (R200). -/
def Obligations.SoftResetResult : Prop :=
  (∀ s : State, exec .srst s = .next
    { mode := .idle, fault := false, tsat := false, err := 0#8, errInfo := 0#32, cmdCnt := 0#32
      result := 0#32, rateOut := 0#32, rateAcc := 0#64, low := 0x0000#16, high := 0xFFFF#16, pend := 0#32
      code := 0#16, bb := 0#8, bbn := 0#4, db := 0#8, dbn := 0#4, sup := 0#5, inf := 0#5
      blkBase := 0#32, blkLen := ⟨1#7, 1#7, 1#7, 1#7⟩, tlen := ⟨1#7, 1#7, 1#7, 1#7⟩
      gain := ⟨0x010000#24, 0x010000#24, 0x010000#24, 0x010000#24⟩, midx := 0#8, bmAddr := 0#18
      bank := Vector.replicate 161 { z := 1#12, t := 2#12 }, slots := Vector.replicate 16 none
      tcvFwd := [], tcvInv := [], gcv := ⟨[], [], [], []⟩, tcFills := 0#32, gcFills := 0#32, outCnt := 0#32
      mem := s.mem, inp := s.inp, cur := s.cur, out := s.out
      host := s.host, resp := s.resp, par := s.par, freeCtr := s.freeCtr }) ∧
  ∀ (s t : State) (rest : List HostAction), exec .srst { s with host := rest } = .next t →
    (s.host = .resetLine :: rest → step s = .next { t with resp := .done }) ∧
    (s.host = .powerOn :: rest →
      ∃ m, step s = .next { t with resp := .done, mem := m, inp := [], cur := 0, out := [] } ∧ m.cells = [])

/-! ## The model bank (40_model_bank.md) -/

/-- `MRST` and `MRST1` (R97, R98, R93): the models become `(1, 2)`, nothing else changes but `CMDCNT`. -/
def Obligations.ModelResetCommands : Prop :=
  ∀ s : State,
    exec .mrst s = .next
      { s with bank := Vector.replicate 161 { z := 1#12, t := 2#12 }, cmdCnt := s.cmdCnt + 1#32 } ∧
    ∀ ctx : BitVec 8, ctx.toNat < 161 →
      exec (.mrst1 ctx) s = .next
        { s with
          bank := s.bank.setIfInBounds ctx.toNat { z := 1#12, t := 2#12 }, cmdCnt := s.cmdCnt + 1#32 }

/-- `MUPD` (R92, R99): from a model with R15's invariant the new counts are the rule's, as integers, they
satisfy the invariant again, and nothing else changes but `CMDCNT`. -/
def Obligations.MupdResult : Prop :=
  ∀ (s : State) (b : Bool) (ctx : BitVec 8), ctx.toNat < 161 → (bankGet s ctx.toNat).ok →
    ∃ m : Model,
      exec (.mupd b ctx) s = .next
        { s with bank := s.bank.setIfInBounds ctx.toNat m, cmdCnt := s.cmdCnt + 1#32 } ∧
      m.ok ∧
      (let z := (bankGet s ctx.toNat).z.toNat + (if b then 0 else 1)
       let t := (bankGet s ctx.toNat).t.toNat + 1
       if t = 4095 then m.z.toNat = max 1 (z / 2) ∧ m.t.toNat = m.z.toNat + max 1 ((4095 - z) / 2)
       else m.z.toNat = z ∧ m.t.toNat = t)

/-- `MRATE` (R95, R100): `RATE_OUT` is the difference of the two logarithms, between `0x17` and `0xBFFD1` for
every model with R15's invariant; nothing else changes but `CMDCNT`. -/
def Obligations.MrateResult : Prop :=
  ∀ (s : State) (b : Bool) (ctx : BitVec 8), ctx.toNat < 161 → (bankGet s ctx.toNat).ok →
    ∃ r : Word,
      exec (.mrate b ctx) s = .next { s with rateOut := r, cmdCnt := s.cmdCnt + 1#32 } ∧
      r.toNat + log2q (if b then (bankGet s ctx.toNat).t.toNat - (bankGet s ctx.toNat).z.toNat
        else (bankGet s ctx.toNat).z.toNat) = log2q (bankGet s ctx.toNat).t.toNat ∧
      0x17 ≤ r.toNat ∧ r.toNat ≤ 0xBFFD1

/-- `LOG2Q` is strictly increasing on `1 .. 4095` and exact on powers of two (R94), so for a fixed total the rate
of a 1 falls as the count of ones rises (R104). -/
def Obligations.Log2qIncreasing : Prop :=
  (∀ k, 1 ≤ k → k < 4095 → log2q k < log2q (k + 1)) ∧ (∀ e, e ≤ 11 → log2q (2 ^ e) = e * 65536) ∧
  ∀ m n : Model, m.ok → n.ok → m.t = n.t → m.z.toNat < n.z.toNat → m.rate true < n.rate true

/-- `SNAP` and `REST` (R102, R103), for a slot the machine has, with `E_SLOT` for an invalid slot and `E_ARG` for a
slot it does not have; and `REST` of a slot after `SNAP` of it gives back the bank of the `SNAP`. -/
def Obligations.SnapAndRest : Prop :=
  ∀ (s : State) (k : BitVec 4),
    (k.toNat < s.par.nslot →
      exec (.snap k) s = .next
        { s with slots := s.slots.setIfInBounds k.toNat (some s.bank), cmdCnt := s.cmdCnt + 1#32 } ∧
      (∀ b, s.slots.getD k.toNat none = some b →
        exec (.rest k) s = .next { s with bank := b, cmdCnt := s.cmdCnt + 1#32 }) ∧
      (s.slots.getD k.toNat none = none → exec (.rest k) s = .next (faulted s 4#8 (k.setWidth 32))) ∧
      ∀ t u : State, exec (.snap k) s = .next t → u.slots = t.slots → u.par = t.par →
        exec (.rest k) u = .next { u with bank := s.bank, cmdCnt := u.cmdCnt + 1#32 }) ∧
    (s.par.nslot ≤ k.toNat →
      exec (.snap k) s = .next (faulted s 3#8 (encode (.snap k))) ∧
      exec (.rest k) s = .next (faulted s 3#8 (encode (.rest k))))

/-! ## The arithmetic encoder (41_arith_encoder.md) -/

/-- `EINIT` in IDLE (R116) and `DFIN` in DEC (42_arith_decoder.md R126). -/
def Obligations.EinitAndDfinResults : Prop :=
  ∀ s : State,
    (∀ m : Bool, s.mode = .idle →
      exec (.einit m) s = .next
        { s with
          bank := if m then Vector.replicate 161 { z := 1#12, t := 2#12 } else s.bank
          low := 0x0000#16, high := 0xFFFF#16, pend := 0#32, bb := 0#8, bbn := 0#4, mode := .enc
          cmdCnt := s.cmdCnt + 1#32 }) ∧
    (s.mode = .dec →
      exec .dfin s = .next
        { s with
          low := 0x0000#16, high := 0xFFFF#16, code := 0#16, db := 0#8, dbn := 0#4, mode := .idle
          cmdCnt := s.cmdCnt + 1#32 })

/-- R111: with R110's interval and R15's invariant, `Split(c)` is the floor of the quotient and leaves at least
four values to the zero symbol and at least four to the one symbol. -/
def Obligations.SplitWithinInterval : Prop :=
  ∀ (s : State) (c : Nat), (bankGet s c).ok → intervalOk s.low s.high →
    split c s = (splitNat s c : Int) ∧ 4 ≤ splitNat s c ∧ splitNat s c + 3 ≤ s.high.toNat - s.low.toNat

/-- R113: the loop has ended after 16 passes whatever the interval, and from `LOW <= HIGH` it leaves the interval of
R110. -/
def Obligations.RenormalisationEnds : Prop :=
  ∀ s : State,
    renormCase (encRenorm s).low (encRenorm s).high = .settled ∧
    (s.low.toNat ≤ s.high.toNat → intervalOk (encRenorm s).low (encRenorm s).high)

/-- `ENCB` with `C = 0` (R114, R117): the interval narrowed by the split under the model before its update, then
renormalised, the model `ctx` updated, nothing else changed but `CMDCNT`; the interval is R110's again. -/
def Obligations.EncbResult : Prop :=
  ∀ (s : State) (b : Bool) (ctx : BitVec 8), s.mode = .enc → ctx.toNat < 161 → (bankGet s ctx.toNat).ok →
    intervalOk s.low s.high →
    ∃ r : State,
      r = encRenorm (if b then { s with low := BitVec.ofNat 16 (s.low.toNat + splitNat s ctx.toNat) }
        else { s with high := BitVec.ofNat 16 (s.low.toNat + splitNat s ctx.toNat - 1) }) ∧
      exec (.encb false b ctx) s = .next
        { r with
          bank := s.bank.setIfInBounds ctx.toNat ((bankGet s ctx.toNat).update b)
          cmdCnt := s.cmdCnt + 1#32 } ∧
      intervalOk r.low r.high

/-- `ENCB` with `C = 1` (R117, 40_model_bank.md R96), in every mode: the rate under the model before the update is
added to `RATEACC`, the model updated, nothing else changed but `CMDCNT`. -/
def Obligations.CostOnlyBit : Prop :=
  ∀ (s : State) (b : Bool) (ctx : BitVec 8), ctx.toNat < 161 →
    exec (.encb true b ctx) s = .next
      { s with
        rateAcc := s.rateAcc + BitVec.ofInt 64 ((bankGet s ctx.toNat).rate b)
        bank := s.bank.setIfInBounds ctx.toNat ((bankGet s ctx.toNat).update b)
        cmdCnt := s.cmdCnt + 1#32 }

/-- The frames of `ENCB`, `ENCI` and `ENBLK` where they retire (R117, R118, 43_bitplane.md R137): with `C = 0` only
the interval, the pending and collected bits, the models and the sink change, and the sink only grows, by as
many bytes as `OUTCNT` counts; with `C = 1` only `RATEACC` and the models. -/
def Obligations.CodingFrames : Prop :=
  ∀ (s t : State) (c : Bool) (i : Instr),
    ((∃ b ctx, i = .encb c b ctx) ∨ (∃ n v, i = .enci c n v) ∨ ∃ h, i = .enblk c h) →
    exec i s = .next t → t.cmdCnt = s.cmdCnt + 1#32 →
    (c = false →
      t = { s with
            low := t.low, high := t.high, pend := t.pend, bb := t.bb, bbn := t.bbn, out := t.out
            outCnt := t.outCnt, bank := t.bank, cmdCnt := s.cmdCnt + 1#32 } ∧
      ∃ bytes, t.out = s.out ++ bytes ∧ t.outCnt = s.outCnt + BitVec.ofNat 32 bytes.length) ∧
    (c = true → t = { s with rateAcc := t.rateAcc, bank := t.bank, cmdCnt := s.cmdCnt + 1#32 })

/-- R118: `ENCI n, v` is the `n` commands `ENCB 0, v[n-1]` … `ENCB 0, v[0]`, but that it retires once. -/
def Obligations.EnciIsBits : Prop :=
  ∀ (s : State) (c : Bool) (n : BitVec 5) (v : BitVec 16), (c = false → s.mode = .enc) →
    1 ≤ n.toNat → n.toNat ≤ 16 → v.toNat < 2 ^ n.toNat →
    ∃ t, runAll ((List.range n.toNat).map fun i => .encb c (v.getLsbD (n.toNat - 1 - i)) 0#8) s = .next t ∧
      exec (.enci c n v) s = .next { t with cmdCnt := s.cmdCnt + 1#32 }

/-- `EFIN` (R119, R112, 20_memory.md R60): the bytes it pushes are, most significant bit first, the bits waiting in
`BB`, `LOW[15]`, `PEND` copies of its complement, `LOW[14..0]` and fewer than 8 padding zeros; the coder is
IDLE with a whole interval and nothing else changes but `CMDCNT`. -/
def Obligations.EfinFlushes : Prop :=
  ∀ s : State, s.mode = .enc → s.bbn.toNat ≤ 7 →
    ∃ (bytes : List Byte) (pad : Nat),
      pad < 8 ∧
      bytes.flatMap byteBits = waitingBits s ++ [s.low.msb] ++ List.replicate s.pend.toNat (!s.low.msb) ++
        ((List.range 15).map fun i => s.low.getLsbD (14 - i)) ++ List.replicate pad false ∧
      exec .efin s = .next
        { s with
          low := 0x0000#16, high := 0xFFFF#16, pend := 0#32, bb := 0#8, bbn := 0#4, mode := .idle
          out := s.out ++ bytes, outCnt := s.outCnt + BitVec.ofNat 32 bytes.length
          cmdCnt := s.cmdCnt + 1#32 }

/-! ## The arithmetic decoder (42_arith_decoder.md) -/

/-- `DINIT` with two bytes at the cursor (R123): `CODE` is the two bytes, the first the more significant. -/
def Obligations.DinitResult : Prop :=
  ∀ (s : State) (m : Bool) (x y : Byte), s.mode = .idle → s.inp[s.cur]? = some x → s.inp[s.cur + 1]? = some y →
    exec (.dinit m) s = .next
      { s with
        bank := if m then Vector.replicate 161 { z := 1#12, t := 2#12 } else s.bank
        low := 0x0000#16, high := 0xFFFF#16, code := x ++ y, db := 0#8, dbn := 0#4, cur := s.cur + 2
        mode := .dec, cmdCnt := s.cmdCnt + 1#32 }

/-- R120, R129, R181: when the imprecise `E_EOS` is taken and what it leaves. It changes only the pieces it names from the
state before the command (`freeCtr` is the model's own, logs 5 and 7), `CUR = len(IN)`, and the words outside the
current block are as before. `DINIT` takes it when fewer than two bytes remain (R123). A command that decodes needs
exactly the bytes it moves `CUR` past: with the source cut at one of them it takes `E_EOS`, cut behind them it does
the same as before. `DECB` with `DBN = 0` at the end of the source takes it exactly when the narrowed interval asks
for a bit. -/
def Obligations.ExhaustionFrame : Prop :=
  (∀ (s t : State) (i : Instr), decodes i = true → s.fault = false → exec i s = .next t → t.fault = true →
    t.err = 7#8 →
    t = { s with
          fault := true, err := 7#8, errInfo := encode i, cur := s.inp.length
          low := t.low, high := t.high, code := t.code, db := t.db, dbn := t.dbn, result := t.result
          bank := t.bank, mode := t.mode, inf := t.inf, mem := t.mem, freeCtr := t.freeCtr } ∧
    ((∀ m, i ≠ .dinit m) → t.mode = s.mode) ∧
    ((∀ h, i ≠ .deblk h) → t.inf = s.inf ∧ t.mem = s.mem) ∧
    (s.mem.wf → ∀ a, ¬inBlock s a → t.mem.read a = s.mem.read a)) ∧
  (∀ (s : State) (m : Bool), s.mode = .idle → s.inp.length < s.cur + 2 →
    ∃ t, exec (.dinit m) s = .next t ∧ t.fault = true ∧ t.err = 7#8) ∧
  (∀ (s t : State) (i : Instr) (m : Nat), decodes i = true → s.fault = false → exec i s = .next t →
    t.cmdCnt = s.cmdCnt + 1#32 → s.cur ≤ m →
    (t.cur ≤ m → exec i { s with inp := s.inp.take m } = .next { t with inp := s.inp.take m }) ∧
    (m < t.cur → ∃ u, exec i { s with inp := s.inp.take m } = .next u ∧ u.fault = true ∧ u.err = 7#8 ∧
      u.errInfo = encode i)) ∧
  ∀ (s : State) (ctx : BitVec 8), s.mode = .dec → ctx.toNat < 161 → s.dbn = 0#4 → s.inp.length ≤ s.cur →
    let n := narrow ctx.toNat (decodedBit ctx.toNat s) s
    (renormCase n.low n.high ≠ .settled →
      ∃ t, exec (.decb ctx) s = .next t ∧ t.fault = true ∧ t.err = 7#8 ∧ t.errInfo = encode (.decb ctx)) ∧
    (renormCase n.low n.high = .settled →
      ∃ t, exec (.decb ctx) s = .next t ∧ t.cmdCnt = s.cmdCnt + 1#32 ∧ t.fault = s.fault ∧ t.err = s.err)

/-- `DECB` with two more bytes in the source than the cursor has passed (R121, R122, R124): the bit is the side of the split
`CODE` lies on, the model is updated, the interval is settled again and holds `CODE`, and nothing else changes
but the decoder's own pieces, `RESULT` and `CMDCNT`. -/
def Obligations.DecbResult : Prop :=
  ∀ (s : State) (ctx : BitVec 8), s.mode = .dec → ctx.toNat < 161 → (bankGet s ctx.toNat).ok →
    intervalOk s.low s.high → s.low.toNat ≤ s.code.toNat → s.code.toNat ≤ s.high.toNat →
    s.cur + 2 ≤ s.inp.length →
    ∃ t, exec (.decb ctx) s = .next t ∧
      t = { s with
            low := t.low, high := t.high, code := t.code, db := t.db, dbn := t.dbn, cur := t.cur
            bank := s.bank.setIfInBounds ctx.toNat
              ((bankGet s ctx.toNat).update (splitNat s ctx.toNat ≤ s.code.toNat - s.low.toNat))
            result := if splitNat s ctx.toNat ≤ s.code.toNat - s.low.toNat then 1#32 else 0#32
            cmdCnt := s.cmdCnt + 1#32 } ∧
      intervalOk t.low t.high ∧ t.low.toNat ≤ t.code.toNat ∧ t.code.toNat ≤ t.high.toNat ∧
      s.cur ≤ t.cur ∧ t.cur ≤ s.cur + 2

/-- `DECI n` with `2*n` more bytes in the source (R125, R121): it decodes what `n` commands `DECB 0` decode, most significant
bit first, and retires once. -/
def Obligations.DeciResult : Prop :=
  ∀ (s : State) (n : BitVec 5), s.mode = .dec → s.fault = false → 1 ≤ n.toNat → n.toNat ≤ 16 →
    s.cur + 2 * n.toNat ≤ s.inp.length →
    ∃ (rs : List Word) (t : State), decodeRun (List.replicate n.toNat 0#8) s = some (rs, t) ∧
      exec (.deci n) s = .next
        { t with
          result := BitVec.ofNat 32 (rs.foldl (fun v r => 2 * v + r.toNat) 0), cmdCnt := s.cmdCnt + 1#32 } ∧
      t = { s with
            low := t.low, high := t.high, code := t.code, db := t.db, dbn := t.dbn, cur := t.cur
            bank := t.bank, result := t.result, cmdCnt := t.cmdCnt }

/-- R127, one symbol: a decoder whose interval and bank are the encoder's has, after decoding a bit, the interval and
bank the encoder has after coding that bit. -/
def Obligations.IntervalLockStep : Prop :=
  ∀ (e d d' : State) (c : Nat) (b : Bool), d.low = e.low → d.high = e.high → d.bank = e.bank →
    decodeBit c d = some (b, d') →
    d'.low = (encodeBit c b e).low ∧ d'.high = (encodeBit c b e).high ∧ d'.bank = (encodeBit c b e).bank

/-- R127 and R128, a whole segment: what `EINIT`, `ENCB`s and `EFIN` push to the sink, a `DINIT` on those bytes and
`DECB`s in the same contexts give back, with the encoder's bank and interval, `CODE = LOW`, and the cursor just past the
segment, whatever bytes stand before and after it. -/
def Obligations.CodecRoundTrip : Prop :=
  ∀ (s : State) (syms : List (BitVec 8 × Bool)), s.mode = .idle → s.fault = false → s.bank.ok →
    (∀ p ∈ syms, p.1.toNat < 161) → 16 * syms.length < 2 ^ 32 →
    ∃ (e f : State) (bytes : List Byte),
      runAll (.einit false :: syms.map fun p => .encb false p.2 p.1) s = .next e ∧
      exec .efin e = .next f ∧ f.out = s.out ++ bytes ∧
      ∀ (d : State) (before after : List Byte), d.mode = .idle → d.fault = false → d.bank = s.bank →
        d.inp = before ++ bytes ++ after → d.cur = before.length →
        ∃ d0 d1 : State, exec (.dinit false) d = .next d0 ∧
          decodeRun (syms.map Prod.fst) d0 = some (syms.map fun p => if p.2 then 1#32 else 0#32, d1) ∧
          d1.low = e.low ∧ d1.high = e.high ∧ d1.bank = e.bank ∧ d1.code = e.low ∧
          d1.cur = before.length + bytes.length

/-! ## Modes and faults (10_state.md R19; 60_exceptions.md) -/

/-- R19: a command the mode does not admit raises `E_MODE`, an admitted one does not; a command that does not fault changes
`MODE` as the transitions say, no other command ever changes it, and a reset makes it IDLE. -/
def Obligations.ModesAdmitCommands : Prop :=
  (∀ (i : Instr) (s : State), admits s.mode i = false → exec i s = .next (faulted s 2#8 (encode i))) ∧
  (∀ (i : Instr) (s t : State), s.fault = false → admits s.mode i = true → exec i s = .next t →
    t.fault = true → t.err ≠ 2#8) ∧
  (∀ (s t : State), s.fault = false → t.fault = false →
    (∀ m, exec (.einit m) s = .next t → s.mode = .idle ∧ t.mode = .enc) ∧
    (exec .efin s = .next t → s.mode = .enc ∧ t.mode = .idle) ∧
    (∀ m, exec (.dinit m) s = .next t → s.mode = .idle ∧ t.mode = .dec) ∧
    (exec .dfin s = .next t → s.mode = .dec ∧ t.mode = .idle) ∧
    (exec .srst s = .next t → t.mode = .idle)) ∧
  (∀ (i : Instr) (s t : State), exec i s = .next t → t.mode = s.mode ∨ i = .efin ∨ i = .dfin ∨ i = .srst ∨
    ∃ m, i = .einit m ∨ i = .dinit m) ∧
  ∀ (s t : State) (rest : List HostAction), s.host = .resetLine :: rest ∨ s.host = .powerOn :: rest →
    step s = .next t → t.mode = .idle

/-- R79, R182: an admitted command whose operands are out of range raises `E_ARG` with the command word and changes
nothing else. -/
def Obligations.OperandRangeFaults : Prop :=
  ∀ (i : Instr) (s : State), i.wellFormed = false → admits s.mode i = true →
    exec i s = .next (faulted s 3#8 (encode i))

/-- R181: a fault other than the imprecise `E_EOS` leaves the state before the command with `FAULT`, `ERR` and
`ERRINFO` set. -/
def Obligations.PreciseFaults : Prop :=
  ∀ (i : Instr) (s t : State), s.fault = false → exec i s = .next t → t.fault = true →
    ¬(decodes i = true ∧ t.err = 7#8) → t = { s with fault := true, err := t.err, errInfo := t.errInfo }

/-- R175: `CMDCNT` counts the commands that retire, and nothing else moves it but the resets. -/
def Obligations.RetireCounts : Prop :=
  (∀ (i : Instr) (s t : State), s.fault = false → exec i s = .next t →
    (i ≠ .srst → t.fault = false → t.cmdCnt = s.cmdCnt + 1#32) ∧
    (i = .srst → t.cmdCnt = 0#32) ∧ (t.fault = true → t.cmdCnt = s.cmdCnt)) ∧
  (∀ (s t : State) (w : Word), s.fault = true → w ≠ 0x01000000#32 → cmdWrite w s = .next t →
    t.cmdCnt = s.cmdCnt) ∧
  ∀ (s t : State) (a : HostAction) (rest : List HostAction), s.host = a :: rest → step s = .next t →
    (∀ w, a ≠ .write 32 4 w) → a ≠ .resetLine → a ≠ .powerOn → t.cmdCnt = s.cmdCnt

/-- What commands leave alone, over all of them but `SRST`: the configuration registers but `INF` (R12), `MIDX`, `BM_ADDR`
(R211), and the slots but for `SNAP` (R102); over all of them: `IN` (20_memory.md R58), and `BMEM` but for `DEBLK`,
`TFWD`, `TINV` (R213); and the sink only grows (R57). `INF` is changed by `DEBLK` alone: with `H` by the decoded header
(R140, R210), without `H` only where it takes the imprecise `E_EOS` (R129). -/
def Obligations.CommandsKeepConfiguration : Prop :=
  ∀ (i : Instr) (s t : State), exec i s = .next t →
    t.inp = s.inp ∧ s.out <+: t.out ∧ (writesBlock i = false → t.mem = s.mem) ∧
    (i ≠ .srst →
      t.sup = s.sup ∧ ((∀ h, i ≠ .deblk h) → t.inf = s.inf) ∧
      (i = .deblk false → t.inf = s.inf ∨ (t.fault = true ∧ t.err = 7#8 ∧ t.cur = s.inp.length)) ∧
      t.blkBase = s.blkBase ∧
      t.blkLen = s.blkLen ∧ t.tlen = s.tlen ∧ t.gain = s.gain ∧ t.midx = s.midx ∧ t.bmAddr = s.bmAddr ∧
      ((∀ k, i ≠ .snap k) → t.slots = s.slots))

/-! ## The bitplane coder (43_bitplane.md) -/

/-- R132: the children of a sub-block partition it, none is empty, and there are `2^k` of them, `k` the number of axes
longer than 1. -/
def Obligations.ChildrenPartition : Prop :=
  ∀ b : Sub, (∀ a, 1 ≤ b.len.get a) →
    ((children b).flatMap Sub.cells).Perm b.cells ∧
    (∀ child ∈ children b, ∀ a, 1 ≤ child.len.get a) ∧
    (children b).length = 2 ^ (allAxes.filter fun a => 1 < b.len.get a).length

/-- R136, R214: no walk from plane 30 or lower over axes of at most 64 nests deeper than the model's bound: with any larger
bound the walks do the same. -/
def Obligations.WalkDepthSuffices : Prop :=
  ∀ (blk : Block) (inf n : Nat) (b : Sub) (p : Int) (s : State), walkDepth ≤ n → p ≤ 30 →
    (∀ a, 1 ≤ b.len.get a ∧ b.len.get a ≤ 64) →
    (∀ c, walkEncLoop blk inf c n b p s = walkEncLoop blk inf c walkDepth b p s) ∧
    walkDecLoop blk inf n b p s = walkDecLoop blk inf walkDepth b p s

/-- R137: where the checks pass, `ENBLK` codes the header (if asked) and the walk, and retires. -/
def Obligations.EnblkCompletes : Prop :=
  ∀ (s : State) (c h : Bool), (c = false → s.mode = .enc) → blockLegal s → s.sup.toNat ≤ 30 →
    s.inf.toNat ≤ s.sup.toNat → (∀ a, inBlock s a → (memRead s a).natAbs < 2 ^ (s.sup.toNat + 1)) →
    exec (.enblk c h) s = .next
      { walkEnc (currentBlock s) s.sup.toNat s.inf.toNat c (if h then codeInt 5 s.inf.toNat c s else s) with
        cmdCnt := s.cmdCnt + 1#32 }

/-- Two walks whole (R134, R135, R144). A block of more than one element whose words are all below `2^INF` costs one bit,
`ZeroBlock` in `CTX_SEG(SUP,0)`. A one-element block codes the magnitude bits from plane `SUP` down to `INF`, each in
`CTX_MAG`, then the sign in context 0 if one of them was 1. -/
def Obligations.EnblkKnownWalks : Prop :=
  ∀ (s : State) (c : Bool), (c = false → s.mode = .enc) → blockLegal s → s.sup.toNat ≤ 30 →
    s.inf.toNat ≤ s.sup.toNat →
    (nel s ≠ 1 → (∀ a, inBlock s a → (memRead s a).natAbs < 2 ^ s.inf.toNat) →
      exec (.enblk c false) s = .next
        { codeBit (33 + 2 * s.sup.toNat) true c s with cmdCnt := s.cmdCnt + 1#32 }) ∧
    (nel s = 1 → (memRead s s.blkBase.toNat).natAbs < 2 ^ (s.sup.toNat + 1) →
      let x := memRead s s.blkBase.toNat
      let bits := (List.range (s.sup.toNat + 1 - s.inf.toNat)).map fun i =>
        (1 + (s.sup.toNat - i), x.natAbs.testBit (s.sup.toNat - i))
      let sign := if bits.any Prod.snd then [(0, decide (x < 0))] else []
      exec (.enblk c false) s = .next
        { (bits ++ sign).foldl (fun st q => codeBit q.1 q.2 c st) s with cmdCnt := s.cmdCnt + 1#32 })

/-- R143, R115: coding for real and pricing the same bit, integer or block leave the same bank. -/
def Obligations.CostAndRealAgreeOnBank : Prop :=
  ∀ (s t u : State), s.mode = .enc →
    (∀ b ctx, exec (.encb true b ctx) s = .next t → exec (.encb false b ctx) s = .next u → t.bank = u.bank) ∧
    (∀ n v, exec (.enci true n v) s = .next t → exec (.enci false n v) s = .next u → t.bank = u.bank) ∧
    ∀ h, exec (.enblk true h) s = .next t → exec (.enblk false h) s = .next u → t.bank = u.bank

/-- R131, R137, R140, R182: the walker's configuration faults, in their order, each with its information word and nothing else
changed. That a length is compared with `MAXLEN` (R36) and not with R131's 64 is the model's choice, log 24. -/
def Obligations.WalkerConfigFaults : Prop :=
  ∀ (s : State) (i : Instr), ((∃ c h, i = .enblk c h) ∨ ∃ h, i = .deblk h) → admits s.mode i = true →
    (¬lengthsLegal s → exec i s = .next (faulted s 5#8 1#32)) ∧
    (lengthsLegal s → s.par.blkCap < s.blkBase.toNat + nel s →
      exec i s = .next (faulted s 9#8 (encode i))) ∧
    (blockLegal s → 30 < s.sup.toNat → exec i s = .next (faulted s 5#8 4#32)) ∧
    (blockLegal s → s.sup.toNat ≤ 30 → s.sup.toNat < s.inf.toNat → i ≠ .deblk true →
      exec i s = .next (faulted s 5#8 5#32)) ∧
    (blockLegal s → s.sup.toNat ≤ 30 → s.inf.toNat ≤ s.sup.toNat → (∃ c h, i = .enblk c h) →
      ∀ a, inBlock s a → 2 ^ (s.sup.toNat + 1) ≤ (memRead s a).natAbs →
        (∀ b, inBlock s b → b < a → (memRead s b).natAbs < 2 ^ (s.sup.toNat + 1)) →
        exec i s = .next (faulted s 6#8 (BitVec.ofNat 32 a)))

/-- `DEBLK` completes (R140) whenever its checks pass and the source holds enough bytes: 200 for each element and 10 for the
header are more than any walk reads. -/
def Obligations.DeblkCompletes : Prop :=
  ∀ (s : State) (h : Bool), s.mode = .dec → blockLegal s → s.sup.toNat ≤ 30 →
    (h = false → s.inf.toNat ≤ s.sup.toNat) → s.cur + 200 * nel s + 10 ≤ s.inp.length →
    ∃ t, exec (.deblk h) s = .next t ∧ t.cmdCnt = s.cmdCnt + 1#32 ∧ t.fault = s.fault ∧ t.err = s.err

/-- Where `DEBLK` retires (R138, R139, R140): only the decoder's pieces, the models, `INF` (with `H`), the block's words and
`CMDCNT` change, and every word of the block is a multiple of `2^INF` with a magnitude below `2^(SUP+1)`. -/
def Obligations.DeblkFrameAndWords : Prop :=
  ∀ (s t : State) (h : Bool), s.mem.wf → exec (.deblk h) s = .next t → t.cmdCnt = s.cmdCnt + 1#32 →
    t = { s with
          low := t.low, high := t.high, code := t.code, db := t.db, dbn := t.dbn, cur := t.cur
          bank := t.bank, mem := t.mem, inf := t.inf, cmdCnt := s.cmdCnt + 1#32 } ∧
    (h = false → t.inf = s.inf) ∧
    (∀ a, ¬inBlock s a → t.mem.read a = s.mem.read a) ∧
    ∀ a, inBlock s a → (2 ^ t.inf.toNat : Int) ∣ memRead t a ∧ (memRead t a).natAbs < 2 ^ (s.sup.toNat + 1)

/-- R141: the round trip of a block. What `EINIT`, `ENBLK`, `EFIN` push, `DINIT` and `DEBLK` with the same `H`, `BLK_LEN`,
`SUP` (and `INF` without `H`) and bank give back with the bits below `INF` cleared, and with the encoder's bank. -/
def Obligations.BlockRoundTrip : Prop :=
  ∀ (s : State) (h : Bool), s.mode = .idle → s.fault = false → s.bank.ok → s.par.ok → blockLegal s →
    s.sup.toNat ≤ 30 → s.inf.toNat ≤ s.sup.toNat →
    (∀ a, inBlock s a → (memRead s a).natAbs < 2 ^ (s.sup.toNat + 1)) →
    ∃ (f : State) (bytes : List Byte),
      runAll [.einit false, .enblk false h, .efin] s = .next f ∧ f.out = s.out ++ bytes ∧
      ∀ (d : State) (before after : List Byte), d.mode = .idle → d.fault = false → d.bank = s.bank →
        d.par = s.par → d.blkLen = s.blkLen → d.sup = s.sup → (h = false → d.inf = s.inf) → blockLegal d →
        d.mem.wf → d.inp = before ++ bytes ++ after → d.cur = before.length →
        ∃ t, runAll [.dinit false, .deblk h] d = .next t ∧ t.fault = false ∧ t.bank = f.bank ∧ t.inf = s.inf ∧
          t.cur = before.length + bytes.length ∧
          ∀ k, k < nel s →
            let x := memRead s (s.blkBase.toNat + k)
            memRead t (d.blkBase.toNat + k) =
              x.sign * ((x.natAbs / 2 ^ s.inf.toNat * 2 ^ s.inf.toNat : Nat) : Int)

/-! ## The transform (44_transform.md) -/

/-- R150, R182: the transform's configuration faults, in their order, each with its information word and nothing else
changed. That a block length is compared with `MAXLEN` (R36) and not with R131's 64 is the model's choice, log 24;
`TLEN` is compared with R150's 64. -/
def Obligations.TransformConfigFaults : Prop :=
  ∀ (s : State) (i : Instr), (i = .tfwd ∨ i = .tinv) →
    (¬lengthsLegal s → exec i s = .next (faulted s 5#8 1#32)) ∧
    (lengthsLegal s → s.par.blkCap < s.blkBase.toNat + nel s →
      exec i s = .next (faulted s 9#8 (encode i))) ∧
    (blockLegal s → ¬transformLengthsLegal s → exec i s = .next (faulted s 5#8 2#32)) ∧
    (blockLegal s → transformLengthsLegal s → (∃ a, (s.tlen.get a).toNat < (s.blkLen.get a).toNat) →
      exec i s = .next (faulted s 5#8 3#32)) ∧
    (blockLegal s → transformLengthsLegal s → (∀ a, (s.blkLen.get a).toNat ≤ (s.tlen.get a).toNat) →
      (∃ a, weight s a (s.blkLen.get a).toNat = 0) → exec i s = .next (faulted s 5#8 6#32))

/-- `TFWD` and `TINV` complete in every mode where `TxCheck` passes (R161, R162): only the block's words, `TSAT` (never cleared),
the touched caches with their counters and `CMDCNT` change; afterwards the lengths used are in the caches, and the
same transform again fills none. -/
def Obligations.TransformCompletes : Prop :=
  ∀ (s : State) (i : Instr), (i = .tfwd ∨ i = .tinv) → transformLegal s → s.mem.wf →
    ∃ t, exec i s = .next t ∧
      t = { s with
            mem := t.mem, tsat := t.tsat, tcvFwd := t.tcvFwd, tcvInv := t.tcvInv, gcv := t.gcv
            tcFills := t.tcFills, gcFills := t.gcFills, cmdCnt := s.cmdCnt + 1#32 } ∧
      (s.tsat = true → t.tsat = true) ∧ (∀ a, ¬inBlock s a → t.mem.read a = s.mem.read a) ∧
      (i = .tfwd → t.tcvInv = s.tcvInv) ∧ (i = .tinv → t.tcvFwd = s.tcvFwd) ∧
      (∀ a, (s.blkLen.get a).toNat ∈ (if i = .tfwd then t.tcvFwd else t.tcvInv) ∧
        (s.blkLen.get a).toNat ∈ t.gcv.get a) ∧
      ∀ u, exec i t = .next u → u.tcFills = t.tcFills ∧ u.gcFills = t.gcFills

/-- The words `TFWD` and `TINV` leave (R150 to R158, R161, R162). Wherever the checks pass, the block after `TFWD` is the
block before under the forward passes along U, then V, then S, then T, and after `TINV` under the inverse passes along
T, then S, then V, then U, each with the weight of its axis. For one line of `n` words with gains 1.0 and
`TLEN = BLK_LEN`: word `k` after `TFWD` is the correlation with row `k` of `CF_n`, rounded to nearest (ties up) and
clamped; after `TINV` the same with column `k`. -/
def Obligations.LineTransforms : Prop :=
  (∀ s : State, transformLegal s → s.mem.wf →
    let x : Words := fun pos => memRead s (elementAddr s pos)
    (∃ t, exec .tfwd s = .next t ∧ ∀ pos : Axes Nat, (∀ a, pos.get a < (s.blkLen.get a).toNat) →
      memRead t (elementAddr s pos) =
        forwardPass s .t (forwardPass s .s (forwardPass s .v (forwardPass s .u x))) pos) ∧
    ∃ t, exec .tinv s = .next t ∧ ∀ pos : Axes Nat, (∀ a, pos.get a < (s.blkLen.get a).toNat) →
      memRead t (elementAddr s pos) =
        inversePass s .u (inversePass s .v (inversePass s .s (inversePass s .t x))) pos) ∧
  ∀ (s : State) (n : BitVec 7), s.blkLen = ⟨1#7, 1#7, 1#7, n⟩ → s.tlen = s.blkLen →
    (∀ a, s.gain.get a = 0x010000#24) → 1 ≤ n.toNat → n.toNat ≤ 64 → n.toNat ≤ s.par.maxLen →
    s.blkBase.toNat + n.toNat ≤ s.par.blkCap → s.mem.wf →
    (∃ t, exec .tfwd s = .next t ∧ ∀ k, k < n.toNat →
      memRead t (s.blkBase.toNat + k) =
        clamp32 (((∑ j ∈ Finset.range n.toNat, cf n.toNat k j * memRead s (s.blkBase.toNat + j)) + 2 ^ 29) / 2 ^ 30)) ∧
    ∃ t, exec .tinv s = .next t ∧ ∀ k, k < n.toNat →
      memRead t (s.blkBase.toNat + k) =
        clamp32 (((∑ j ∈ Finset.range n.toNat, cf n.toNat j k * memRead s (s.blkBase.toNat + j)) + 2 ^ 29) / 2 ^ 30)

/-- R159, R160, R164: the caches never change a result: from states that differ only in the caches and their counters, a
transform leaves the same words, the same `TSAT` and the same `CMDCNT`. -/
def Obligations.TransformIgnoresCaches : Prop :=
  ∀ (s s' t t' : State) (i : Instr), (i = .tfwd ∨ i = .tinv) →
    s' = { s with
           tcvFwd := s'.tcvFwd, tcvInv := s'.tcvInv, gcv := s'.gcv, tcFills := s'.tcFills
           gcFills := s'.gcFills } →
    exec i s = .next t → exec i s' = .next t' →
    t'.mem = t.mem ∧ t'.tsat = t.tsat ∧ t'.fault = t.fault ∧ t'.cmdCnt = t.cmdCnt

/-- R153: `isqrt` is the floor of the square root, a full-length axis with gain `g` has weight `g`, and no weight exceeds
`0x7FFFFF8`. -/
def Obligations.WeightArithmetic : Prop :=
  (∀ x, x < 2 ^ 64 → isqrt x * isqrt x ≤ x ∧ x < (isqrt x + 1) * (isqrt x + 1)) ∧
  (∀ g l, 1 ≤ l → weightOf l g l = g) ∧
  ∀ tl g l, 1 ≤ l → l ≤ tl → tl ≤ 64 → g < 2 ^ 24 → weightOf tl g l ≤ 0x7FFFFF8

/-- R151 for the lengths 1 to 4: every entry of the table is within one half of `2^30 * s_k * cos (pi*(2n+1)*k/(2N))`. -/
def Obligations.CosineTable : Prop :=
  ∀ len k n : Nat, 1 ≤ len → len ≤ 4 → k < len → n < len →
    |2 ^ 30 * Real.sqrt ((if k = 0 then 1 else 2) / len) * Real.cos (Real.pi * (2 * n + 1) * k / (2 * len)) -
      (cf len k n : ℝ)| < 1 / 2

/-! ## System and codestream commands (45_system_codestream.md) -/

/-- `NOP`, `RCLR`, `TFLUSH`, `CSPUT`, `CSGET`, `CSRW` (R170, 40_model_bank.md R101, 44_transform.md R163, R172, R173, R174): their
results where they retire, and the faults `E_EOS` and `E_REWIND`. -/
def Obligations.PlainAndCodestreamCommands : Prop :=
  ∀ s : State,
    exec .nop s = .next { s with cmdCnt := s.cmdCnt + 1#32 } ∧
    exec .rclr s = .next { s with rateAcc := 0#64, cmdCnt := s.cmdCnt + 1#32 } ∧
    exec .tflush s = .next
      { s with tcvFwd := [], tcvInv := [], gcv := ⟨[], [], [], []⟩, cmdCnt := s.cmdCnt + 1#32 } ∧
    (∀ b : BitVec 8, s.mode ≠ .enc →
      exec (.csput b) s = .next
        { s with out := s.out ++ [b], outCnt := s.outCnt + 1#32, cmdCnt := s.cmdCnt + 1#32 }) ∧
    (s.mode ≠ .dec →
      (∀ b, s.inp[s.cur]? = some b →
        exec .csget s = .next
          { s with result := b.setWidth 32, cur := s.cur + 1, cmdCnt := s.cmdCnt + 1#32 }) ∧
      (s.inp.length ≤ s.cur → exec .csget s = .next (faulted s 7#8 0x61000000#32)) ∧
      ∀ k : BitVec 24,
        (k.toNat ≤ s.cur →
          exec (.csrw k) s = .next { s with cur := s.cur - k.toNat, cmdCnt := s.cmdCnt + 1#32 }) ∧
        (s.cur < k.toNat → exec (.csrw k) s = .next (faulted s 8#8 (k.setWidth 32))))

/-! ## The register block (10_state.md section 3; 20_memory.md) -/

/-- R52, R61 and R21 to R47: a read of any register but `BM_DATA` answers the word `registerWords` gives for its offset and
changes nothing of J4D, so that it answers the same word again. (`BM_DATA` is R42's, a statement of its own.) -/
def Obligations.RegisterReads : Prop :=
  (∀ (s : State) (off v : Nat), (off, v) ∈ registerWords s → ∀ (rest : List HostAction) (resp : HostResp),
    step (withAction { s with resp := resp } (.read 32 off) rest) =
      .next { s with host := rest, resp := .data (BitVec.ofNat 32 v) }) ∧
  ∀ s : State, (registerWords s).map Prod.fst = registerOffsets.filter (· ≠ 0x6C) ∧
    ∀ p ∈ registerWords s, p.2 < 2 ^ 32

/-- R53, R49: an access that is not 32 bits wide, misaligned, or at an offset without a register is answered with a bus error
and changes nothing of J4D; every other access reaches a register. -/
def Obligations.BusErrors : Prop :=
  (∀ (s : State) (bits off : Nat) (v : Word) (rest : List HostAction),
    (bits ≠ 32 ∨ off % 4 ≠ 0 ∨ off = 0x3C ∨ 0x8C ≤ off) →
    (s.host = .read bits off :: rest → step s = .next { s with host := rest, resp := .busError }) ∧
    (s.host = .write bits off v :: rest → step s = .next { s with host := rest, resp := .busError })) ∧
  ∀ off, off % 4 = 0 → off ≠ 0x3C → off < 0x8C → ∃ r, regAt off = some r

/-- R54: a write to a read-only register, or to the zero bits of a register, is ignored without error; a read of `CMD`
returns 0. For the bits `[31:18]` of `BM_ADDR` it says so where `BLKCAP` divides `2^18`, as the default does: for every
other `BLKCAP` R41's "modulo `BLKCAP`" and R54 differ, and the model's choice is log 26. -/
def Obligations.ReadOnlyWritesIgnored : Prop :=
  (∀ (s : State) (off : Nat) (v : Word) (rest : List HostAction), off ∈ readOnlyOffsets →
    s.host = .write 32 off v :: rest → step s = .next { s with host := rest, resp := .done }) ∧
  (∀ (s : State) (off : Nat) (mask v : Word), (off, mask) ∈ writtenBits →
    busWrite 32 off v s = busWrite 32 off (v &&& mask) s) ∧
  (∀ (s : State) (v : Word), s.par.blkCap ∣ 2 ^ 18 →
    busWrite 32 0x68 v s = busWrite 32 0x68 (v &&& 0x0003FFFF#32) s) ∧
  ∀ (s : State) (rest : List HostAction), s.host = .read 32 4 :: rest →
    step s = .next { s with host := rest, resp := .data 0#32 }

/-- R42: a read of `BM_DATA` returns the word at `BM_ADDR`, a write replaces that word and no other, and either adds 1 to
`BM_ADDR` modulo `BLKCAP`. -/
def Obligations.BlockWindow : Prop :=
  ∀ (s : State) (rest : List HostAction), s.bmAddr.toNat < s.par.blkCap →
    (s.host = .read 32 0x6C :: rest →
      step s = .next
        { s with
          host := rest, resp := .data (s.mem.read s.bmAddr.toNat)
          bmAddr := BitVec.ofNat 18 ((s.bmAddr.toNat + 1) % s.par.blkCap) }) ∧
    ∀ v : Word, s.host = .write 32 0x6C v :: rest →
      ∃ m : Memory,
        step s = .next
          { s with
            host := rest, resp := .done, mem := m
            bmAddr := BitVec.ofNat 18 ((s.bmAddr.toNat + 1) % s.par.blkCap) } ∧
        (s.mem.wf → ∀ a, m.read a = if a = s.bmAddr.toNat then v else s.mem.read a)

/-- R23, R34 to R39, R41: the whole next state of a host write of `STATUS`, of a configuration register, of `MIDX` and of
`BM_ADDR`, by offset, with the caches a write of `TLEN` or `GAIN_a` empties; and a read of the same offset afterwards
answers the written value less its zero bits. That `BM_ADDR` takes the whole written word modulo `BLKCAP`, its bits
`[31:18]` included, is the model's choice where `BLKCAP` is no power of two, log 26. -/
def Obligations.ConfigWriteThenRead : Prop :=
  ∀ (s : State) (v : Word) (rest : List HostAction),
    let write (off : Nat) : Result := step (withAction s (.write 32 off v) rest)
    let done : State := { s with host := rest, resp := .done }
    let lengths : Axes (BitVec 7) :=
      ⟨v.extractLsb' 24 7, v.extractLsb' 16 7, v.extractLsb' 8 7, v.extractLsb' 0 7⟩
    write 0x08 = .next (if v.getLsbD 4 then { done with tsat := false } else done) ∧
    write 0x40 = .next { done with sup := v.extractLsb' 0 5, inf := v.extractLsb' 8 5 } ∧
    write 0x44 = .next { done with blkBase := v } ∧
    write 0x48 = .next { done with blkLen := lengths } ∧
    write 0x4C = .next { done with tlen := lengths, gcv := ⟨[], [], [], []⟩ } ∧
    (∀ p ∈ [(0x50, Axis.t), (0x54, Axis.s), (0x58, Axis.v), (0x5C, Axis.u)],
      write p.1 = .next
        { done with gain := s.gain.set p.2 (v.extractLsb' 0 24), gcv := s.gcv.set p.2 [] }) ∧
    write 0x60 = .next (if v.toNat % 256 < 161 then { done with midx := v.extractLsb' 0 8 } else done) ∧
    write 0x68 = .next { done with bmAddr := BitVec.ofNat 18 (v.toNat % s.par.blkCap) } ∧
    ∀ (t : State) (later : List HostAction),
      (∀ p ∈ configBits, write p.1 = .next t →
        step (withAction t (.read 32 p.1) later) =
          .next { t with host := later, resp := .data (v &&& p.2) }) ∧
      (v.toNat % 256 < 161 → write 0x60 = .next t →
        step (withAction t (.read 32 0x60) later) =
          .next { t with host := later, resp := .data (v &&& 0x000000FF#32) }) ∧
      (s.par.ok → write 0x68 = .next t →
        step (withAction t (.read 32 0x68) later) =
          .next { t with host := later, resp := .data (BitVec.ofNat 32 (v.toNat % s.par.blkCap)) })

/-- R59: the host's out-of-band actions. A `HostLoad` while decoding makes no more than the coder's five registers unspecified
(R207; that the model goes on there is log 6). -/
def Obligations.HostStream : Prop :=
  ∀ (s : State) (rest : List HostAction) (bytes : List Byte) (start : Nat),
    (s.host = .load bytes :: rest → ¬(s.mode = .dec ∧ s.fault = false) →
      step s = .next { s with host := rest, resp := .done, inp := bytes, cur := 0 }) ∧
    (s.host = .load bytes :: rest → ∃ t, step s = .next t ∧
      t = { s with
            host := rest, resp := .done, inp := bytes, cur := 0, low := t.low, high := t.high
            code := t.code, db := t.db, dbn := t.dbn, freeCtr := t.freeCtr }) ∧
    (s.host = .append bytes :: rest →
      step s = .next { s with host := rest, resp := .done, inp := s.inp ++ bytes }) ∧
    (s.host = .take start :: rest →
      step s = .next { s with host := rest, resp := .bytes (s.out.drop start) })

/-! ## Invariants -/

/-- The state right after reset satisfies both invariants. -/
def Obligations.ResetSatisfiesInvariants : Prop := State.reset.Inv ∧ State.reset.CoderInv

/-- Every step keeps the invariant: memory in canonical form and inside `BLKCAP` (20_memory.md R51), the cursor inside the
source (R58), `BM_ADDR`, `MIDX` and the bit buffer in range, the models of the bank (with `FAULT = 0`) and of every
valid slot within R15, the fault record as R24 and R180 say, the caches in form (R18). -/
def Obligations.StepKeepsInv : Prop := ∀ s t : State, s.Inv → step s = .next t → t.Inv

/-- R30, R110, R122: with a host that does not load the source while decoding (R207), every step keeps the interval settled
and, while decoding, `LOW <= CODE <= HIGH`, for every source content. -/
def Obligations.StepKeepsCoderInv : Prop :=
  ∀ s t : State, s.Inv → s.CoderInv → keepsSource s → step s = .next t → t.CoderInv
end

