-- ==== Sys2Proof/Laws/State.lean ====
section
/-! SUPPORT. What each named update of the state does to each field: one lemma per field and update, true by
`rfl`, so that no later proof unfolds a record update. -/

namespace Sys2Proof.Machine

variable (s : State)

/-! `retire` -/

@[simp] theorem retire_mode : (retire s).mode = s.mode := rfl
@[simp] theorem retire_fault : (retire s).fault = s.fault := rfl
@[simp] theorem retire_tsat : (retire s).tsat = s.tsat := rfl
@[simp] theorem retire_err : (retire s).err = s.err := rfl
@[simp] theorem retire_errInfo : (retire s).errInfo = s.errInfo := rfl
@[simp] theorem retire_cmdCnt : (retire s).cmdCnt = s.cmdCnt + 1#32 := rfl
@[simp] theorem retire_result : (retire s).result = s.result := rfl
@[simp] theorem retire_rateOut : (retire s).rateOut = s.rateOut := rfl
@[simp] theorem retire_rateAcc : (retire s).rateAcc = s.rateAcc := rfl
@[simp] theorem retire_low : (retire s).low = s.low := rfl
@[simp] theorem retire_high : (retire s).high = s.high := rfl
@[simp] theorem retire_pend : (retire s).pend = s.pend := rfl
@[simp] theorem retire_code : (retire s).code = s.code := rfl
@[simp] theorem retire_bb : (retire s).bb = s.bb := rfl
@[simp] theorem retire_bbn : (retire s).bbn = s.bbn := rfl
@[simp] theorem retire_db : (retire s).db = s.db := rfl
@[simp] theorem retire_dbn : (retire s).dbn = s.dbn := rfl
@[simp] theorem retire_sup : (retire s).sup = s.sup := rfl
@[simp] theorem retire_inf : (retire s).inf = s.inf := rfl
@[simp] theorem retire_blkBase : (retire s).blkBase = s.blkBase := rfl
@[simp] theorem retire_blkLen : (retire s).blkLen = s.blkLen := rfl
@[simp] theorem retire_tlen : (retire s).tlen = s.tlen := rfl
@[simp] theorem retire_gain : (retire s).gain = s.gain := rfl
@[simp] theorem retire_midx : (retire s).midx = s.midx := rfl
@[simp] theorem retire_bmAddr : (retire s).bmAddr = s.bmAddr := rfl
@[simp] theorem retire_bank : (retire s).bank = s.bank := rfl
@[simp] theorem retire_slots : (retire s).slots = s.slots := rfl
@[simp] theorem retire_tcvFwd : (retire s).tcvFwd = s.tcvFwd := rfl
@[simp] theorem retire_tcvInv : (retire s).tcvInv = s.tcvInv := rfl
@[simp] theorem retire_gcv : (retire s).gcv = s.gcv := rfl
@[simp] theorem retire_tcFills : (retire s).tcFills = s.tcFills := rfl
@[simp] theorem retire_gcFills : (retire s).gcFills = s.gcFills := rfl
@[simp] theorem retire_outCnt : (retire s).outCnt = s.outCnt := rfl
@[simp] theorem retire_mem : (retire s).mem = s.mem := rfl
@[simp] theorem retire_inp : (retire s).inp = s.inp := rfl
@[simp] theorem retire_cur : (retire s).cur = s.cur := rfl
@[simp] theorem retire_out : (retire s).out = s.out := rfl
@[simp] theorem retire_host : (retire s).host = s.host := rfl
@[simp] theorem retire_resp : (retire s).resp = s.resp := rfl
@[simp] theorem retire_par : (retire s).par = s.par := rfl
@[simp] theorem retire_freeCtr : (retire s).freeCtr = s.freeCtr := rfl

/-! `takeFault` -/

@[simp] theorem takeFault_mode (e : FaultCode) (i : Word) : (takeFault e i s).mode = s.mode := rfl
@[simp] theorem takeFault_fault (e : FaultCode) (i : Word) : (takeFault e i s).fault = true := rfl
@[simp] theorem takeFault_tsat (e : FaultCode) (i : Word) : (takeFault e i s).tsat = s.tsat := rfl
@[simp] theorem takeFault_err (e : FaultCode) (i : Word) : (takeFault e i s).err = e.code := rfl
@[simp] theorem takeFault_errInfo (e : FaultCode) (i : Word) : (takeFault e i s).errInfo = i := rfl
@[simp] theorem takeFault_cmdCnt (e : FaultCode) (i : Word) : (takeFault e i s).cmdCnt = s.cmdCnt := rfl
@[simp] theorem takeFault_result (e : FaultCode) (i : Word) : (takeFault e i s).result = s.result := rfl
@[simp] theorem takeFault_rateOut (e : FaultCode) (i : Word) : (takeFault e i s).rateOut = s.rateOut := rfl
@[simp] theorem takeFault_rateAcc (e : FaultCode) (i : Word) : (takeFault e i s).rateAcc = s.rateAcc := rfl
@[simp] theorem takeFault_low (e : FaultCode) (i : Word) : (takeFault e i s).low = s.low := rfl
@[simp] theorem takeFault_high (e : FaultCode) (i : Word) : (takeFault e i s).high = s.high := rfl
@[simp] theorem takeFault_pend (e : FaultCode) (i : Word) : (takeFault e i s).pend = s.pend := rfl
@[simp] theorem takeFault_code (e : FaultCode) (i : Word) : (takeFault e i s).code = s.code := rfl
@[simp] theorem takeFault_bb (e : FaultCode) (i : Word) : (takeFault e i s).bb = s.bb := rfl
@[simp] theorem takeFault_bbn (e : FaultCode) (i : Word) : (takeFault e i s).bbn = s.bbn := rfl
@[simp] theorem takeFault_db (e : FaultCode) (i : Word) : (takeFault e i s).db = s.db := rfl
@[simp] theorem takeFault_dbn (e : FaultCode) (i : Word) : (takeFault e i s).dbn = s.dbn := rfl
@[simp] theorem takeFault_sup (e : FaultCode) (i : Word) : (takeFault e i s).sup = s.sup := rfl
@[simp] theorem takeFault_inf (e : FaultCode) (i : Word) : (takeFault e i s).inf = s.inf := rfl
@[simp] theorem takeFault_blkBase (e : FaultCode) (i : Word) : (takeFault e i s).blkBase = s.blkBase := rfl
@[simp] theorem takeFault_blkLen (e : FaultCode) (i : Word) : (takeFault e i s).blkLen = s.blkLen := rfl
@[simp] theorem takeFault_tlen (e : FaultCode) (i : Word) : (takeFault e i s).tlen = s.tlen := rfl
@[simp] theorem takeFault_gain (e : FaultCode) (i : Word) : (takeFault e i s).gain = s.gain := rfl
@[simp] theorem takeFault_midx (e : FaultCode) (i : Word) : (takeFault e i s).midx = s.midx := rfl
@[simp] theorem takeFault_bmAddr (e : FaultCode) (i : Word) : (takeFault e i s).bmAddr = s.bmAddr := rfl
@[simp] theorem takeFault_bank (e : FaultCode) (i : Word) : (takeFault e i s).bank = s.bank := rfl
@[simp] theorem takeFault_slots (e : FaultCode) (i : Word) : (takeFault e i s).slots = s.slots := rfl
@[simp] theorem takeFault_tcvFwd (e : FaultCode) (i : Word) : (takeFault e i s).tcvFwd = s.tcvFwd := rfl
@[simp] theorem takeFault_tcvInv (e : FaultCode) (i : Word) : (takeFault e i s).tcvInv = s.tcvInv := rfl
@[simp] theorem takeFault_gcv (e : FaultCode) (i : Word) : (takeFault e i s).gcv = s.gcv := rfl
@[simp] theorem takeFault_tcFills (e : FaultCode) (i : Word) : (takeFault e i s).tcFills = s.tcFills := rfl
@[simp] theorem takeFault_gcFills (e : FaultCode) (i : Word) : (takeFault e i s).gcFills = s.gcFills := rfl
@[simp] theorem takeFault_outCnt (e : FaultCode) (i : Word) : (takeFault e i s).outCnt = s.outCnt := rfl
@[simp] theorem takeFault_mem (e : FaultCode) (i : Word) : (takeFault e i s).mem = s.mem := rfl
@[simp] theorem takeFault_inp (e : FaultCode) (i : Word) : (takeFault e i s).inp = s.inp := rfl
@[simp] theorem takeFault_cur (e : FaultCode) (i : Word) : (takeFault e i s).cur = s.cur := rfl
@[simp] theorem takeFault_out (e : FaultCode) (i : Word) : (takeFault e i s).out = s.out := rfl
@[simp] theorem takeFault_host (e : FaultCode) (i : Word) : (takeFault e i s).host = s.host := rfl
@[simp] theorem takeFault_resp (e : FaultCode) (i : Word) : (takeFault e i s).resp = s.resp := rfl
@[simp] theorem takeFault_par (e : FaultCode) (i : Word) : (takeFault e i s).par = s.par := rfl
@[simp] theorem takeFault_freeCtr (e : FaultCode) (i : Word) : (takeFault e i s).freeCtr = s.freeCtr := rfl

/-! `memWrite` -/

@[simp] theorem memWrite_mode (a : Nat) (v : Word) : (memWrite a v s).mode = s.mode := rfl
@[simp] theorem memWrite_fault (a : Nat) (v : Word) : (memWrite a v s).fault = s.fault := rfl
@[simp] theorem memWrite_tsat (a : Nat) (v : Word) : (memWrite a v s).tsat = s.tsat := rfl
@[simp] theorem memWrite_err (a : Nat) (v : Word) : (memWrite a v s).err = s.err := rfl
@[simp] theorem memWrite_errInfo (a : Nat) (v : Word) : (memWrite a v s).errInfo = s.errInfo := rfl
@[simp] theorem memWrite_cmdCnt (a : Nat) (v : Word) : (memWrite a v s).cmdCnt = s.cmdCnt := rfl
@[simp] theorem memWrite_result (a : Nat) (v : Word) : (memWrite a v s).result = s.result := rfl
@[simp] theorem memWrite_rateOut (a : Nat) (v : Word) : (memWrite a v s).rateOut = s.rateOut := rfl
@[simp] theorem memWrite_rateAcc (a : Nat) (v : Word) : (memWrite a v s).rateAcc = s.rateAcc := rfl
@[simp] theorem memWrite_low (a : Nat) (v : Word) : (memWrite a v s).low = s.low := rfl
@[simp] theorem memWrite_high (a : Nat) (v : Word) : (memWrite a v s).high = s.high := rfl
@[simp] theorem memWrite_pend (a : Nat) (v : Word) : (memWrite a v s).pend = s.pend := rfl
@[simp] theorem memWrite_code (a : Nat) (v : Word) : (memWrite a v s).code = s.code := rfl
@[simp] theorem memWrite_bb (a : Nat) (v : Word) : (memWrite a v s).bb = s.bb := rfl
@[simp] theorem memWrite_bbn (a : Nat) (v : Word) : (memWrite a v s).bbn = s.bbn := rfl
@[simp] theorem memWrite_db (a : Nat) (v : Word) : (memWrite a v s).db = s.db := rfl
@[simp] theorem memWrite_dbn (a : Nat) (v : Word) : (memWrite a v s).dbn = s.dbn := rfl
@[simp] theorem memWrite_sup (a : Nat) (v : Word) : (memWrite a v s).sup = s.sup := rfl
@[simp] theorem memWrite_inf (a : Nat) (v : Word) : (memWrite a v s).inf = s.inf := rfl
@[simp] theorem memWrite_blkBase (a : Nat) (v : Word) : (memWrite a v s).blkBase = s.blkBase := rfl
@[simp] theorem memWrite_blkLen (a : Nat) (v : Word) : (memWrite a v s).blkLen = s.blkLen := rfl
@[simp] theorem memWrite_tlen (a : Nat) (v : Word) : (memWrite a v s).tlen = s.tlen := rfl
@[simp] theorem memWrite_gain (a : Nat) (v : Word) : (memWrite a v s).gain = s.gain := rfl
@[simp] theorem memWrite_midx (a : Nat) (v : Word) : (memWrite a v s).midx = s.midx := rfl
@[simp] theorem memWrite_bmAddr (a : Nat) (v : Word) : (memWrite a v s).bmAddr = s.bmAddr := rfl
@[simp] theorem memWrite_bank (a : Nat) (v : Word) : (memWrite a v s).bank = s.bank := rfl
@[simp] theorem memWrite_slots (a : Nat) (v : Word) : (memWrite a v s).slots = s.slots := rfl
@[simp] theorem memWrite_tcvFwd (a : Nat) (v : Word) : (memWrite a v s).tcvFwd = s.tcvFwd := rfl
@[simp] theorem memWrite_tcvInv (a : Nat) (v : Word) : (memWrite a v s).tcvInv = s.tcvInv := rfl
@[simp] theorem memWrite_gcv (a : Nat) (v : Word) : (memWrite a v s).gcv = s.gcv := rfl
@[simp] theorem memWrite_tcFills (a : Nat) (v : Word) : (memWrite a v s).tcFills = s.tcFills := rfl
@[simp] theorem memWrite_gcFills (a : Nat) (v : Word) : (memWrite a v s).gcFills = s.gcFills := rfl
@[simp] theorem memWrite_outCnt (a : Nat) (v : Word) : (memWrite a v s).outCnt = s.outCnt := rfl
@[simp] theorem memWrite_mem (a : Nat) (v : Word) : (memWrite a v s).mem = s.mem.write a v := rfl
@[simp] theorem memWrite_inp (a : Nat) (v : Word) : (memWrite a v s).inp = s.inp := rfl
@[simp] theorem memWrite_cur (a : Nat) (v : Word) : (memWrite a v s).cur = s.cur := rfl
@[simp] theorem memWrite_out (a : Nat) (v : Word) : (memWrite a v s).out = s.out := rfl
@[simp] theorem memWrite_host (a : Nat) (v : Word) : (memWrite a v s).host = s.host := rfl
@[simp] theorem memWrite_resp (a : Nat) (v : Word) : (memWrite a v s).resp = s.resp := rfl
@[simp] theorem memWrite_par (a : Nat) (v : Word) : (memWrite a v s).par = s.par := rfl
@[simp] theorem memWrite_freeCtr (a : Nat) (v : Word) : (memWrite a v s).freeCtr = s.freeCtr := rfl

/-! `sinkPush` -/

@[simp] theorem sinkPush_mode (b : Byte) : (sinkPush b s).mode = s.mode := rfl
@[simp] theorem sinkPush_fault (b : Byte) : (sinkPush b s).fault = s.fault := rfl
@[simp] theorem sinkPush_tsat (b : Byte) : (sinkPush b s).tsat = s.tsat := rfl
@[simp] theorem sinkPush_err (b : Byte) : (sinkPush b s).err = s.err := rfl
@[simp] theorem sinkPush_errInfo (b : Byte) : (sinkPush b s).errInfo = s.errInfo := rfl
@[simp] theorem sinkPush_cmdCnt (b : Byte) : (sinkPush b s).cmdCnt = s.cmdCnt := rfl
@[simp] theorem sinkPush_result (b : Byte) : (sinkPush b s).result = s.result := rfl
@[simp] theorem sinkPush_rateOut (b : Byte) : (sinkPush b s).rateOut = s.rateOut := rfl
@[simp] theorem sinkPush_rateAcc (b : Byte) : (sinkPush b s).rateAcc = s.rateAcc := rfl
@[simp] theorem sinkPush_low (b : Byte) : (sinkPush b s).low = s.low := rfl
@[simp] theorem sinkPush_high (b : Byte) : (sinkPush b s).high = s.high := rfl
@[simp] theorem sinkPush_pend (b : Byte) : (sinkPush b s).pend = s.pend := rfl
@[simp] theorem sinkPush_code (b : Byte) : (sinkPush b s).code = s.code := rfl
@[simp] theorem sinkPush_bb (b : Byte) : (sinkPush b s).bb = s.bb := rfl
@[simp] theorem sinkPush_bbn (b : Byte) : (sinkPush b s).bbn = s.bbn := rfl
@[simp] theorem sinkPush_db (b : Byte) : (sinkPush b s).db = s.db := rfl
@[simp] theorem sinkPush_dbn (b : Byte) : (sinkPush b s).dbn = s.dbn := rfl
@[simp] theorem sinkPush_sup (b : Byte) : (sinkPush b s).sup = s.sup := rfl
@[simp] theorem sinkPush_inf (b : Byte) : (sinkPush b s).inf = s.inf := rfl
@[simp] theorem sinkPush_blkBase (b : Byte) : (sinkPush b s).blkBase = s.blkBase := rfl
@[simp] theorem sinkPush_blkLen (b : Byte) : (sinkPush b s).blkLen = s.blkLen := rfl
@[simp] theorem sinkPush_tlen (b : Byte) : (sinkPush b s).tlen = s.tlen := rfl
@[simp] theorem sinkPush_gain (b : Byte) : (sinkPush b s).gain = s.gain := rfl
@[simp] theorem sinkPush_midx (b : Byte) : (sinkPush b s).midx = s.midx := rfl
@[simp] theorem sinkPush_bmAddr (b : Byte) : (sinkPush b s).bmAddr = s.bmAddr := rfl
@[simp] theorem sinkPush_bank (b : Byte) : (sinkPush b s).bank = s.bank := rfl
@[simp] theorem sinkPush_slots (b : Byte) : (sinkPush b s).slots = s.slots := rfl
@[simp] theorem sinkPush_tcvFwd (b : Byte) : (sinkPush b s).tcvFwd = s.tcvFwd := rfl
@[simp] theorem sinkPush_tcvInv (b : Byte) : (sinkPush b s).tcvInv = s.tcvInv := rfl
@[simp] theorem sinkPush_gcv (b : Byte) : (sinkPush b s).gcv = s.gcv := rfl
@[simp] theorem sinkPush_tcFills (b : Byte) : (sinkPush b s).tcFills = s.tcFills := rfl
@[simp] theorem sinkPush_gcFills (b : Byte) : (sinkPush b s).gcFills = s.gcFills := rfl
@[simp] theorem sinkPush_outCnt (b : Byte) : (sinkPush b s).outCnt = s.outCnt + 1#32 := rfl
@[simp] theorem sinkPush_mem (b : Byte) : (sinkPush b s).mem = s.mem := rfl
@[simp] theorem sinkPush_inp (b : Byte) : (sinkPush b s).inp = s.inp := rfl
@[simp] theorem sinkPush_cur (b : Byte) : (sinkPush b s).cur = s.cur := rfl
@[simp] theorem sinkPush_out (b : Byte) : (sinkPush b s).out = s.out ++ [b] := rfl
@[simp] theorem sinkPush_host (b : Byte) : (sinkPush b s).host = s.host := rfl
@[simp] theorem sinkPush_resp (b : Byte) : (sinkPush b s).resp = s.resp := rfl
@[simp] theorem sinkPush_par (b : Byte) : (sinkPush b s).par = s.par := rfl
@[simp] theorem sinkPush_freeCtr (b : Byte) : (sinkPush b s).freeCtr = s.freeCtr := rfl

/-! `bankSet` -/

@[simp] theorem bankSet_mode (c : Nat) (m : Model) : (bankSet c m s).mode = s.mode := rfl
@[simp] theorem bankSet_fault (c : Nat) (m : Model) : (bankSet c m s).fault = s.fault := rfl
@[simp] theorem bankSet_tsat (c : Nat) (m : Model) : (bankSet c m s).tsat = s.tsat := rfl
@[simp] theorem bankSet_err (c : Nat) (m : Model) : (bankSet c m s).err = s.err := rfl
@[simp] theorem bankSet_errInfo (c : Nat) (m : Model) : (bankSet c m s).errInfo = s.errInfo := rfl
@[simp] theorem bankSet_cmdCnt (c : Nat) (m : Model) : (bankSet c m s).cmdCnt = s.cmdCnt := rfl
@[simp] theorem bankSet_result (c : Nat) (m : Model) : (bankSet c m s).result = s.result := rfl
@[simp] theorem bankSet_rateOut (c : Nat) (m : Model) : (bankSet c m s).rateOut = s.rateOut := rfl
@[simp] theorem bankSet_rateAcc (c : Nat) (m : Model) : (bankSet c m s).rateAcc = s.rateAcc := rfl
@[simp] theorem bankSet_low (c : Nat) (m : Model) : (bankSet c m s).low = s.low := rfl
@[simp] theorem bankSet_high (c : Nat) (m : Model) : (bankSet c m s).high = s.high := rfl
@[simp] theorem bankSet_pend (c : Nat) (m : Model) : (bankSet c m s).pend = s.pend := rfl
@[simp] theorem bankSet_code (c : Nat) (m : Model) : (bankSet c m s).code = s.code := rfl
@[simp] theorem bankSet_bb (c : Nat) (m : Model) : (bankSet c m s).bb = s.bb := rfl
@[simp] theorem bankSet_bbn (c : Nat) (m : Model) : (bankSet c m s).bbn = s.bbn := rfl
@[simp] theorem bankSet_db (c : Nat) (m : Model) : (bankSet c m s).db = s.db := rfl
@[simp] theorem bankSet_dbn (c : Nat) (m : Model) : (bankSet c m s).dbn = s.dbn := rfl
@[simp] theorem bankSet_sup (c : Nat) (m : Model) : (bankSet c m s).sup = s.sup := rfl
@[simp] theorem bankSet_inf (c : Nat) (m : Model) : (bankSet c m s).inf = s.inf := rfl
@[simp] theorem bankSet_blkBase (c : Nat) (m : Model) : (bankSet c m s).blkBase = s.blkBase := rfl
@[simp] theorem bankSet_blkLen (c : Nat) (m : Model) : (bankSet c m s).blkLen = s.blkLen := rfl
@[simp] theorem bankSet_tlen (c : Nat) (m : Model) : (bankSet c m s).tlen = s.tlen := rfl
@[simp] theorem bankSet_gain (c : Nat) (m : Model) : (bankSet c m s).gain = s.gain := rfl
@[simp] theorem bankSet_midx (c : Nat) (m : Model) : (bankSet c m s).midx = s.midx := rfl
@[simp] theorem bankSet_bmAddr (c : Nat) (m : Model) : (bankSet c m s).bmAddr = s.bmAddr := rfl
@[simp] theorem bankSet_bank (c : Nat) (m : Model) : (bankSet c m s).bank = s.bank.setIfInBounds c m := rfl
@[simp] theorem bankSet_slots (c : Nat) (m : Model) : (bankSet c m s).slots = s.slots := rfl
@[simp] theorem bankSet_tcvFwd (c : Nat) (m : Model) : (bankSet c m s).tcvFwd = s.tcvFwd := rfl
@[simp] theorem bankSet_tcvInv (c : Nat) (m : Model) : (bankSet c m s).tcvInv = s.tcvInv := rfl
@[simp] theorem bankSet_gcv (c : Nat) (m : Model) : (bankSet c m s).gcv = s.gcv := rfl
@[simp] theorem bankSet_tcFills (c : Nat) (m : Model) : (bankSet c m s).tcFills = s.tcFills := rfl
@[simp] theorem bankSet_gcFills (c : Nat) (m : Model) : (bankSet c m s).gcFills = s.gcFills := rfl
@[simp] theorem bankSet_outCnt (c : Nat) (m : Model) : (bankSet c m s).outCnt = s.outCnt := rfl
@[simp] theorem bankSet_mem (c : Nat) (m : Model) : (bankSet c m s).mem = s.mem := rfl
@[simp] theorem bankSet_inp (c : Nat) (m : Model) : (bankSet c m s).inp = s.inp := rfl
@[simp] theorem bankSet_cur (c : Nat) (m : Model) : (bankSet c m s).cur = s.cur := rfl
@[simp] theorem bankSet_out (c : Nat) (m : Model) : (bankSet c m s).out = s.out := rfl
@[simp] theorem bankSet_host (c : Nat) (m : Model) : (bankSet c m s).host = s.host := rfl
@[simp] theorem bankSet_resp (c : Nat) (m : Model) : (bankSet c m s).resp = s.resp := rfl
@[simp] theorem bankSet_par (c : Nat) (m : Model) : (bankSet c m s).par = s.par := rfl
@[simp] theorem bankSet_freeCtr (c : Nat) (m : Model) : (bankSet c m s).freeCtr = s.freeCtr := rfl

/-! `resetBank` -/

@[simp] theorem resetBank_mode : (resetBank s).mode = s.mode := rfl
@[simp] theorem resetBank_fault : (resetBank s).fault = s.fault := rfl
@[simp] theorem resetBank_tsat : (resetBank s).tsat = s.tsat := rfl
@[simp] theorem resetBank_err : (resetBank s).err = s.err := rfl
@[simp] theorem resetBank_errInfo : (resetBank s).errInfo = s.errInfo := rfl
@[simp] theorem resetBank_cmdCnt : (resetBank s).cmdCnt = s.cmdCnt := rfl
@[simp] theorem resetBank_result : (resetBank s).result = s.result := rfl
@[simp] theorem resetBank_rateOut : (resetBank s).rateOut = s.rateOut := rfl
@[simp] theorem resetBank_rateAcc : (resetBank s).rateAcc = s.rateAcc := rfl
@[simp] theorem resetBank_low : (resetBank s).low = s.low := rfl
@[simp] theorem resetBank_high : (resetBank s).high = s.high := rfl
@[simp] theorem resetBank_pend : (resetBank s).pend = s.pend := rfl
@[simp] theorem resetBank_code : (resetBank s).code = s.code := rfl
@[simp] theorem resetBank_bb : (resetBank s).bb = s.bb := rfl
@[simp] theorem resetBank_bbn : (resetBank s).bbn = s.bbn := rfl
@[simp] theorem resetBank_db : (resetBank s).db = s.db := rfl
@[simp] theorem resetBank_dbn : (resetBank s).dbn = s.dbn := rfl
@[simp] theorem resetBank_sup : (resetBank s).sup = s.sup := rfl
@[simp] theorem resetBank_inf : (resetBank s).inf = s.inf := rfl
@[simp] theorem resetBank_blkBase : (resetBank s).blkBase = s.blkBase := rfl
@[simp] theorem resetBank_blkLen : (resetBank s).blkLen = s.blkLen := rfl
@[simp] theorem resetBank_tlen : (resetBank s).tlen = s.tlen := rfl
@[simp] theorem resetBank_gain : (resetBank s).gain = s.gain := rfl
@[simp] theorem resetBank_midx : (resetBank s).midx = s.midx := rfl
@[simp] theorem resetBank_bmAddr : (resetBank s).bmAddr = s.bmAddr := rfl
@[simp] theorem resetBank_bank : (resetBank s).bank = Bank.fresh := rfl
@[simp] theorem resetBank_slots : (resetBank s).slots = s.slots := rfl
@[simp] theorem resetBank_tcvFwd : (resetBank s).tcvFwd = s.tcvFwd := rfl
@[simp] theorem resetBank_tcvInv : (resetBank s).tcvInv = s.tcvInv := rfl
@[simp] theorem resetBank_gcv : (resetBank s).gcv = s.gcv := rfl
@[simp] theorem resetBank_tcFills : (resetBank s).tcFills = s.tcFills := rfl
@[simp] theorem resetBank_gcFills : (resetBank s).gcFills = s.gcFills := rfl
@[simp] theorem resetBank_outCnt : (resetBank s).outCnt = s.outCnt := rfl
@[simp] theorem resetBank_mem : (resetBank s).mem = s.mem := rfl
@[simp] theorem resetBank_inp : (resetBank s).inp = s.inp := rfl
@[simp] theorem resetBank_cur : (resetBank s).cur = s.cur := rfl
@[simp] theorem resetBank_out : (resetBank s).out = s.out := rfl
@[simp] theorem resetBank_host : (resetBank s).host = s.host := rfl
@[simp] theorem resetBank_resp : (resetBank s).resp = s.resp := rfl
@[simp] theorem resetBank_par : (resetBank s).par = s.par := rfl
@[simp] theorem resetBank_freeCtr : (resetBank s).freeCtr = s.freeCtr := rfl

/-! `noteClamp` -/

@[simp] theorem noteClamp_mode (x : Int) : (noteClamp x s).mode = s.mode := rfl
@[simp] theorem noteClamp_fault (x : Int) : (noteClamp x s).fault = s.fault := rfl
@[simp] theorem noteClamp_tsat (x : Int) : (noteClamp x s).tsat = (s.tsat || clamps x) := rfl
@[simp] theorem noteClamp_err (x : Int) : (noteClamp x s).err = s.err := rfl
@[simp] theorem noteClamp_errInfo (x : Int) : (noteClamp x s).errInfo = s.errInfo := rfl
@[simp] theorem noteClamp_cmdCnt (x : Int) : (noteClamp x s).cmdCnt = s.cmdCnt := rfl
@[simp] theorem noteClamp_result (x : Int) : (noteClamp x s).result = s.result := rfl
@[simp] theorem noteClamp_rateOut (x : Int) : (noteClamp x s).rateOut = s.rateOut := rfl
@[simp] theorem noteClamp_rateAcc (x : Int) : (noteClamp x s).rateAcc = s.rateAcc := rfl
@[simp] theorem noteClamp_low (x : Int) : (noteClamp x s).low = s.low := rfl
@[simp] theorem noteClamp_high (x : Int) : (noteClamp x s).high = s.high := rfl
@[simp] theorem noteClamp_pend (x : Int) : (noteClamp x s).pend = s.pend := rfl
@[simp] theorem noteClamp_code (x : Int) : (noteClamp x s).code = s.code := rfl
@[simp] theorem noteClamp_bb (x : Int) : (noteClamp x s).bb = s.bb := rfl
@[simp] theorem noteClamp_bbn (x : Int) : (noteClamp x s).bbn = s.bbn := rfl
@[simp] theorem noteClamp_db (x : Int) : (noteClamp x s).db = s.db := rfl
@[simp] theorem noteClamp_dbn (x : Int) : (noteClamp x s).dbn = s.dbn := rfl
@[simp] theorem noteClamp_sup (x : Int) : (noteClamp x s).sup = s.sup := rfl
@[simp] theorem noteClamp_inf (x : Int) : (noteClamp x s).inf = s.inf := rfl
@[simp] theorem noteClamp_blkBase (x : Int) : (noteClamp x s).blkBase = s.blkBase := rfl
@[simp] theorem noteClamp_blkLen (x : Int) : (noteClamp x s).blkLen = s.blkLen := rfl
@[simp] theorem noteClamp_tlen (x : Int) : (noteClamp x s).tlen = s.tlen := rfl
@[simp] theorem noteClamp_gain (x : Int) : (noteClamp x s).gain = s.gain := rfl
@[simp] theorem noteClamp_midx (x : Int) : (noteClamp x s).midx = s.midx := rfl
@[simp] theorem noteClamp_bmAddr (x : Int) : (noteClamp x s).bmAddr = s.bmAddr := rfl
@[simp] theorem noteClamp_bank (x : Int) : (noteClamp x s).bank = s.bank := rfl
@[simp] theorem noteClamp_slots (x : Int) : (noteClamp x s).slots = s.slots := rfl
@[simp] theorem noteClamp_tcvFwd (x : Int) : (noteClamp x s).tcvFwd = s.tcvFwd := rfl
@[simp] theorem noteClamp_tcvInv (x : Int) : (noteClamp x s).tcvInv = s.tcvInv := rfl
@[simp] theorem noteClamp_gcv (x : Int) : (noteClamp x s).gcv = s.gcv := rfl
@[simp] theorem noteClamp_tcFills (x : Int) : (noteClamp x s).tcFills = s.tcFills := rfl
@[simp] theorem noteClamp_gcFills (x : Int) : (noteClamp x s).gcFills = s.gcFills := rfl
@[simp] theorem noteClamp_outCnt (x : Int) : (noteClamp x s).outCnt = s.outCnt := rfl
@[simp] theorem noteClamp_mem (x : Int) : (noteClamp x s).mem = s.mem := rfl
@[simp] theorem noteClamp_inp (x : Int) : (noteClamp x s).inp = s.inp := rfl
@[simp] theorem noteClamp_cur (x : Int) : (noteClamp x s).cur = s.cur := rfl
@[simp] theorem noteClamp_out (x : Int) : (noteClamp x s).out = s.out := rfl
@[simp] theorem noteClamp_host (x : Int) : (noteClamp x s).host = s.host := rfl
@[simp] theorem noteClamp_resp (x : Int) : (noteClamp x s).resp = s.resp := rfl
@[simp] theorem noteClamp_par (x : Int) : (noteClamp x s).par = s.par := rfl
@[simp] theorem noteClamp_freeCtr (x : Int) : (noteClamp x s).freeCtr = s.freeCtr := rfl

/-! `answer` -/

@[simp] theorem answer_mode (r : HostResp) : (answer r s).mode = s.mode := rfl
@[simp] theorem answer_fault (r : HostResp) : (answer r s).fault = s.fault := rfl
@[simp] theorem answer_tsat (r : HostResp) : (answer r s).tsat = s.tsat := rfl
@[simp] theorem answer_err (r : HostResp) : (answer r s).err = s.err := rfl
@[simp] theorem answer_errInfo (r : HostResp) : (answer r s).errInfo = s.errInfo := rfl
@[simp] theorem answer_cmdCnt (r : HostResp) : (answer r s).cmdCnt = s.cmdCnt := rfl
@[simp] theorem answer_result (r : HostResp) : (answer r s).result = s.result := rfl
@[simp] theorem answer_rateOut (r : HostResp) : (answer r s).rateOut = s.rateOut := rfl
@[simp] theorem answer_rateAcc (r : HostResp) : (answer r s).rateAcc = s.rateAcc := rfl
@[simp] theorem answer_low (r : HostResp) : (answer r s).low = s.low := rfl
@[simp] theorem answer_high (r : HostResp) : (answer r s).high = s.high := rfl
@[simp] theorem answer_pend (r : HostResp) : (answer r s).pend = s.pend := rfl
@[simp] theorem answer_code (r : HostResp) : (answer r s).code = s.code := rfl
@[simp] theorem answer_bb (r : HostResp) : (answer r s).bb = s.bb := rfl
@[simp] theorem answer_bbn (r : HostResp) : (answer r s).bbn = s.bbn := rfl
@[simp] theorem answer_db (r : HostResp) : (answer r s).db = s.db := rfl
@[simp] theorem answer_dbn (r : HostResp) : (answer r s).dbn = s.dbn := rfl
@[simp] theorem answer_sup (r : HostResp) : (answer r s).sup = s.sup := rfl
@[simp] theorem answer_inf (r : HostResp) : (answer r s).inf = s.inf := rfl
@[simp] theorem answer_blkBase (r : HostResp) : (answer r s).blkBase = s.blkBase := rfl
@[simp] theorem answer_blkLen (r : HostResp) : (answer r s).blkLen = s.blkLen := rfl
@[simp] theorem answer_tlen (r : HostResp) : (answer r s).tlen = s.tlen := rfl
@[simp] theorem answer_gain (r : HostResp) : (answer r s).gain = s.gain := rfl
@[simp] theorem answer_midx (r : HostResp) : (answer r s).midx = s.midx := rfl
@[simp] theorem answer_bmAddr (r : HostResp) : (answer r s).bmAddr = s.bmAddr := rfl
@[simp] theorem answer_bank (r : HostResp) : (answer r s).bank = s.bank := rfl
@[simp] theorem answer_slots (r : HostResp) : (answer r s).slots = s.slots := rfl
@[simp] theorem answer_tcvFwd (r : HostResp) : (answer r s).tcvFwd = s.tcvFwd := rfl
@[simp] theorem answer_tcvInv (r : HostResp) : (answer r s).tcvInv = s.tcvInv := rfl
@[simp] theorem answer_gcv (r : HostResp) : (answer r s).gcv = s.gcv := rfl
@[simp] theorem answer_tcFills (r : HostResp) : (answer r s).tcFills = s.tcFills := rfl
@[simp] theorem answer_gcFills (r : HostResp) : (answer r s).gcFills = s.gcFills := rfl
@[simp] theorem answer_outCnt (r : HostResp) : (answer r s).outCnt = s.outCnt := rfl
@[simp] theorem answer_mem (r : HostResp) : (answer r s).mem = s.mem := rfl
@[simp] theorem answer_inp (r : HostResp) : (answer r s).inp = s.inp := rfl
@[simp] theorem answer_cur (r : HostResp) : (answer r s).cur = s.cur := rfl
@[simp] theorem answer_out (r : HostResp) : (answer r s).out = s.out := rfl
@[simp] theorem answer_host (r : HostResp) : (answer r s).host = s.host := rfl
@[simp] theorem answer_resp (r : HostResp) : (answer r s).resp = r := rfl
@[simp] theorem answer_par (r : HostResp) : (answer r s).par = s.par := rfl
@[simp] theorem answer_freeCtr (r : HostResp) : (answer r s).freeCtr = s.freeCtr := rfl

end Sys2Proof.Machine
end

