-- ==== Sys2Proof/Laws/Coder.lean ====
section
/-! SUPPORT. What the shared operations of the arithmetic coder can do: their frames, once each. -/

namespace Sys2Proof.Machine

theorem onlyEncoder.refl (s : State) : onlyEncoder s s := rfl

theorem onlyEncoder.trans {s t u : State} (h1 : onlyEncoder s t) (h2 : onlyEncoder t u) : onlyEncoder s u := by
  unfold onlyEncoder at *
  rw [h1] at h2
  exact h2

theorem onlyDecoder.refl (s : State) : onlyDecoder s s := rfl

theorem onlyDecoder.trans {s t u : State} (h1 : onlyDecoder s t) (h2 : onlyDecoder t u) : onlyDecoder s u := by
  unfold onlyDecoder at *
  rw [h1] at h2
  exact h2

/-! Encoding. -/

theorem update_onlyEncoder (c : Nat) (b : Bool) (s : State) : onlyEncoder s (update c b s) := rfl

theorem cost_onlyEncoder (c : Nat) (b : Bool) (s : State) : onlyEncoder s (cost c b s) := rfl

theorem emitBit_onlyEncoder (x : Bool) (s : State) : onlyEncoder s (emitBit x s) := by
  unfold emitBit
  dsimp only
  split <;> rfl

theorem emitMany_onlyEncoder (n : Nat) (x : Bool) (s : State) : onlyEncoder s (emitMany n x s) := by
  induction n generalizing s with
  | zero => rfl
  | succ n ih => exact (emitBit_onlyEncoder x s).trans (ih _)

theorem emitWithPending_onlyEncoder (x : Bool) (s : State) : onlyEncoder s (emitWithPending x s) :=
  ((emitBit_onlyEncoder x s).trans (emitMany_onlyEncoder _ _ _)).trans rfl

theorem encRenormLoop_onlyEncoder (n : Nat) (s : State) : onlyEncoder s (encRenormLoop n s) := by
  induction n generalizing s with
  | zero => rfl
  | succ n ih =>
    unfold encRenormLoop
    split
    · exact ((emitWithPending_onlyEncoder s.low.msb s).trans rfl).trans (ih _)
    · exact onlyEncoder.trans rfl (ih _)
    · rfl

theorem narrow_onlyEncoder (c : Nat) (b : Bool) (s : State) : onlyEncoder s (narrow c b s) := by
  unfold narrow
  split <;> rfl

theorem encodeBit_onlyEncoder (c : Nat) (b : Bool) (s : State) : onlyEncoder s (encodeBit c b s) :=
  ((narrow_onlyEncoder c b s).trans (encRenormLoop_onlyEncoder _ _)).trans (update_onlyEncoder c b _)

theorem codeBit_onlyEncoder (c : Nat) (b k : Bool) (s : State) : onlyEncoder s (codeBit c b k s) := by
  unfold codeBit
  split
  · exact cost_onlyEncoder c b s
  · exact encodeBit_onlyEncoder c b s

theorem codeInt_onlyEncoder (n v : Nat) (k : Bool) (s : State) : onlyEncoder s (codeInt n v k s) := by
  induction n generalizing s with
  | zero => rfl
  | succ n ih => exact (codeBit_onlyEncoder _ _ _ s).trans (ih _)

/-- A fold of operations that only code bits only codes bits. -/
theorem foldl_onlyEncoder {α : Type} (f : State → α → State) (l : List α)
    (hf : ∀ s x, onlyEncoder s (f s x)) (s : State) : onlyEncoder s (l.foldl f s) := by
  induction l generalizing s with
  | nil => rfl
  | cons x rest ih => exact (hf s x).trans (ih _)

/-! Real coding leaves `RATEACC` alone, cost-only coding everything but `RATEACC` and the models. -/

theorem emitBit_rateAcc (x : Bool) (s : State) : (emitBit x s).rateAcc = s.rateAcc := by
  unfold emitBit
  dsimp only
  split <;> rfl

theorem emitBit_pend (x : Bool) (s : State) : (emitBit x s).pend = s.pend := by
  unfold emitBit
  dsimp only
  split <;> rfl

theorem emitBit_bank (x : Bool) (s : State) : (emitBit x s).bank = s.bank := by
  unfold emitBit
  dsimp only
  split <;> rfl

theorem emitMany_bank (n : Nat) (x : Bool) (s : State) : (emitMany n x s).bank = s.bank := by
  induction n generalizing s with
  | zero => rfl
  | succ n ih => exact (ih _).trans (emitBit_bank x s)

theorem encRenormLoop_bank (n : Nat) (s : State) : (encRenormLoop n s).bank = s.bank := by
  induction n generalizing s with
  | zero => rfl
  | succ n ih =>
    unfold encRenormLoop
    split
    · exact (ih _).trans ((emitMany_bank _ _ _).trans (emitBit_bank _ _))
    · exact ih _
    · rfl

theorem narrow_bank (c : Nat) (b : Bool) (s : State) : (narrow c b s).bank = s.bank := by
  unfold narrow
  split <;> rfl

theorem bankGet_congr {s t : State} (h : s.bank = t.bank) (c : Nat) : bankGet s c = bankGet t c := by
  simp [bankGet, h]

/-- Coding a bit changes the bank by `Update` and nothing else, in both modes (41_arith_encoder.md R115). -/
theorem codeBit_bank (c : Nat) (b k : Bool) (s : State) : (codeBit c b k s).bank = (update c b s).bank := by
  unfold codeBit
  split
  · rfl
  · have h := (encRenormLoop_bank renormPasses (narrow c b s)).trans (narrow_bank c b s)
    simp only [encodeBit, update, bankSet_bank, encRenorm, bankGet_congr h, h]

/-! Decoding. -/

theorem srcNext_some {s t : State} {b : Byte} (h : srcNext s = some (b, t)) :
    s.inp[s.cur]? = some b ∧ t = { s with cur := s.cur + 1 } := by
  unfold srcNext at h
  split at h
  · cases h
  · cases h
    exact ⟨‹_›, rfl⟩

/-- `GetBit` fails exactly where a byte is needed and the source has none (42_arith_decoder.md R120). -/
theorem getBit_eq_none_iff (s : State) : getBit s = none ↔ s.dbn = 0#4 ∧ s.inp.length ≤ s.cur := by
  unfold getBit srcNext
  split
  · cases h : s.inp[s.cur]? with
    | none => simpa [*] using List.getElem?_eq_none_iff.mp h
    | some b => simpa [*] using (List.getElem?_eq_some_iff.mp h).1
  · simp [*]

theorem getBit_onlyDecoder {s t : State} {x : Bool} (h : getBit s = some (x, t)) : onlyDecoder s t := by
  unfold getBit at h
  split at h
  · split at h
    · cases h
    · rename_i hs
      obtain ⟨-, rfl⟩ := srcNext_some hs
      cases h
      rfl
  · cases h
    rfl

theorem decRenormLoop_onlyDecoder (n : Nat) {s t : State} (h : decRenormLoop n s = some t) : onlyDecoder s t := by
  induction n generalizing s with
  | zero =>
    cases h
    rfl
  | succ n ih =>
    unfold decRenormLoop at h
    split at h
    · split at h
      · cases h
      · exact ((getBit_onlyDecoder ‹_›).trans rfl).trans (ih h)
    · split at h
      · cases h
      · exact ((getBit_onlyDecoder ‹_›).trans rfl).trans (ih h)
    · cases h
      rfl

theorem narrow_onlyDecoder (c : Nat) (b : Bool) (s : State) : onlyDecoder s (narrow c b s) := by
  unfold narrow
  split <;> rfl

theorem decodeBit_onlyDecoder (c : Nat) {s t : State} {b : Bool} (h : decodeBit c s = some (b, t)) :
    onlyDecoder s t := by
  unfold decodeBit at h
  dsimp only at h
  split at h
  · cases h
  · rename_i hs
    cases h
    exact ((narrow_onlyDecoder c _ s).trans (decRenormLoop_onlyDecoder _ hs)).trans rfl

theorem decodeIntLoop_onlyDecoder (n v : Nat) {s t : State} {r : Nat} (h : decodeIntLoop n v s = some (r, t)) :
    onlyDecoder s t := by
  induction n generalizing s v with
  | zero =>
    cases h
    rfl
  | succ n ih =>
    unfold decodeIntLoop at h
    split at h
    · cases h
    · exact (decodeBit_onlyDecoder _ ‹_›).trans (ih _ h)

theorem primeCode_onlyDecoder (n : Nat) {s t : State} (h : primeCode n s = some t) : onlyDecoder s t := by
  induction n generalizing s with
  | zero =>
    cases h
    rfl
  | succ n ih =>
    unfold primeCode at h
    split at h
    · cases h
    · exact ((getBit_onlyDecoder ‹_›).trans rfl).trans (ih h)

/-- The decoder never moves the cursor back or past the end of the source. -/
theorem getBit_cursor {s t : State} {x : Bool} (h : getBit s = some (x, t)) :
    s.cur ≤ t.cur ∧ (s.cur ≤ s.inp.length → t.cur ≤ s.inp.length) := by
  unfold getBit at h
  split at h
  · split at h
    · cases h
    · rename_i hs
      obtain ⟨hb, rfl⟩ := srcNext_some hs
      cases h
      have := (List.getElem?_eq_some_iff.1 hb).1
      simp only
      omega
  · cases h
    exact ⟨le_refl _, id⟩

end Sys2Proof.Machine
end

