-- ==== Sys2Proof/Laws/Memory.lean ====
section
/-! SUPPORT. Block memory: a read after a write, and the canonical form kept by every operation that writes
(20_memory.md R51). -/

namespace Sys2Proof.Machine

theorem cellsGet_cellsSet (l : List (Nat × Word)) (h : l.Pairwise (fun x y => x.1 < y.1)) (a b : Nat) (v : Word) :
    cellsGet (cellsSet l a v) b = if b = a then some v else cellsGet l b := by
  induction l with
  | nil => simp [cellsSet, cellsGet]
  | cons c rest ih =>
    obtain ⟨k, w⟩ := c
    have ih := ih (List.pairwise_cons.1 h).2
    simp only [cellsSet]
    split
    · simp only [cellsGet]
    · split
      · subst_vars
        simp only [cellsGet]
        split <;> rfl
      · simp only [cellsGet, ih]
        split <;> split <;> simp_all

/-- Every address of the written cells is the written one or was there before. -/
theorem mem_cellsSet {l : List (Nat × Word)} {a : Nat} {v : Word} {c : Nat × Word}
    (h : c ∈ cellsSet l a v) : c = (a, v) ∨ c ∈ l := by
  induction l with
  | nil => simpa [cellsSet] using h
  | cons d rest ih =>
    obtain ⟨k, w⟩ := d
    simp only [cellsSet] at h
    split at h
    · simpa using h
    · split at h
      · rcases List.mem_cons.1 h with h | h
        · exact .inl h
        · exact .inr (List.mem_cons_of_mem _ h)
      · rcases List.mem_cons.1 h with h | h
        · exact .inr (h ▸ List.mem_cons_self ..)
        · exact (ih h).imp_right (List.mem_cons_of_mem _)

theorem cellsSet_rising (l : List (Nat × Word)) (a : Nat) (v : Word) (h : l.Pairwise (fun x y => x.1 < y.1)) :
    (cellsSet l a v).Pairwise (fun x y => x.1 < y.1) := by
  induction l with
  | nil => simp [cellsSet]
  | cons c rest ih =>
    obtain ⟨k, w⟩ := c
    obtain ⟨hk, hrest⟩ := List.pairwise_cons.1 h
    simp only [cellsSet]
    split
    · rename_i hlt
      refine List.pairwise_cons.2 ⟨fun d hd => ?_, h⟩
      rcases List.mem_cons.1 hd with rfl | hd
      · exact hlt
      · exact hlt.trans (hk d hd)
    · split
      · subst_vars
        exact List.pairwise_cons.2 ⟨hk, hrest⟩
      · refine List.pairwise_cons.2 ⟨fun d hd => ?_, ih hrest⟩
        rcases mem_cellsSet hd with rfl | hd
        · exact lt_of_le_of_ne (Nat.le_of_not_lt ‹_›) (fun e => ‹¬a = k› e.symm)
        · exact hk d hd

/-- A write keeps the canonical form. -/
theorem Memory.write_wf (m : Memory) (a : Nat) (v : Word) (h : m.wf) : (m.write a v).wf :=
  cellsSet_rising m.cells a v h

/-- A read after a write: the written word at its address, the old word elsewhere. -/
theorem Memory.read_write (m : Memory) (h : m.wf) (a b : Nat) (v : Word) :
    (m.write a v).read b = if b = a then v else m.read b := by
  simp only [Memory.read, Memory.write, cellsGet_cellsSet m.cells h a b v]
  split <;> rfl

theorem reset_memory_wf : State.reset.mem.wf := by decide

@[simp] theorem Memory.write_seed (m : Memory) (a : Nat) (v : Word) : (m.write a v).seed = m.seed := rfl

/-- What a sequence of memory writes leaves: the canonical form, only addresses of `addrs` written anew, and
every other word as it was. -/
structure WritesOnly (addrs : Nat → Prop) (m n : Memory) : Prop where
  wf : n.wf
  range : ∀ c ∈ n.cells, addrs c.1 ∨ c ∈ m.cells
  other : ∀ a, ¬addrs a → n.read a = m.read a

theorem WritesOnly.refl (p : Nat → Prop) (m : Memory) (h : m.wf) : WritesOnly p m m :=
  ⟨h, fun _ hc => .inr hc, fun _ _ => rfl⟩

theorem WritesOnly.trans {p : Nat → Prop} {m n k : Memory} (h1 : WritesOnly p m n) (h2 : WritesOnly p n k) :
    WritesOnly p m k :=
  ⟨h2.wf, fun c hc => (h2.range c hc).elim .inl fun h => h1.range c h,
    fun a ha => (h2.other a ha).trans (h1.other a ha)⟩

theorem WritesOnly.write (p : Nat → Prop) (m : Memory) (h : m.wf) (a : Nat) (v : Word) (ha : p a) :
    WritesOnly p m (m.write a v) := by
  refine ⟨m.write_wf a v h, fun c hc => ?_, fun b hb => ?_⟩
  · rcases mem_cellsSet hc with rfl | hc
    · exact .inl ha
    · exact .inr hc
  · rw [m.read_write h]
    exact if_neg fun e : b = a => hb (e ▸ ha)

/-- `Fill0` and every other fold of writes at addresses with `p`. -/
theorem foldl_writesOnly {α : Type} (p : Nat → Prop) (f : State → α → State) (l : List α)
    (hf : ∀ x ∈ l, ∀ s : State, s.mem.wf → WritesOnly p s.mem (f s x).mem) (s : State) (h : s.mem.wf) :
    WritesOnly p s.mem (l.foldl f s).mem := by
  induction l generalizing s with
  | nil => exact WritesOnly.refl p s.mem h
  | cons x rest ih =>
    have h1 := hf x (List.mem_cons_self ..) s h
    exact h1.trans (ih (fun y hy => hf y (List.mem_cons_of_mem _ hy)) _ h1.wf)

theorem fill0_writesOnly (p : Nat → Prop) (blk : Block) (b : Sub) (hp : ∀ e ∈ b.cells, p (blk.addr e))
    (s : State) (h : s.mem.wf) : WritesOnly p s.mem (fill0 blk b s).mem :=
  foldl_writesOnly p _ b.cells (fun e he s hs => WritesOnly.write p s.mem hs _ _ (hp e he)) s h

theorem freeWords_writesOnly (k n a : Nat) (s : State) (h : s.mem.wf) :
    WritesOnly (fun x => a ≤ x ∧ x < a + n) s.mem (freeWords k n a s).mem := by
  induction n generalizing a s with
  | zero => exact WritesOnly.refl _ s.mem h
  | succ n ih =>
    have h1 := WritesOnly.write (fun x => a ≤ x ∧ x < a + (n + 1)) s.mem h a (Config.freeWord k a) (by omega)
    have h2 := ih (a + 1) (memWrite a (Config.freeWord k a) s) h1.wf
    exact h1.trans ⟨h2.wf, fun c hc => (h2.range c hc).imp_left (by omega), fun b hb => h2.other b (by omega)⟩

theorem writeLine_writesOnly (p : Nat → Prop) (addrs : List Nat) (hp : ∀ a ∈ addrs, p a) (ys : List Int)
    (s : State) (h : s.mem.wf) : WritesOnly p s.mem (writeLine addrs ys s).mem := by
  induction addrs generalizing ys s with
  | nil => exact WritesOnly.refl p s.mem h
  | cons a rest ih =>
    cases ys with
    | nil => exact WritesOnly.refl p s.mem h
    | cons y ys =>
      have h1 := WritesOnly.write p s.mem h a (sat32 y) (hp a (List.mem_cons_self ..))
      exact h1.trans
        (ih (fun b hb => hp b (List.mem_cons_of_mem _ hb)) ys (noteClamp y (memWrite a (sat32 y) s)) h1.wf)

theorem transformLines_writesOnly (p : Nat → Prop) (f : List Int → List Int) (blk : Block) (a : Axis)
    (hp : ∀ line ∈ lines blk a, ∀ x ∈ line, p x) (s : State) (h : s.mem.wf) :
    WritesOnly p s.mem (transformLines f blk a s).mem :=
  foldl_writesOnly p _ _ (fun line hl s hs => writeLine_writesOnly p line (hp line hl) _ s hs) s h

end Sys2Proof.Machine
end

