-- ==== Sys2Proof/Laws/Blocks.lean ====
section
/-! SUPPORT. What the checks let through and what the walks and the transform passes can do: once each. -/

namespace Sys2Proof.Machine

/-! The checks. -/

theorem mem_allAxes (a : Axis) : a ∈ allAxes := by cases a <;> decide

theorem badLength_eq_false_iff (limit : Nat) (l : Axes Nat) :
    badLength limit l = false ↔ ∀ a, 1 ≤ l.get a ∧ l.get a ≤ limit := by
  simp only [badLength, List.any_eq_false, mem_allAxes, true_implies, Bool.or_eq_true, decide_eq_true_eq, not_or,
    not_lt, Nat.one_le_iff_ne_zero]

/-- `BlockCheck` passes exactly the blocks of legal lengths that fit (43_bitplane.md R131). -/
theorem blockCheck_eq_none_iff (w : Word) (s : State) :
    blockCheck w s = none ↔
      (∀ a, 1 ≤ (currentBlock s).len.get a ∧ (currentBlock s).len.get a ≤ s.par.maxLen) ∧
        (currentBlock s).base + (currentBlock s).len.product ≤ s.par.blkCap := by
  rw [← badLength_eq_false_iff]
  unfold blockCheck
  dsimp only
  split
  · simp [*]
  · split <;> simp_all

/-- `TxCheck` passes exactly where R150's four conditions hold. -/
theorem txCheck_eq_none_iff (w : Word) (s : State) :
    txCheck w s = none ↔
      blockCheck w s = none ∧ (∀ a, 1 ≤ (transformLen s).get a ∧ (transformLen s).get a ≤ 64) ∧
        (∀ a, (currentBlock s).len.get a ≤ (transformLen s).get a) ∧
        ∀ a, weight s a ((currentBlock s).len.get a) ≠ 0 := by
  have hany (p : Axis → Bool) : allAxes.any p = true ↔ ∃ a, p a = true := by
    simp [List.any_eq_true, mem_allAxes]
  rw [← badLength_eq_false_iff]
  unfold txCheck
  dsimp only
  split
  · simp [*]
  · split
    · simp_all
    · split
      · rename_i h
        obtain ⟨a, ha⟩ := (hany _).mp h
        rw [decide_eq_true_eq] at ha
        simp only [reduceCtorEq, false_iff, not_and]
        exact fun _ _ h => absurd (h a) (Nat.not_le.mpr ha)
      · split
        · rename_i h
          obtain ⟨a, ha⟩ := (hany _).mp h
          rw [decide_eq_true_eq] at ha
          simp only [reduceCtorEq, false_iff, not_and]
          exact fun _ _ _ h => h a ha
        · simp_all [mem_allAxes]

theorem onlyBlockDecoder.trans {s t u : State} (h1 : onlyBlockDecoder s t) (h2 : onlyBlockDecoder t u) :
    onlyBlockDecoder s u := by
  unfold onlyBlockDecoder at *
  rw [h1] at h2
  exact h2

theorem onlyDecoder.toBlock {s t : State} (h : onlyDecoder s t) : onlyBlockDecoder s t := by
  unfold onlyDecoder at h
  unfold onlyBlockDecoder
  rw [h]

theorem onlyTransform.trans {s t u : State} (h1 : onlyTransform s t) (h2 : onlyTransform t u) :
    onlyTransform s u := by
  unfold onlyTransform at *
  rw [h1] at h2
  exact h2

/-! The encoder's walk. -/

theorem encTerminal_onlyEncoder (blk : Block) (inf : Nat) (pos : Axes Nat) (p : Nat) (k : Bool) (s : State) :
    onlyEncoder s (encTerminal blk inf pos p k s) := by
  have h := foldl_onlyEncoder
    (fun st q => codeBit (ctxMag q) (magnitudeBit (memRead s (blk.addr pos)) q) k st) (planesDown p inf)
    (fun t q => codeBit_onlyEncoder _ _ _ t) s
  unfold encTerminal
  dsimp only
  split
  · exact h.trans (codeBit_onlyEncoder _ _ _ _)
  · exact h

theorem walkEncLoop_onlyEncoder (blk : Block) (inf : Nat) (k : Bool) (n : Nat) (b : Sub) (p : Int) (s : State) :
    onlyEncoder s (walkEncLoop blk inf k n b p s) := by
  induction n generalizing b p s with
  | zero => rfl
  | succ n ih =>
    unfold walkEncLoop
    split
    · rfl
    · split
      · exact encTerminal_onlyEncoder blk inf b.pos _ k s
      · split
        · exact codeBit_onlyEncoder _ _ _ s
        · exact ((codeBit_onlyEncoder _ _ _ s).trans (codeBit_onlyEncoder _ _ _ _)).trans (ih _ _ _)
        · exact ((codeBit_onlyEncoder _ _ _ s).trans (codeBit_onlyEncoder _ _ _ _)).trans
            (foldl_onlyEncoder _ _ (fun t child => ih child p t) _)

theorem codeBlock_onlyEncoder (c h : Bool) (s : State) : onlyEncoder s (codeBlock c h s) := by
  unfold codeBlock walkEnc
  split
  · exact (codeInt_onlyEncoder _ _ _ s).trans (walkEncLoop_onlyEncoder _ _ _ _ _ _ _)
  · exact walkEncLoop_onlyEncoder _ _ _ _ _ _ _

/-! The decoder's walk. -/

theorem fill0_onlyBlockDecoder (blk : Block) (b : Sub) (s : State) : onlyBlockDecoder s (fill0 blk b s) := by
  unfold fill0
  generalize b.cells = l
  induction l generalizing s with
  | nil => rfl
  | cons e rest ih => exact onlyBlockDecoder.trans (t := memWrite (blk.addr e) 0#32 s) rfl (ih _)

theorem decMagnitude_onlyDecoder (l : List Nat) (m : Nat) {s t : State} {r : Nat}
    (h : decMagnitude l m s = some (r, t)) : onlyDecoder s t := by
  induction l generalizing m s with
  | nil =>
    cases h
    rfl
  | cons q rest ih =>
    unfold decMagnitude at h
    split at h
    · cases h
    · exact (decodeBit_onlyDecoder _ ‹_›).trans (ih _ h)

theorem decTerminal_onlyBlockDecoder (blk : Block) (inf : Nat) (pos : Axes Nat) (p : Nat) {s t : State}
    (h : decTerminal blk inf pos p s = some t) : onlyBlockDecoder s t := by
  unfold decTerminal at h
  split at h
  · cases h
  · have h1 := (decMagnitude_onlyDecoder _ _ ‹_›).toBlock
    split at h
    · cases h
      exact h1.trans rfl
    · split at h
      · cases h
      · cases h
        exact (h1.trans (decodeBit_onlyDecoder _ ‹_›).toBlock).trans rfl

/-- A fold of operations that only decode into the block only decodes into the block. -/
theorem foldlM_onlyBlockDecoder {α : Type} (f : State → α → Option State) (l : List α)
    (hf : ∀ s t x, f s x = some t → onlyBlockDecoder s t) {s t : State} (h : l.foldlM f s = some t) :
    onlyBlockDecoder s t := by
  induction l generalizing s with
  | nil =>
    cases h
    rfl
  | cons x rest ih =>
    simp only [List.foldlM_cons, Option.bind_eq_bind, Option.bind_eq_some_iff] at h
    obtain ⟨u, hu, h⟩ := h
    exact (hf s u x hu).trans (ih h)

theorem walkDecLoop_onlyBlockDecoder (blk : Block) (inf n : Nat) (b : Sub) (p : Int) {s t : State}
    (h : walkDecLoop blk inf n b p s = some t) : onlyBlockDecoder s t := by
  induction n generalizing b p s t with
  | zero =>
    cases h
    rfl
  | succ n ih =>
    unfold walkDecLoop at h
    split at h
    · cases h
      exact fill0_onlyBlockDecoder blk b s
    · split at h
      · exact decTerminal_onlyBlockDecoder blk inf b.pos _ h
      · split at h
        · cases h
        · cases h
          exact (decodeBit_onlyDecoder _ ‹_›).toBlock.trans (fill0_onlyBlockDecoder blk b _)
        · have h1 := (decodeBit_onlyDecoder _ ‹_›).toBlock
          split at h
          · cases h
          · exact (h1.trans (decodeBit_onlyDecoder _ ‹_›).toBlock).trans (ih _ _ h)
          · exact (h1.trans (decodeBit_onlyDecoder _ ‹_›).toBlock).trans
              (foldlM_onlyBlockDecoder _ _ (fun _ _ x hx => ih x p hx) h)

/-- What `DEBLK` decodes changes the decoder's pieces, block memory and (with `H`) `INF`. -/
theorem decodeBlock_only (hd : Bool) {s t : State} (h : decodeBlock hd s = some t) :
    onlyBlockDecoder { s with inf := t.inf } t ∧ (hd = false → t.inf = s.inf) := by
  unfold decodeBlock decodeHeader at h
  cases hd with
  | false =>
    have h1 := walkDecLoop_onlyBlockDecoder _ _ _ _ _ h
    have h2 : t.inf = s.inf := by rw [h1]
    refine ⟨?_, fun _ => h2⟩
    rw [h2]
    exact h1
  | true =>
    simp only [if_true] at h
    cases hi : decodeInt 5 s with
    | none => simp [hi] at h
    | some r =>
      obtain ⟨v, s1⟩ := r
      simp only [hi] at h
      have h0 := decodeIntLoop_onlyDecoder 5 0 hi
      have h1 := walkDecLoop_onlyBlockDecoder _ _ _ _ _ h
      refine ⟨?_, fun e => by cases e⟩
      have h2 : t.inf = BitVec.ofNat 5 v := by rw [h1]
      unfold onlyBlockDecoder at h1 ⊢
      unfold onlyDecoder at h0
      rw [h2]
      rw [h0] at h1
      exact h1

/-! The transform. -/

theorem writeLine_onlyTransform (addrs : List Nat) (ys : List Int) (s : State) :
    onlyTransform s (writeLine addrs ys s) := by
  induction addrs generalizing ys s with
  | nil => rfl
  | cons a rest ih =>
    cases ys with
    | nil => rfl
    | cons y ys => exact onlyTransform.trans (t := noteClamp y (memWrite a (sat32 y) s)) rfl (ih _ _)

theorem transformLines_onlyTransform (f : List Int → List Int) (blk : Block) (a : Axis) (s : State) :
    onlyTransform s (transformLines f blk a s) := by
  unfold transformLines
  generalize lines blk a = l
  induction l generalizing s with
  | nil => rfl
  | cons x rest ih => exact (writeLine_onlyTransform x _ s).trans (ih _)

theorem touchTC_onlyTransform (d : Dir) (n : Nat) (s : State) : onlyTransform s (touchTC d n s) := by
  cases d <;> (unfold touchTC; dsimp only; split <;> rfl)

theorem touchGC_onlyTransform (a : Axis) (n : Nat) (s : State) : onlyTransform s (touchGC a n s) := by
  unfold touchGC
  split <;> rfl

theorem pass_onlyTransform (d : Dir) (blk : Block) (w : Axis → Nat) (s : State) (a : Axis) :
    onlyTransform s (pass d blk w s a) :=
  ((touchTC_onlyTransform d _ s).trans (touchGC_onlyTransform a _ _)).trans
    (transformLines_onlyTransform _ blk a _)

theorem transformBlock_onlyTransform (d : Dir) (s : State) : onlyTransform s (transformBlock d s) := by
  unfold transformBlock
  dsimp only
  generalize passOrder d = l
  generalize (fun a => weight s a ((currentBlock s).len.get a)) = w
  generalize currentBlock s = blk
  induction l generalizing s with
  | nil => rfl
  | cons a rest ih => exact (pass_onlyTransform d blk w s a).trans (ih _)

end Sys2Proof.Machine
end

