-- ==== Sys2Proof/Laws/PerInstr.lean ====
section
/-! SUPPORT. Statements made per instruction: one lemma per constructor of `Instr`. -/

namespace Sys2Proof.Laws

/-- The row of the opcode table an instruction belongs to (30_encoding.md R80). -/
def rowOf : Instr → Op
  | .nop => .nop
  | .srst => .srst
  | .mrst => .mrst
  | .mrst1 _ => .mrst1
  | .mupd _ _ => .mupd
  | .mrate _ _ => .mrate
  | .rclr => .rclr
  | .snap _ => .snap
  | .rest _ => .rest
  | .einit _ => .einit
  | .encb _ _ _ => .encb
  | .enci _ _ _ => .enci
  | .efin => .efin
  | .dinit _ => .dinit
  | .decb _ => .decb
  | .deci _ => .deci
  | .dfin => .dfin
  | .enblk _ _ => .enblk
  | .deblk _ => .deblk
  | .tfwd => .tfwd
  | .tinv => .tinv
  | .tflush => .tflush
  | .csput _ => .csput
  | .csget => .csget
  | .csrw _ => .csrw

/-- The opcode of every encoding is its row's: bits `[31:24]` of the word. -/
def EncodeRow.Statement (i : Instr) : Prop :=
  opOfCode ((encode i).extractLsb' 24 8).toNat = some (rowOf i)

/-- A field that lies in the upper part of a concatenation. -/
theorem extractLsb'_append_upper {m k : Nat} (x : BitVec m) (y : BitVec k) (j w : Nat) :
    (x ++ y).extractLsb' (k + j) w = x.extractLsb' j w := by
  ext i hi
  simp only [BitVec.getElem_extractLsb', BitVec.getLsbD_append]
  rw [if_neg (by omega), show k + j + i - k = j + i by omega]

theorem extractLsb'_whole {m : Nat} (x : BitVec m) : x.extractLsb' 0 m = x := by simp

theorem encodeN_opcode (op : BitVec 8) : (encodeN op).extractLsb' 24 8 = op :=
  (extractLsb'_append_upper op 0#24 0 8).trans (extractLsb'_whole op)

theorem encodeM_opcode (op : BitVec 8) (c b : Bool) (ctx : BitVec 8) :
    (encodeM op c b ctx).extractLsb' 24 8 = op :=
  (extractLsb'_append_upper _ ctx 16 8).trans <| (extractLsb'_append_upper _ 0#8 8 8).trans <|
    (extractLsb'_append_upper _ (BitVec.ofBool b) 7 8).trans <| (extractLsb'_append_upper _ 0#6 1 8).trans <|
    (extractLsb'_append_upper op (BitVec.ofBool c) 0 8).trans (extractLsb'_whole op)

theorem encodeI_opcode (op : BitVec 8) (c : Bool) (n : BitVec 5) (v : BitVec 16) :
    (encodeI op c n v).extractLsb' 24 8 = op :=
  (extractLsb'_append_upper _ v 8 8).trans <| (extractLsb'_append_upper _ n 3 8).trans <|
    (extractLsb'_append_upper _ 0#2 1 8).trans <|
    (extractLsb'_append_upper op (BitVec.ofBool c) 0 8).trans (extractLsb'_whole op)

theorem encodeS_opcode (op : BitVec 8) (slot : BitVec 4) : (encodeS op slot).extractLsb' 24 8 = op :=
  (extractLsb'_append_upper _ slot 20 8).trans <|
    (extractLsb'_append_upper op 0#20 0 8).trans (extractLsb'_whole op)

theorem encodeB_opcode (op : BitVec 8) (c h m : Bool) : (encodeB op c h m).extractLsb' 24 8 = op :=
  (extractLsb'_append_upper _ 0#21 3 8).trans <| (extractLsb'_append_upper _ (BitVec.ofBool m) 2 8).trans <|
    (extractLsb'_append_upper _ (BitVec.ofBool h) 1 8).trans <|
    (extractLsb'_append_upper op (BitVec.ofBool c) 0 8).trans (extractLsb'_whole op)

theorem encodeR_opcode (op : BitVec 8) (k : BitVec 24) : (encodeR op k).extractLsb' 24 8 = op :=
  (extractLsb'_append_upper op k 0 8).trans (extractLsb'_whole op)

theorem encodeY_opcode (op : BitVec 8) (byte : BitVec 8) : (encodeY op byte).extractLsb' 24 8 = op :=
  (extractLsb'_append_upper _ byte 16 8).trans <|
    (extractLsb'_append_upper op 0#16 0 8).trans (extractLsb'_whole op)

theorem EncodeRow.nop : EncodeRow.Statement .nop := by
  simp [EncodeRow.Statement, encode, encodeN_opcode, rowOf, opOfCode]

theorem EncodeRow.srst : EncodeRow.Statement .srst := by
  simp [EncodeRow.Statement, encode, encodeN_opcode, rowOf, opOfCode]

theorem EncodeRow.mrst : EncodeRow.Statement .mrst := by
  simp [EncodeRow.Statement, encode, encodeN_opcode, rowOf, opOfCode]

theorem EncodeRow.mrst1 (ctx : BitVec 8) : EncodeRow.Statement (.mrst1 ctx) := by
  simp [EncodeRow.Statement, encode, encodeM_opcode, rowOf, opOfCode]

theorem EncodeRow.mupd (b : Bool) (ctx : BitVec 8) : EncodeRow.Statement (.mupd b ctx) := by
  simp [EncodeRow.Statement, encode, encodeM_opcode, rowOf, opOfCode]

theorem EncodeRow.mrate (b : Bool) (ctx : BitVec 8) : EncodeRow.Statement (.mrate b ctx) := by
  simp [EncodeRow.Statement, encode, encodeM_opcode, rowOf, opOfCode]

theorem EncodeRow.rclr : EncodeRow.Statement .rclr := by
  simp [EncodeRow.Statement, encode, encodeN_opcode, rowOf, opOfCode]

theorem EncodeRow.snap (slot : BitVec 4) : EncodeRow.Statement (.snap slot) := by
  simp [EncodeRow.Statement, encode, encodeS_opcode, rowOf, opOfCode]

theorem EncodeRow.rest (slot : BitVec 4) : EncodeRow.Statement (.rest slot) := by
  simp [EncodeRow.Statement, encode, encodeS_opcode, rowOf, opOfCode]

theorem EncodeRow.einit (m : Bool) : EncodeRow.Statement (.einit m) := by
  simp [EncodeRow.Statement, encode, encodeB_opcode, rowOf, opOfCode]

theorem EncodeRow.encb (c : Bool) (b : Bool) (ctx : BitVec 8) : EncodeRow.Statement (.encb c b ctx) := by
  simp [EncodeRow.Statement, encode, encodeM_opcode, rowOf, opOfCode]

theorem EncodeRow.enci (c : Bool) (n : BitVec 5) (v : BitVec 16) : EncodeRow.Statement (.enci c n v) := by
  simp [EncodeRow.Statement, encode, encodeI_opcode, rowOf, opOfCode]

theorem EncodeRow.efin : EncodeRow.Statement .efin := by
  simp [EncodeRow.Statement, encode, encodeN_opcode, rowOf, opOfCode]

theorem EncodeRow.dinit (m : Bool) : EncodeRow.Statement (.dinit m) := by
  simp [EncodeRow.Statement, encode, encodeB_opcode, rowOf, opOfCode]

theorem EncodeRow.decb (ctx : BitVec 8) : EncodeRow.Statement (.decb ctx) := by
  simp [EncodeRow.Statement, encode, encodeM_opcode, rowOf, opOfCode]

theorem EncodeRow.deci (n : BitVec 5) : EncodeRow.Statement (.deci n) := by
  simp [EncodeRow.Statement, encode, encodeI_opcode, rowOf, opOfCode]

theorem EncodeRow.dfin : EncodeRow.Statement .dfin := by
  simp [EncodeRow.Statement, encode, encodeN_opcode, rowOf, opOfCode]

theorem EncodeRow.enblk (c : Bool) (h : Bool) : EncodeRow.Statement (.enblk c h) := by
  simp [EncodeRow.Statement, encode, encodeB_opcode, rowOf, opOfCode]

theorem EncodeRow.deblk (h : Bool) : EncodeRow.Statement (.deblk h) := by
  simp [EncodeRow.Statement, encode, encodeB_opcode, rowOf, opOfCode]

theorem EncodeRow.tfwd : EncodeRow.Statement .tfwd := by
  simp [EncodeRow.Statement, encode, encodeN_opcode, rowOf, opOfCode]

theorem EncodeRow.tinv : EncodeRow.Statement .tinv := by
  simp [EncodeRow.Statement, encode, encodeN_opcode, rowOf, opOfCode]

theorem EncodeRow.tflush : EncodeRow.Statement .tflush := by
  simp [EncodeRow.Statement, encode, encodeN_opcode, rowOf, opOfCode]

theorem EncodeRow.csput (byte : BitVec 8) : EncodeRow.Statement (.csput byte) := by
  simp [EncodeRow.Statement, encode, encodeY_opcode, rowOf, opOfCode]

theorem EncodeRow.csget : EncodeRow.Statement .csget := by
  simp [EncodeRow.Statement, encode, encodeN_opcode, rowOf, opOfCode]

theorem EncodeRow.csrw (k : BitVec 24) : EncodeRow.Statement (.csrw k) := by
  simp [EncodeRow.Statement, encode, encodeR_opcode, rowOf, opOfCode]

end Sys2Proof.Laws
end

