-- ==== Sys2Proof/Tests/Slice0.lean ====
section
/-! SUPPORT. Small checks of the model: ill-formed operands, words written out from 30_encoding.md, one-step
checks whose expected values are those of 95_test_vectors.md, and, for each statement with hypotheses, a
concrete state and operands that meet them. -/

open Sys2Proof Sys2Proof.Machine Sys2Proof.Claims

namespace Sys2Proof.Tests

-- One theorem after the other: checked side by side, their threads' stacks exceed the memory limit.
set_option Elab.async false

/-- A check of the next state of a result. -/
def after (r : Result) (f : State → Bool) : Bool :=
  match r with
  | .next t => f t
  | .fault _ => false
  | .refused _ => false

/-- The next state of a result; reset where there is none. -/
def nextOf (r : Result) : State :=
  match r with
  | .next t => t
  | .fault _ => State.reset
  | .refused _ => State.reset

/-- One step that runs the command word `w`. -/
def run (w : Nat) (s : State) : Result := step (s.withFetchWord 32 w)

/-- `FAULT = 1` with this code and information word. -/
def faultIs (code info : Nat) (t : State) : Bool := t.fault && t.err.toNat = code && t.errInfo.toNat = info

/-- Words at the addresses from `a` on, and no others. -/
def wordsAt (a : Nat) (xs : List Int) : Memory :=
  { seed := 0, cells := xs.zipIdx.map fun p => (a + p.2, BitVec.ofInt 32 p.1) }

/-- The state after reset with some `BANK[c] = (z, t)`. -/
def withModel (c z t : Nat) (s : State) : State :=
  bankSet c { z := BitVec.ofNat 12 z, t := BitVec.ofNat 12 t } s

/-- The state after reset and `EINIT.M`. -/
def encoding : State := { State.reset with mode := .enc }

/-- The state after reset, a load of `bs` and `DINIT.M`. -/
def decoding (bs : List Byte) : State :=
  { State.reset with mode := .dec, inp := bs, cur := 2, code := bs.getD 0 0#8 ++ bs.getD 1 0#8 }

/-- A 1×1×2×2 block at address 0 with `SUP = sup`, coded with full-length transforms. -/
def quad (sup : Nat) (xs : List Int) (s : State) : State :=
  { s with
    blkLen := ⟨1#7, 1#7, 2#7, 2#7⟩, tlen := ⟨1#7, 1#7, 2#7, 2#7⟩
    sup := BitVec.ofNat 5 sup, mem := wordsAt 0 xs }

/-! ## Well-formed operands (R79) -/

theorem test_wf_mrst1_161 : (Instr.mrst1 161#8).wellFormed = false := by decide
theorem test_wf_mupd_161 : (Instr.mupd true 161#8).wellFormed = false := by decide
theorem test_wf_mrate_161 : (Instr.mrate false 161#8).wellFormed = false := by decide
theorem test_wf_encb_161 : (Instr.encb false true 161#8).wellFormed = false := by decide
theorem test_wf_decb_161 : (Instr.decb 161#8).wellFormed = false := by decide
theorem test_wf_enci_0 : (Instr.enci false 0#5 0#16).wellFormed = false := by decide
theorem test_wf_enci_17 : (Instr.enci false 17#5 0#16).wellFormed = false := by decide
theorem test_wf_enci_value : (Instr.enci true 3#5 8#16).wellFormed = false := by decide
theorem test_wf_deci_0 : (Instr.deci 0#5).wellFormed = false := by decide
theorem test_wf_deci_17 : (Instr.deci 17#5).wellFormed = false := by decide
theorem test_wf_accepts :
    ([.mrst1 160#8, .encb true false 160#8, .enci false 16#5 65535#16, .enci false 3#5 7#16, .deci 1#5,
      .deci 16#5, .snap 15#4] : List Instr).all Instr.wellFormed = true := by decide

/-! ## Decoding: one word per command, written out from the formats of R71 to R78 and the opcodes of R80:
opcode, then for M `C`, six zeros, `b`, eight zeros, `ctx`; for I `C`, two zeros, `n`, `v`; for B `C`, `H`, `M`,
zeros -/

theorem test_decode_nop : decode 0b00000000000000000000000000000000#32 = .ok .nop := by decide
theorem test_decode_srst : decode 0b00000001000000000000000000000000#32 = .ok .srst := by decide
theorem test_decode_mrst : decode 0b00010000000000000000000000000000#32 = .ok .mrst := by decide
theorem test_decode_mrst1 : decode 0b00010001000000000000000010100000#32 = .ok (.mrst1 160#8) := by decide
theorem test_decode_mupd : decode 0b00010010000000010000000000000111#32 = .ok (.mupd true 7#8) := by decide
theorem test_decode_mrate : decode 0b00010011000000000000000010000001#32 = .ok (.mrate false 129#8) := by decide
theorem test_decode_rclr : decode 0b00010100000000000000000000000000#32 = .ok .rclr := by decide
theorem test_decode_snap : decode 0b00011000000000000000000000001001#32 = .ok (.snap 9#4) := by decide
theorem test_decode_rest : decode 0b00011001000000000000000000000110#32 = .ok (.rest 6#4) := by decide
theorem test_decode_einit : decode 0b00100000001000000000000000000000#32 = .ok (.einit true) := by decide
theorem test_decode_encb :
    decode 0b00100001100000010000000000100001#32 = .ok (.encb true true 33#8) := by decide
theorem test_decode_enci :
    decode 0b00100010000100001011111011101111#32 = .ok (.enci false 16#5 0xBEEF#16) := by decide
theorem test_decode_efin : decode 0b00100011000000000000000000000000#32 = .ok .efin := by decide
theorem test_decode_dinit : decode 0b00110000001000000000000000000000#32 = .ok (.dinit true) := by decide
theorem test_decode_decb : decode 0b00110001000000000000000010100000#32 = .ok (.decb 160#8) := by decide
theorem test_decode_deci : decode 0b00110010000001010000000000000000#32 = .ok (.deci 5#5) := by decide
theorem test_decode_dfin : decode 0b00110011000000000000000000000000#32 = .ok .dfin := by decide
theorem test_decode_enblk : decode 0b01000000010000000000000000000000#32 = .ok (.enblk false true) := by decide
theorem test_decode_enblk_c : decode 0b01000000100000000000000000000000#32 = .ok (.enblk true false) := by decide
theorem test_decode_deblk : decode 0b01000001010000000000000000000000#32 = .ok (.deblk true) := by decide
theorem test_decode_tfwd : decode 0b01010000000000000000000000000000#32 = .ok .tfwd := by decide
theorem test_decode_tinv : decode 0b01010001000000000000000000000000#32 = .ok .tinv := by decide
theorem test_decode_tflush : decode 0b01010010000000000000000000000000#32 = .ok .tflush := by decide
theorem test_decode_csput : decode 0b01100000000000000000000011011001#32 = .ok (.csput 0xD9#8) := by decide
theorem test_decode_csget : decode 0b01100001000000000000000000000000#32 = .ok .csget := by decide
theorem test_decode_csrw : decode 0b01100010100000000000000000000001#32 = .ok (.csrw 0x800001#24) := by decide

/-- V70's words, each with `ERR = 1`, itself in `ERRINFO` and `STATUS = 0x0C`. -/
theorem test_illegal_words :
    [0x02000000, 0x00000001, 0x21020000, 0x40200000, 0x41800000, 0x32850000, 0x22200001, 0x18000010,
      0xFFFFFFFF].all
      (fun w => after (run w State.reset) fun t => faultIs 1 w t && statusWord t = 0x0C#32) = true := by
  decide +kernel

/-! ## One step per command; the expected values are those of the named vector -/

/-- R170, R175. -/
theorem test_nop : after (run 0x00000000 State.reset) (fun t => t.cmdCnt = 1#32 && !t.fault) = true := by
  decide +kernel

/-- P4: `SRST` in the fault state. -/
theorem test_srst :
    after (run 0x01000000 { State.reset with fault := true, err := 2#8, errInfo := 0x21010005#32, sup := 9#5 })
      (fun t => statusWord t = 0x08#32 && t.err = 0#8 && t.sup = 0#5 && t.cmdCnt = 0#32) = true := by
  decide +kernel

/-- P4: another command in the fault state is dropped. -/
theorem test_fault_drops :
    after (run 0x12000005 { State.reset with fault := true, err := 2#8 })
      (fun t => bankGet t 5 = ⟨1#12, 2#12⟩ && t.cmdCnt = 0#32 && t.err = 2#8) = true := by
  decide +kernel

/-- V13. -/
theorem test_mrst :
    after (run 0x10000000 (withModel 160 4 6 (withModel 0 2 5 State.reset)))
      (fun t => t.bank = Vector.replicate 161 ⟨1#12, 2#12⟩) = true := by
  decide +kernel

/-- V13. -/
theorem test_mrst1 :
    after (run 0x11000005 (withModel 5 4 6 (withModel 6 2 5 State.reset)))
      (fun t => bankGet t 5 = ⟨1#12, 2#12⟩ && bankGet t 6 = ⟨2#12, 5#12⟩) = true := by
  decide +kernel

/-- V13: `MRST1 161`. -/
theorem test_mrst1_arg : after (run 0x110000A1 State.reset) (faultIs 3 0x110000A1) = true := by decide +kernel

/-- V10: `(3,4)` after a 1. -/
theorem test_mupd :
    after (run 0x12010005 (withModel 5 3 4 State.reset)) (fun t => bankGet t 5 = ⟨3#12, 5#12⟩) = true := by
  decide +kernel

/-- V11: the rescale of `(4093, 4094)`. -/
theorem test_mupd_rescale :
    after (run 0x12000007 (withModel 7 4093 4094 State.reset))
      (fun t => bankGet t 7 = ⟨2047#12, 2048#12⟩) = true := by
  decide +kernel

/-- V10. -/
theorem test_mrate :
    after (run 0x13010005 (withModel 5 4 6 State.reset)) (fun t => t.rateOut = 0x195C0#32) = true := by
  decide +kernel

/-- V12: the smallest rate. -/
theorem test_mrate_smallest :
    after (run 0x13000005 (withModel 5 4093 4094 State.reset)) (fun t => t.rateOut = 0x17#32) = true := by
  decide +kernel

/-- R101. -/
theorem test_rclr :
    after (run 0x14000000 { State.reset with rateAcc := 0x3000395C0#64 }) (fun t => t.rateAcc = 0#64) = true := by
  decide +kernel

/-- V14: `SLOTV = 0x0004` after `SNAP 2`. -/
theorem test_snap :
    after (run 0x18000002 (withModel 40 2 5 State.reset))
      (fun t => slotvWord t = 4#32 && (t.slots.getD 2 none).isEqSome t.bank) = true := by
  decide +kernel

/-- V14: `REST 2` brings the slot's bank back. -/
theorem test_rest :
    after (run 0x19000002 (withModel 40 2 5 { State.reset with slots := State.reset.slots.set 2 (some Bank.fresh) }))
      (fun t => bankGet t 40 = ⟨1#12, 2#12⟩) = true := by
  decide +kernel

/-- V14: `REST 3` of an invalid slot. -/
theorem test_rest_invalid : after (run 0x19000003 State.reset) (faultIs 4 3) = true := by decide +kernel

/-- R116, R23. -/
theorem test_einit :
    after (run 0x20200000 (withModel 3 4 6 State.reset))
      (fun t => statusWord t = 0x09#32 && bankGet t 3 = ⟨1#12, 2#12⟩) = true := by
  decide +kernel

/-- V72: a second `EINIT`. -/
theorem test_einit_twice : after (run 0x20000000 encoding) (faultIs 2 0x20000000) = true := by decide +kernel

/-- V23, fourth line: a pending bit resolved by case (a). -/
theorem test_encb :
    after
      (run 0x21010000 (withModel 0 3 5
        { encoding with low := 0x2AA8#16, high := 0xD553#16, pend := 1#32, bb := 1#8, bbn := 2#4 }))
      (fun t => t.low = 0x221E#16 && t.high = 0xAAA7#16 && t.pend = 0#32 && t.bb = 6#8 && t.bbn = 4#4 &&
        bankGet t 0 = ⟨3#12, 6#12⟩) = true := by
  decide +kernel

/-- V14: the second `ENCB.C 40,1`, under `(1,3)`. -/
theorem test_encb_cost :
    after (run 0x21810028 (withModel 40 1 3 { State.reset with rateAcc := 0x10000#64 }))
      (fun t => t.rateAcc = 0x195C0#64 && bankGet t 40 = ⟨1#12, 4#12⟩ && t.mode = .idle && t.bbn = 0#4) = true := by
  decide +kernel

/-- V21: `ENCI 5,19`. -/
theorem test_enci :
    after (run 0x22050013 encoding)
      (fun t => t.low = 0x2220#16 && t.high = 0xAAA7#16 && t.bb = 0x12#8 && t.bbn = 5#4 &&
        bankGet t 0 = ⟨3#12, 7#12⟩ && t.cmdCnt = 1#32) = true := by
  decide +kernel

/-- V14: `ENCI.C 5,19`. -/
theorem test_enci_cost :
    after (run 0x22850013 State.reset) (fun t => t.rateAcc = 0x5E829#64 && t.low = 0#16) = true := by
  decide +kernel

/-- V23, last line. -/
theorem test_efin :
    after (run 0x23000000
        { encoding with low := 0x6D02#16, high := 0xC44F#16, bb := 3#8, bbn := 4#4, out := [0x65#8], outCnt := 1#32 })
      (fun t => t.out = [0x65#8, 0x36#8, 0xD0#8, 0x20#8] && t.outCnt = 4#32 && t.mode = .idle && t.bbn = 0#4) = true := by
  decide +kernel

/-- V22: an empty segment. -/
theorem test_efin_empty : after (run 0x23000000 encoding) (fun t => t.out = [0#8, 0#8]) = true := by decide +kernel

/-- V33, first line. -/
theorem test_dinit :
    after (run 0x30200000 { State.reset with inp := [0x65#8, 0x36#8, 0xD0#8, 0x20#8] })
      (fun t => t.code = 0x6536#16 && t.cur = 2 && t.dbn = 0#4 && t.mode = .dec) = true := by
  decide +kernel

/-- V74: one byte is not enough. -/
theorem test_dinit_exhausted :
    after (run 0x30200000 { State.reset with inp := [0x91#8] })
      (fun t => faultIs 7 0x30200000 t && t.cur = 1) = true := by
  decide +kernel

/-- V33, line 10: both renormalisation cases. -/
theorem test_decb :
    after (run 0x31000000 (withModel 0 6 11
        { decoding [0x65#8, 0x36#8, 0xD0#8, 0x20#8] with
          low := 0x2826#16, high := 0x902E#16, code := 0x6DA0#16, db := 0x40#8, dbn := 7#4, cur := 4 }))
      (fun t => t.result = 1#32 && t.low = 0x0394#16 && t.high = 0xC0BB#16 && t.code = 0x3681#16 && t.db = 0#8 &&
        t.dbn = 5#4 && bankGet t 0 = ⟨6#12, 12#12⟩) = true := by
  decide +kernel

/-- V74: the source ends inside a `DECB`. -/
theorem test_decb_exhausted :
    after (run 0x31000000 (decoding [0x71#8, 0xAC#8])) (fun t => faultIs 7 0x31000000 t && t.cur = 2) = true := by
  decide +kernel

/-- V32: `DECI 16`. -/
theorem test_deci :
    after (run 0x32100000 (decoding [0xA6#8, 0xC9#8, 0x02#8, 0xB0#8]))
      (fun t => t.result = 0xBEEF#32 && t.cur = 4 && bankGet t 0 = ⟨4#12, 18#12⟩) = true := by
  decide +kernel

/-- V71: `DECI 17`. -/
theorem test_deci_arg : after (run 0x32110000 (decoding [0#8, 0#8])) (faultIs 3 0x32110000) = true := by decide +kernel

/-- P1. -/
theorem test_dfin :
    after (run 0x33000000 { decoding [0x71#8, 0xAC#8] with low := 0x2CE4#16, high := 0xAEEB#16 })
      (fun t => statusWord t = 0x08#32 && t.low = 0#16 && t.high = 0xFFFF#16 && t.code = 0#16) = true := by
  decide +kernel

/-- V40: `ENBLK.H` of `[10,-10,5,-5]`. -/
theorem test_enblk :
    after (run 0x40400000 (quad 3 [10, -10, 5, -5] encoding))
      (fun t => t.low = 0x26A8#16 && t.high = 0x9C7F#16 && t.bb = 0x0A#8 && t.bbn = 5#4 &&
        t.out = [0x11#8, 0xB5#8, 0x7E#8] && bankGet t 0 = ⟨8#12, 11#12⟩ && bankGet t 40 = ⟨1#12, 3#12⟩) = true := by
  decide +kernel

/-- V40: `ENBLK.CH`. -/
theorem test_enblk_cost :
    after (run 0x40C00000 (quad 3 [10, -10, 5, -5] State.reset))
      (fun t => t.rateAcc = 0x1E1E8D#64 && t.out = []) = true := by
  decide +kernel

/-- V40: `DEBLK.H` of the segment. -/
theorem test_deblk :
    after (run 0x41400000 { quad 3 [] (decoding [0x11#8, 0xB5#8, 0x7E#8, 0x51#8, 0x35#8, 0x40#8]) with inf := 7#5 })
      (fun t => t.mem = wordsAt 0 [10, -10, 5, -5] && t.inf = 0#5 && t.cur = 6 && t.code = 0x26A8#16 && t.dbn = 3#4) = true := by
  decide +kernel

/-- V46: the decoded `INF = 2` above `SUP = 1`: a block of zeros, no fault. -/
theorem test_deblk_inf_above_sup :
    after (run 0x41400000 (quad 1 [99, 99, 99, 99] (decoding [0x35#8, 0xEF#8, 0x7A#8, 0xCE#8])))
      (fun t => t.mem = wordsAt 0 [0, 0, 0, 0] && t.inf = 2#5 && t.cur = 3 && t.dbn = 4#4 && !t.fault) = true := by
  decide +kernel

/-- V61 (a). -/
theorem test_tfwd :
    after (run 0x50000000 (quad 3 [10, -10, 5, -5] State.reset))
      (fun t => t.mem = wordsAt 0 [0, 15, 0, 5] && t.tcFills = 2#32 && t.gcFills = 4#32 && !t.tsat) = true := by
  decide +kernel

/-- V64: the clamp. -/
theorem test_tfwd_saturates :
    after (run 0x50000000 (quad 3 [2147483647, 2147483647, 2147483647, 2147483647] State.reset))
      (fun t => t.mem = wordsAt 0 [2147483647, 0, 0, 0] && t.tsat) = true := by
  decide +kernel

/-- V61 (b): the ninth word comes back as 8. -/
theorem test_tinv :
    after (run 0x51000000
        { State.reset with
          blkLen := ⟨2#7, 2#7, 2#7, 2#7⟩, tlen := ⟨2#7, 2#7, 2#7, 2#7⟩
          mem := wordsAt 0 [34, -1, -4, 0, -8, 0, 0, 0, -16, 0, 0, 0, 0, 0, 0, 0] })
      (fun t => t.mem = wordsAt 0 [1, 2, 3, 4, 5, 6, 7, 8, 8, 10, 11, 12, 13, 14, 15, 16]) = true := by
  decide +kernel

/-- V63 (a): a truncated axis. -/
theorem test_tinv_truncated :
    after (run 0x51000000
        { State.reset with
          blkLen := ⟨1#7, 1#7, 1#7, 3#7⟩, tlen := ⟨1#7, 1#7, 1#7, 4#7⟩, mem := wordsAt 0 [11, -4, 12] })
      (fun t => t.mem = wordsAt 0 [7, -3, 12]) = true := by
  decide +kernel

/-- V63 (b): the counters survive a flush. -/
theorem test_tflush :
    after (run 0x52000000
        { State.reset with tcvFwd := [1, 2, 3], tcFills := 6#32, gcFills := 4#32, gcv := ⟨[1], [1], [2], [3]⟩ })
      (fun t => t.tcvFwd = [] && t.gcv = ⟨[], [], [], []⟩ && t.tcFills = 6#32 && t.gcFills = 4#32) = true := by
  decide +kernel

/-- V73. -/
theorem test_csput :
    after (run 0x600000D9 { State.reset with out := [0xFF#8], outCnt := 1#32 })
      (fun t => t.out = [0xFF#8, 0xD9#8] && t.outCnt = 2#32) = true := by
  decide +kernel

/-- V72: `CSPUT` while encoding. -/
theorem test_csput_mode : after (run 0x60000000 encoding) (faultIs 2 0x60000000) = true := by decide +kernel

/-- V73. -/
theorem test_csget :
    after (run 0x61000000 { State.reset with inp := [0xAA#8, 0xBB#8], cur := 1 })
      (fun t => t.result = 0xBB#32 && t.cur = 2 && eod t && peekWord t = 0x100#32) = true := by
  decide +kernel

/-- V73: past the end. -/
theorem test_csget_eos :
    after (run 0x61000000 { State.reset with inp := [0xAA#8, 0xBB#8], cur := 2 })
      (fun t => faultIs 7 0x61000000 t && t.cur = 2) = true := by
  decide +kernel

/-- V73. -/
theorem test_csrw :
    after (run 0x62000001 { State.reset with inp := [0xAA#8, 0xBB#8], cur := 2 })
      (fun t => t.cur = 1 && !eod t && peekWord t = 0xBB#32) = true := by
  decide +kernel

/-- V73: too far back. -/
theorem test_csrw_rewind :
    after (run 0x62000002 { State.reset with inp := [0xAA#8, 0xBB#8], cur := 1 }) (faultIs 8 2) = true := by
  decide +kernel

/-- V10: `RD MVAL` of model 5. -/
theorem test_read_mval :
    after (step { withModel 5 4 6 State.reset with midx := 5#8, host := [.read 32 0x64] })
      (fun t => t.resp = .data 0x00060004#32) = true := by
  decide +kernel

/-- R53: a 16-bit read. -/
theorem test_bus_error :
    after (step { State.reset with host := [.read 16 0x64] }) (fun t => t.resp = .busError) = true := by
  decide +kernel

/-! ## Witnesses: concrete states and operands that meet the hypotheses of each statement -/

/-- A checked result is a next state with the property checked. -/
theorem next_of_after {r : Result} {f : State → Bool} (h : after r f = true) : ∃ t, r = .next t ∧ f t = true := by
  cases r with
  | next t => exact ⟨t, rfl, h⟩
  | fault x => simp [after] at h
  | refused x => simp [after] at h

/-- The state after reset with the host's actions `acts` to perform. -/
def withHost (acts : List HostAction) (s : State) : State := { s with host := acts }

/-- A machine with 4 slots instead of 16. -/
def fourSlots : State := { State.reset with par := { nslot := 4, maxLen := 64, blkCap := 262144 } }

/-- The fault state after an `E_MODE`. -/
def faulty : State := { State.reset with fault := true, err := 2#8, errInfo := 0x21010005#32 }

theorem witness_EncodeOfDecode : decode 0x12010007#32 = .ok (.mupd true 7#8) := by decide

theorem witness_IllegalWordsFault :
    State.reset.fault = false ∧ (∀ op, 0x00000001#32 &&& opMask op ≠ opMatch op) ∧
      ∃ op, 0x62FFFFFF#32 &&& opMask op = opMatch op :=
  ⟨rfl, by intro op; cases op <;> decide, .csrw, by decide⟩

theorem witness_StepRunsCommand :
    (withHost [.write 32 4 0x62FFFFFF#32] State.reset).host = .write 32 4 0x62FFFFFF#32 :: [] ∧
      (withHost [.write 32 4 0x62FFFFFF#32] State.reset).fault = false ∧
      decode 0x62FFFFFF#32 = .ok (.csrw 0xFFFFFF#24) ∧ 0x62FFFFFF < 2 ^ 32 ∧
      decode (BitVec.ofNat 32 0x62FFFFFF) = .ok (.csrw 0xFFFFFF#24) ∧ State.reset.host = [] := by
  decide

theorem witness_FaultStateDropsCommands :
    faulty.fault = true ∧
      (withHost [.write 32 4 0x01000001#32] faulty).host = .write 32 4 0x01000001#32 :: [] ∧
      0x01000001#32 ≠ 0x01000000#32 ∧
      (withHost [.write 32 4 0x01000000#32] faulty).host = .write 32 4 0x01000000#32 :: [] := by
  decide

/-- Each of the three ways out of the fault state. -/
theorem witness_OnlyResetLeavesFaultState :
    ∀ a ∈ [HostAction.write 32 4 0x01000000#32, .resetLine, .powerOn],
      (withHost [a] faulty).fault = true ∧ ∃ t, step (withHost [a] faulty) = .next t ∧ t.fault = false := by
  intro a ha
  simp only [List.mem_cons, List.not_mem_nil, or_false] at ha
  rcases ha with rfl | rfl | rfl <;> exact ⟨rfl, _, rfl, rfl⟩

theorem witness_SoftResetResult :
    (withHost [.resetLine] faulty).host = .resetLine :: [] ∧ (withHost [.powerOn] faulty).host = .powerOn :: [] ∧
      ∃ t, exec .srst { faulty with host := [] } = .next t :=
  ⟨rfl, rfl, _, rfl⟩

theorem witness_ModelResetCommands : (0#8).toNat < 161 ∧ (160#8).toNat < 161 := by decide

/-- The least and the greatest model, the last before a rescale. -/
theorem witness_MupdResult :
    ∀ p ∈ [(1, 2), (4093, 4094), (1, 4094)], (160#8).toNat < 161 ∧
      (bankGet (withModel 160 p.1 p.2 State.reset) (160#8).toNat).ok := by
  decide +kernel

theorem witness_MrateResult :
    ∀ p ∈ [(1, 2), (4093, 4094), (1, 4094)], (0#8).toNat < 161 ∧
      (bankGet (withModel 0 p.1 p.2 State.reset) (0#8).toNat).ok := by
  decide +kernel

theorem witness_Log2qIncreasing :
    (1 ≤ 4094 ∧ 4094 < 4095) ∧ 11 ≤ 11 ∧
      (let m : Model := { z := 4092#12, t := 4094#12 }
       let n : Model := { z := 4093#12, t := 4094#12 }
       m.ok ∧ n.ok ∧ m.t = n.t ∧ m.z.toNat < n.z.toNat) := by
  decide

theorem witness_SnapAndRest_has :
    (3#4).toNat < fourSlots.par.nslot ∧ fourSlots.slots.getD (3#4).toNat none = none ∧
      ({ fourSlots with slots := fourSlots.slots.set 3 (some Bank.fresh) } : State).slots.getD (3#4).toNat none =
        some Bank.fresh :=
  ⟨by decide, rfl, rfl⟩

theorem witness_SnapAndRest_after_snap :
    ∃ t, exec (.snap 3#4) fourSlots = .next t ∧ t.slots = t.slots ∧ t.par = fourSlots.par :=
  ⟨_, rfl, rfl, rfl⟩

theorem witness_SnapAndRest_absent : fourSlots.par.nslot ≤ (4#4).toNat := by decide

theorem witness_EinitAndDfinResults : State.reset.mode = .idle ∧ (decoding [0#8, 0#8]).mode = .dec := by decide

/-- The narrowest intervals of R110 with the smallest share a model can give. -/
theorem witness_SplitWithinInterval :
    ∀ p ∈ [(0x3FFF#16, 0x8000#16), (0x7FFF#16, 0xC000#16), (0x0000#16, 0xFFFF#16)],
      (bankGet { withModel 160 1 4094 State.reset with low := p.1, high := p.2 } 160).ok ∧
        intervalOk p.1 p.2 := by
  intro p hp
  simp only [List.mem_cons, List.not_mem_nil, or_false] at hp
  rcases hp with rfl | rfl | rfl <;> exact ⟨by decide +kernel, by decide⟩

theorem witness_RenormalisationEnds :
    ({ State.reset with low := 0x7FFF#16, high := 0x7FFF#16 } : State).low.toNat ≤
      ({ State.reset with low := 0x7FFF#16, high := 0x7FFF#16 } : State).high.toNat := by
  decide

/-- `ENCB` at the narrowest interval, in the last context. -/
def narrowEncoding : State := { withModel 160 1 4094 encoding with low := 0x7FFF#16, high := 0xC000#16 }

theorem witness_EncbResult :
    narrowEncoding.mode = .enc ∧ (160#8).toNat < 161 ∧ (bankGet narrowEncoding (160#8).toNat).ok ∧
      intervalOk narrowEncoding.low narrowEncoding.high := by
  decide +kernel

theorem witness_CostOnlyBit : (160#8).toNat < 161 := by decide

/-- The three commands, for real and cost-only. -/
theorem witness_CodingFrames :
    ∀ i ∈ [Instr.encb false true 160#8, .enci false 16#5 0xBEEF#16, .enblk false true, .encb true true 160#8,
        .enci true 1#5 1#16, .enblk true false],
      ∃ t, exec i (quad 3 [10, -10, 5, -5] encoding) = .next t ∧
        t.cmdCnt = (quad 3 [10, -10, 5, -5] encoding).cmdCnt + 1#32 := by
  have h : [Instr.encb false true 160#8, .enci false 16#5 0xBEEF#16, .enblk false true, .encb true true 160#8,
        .enci true 1#5 1#16, .enblk true false].all (fun i =>
      after (exec i (quad 3 [10, -10, 5, -5] encoding)) fun t => t.cmdCnt = 1#32) = true := by
    decide +kernel
  intro i hi
  obtain ⟨t, ht, hf⟩ := next_of_after (List.all_eq_true.mp h i hi)
  exact ⟨t, ht, of_decide_eq_true hf⟩

theorem witness_EnciIsBits :
    (false = false → encoding.mode = .enc) ∧ 1 ≤ (16#5).toNat ∧ (16#5).toNat ≤ 16 ∧
      (0xFFFF#16).toNat < 2 ^ (16#5).toNat ∧ 1 ≤ (1#5).toNat ∧ (1#16).toNat < 2 ^ (1#5).toNat := by
  decide

theorem witness_EfinFlushes :
    ({ encoding with bbn := 7#4, bb := 0x55#8, pend := 3#32 } : State).mode = .enc ∧
      ({ encoding with bbn := 7#4, bb := 0x55#8, pend := 3#32 } : State).bbn.toNat ≤ 7 := by
  decide

/-- A source of `bs` before any decoding. -/
def source (bs : List Byte) : State := { State.reset with inp := bs }

theorem witness_DinitResult :
    (source [0x65#8, 0x36#8]).mode = .idle ∧ (source [0x65#8, 0x36#8]).inp[(source [0x65#8, 0x36#8]).cur]? = some 0x65#8 ∧
      (source [0x65#8, 0x36#8]).inp[(source [0x65#8, 0x36#8]).cur + 1]? = some 0x36#8 := by
  decide

/-- Each decoding command, run dry. -/
theorem witness_ExhaustionFrame :
    ∀ p ∈ [(Instr.dinit true, source [0x91#8]), (.decb 160#8, decoding [0x71#8, 0xAC#8]),
        (.deci 16#5, decoding [0x71#8, 0xAC#8]), (.deblk true, quad 3 [1, 2, 3, 4] (decoding [0x71#8, 0xAC#8]))],
      decodes p.1 = true ∧ p.2.fault = false ∧ ∃ t, exec p.1 p.2 = .next t ∧ t.fault = true ∧ t.err = 7#8 := by
  have h : [(Instr.dinit true, source [0x91#8]), (.decb 160#8, decoding [0x71#8, 0xAC#8]),
        (.deci 16#5, decoding [0x71#8, 0xAC#8]),
        (.deblk true, quad 3 [1, 2, 3, 4] (decoding [0x71#8, 0xAC#8]))].all (fun p =>
      decodes p.1 && !p.2.fault && after (exec p.1 p.2) fun t => t.fault && t.err = 7#8) = true := by
    decide +kernel
  intro p hp
  have hq := List.all_eq_true.mp h p hp
  simp only [Bool.and_eq_true, Bool.not_eq_true'] at hq
  have := next_of_after hq.2
  exact ⟨hq.1.1, hq.1.2, by simpa using this⟩

theorem witness_ExhaustionFrame_init :
    (source [0x91#8]).mode = .idle ∧ (source [0x91#8]).inp.length < (source [0x91#8]).cur + 2 := by
  decide

/-- P1's `DINIT`, `DECB` and a `DECI`, and V40's `DEBLK.H`: each retires past a byte that a cut can take away. -/
theorem witness_ExhaustionFrame_cut :
    ∀ p ∈ [(Instr.dinit true, source [0x71#8, 0xAC#8]), (.decb 0#8, decoding [0x71#8, 0xAC#8, 0xE4#8]),
        (.deci 16#5, decoding [0xA6#8, 0xC9#8, 0x02#8, 0xB0#8]),
        (.deblk true, quad 3 [9, 9, 9, 9] (decoding [0x11#8, 0xB5#8, 0x7E#8, 0x51#8, 0x35#8, 0x40#8]))],
      decodes p.1 = true ∧ p.2.fault = false ∧
        ∃ t, exec p.1 p.2 = .next t ∧ t.cmdCnt = p.2.cmdCnt + 1#32 ∧ p.2.cur ≤ p.2.cur ∧ p.2.cur < t.cur := by
  have h : [(Instr.dinit true, source [0x71#8, 0xAC#8]), (.decb 0#8, decoding [0x71#8, 0xAC#8, 0xE4#8]),
        (.deci 16#5, decoding [0xA6#8, 0xC9#8, 0x02#8, 0xB0#8]),
        (.deblk true, quad 3 [9, 9, 9, 9]
          (decoding [0x11#8, 0xB5#8, 0x7E#8, 0x51#8, 0x35#8, 0x40#8]))].all (fun p =>
      decodes p.1 && !p.2.fault && after (exec p.1 p.2) fun t => t.cmdCnt = p.2.cmdCnt + 1#32 && p.2.cur < t.cur) =
        true := by
    decide +kernel
  intro p hp
  have hq := List.all_eq_true.mp h p hp
  simp only [Bool.and_eq_true, Bool.not_eq_true'] at hq
  obtain ⟨t, ht, hf⟩ := next_of_after hq.2
  simp only [Bool.and_eq_true, decide_eq_true_eq] at hf
  exact ⟨hq.1.1, hq.1.2, t, ht, hf.1, le_refl _, hf.2⟩

/-- An empty source: with the reset model the narrowed interval asks for a bit, with `(2,3)` and `CODE = LOW` for none. -/
theorem witness_ExhaustionFrame_bit :
    (let s := decoding [0#8, 0#8];
      s.mode = .dec ∧ (0#8).toNat < 161 ∧ s.dbn = 0#4 ∧ s.inp.length ≤ s.cur ∧
        renormCase (narrow 0 (decodedBit 0 s) s).low (narrow 0 (decodedBit 0 s) s).high ≠ .settled) ∧
    (let s := withModel 160 2 3 (decoding [0#8, 0#8]);
      s.mode = .dec ∧ (160#8).toNat < 161 ∧ s.dbn = 0#4 ∧ s.inp.length ≤ s.cur ∧
        renormCase (narrow 160 (decodedBit 160 s) s).low (narrow 160 (decodedBit 160 s) s).high = .settled) := by
  decide +kernel

/-- A decoder with `LOW = CODE` and the narrowest interval. -/
def narrowDecoding : State :=
  { withModel 160 1 4094 (decoding [0#8, 0#8, 0#8, 0#8]) with low := 0x7FFF#16, high := 0xC000#16, code := 0x7FFF#16 }

theorem witness_DecbResult :
    narrowDecoding.mode = .dec ∧ (160#8).toNat < 161 ∧ (bankGet narrowDecoding (160#8).toNat).ok ∧
      intervalOk narrowDecoding.low narrowDecoding.high ∧ narrowDecoding.low.toNat ≤ narrowDecoding.code.toNat ∧
      narrowDecoding.code.toNat ≤ narrowDecoding.high.toNat ∧ narrowDecoding.cur + 2 ≤ narrowDecoding.inp.length := by
  decide +kernel

theorem witness_DeciResult :
    (decoding (List.replicate 34 0#8)).mode = .dec ∧ (decoding (List.replicate 34 0#8)).fault = false ∧
      1 ≤ (16#5).toNat ∧ (16#5).toNat ≤ 16 ∧
      (decoding (List.replicate 34 0#8)).cur + 2 * (16#5).toNat ≤ (decoding (List.replicate 34 0#8)).inp.length := by
  decide

theorem witness_IntervalLockStep :
    ∃ b d', decodeBit 160 (decoding [0x71#8, 0xAC#8, 0xE4#8]) = some (b, d') ∧
      (decoding [0x71#8, 0xAC#8, 0xE4#8]).low = encoding.low ∧ (decoding [0x71#8, 0xAC#8, 0xE4#8]).high = encoding.high ∧
      (decoding [0x71#8, 0xAC#8, 0xE4#8]).bank = encoding.bank := by
  have h : (decodeBit 160 (decoding [0x71#8, 0xAC#8, 0xE4#8])).isSome = true := by decide +kernel
  obtain ⟨⟨b, d'⟩, hb⟩ := Option.isSome_iff_exists.mp h
  exact ⟨b, d', hb, rfl, rfl, rfl⟩

/-- V22's segment of one symbol and its decoder, a byte before and a byte after the segment. -/
theorem witness_CodecRoundTrip :
    State.reset.mode = .idle ∧ State.reset.fault = false ∧ State.reset.bank.ok ∧
      (∀ p ∈ [(160#8, true)], p.1.toNat < 161) ∧ 16 * [(160#8, true)].length < 2 ^ 32 ∧
      after (runAll [.einit false, .encb false true 160#8, .efin] State.reset)
        (fun f => f.out = [0x80#8, 0#8, 0#8]) = true ∧
      (let d := { State.reset with inp := [0xFF#8] ++ [0x80#8, 0#8, 0#8] ++ [0xFF#8], cur := 1 }
       d.mode = .idle ∧ d.fault = false ∧ d.bank = State.reset.bank ∧ d.cur = [0xFF#8].length) := by
  refine ⟨rfl, rfl, by decide +kernel, by simp, by norm_num, by decide +kernel, rfl, rfl, rfl, rfl⟩

theorem witness_ModesAdmitCommands_refused :
    admits State.reset.mode .efin = false ∧ admits encoding.mode (.csput 0#8) = false ∧
      admits (decoding [0#8, 0#8]).mode .csget = false := by
  decide

/-- An admitted command that faults, and not with `E_MODE`. -/
theorem witness_ModesAdmitCommands_admitted :
    State.reset.fault = false ∧ admits State.reset.mode .csget = true ∧
      ∃ t, exec .csget State.reset = .next t ∧ t.fault = true :=
  ⟨rfl, rfl, _, rfl, rfl⟩

/-- The four transitions of R19 and `SRST`. -/
theorem witness_ModesAdmitCommands_changes :
    ∀ p ∈ [(Instr.einit true, State.reset), (.efin, encoding), (.dinit true, source [0#8, 0#8]),
        (.dfin, decoding [0#8, 0#8]), (.srst, encoding)],
      p.2.fault = false ∧ ∃ t, exec p.1 p.2 = .next t ∧ t.fault = false := by
  have h : [(Instr.einit true, State.reset), (.efin, encoding), (.dinit true, source [0#8, 0#8]),
        (.dfin, decoding [0#8, 0#8]), (.srst, encoding)].all (fun p =>
      !p.2.fault && after (exec p.1 p.2) fun t => !t.fault) = true := by
    decide +kernel
  intro p hp
  have hq := List.all_eq_true.mp h p hp
  simp only [Bool.and_eq_true, Bool.not_eq_true'] at hq
  have := next_of_after hq.2
  exact ⟨hq.1, by simpa using this⟩

theorem witness_ModesAdmitCommands_reset :
    (withHost [.resetLine] encoding).host = .resetLine :: [] ∧ (∃ t, step (withHost [.resetLine] encoding) = .next t) ∧
      (withHost [.powerOn] encoding).host = .powerOn :: [] ∧ ∃ t, step (withHost [.powerOn] encoding) = .next t :=
  ⟨rfl, ⟨_, rfl⟩, rfl, _, rfl⟩

/-- Every command with a range, just outside it, in a mode that admits it. -/
theorem witness_OperandRangeFaults :
    ∀ p ∈ [(Instr.mrst1 161#8, State.reset), (.mupd true 161#8, State.reset), (.mrate true 161#8, State.reset),
        (.encb false true 161#8, encoding), (.encb true true 161#8, State.reset), (.enci false 17#5 0#16, encoding),
        (.enci true 0#5 0#16, State.reset), (.enci true 3#5 8#16, State.reset), (.decb 161#8, decoding [0#8, 0#8]),
        (.deci 0#5, decoding [0#8, 0#8]), (.deci 17#5, decoding [0#8, 0#8])],
      p.1.wellFormed = false ∧ admits p.2.mode p.1 = true := by
  decide

theorem witness_PreciseFaults :
    State.reset.fault = false ∧ (∃ t, exec .efin State.reset = .next t ∧ t.fault = true) ∧
      ∀ t, exec .efin State.reset = .next t → ¬(decodes .efin = true ∧ t.err = 7#8) :=
  ⟨rfl, ⟨_, rfl, rfl⟩, fun _ _ h => absurd h.1 (by decide)⟩

theorem witness_RetireCounts :
    State.reset.fault = false ∧ (∃ t, exec .nop State.reset = .next t ∧ t.fault = false) ∧
      (∃ t, exec .efin State.reset = .next t ∧ t.fault = true) ∧ (∃ t, exec .srst State.reset = .next t) ∧
      (faulty.fault = true ∧ 0x00000000#32 ≠ 0x01000000#32 ∧ ∃ t, cmdWrite 0x00000000#32 faulty = .next t) :=
  ⟨rfl, ⟨_, rfl, rfl⟩, ⟨_, rfl, rfl⟩, ⟨_, rfl⟩, rfl, by decide, _, rfl⟩

theorem witness_RetireCounts_other :
    (withHost [.append [1#8]] State.reset).host = .append [1#8] :: [] ∧
      (∃ t, step (withHost [.append [1#8]] State.reset) = .next t) ∧
      (∀ w, HostAction.append [1#8] ≠ .write 32 4 w) ∧ HostAction.append [1#8] ≠ .resetLine ∧
      HostAction.append [1#8] ≠ .powerOn :=
  ⟨rfl, ⟨_, rfl⟩, by simp, by simp, by simp⟩

theorem witness_CommandsKeepConfiguration :
    ∃ t, exec .tflush State.reset = .next t ∧ writesBlock .tflush = false ∧ Instr.tflush ≠ .srst ∧
      (∀ h, Instr.tflush ≠ .deblk h) ∧ ∀ k, Instr.tflush ≠ .snap k :=
  ⟨_, rfl, rfl, by decide, by simp, by simp⟩

/-- `DEBLK` without `H`, refused by its mode and so keeping `INF`. -/
theorem witness_CommandsKeepConfiguration_deblk :
    Instr.deblk false ≠ .srst ∧ ∃ t, exec (.deblk false) State.reset = .next t :=
  ⟨by decide, _, rfl⟩

/-- R145's 1×1×3×2 block and R132's other extreme. -/
theorem witness_ChildrenPartition :
    (∀ a, 1 ≤ (Axes.mk 1 1 3 2).get a) ∧ ∀ a, 1 ≤ (Axes.mk 64 64 64 64).get a := by
  constructor <;> intro a <;> cases a <;> decide

theorem witness_WalkDepthSuffices :
    walkDepth ≤ 41 ∧ (30 : Int) ≤ 30 ∧ ∀ a, 1 ≤ (Axes.mk 64 1 64 64).get a ∧ (Axes.mk 64 1 64 64).get a ≤ 64 := by
  refine ⟨by decide, by decide, ?_⟩
  intro a; cases a <;> decide

/-- A block that fits exactly, with the largest magnitudes `SUP = 3` allows. -/
def edgeBlock (s : State) : State :=
  { s with
    blkBase := 262140#32, blkLen := ⟨1#7, 1#7, 2#7, 2#7⟩, tlen := ⟨1#7, 1#7, 2#7, 2#7⟩, sup := 3#5, inf := 3#5
    mem := wordsAt 262140 [15, -15, 0, 8] }

theorem edgeBlock_legal (s : State) (h : s.par = Params.default) : blockLegal (edgeBlock s) := by
  refine ⟨fun a => ?_, ?_⟩
  · cases a <;> simp [edgeBlock, h, Params.default, Axes.get]
  · simp [edgeBlock, nel, h, Params.default]

theorem edgeBlock_small (s : State) (a : Nat) (h : inBlock (edgeBlock s) a) :
    (memRead (edgeBlock s) a).natAbs < 2 ^ ((edgeBlock s).sup.toNat + 1) := by
  have h1 : 262140 ≤ a ∧ a < 262144 := by simpa [inBlock, edgeBlock, nel] using h
  have h2 : a = 262140 ∨ a = 262141 ∨ a = 262142 ∨ a = 262143 := by omega
  exact (by decide : ∀ i ∈ [262140, 262141, 262142, 262143],
    ((wordsAt 262140 [15, -15, 0, 8]).read i).toInt.natAbs < 2 ^ ((3#5).toNat + 1)) a (by simpa using h2)

theorem witness_EnblkCompletes :
    (false = false → (edgeBlock encoding).mode = .enc) ∧ blockLegal (edgeBlock encoding) ∧
      (edgeBlock encoding).sup.toNat ≤ 30 ∧ (edgeBlock encoding).inf.toNat ≤ (edgeBlock encoding).sup.toNat ∧
      ∀ a, inBlock (edgeBlock encoding) a →
        (memRead (edgeBlock encoding) a).natAbs < 2 ^ ((edgeBlock encoding).sup.toNat + 1) :=
  ⟨fun _ => rfl, edgeBlock_legal _ rfl, by decide, by decide, edgeBlock_small _⟩

/-- A block all below `2^INF`. -/
theorem witness_EnblkKnownWalks_zero :
    let s := { edgeBlock encoding with inf := 2#5, mem := wordsAt 262140 [3, -3, 0, 1] }
    (false = false → s.mode = .enc) ∧ blockLegal s ∧ s.sup.toNat ≤ 30 ∧ s.inf.toNat ≤ s.sup.toNat ∧ nel s ≠ 1 ∧
      ∀ a, inBlock s a → (memRead s a).natAbs < 2 ^ s.inf.toNat := by
  refine ⟨fun _ => rfl, edgeBlock_legal encoding rfl, by decide, by decide, by decide, ?_⟩
  intro a h
  have h1 : 262140 ≤ a ∧ a < 262144 := by simpa [inBlock, edgeBlock, nel] using h
  have h2 : a = 262140 ∨ a = 262141 ∨ a = 262142 ∨ a = 262143 := by omega
  exact (by decide : ∀ i ∈ [262140, 262141, 262142, 262143],
    ((wordsAt 262140 [3, -3, 0, 1]).read i).toInt.natAbs < 2 ^ (2#5).toNat) a (by simpa using h2)

/-- V42's one-element block of -3. -/
theorem witness_EnblkKnownWalks_single :
    let s := { encoding with sup := 2#5, mem := wordsAt 0 [-3] }
    (false = false → s.mode = .enc) ∧ blockLegal s ∧ s.sup.toNat ≤ 30 ∧ s.inf.toNat ≤ s.sup.toNat ∧ nel s = 1 ∧
      (memRead s s.blkBase.toNat).natAbs < 2 ^ (s.sup.toNat + 1) := by
  refine ⟨fun _ => rfl, ⟨fun a => ?_, by decide⟩, by decide, by decide, by decide, by decide⟩
  cases a <;> decide

theorem witness_CostAndRealAgreeOnBank :
    encoding.mode = .enc ∧
      ∀ p ∈ [(Instr.encb true true 160#8, Instr.encb false true 160#8), (.enci true 2#5 3#16, .enci false 2#5 3#16),
          (.enblk true true, .enblk false true)],
        (∃ t, exec p.1 (quad 3 [10, -10, 5, -5] encoding) = .next t) ∧
          ∃ u, exec p.2 (quad 3 [10, -10, 5, -5] encoding) = .next u := by
  refine ⟨rfl, ?_⟩
  have h : [(Instr.encb true true 160#8, Instr.encb false true 160#8), (.enci true 2#5 3#16, .enci false 2#5 3#16),
      (.enblk true true, .enblk false true)].all (fun p =>
        after (exec p.1 (quad 3 [10, -10, 5, -5] encoding)) (fun _ => true) &&
          after (exec p.2 (quad 3 [10, -10, 5, -5] encoding)) fun _ => true) = true := by
    decide +kernel
  intro p hp
  have hq := List.all_eq_true.mp h p hp
  simp only [Bool.and_eq_true] at hq
  obtain ⟨t, ht, -⟩ := next_of_after hq.1
  obtain ⟨u, hu, -⟩ := next_of_after hq.2
  exact ⟨⟨t, ht⟩, u, hu⟩

/-- A length 0 and a length 65. -/
theorem witness_WalkerConfigFaults_lengths :
    admits encoding.mode (.enblk false true) = true ∧
      ¬lengthsLegal { encoding with blkLen := ⟨1#7, 1#7, 1#7, 0#7⟩ } ∧
      ¬lengthsLegal { encoding with blkLen := ⟨65#7, 1#7, 1#7, 1#7⟩ } := by
  refine ⟨rfl, fun h => absurd (h .u).1 (by decide), fun h => absurd (h .t).2 (by decide)⟩

/-- One word too far. -/
theorem witness_WalkerConfigFaults_overflow :
    let s := { edgeBlock (decoding [0#8, 0#8]) with blkBase := 262141#32 }
    admits s.mode (.deblk false) = true ∧ lengthsLegal s ∧ s.par.blkCap < s.blkBase.toNat + nel s := by
  exact ⟨rfl, (edgeBlock_legal (decoding [0#8, 0#8]) rfl).1, by decide⟩

/-- `SUP = 31`; `INF = SUP + 1`; a word of magnitude `2^(SUP+1)`. -/
theorem witness_WalkerConfigFaults_planes :
    (blockLegal { edgeBlock encoding with sup := 31#5 } ∧ 30 < ({ edgeBlock encoding with sup := 31#5 } : State).sup.toNat) ∧
      (blockLegal { edgeBlock encoding with inf := 4#5 } ∧
        ({ edgeBlock encoding with inf := 4#5 } : State).sup.toNat ≤ 30 ∧
        ({ edgeBlock encoding with inf := 4#5 } : State).sup.toNat <
          ({ edgeBlock encoding with inf := 4#5 } : State).inf.toNat ∧ Instr.enblk false false ≠ .deblk true) :=
  ⟨⟨edgeBlock_legal encoding rfl, by decide⟩, edgeBlock_legal encoding rfl, by decide, by decide, by decide⟩

theorem witness_WalkerConfigFaults_range :
    let s := { edgeBlock encoding with mem := wordsAt 262140 [15, -16, 0, 99] }
    blockLegal s ∧ s.sup.toNat ≤ 30 ∧ s.inf.toNat ≤ s.sup.toNat ∧ inBlock s 262141 ∧
      2 ^ (s.sup.toNat + 1) ≤ (memRead s 262141).natAbs ∧
      ∀ b, inBlock s b → b < 262141 → (memRead s b).natAbs < 2 ^ (s.sup.toNat + 1) := by
  refine ⟨edgeBlock_legal encoding rfl, by decide, by decide, ⟨by decide, by decide⟩, by decide, ?_⟩
  intro b h hb
  have h1 : 262140 ≤ b ∧ b < 262144 := by simpa [inBlock, edgeBlock, nel] using h
  have h2 : b = 262140 := by omega
  subst h2
  exact (by decide : ((wordsAt 262140 [15, -16, 0, 99]).read 262140).toInt.natAbs < 2 ^ ((3#5).toNat + 1))

/-- A decoder at the edge block with 810 bytes left. -/
def edgeDecoding : State := edgeBlock (decoding (List.replicate 812 0#8))

theorem witness_DeblkCompletes :
    edgeDecoding.mode = .dec ∧ blockLegal edgeDecoding ∧ edgeDecoding.sup.toNat ≤ 30 ∧
      (false = false → edgeDecoding.inf.toNat ≤ edgeDecoding.sup.toNat) ∧
      edgeDecoding.cur + 200 * nel edgeDecoding + 10 ≤ edgeDecoding.inp.length := by
  refine ⟨rfl, edgeBlock_legal _ rfl, by decide, by decide, ?_⟩
  have h : nel edgeDecoding = 4 := by decide
  have h2 : edgeDecoding.inp.length = 812 := List.length_replicate ..
  have h3 : edgeDecoding.cur = 2 := rfl
  omega

theorem witness_DeblkFrameAndWords :
    (quad 3 [9, 9, 9, 9] (decoding [0x11#8, 0xB5#8, 0x7E#8, 0x51#8, 0x35#8, 0x40#8])).mem.wf ∧
      ∃ t, exec (.deblk true) (quad 3 [9, 9, 9, 9] (decoding [0x11#8, 0xB5#8, 0x7E#8, 0x51#8, 0x35#8, 0x40#8])) =
        .next t ∧ t.cmdCnt = 1#32 := by
  refine ⟨by decide, ?_⟩
  have h : after (exec (.deblk true)
      (quad 3 [9, 9, 9, 9] (decoding [0x11#8, 0xB5#8, 0x7E#8, 0x51#8, 0x35#8, 0x40#8])))
        (fun t => t.cmdCnt = 1#32) = true := by
    decide +kernel
  simpa using next_of_after h

/-- The encoder's side and, with a byte before and after V40's segment, the decoder's. -/
theorem witness_BlockRoundTrip :
    let s := edgeBlock State.reset
    s.mode = .idle ∧ s.fault = false ∧ s.bank.ok ∧ s.par.ok ∧ blockLegal s ∧ s.sup.toNat ≤ 30 ∧
      s.inf.toNat ≤ s.sup.toNat ∧
      (∀ a, inBlock s a → (memRead s a).natAbs < 2 ^ (s.sup.toNat + 1)) ∧
      ∃ (bytes : List Byte) (d : State), d.mode = .idle ∧ d.fault = false ∧ d.bank = s.bank ∧ d.par = s.par ∧
        d.blkLen = s.blkLen ∧ d.sup = s.sup ∧ d.inf = s.inf ∧ blockLegal d ∧ d.mem.wf ∧
        d.inp = [0xFF#8] ++ bytes ++ [0xFF#8] ∧ d.cur = [0xFF#8].length ∧
        ∃ f, runAll [.einit false, .enblk false false, .efin] s = .next f ∧ f.out = s.out ++ bytes := by
  refine ⟨rfl, rfl, by decide +kernel, by decide, edgeBlock_legal _ rfl, by decide, by decide, edgeBlock_small _, ?_⟩
  have h : after (runAll [.einit false, .enblk false false, .efin] (edgeBlock State.reset)) (fun _ => true) = true := by
    decide +kernel
  obtain ⟨f, hf, -⟩ := next_of_after h
  refine ⟨f.out, { edgeBlock State.reset with inp := [0xFF#8] ++ f.out ++ [0xFF#8], cur := 1 }, rfl, rfl, rfl, rfl,
    rfl, rfl, rfl, edgeBlock_legal State.reset rfl,
    show (wordsAt 262140 [15, -15, 0, 8]).wf by decide, rfl, rfl, f, hf, ?_⟩
  exact (List.nil_append _).symm

/-- `TLEN` with a length 0, `TLEN` below `BLK_LEN`, a zero weight. -/
theorem witness_TransformConfigFaults :
    (let s := { edgeBlock State.reset with tlen := ⟨1#7, 1#7, 0#7, 2#7⟩ };
      blockLegal s ∧ ¬transformLengthsLegal s) ∧
    (let s := { edgeBlock State.reset with tlen := ⟨1#7, 1#7, 2#7, 1#7⟩ };
      blockLegal s ∧ transformLengthsLegal s ∧ ∃ a, (s.tlen.get a).toNat < (s.blkLen.get a).toNat) ∧
    (let s := { edgeBlock State.reset with gain := ⟨1#24, 1#24, 1#24, 0#24⟩ };
      blockLegal s ∧ transformLengthsLegal s ∧ (∀ a, (s.blkLen.get a).toNat ≤ (s.tlen.get a).toNat) ∧
        ∃ a, weight s a (s.blkLen.get a).toNat = 0) := by
  refine ⟨⟨edgeBlock_legal State.reset rfl, fun h => absurd (h .v).1 (by decide)⟩,
    ⟨edgeBlock_legal State.reset rfl, fun a => ?_, .u, by decide⟩,
    ⟨edgeBlock_legal State.reset rfl, fun a => ?_, fun a => ?_, .u, by decide +kernel⟩⟩ <;>
    cases a <;> decide

/-- The first two faults of `TxCheck` are `BlockCheck`'s. -/
theorem witness_TransformConfigFaults_block :
    ¬lengthsLegal { State.reset with blkLen := ⟨1#7, 0#7, 1#7, 1#7⟩ } ∧
      (let s := { edgeBlock State.reset with blkBase := 262141#32 };
        lengthsLegal s ∧ s.par.blkCap < s.blkBase.toNat + nel s) :=
  ⟨fun h => absurd (h .s).1 (by decide), (edgeBlock_legal State.reset rfl).1, by decide⟩

/-- A truncated block, while encoding. -/
theorem witness_TransformCompletes :
    let s := { encoding with blkLen := ⟨1#7, 1#7, 2#7, 3#7⟩, tlen := ⟨1#7, 1#7, 2#7, 4#7⟩ }
    transformLegal s ∧ s.mem.wf ∧ ∃ t, exec .tfwd s = .next t ∧ ∃ u, exec .tfwd t = .next u := by
  have hn : ∀ x : State, ∃ t, exec .tfwd x = .next t := by
    intro x
    show ∃ t, execTfwd x = .next t
    unfold execTfwd
    cases txCheck (encode .tfwd) x with
    | none => exact ⟨_, rfl⟩
    | some f => exact ⟨_, rfl⟩
  refine ⟨⟨⟨fun a => ?_, by decide⟩, fun a => ?_, fun a => ?_, fun a => ?_⟩, by decide, ?_⟩
  · cases a <;> decide
  · cases a <;> decide
  · cases a <;> decide
  · cases a <;> decide +kernel
  · obtain ⟨t, ht⟩ := hn { encoding with blkLen := ⟨1#7, 1#7, 2#7, 3#7⟩, tlen := ⟨1#7, 1#7, 2#7, 4#7⟩ }
    obtain ⟨u, hu⟩ := hn t
    exact ⟨t, ht, u, hu⟩

/-- A block of lengths above 1 on every axis, each with a weight of its own; and, with `MAXLEN = 32`, transform
lengths of 64. -/
theorem witness_LineTransforms_block :
    (let s := { State.reset with
        blkLen := ⟨2#7, 3#7, 2#7, 3#7⟩, tlen := ⟨2#7, 4#7, 3#7, 64#7⟩
        gain := ⟨0x010000#24, 0x020000#24, 0x008000#24, 0xFFFFFF#24⟩ };
      transformLegal s ∧ s.mem.wf) ∧
    (let s := { State.reset with
        par := { nslot := 16, maxLen := 32, blkCap := 262144 }
        blkLen := ⟨1#7, 1#7, 1#7, 32#7⟩, tlen := ⟨64#7, 64#7, 64#7, 64#7⟩ };
      s.par.ok ∧ transformLegal s ∧ s.mem.wf) := by
  refine ⟨⟨⟨⟨fun a => ?_, by decide⟩, fun a => ?_, fun a => ?_, fun a => ?_⟩, by decide⟩, by decide,
    ⟨⟨fun a => ?_, by decide⟩, fun a => ?_, fun a => ?_, fun a => ?_⟩, by decide⟩ <;>
    cases a <;> decide +kernel

/-- Lines of 1 and of 64 words, the latter up to the last word of block memory. -/
theorem witness_LineTransforms :
    ∀ p ∈ [(1#7, 262143#32), (64#7, 262080#32)],
      let s := { State.reset with blkBase := p.2, blkLen := ⟨1#7, 1#7, 1#7, p.1⟩, tlen := ⟨1#7, 1#7, 1#7, p.1⟩ }
      s.blkLen = ⟨1#7, 1#7, 1#7, p.1⟩ ∧ s.tlen = s.blkLen ∧ (∀ a, s.gain.get a = 0x010000#24) ∧ 1 ≤ p.1.toNat ∧
        p.1.toNat ≤ 64 ∧ p.1.toNat ≤ s.par.maxLen ∧ s.blkBase.toNat + p.1.toNat ≤ s.par.blkCap ∧ s.mem.wf := by
  intro p hp
  simp only [List.mem_cons, List.not_mem_nil, or_false] at hp
  rcases hp with rfl | rfl <;>
    exact ⟨rfl, rfl, fun a => by cases a <;> rfl, by decide, by decide, by decide, by decide, by decide⟩

theorem witness_TransformIgnoresCaches :
    let s := quad 3 [10, -10, 5, -5] State.reset
    let s' := { s with tcvFwd := [1, 2], gcFills := 7#32 }
    s' = { s with
           tcvFwd := s'.tcvFwd, tcvInv := s'.tcvInv, gcv := s'.gcv, tcFills := s'.tcFills, gcFills := s'.gcFills } ∧
      (∃ t, exec .tinv s = .next t) ∧ ∃ t', exec .tinv s' = .next t' := by
  have hn : ∀ x : State, ∃ t, exec .tinv x = .next t := by
    intro x
    show ∃ t, execTinv x = .next t
    unfold execTinv
    cases txCheck (encode .tinv) x with
    | none => exact ⟨_, rfl⟩
    | some f => exact ⟨_, rfl⟩
  exact ⟨rfl, hn _, hn _⟩

theorem witness_WeightArithmetic :
    2 ^ 64 - 1 < 2 ^ 64 ∧ (1 ≤ 1 ∧ 1 ≤ 64 ∧ 64 ≤ 64) ∧ 0xFFFFFF < 2 ^ 24 := by
  decide

theorem witness_CosineTable : 1 ≤ 4 ∧ 4 ≤ 4 ∧ 3 < 4 := by decide

theorem witness_PlainAndCodestreamCommands :
    (decoding [0#8, 0#8]).mode ≠ .enc ∧ encoding.mode ≠ .dec ∧
      (source [0xAA#8]).inp[(source [0xAA#8]).cur]? = some 0xAA#8 ∧
      ({ source [0xAA#8] with cur := 1 } : State).inp.length ≤ ({ source [0xAA#8] with cur := 1 } : State).cur ∧
      (1#24).toNat ≤ ({ source [0xAA#8] with cur := 1 } : State).cur ∧
      ({ source [0xAA#8] with cur := 1 } : State).cur < (2#24).toNat := by
  decide

/-- The first and the last register, and `CS_PEEK` with a byte and at the end of the source. -/
theorem witness_RegisterReads :
    (0x00, 0x4A344401) ∈ registerWords State.reset ∧ (0x88, 0) ∈ registerWords State.reset ∧
      (0x78, 0x100) ∈ registerWords State.reset ∧ (0x78, 0xAA) ∈ registerWords (source [0xAA#8]) := by
  decide +kernel

theorem witness_BusErrors :
    ((31 ≠ 32 ∨ 0 % 4 ≠ 0 ∨ 0 = 0x3C ∨ 0x8C ≤ 0) ∧ (32 ≠ 32 ∨ 0x3C % 4 ≠ 0 ∨ 0x3C = 0x3C ∨ 0x8C ≤ 0x3C) ∧
        (32 ≠ 32 ∨ 0x8C % 4 ≠ 0 ∨ 0x8C = 0x3C ∨ 0x8C ≤ 0x8C) ∧ (32 ≠ 32 ∨ 2 % 4 ≠ 0 ∨ 2 = 0x3C ∨ 0x8C ≤ 2)) ∧
      (withHost [.read 32 0x8C] State.reset).host = .read 32 0x8C :: [] ∧
      (withHost [.write 16 4 0#32] State.reset).host = .write 16 4 0#32 :: [] ∧
      0x88 % 4 = 0 ∧ 0x88 ≠ 0x3C ∧ 0x88 < 0x8C := by
  decide

theorem witness_ReadOnlyWritesIgnored :
    0x88 ∈ readOnlyOffsets ∧ (0x40, 0x00001F1F#32) ∈ writtenBits ∧ State.reset.par.blkCap ∣ 2 ^ 18 ∧ 1 ∣ 2 ^ 18 ∧
      (withHost [.write 32 0x88 1#32] State.reset).host = .write 32 0x88 1#32 :: [] ∧
      (withHost [.read 32 4] State.reset).host = .read 32 4 :: [] := by
  decide

/-- The last word of block memory. -/
theorem witness_BlockWindow :
    let s := { State.reset with bmAddr := 262143#18 }
    s.bmAddr.toNat < s.par.blkCap ∧ s.mem.wf ∧
      (withHost [.read 32 0x6C] s).host = .read 32 0x6C :: [] ∧
      (withHost [.write 32 0x6C 5#32] s).host = .write 32 0x6C 5#32 :: [] := by
  decide

/-- The writes succeed; the largest `MIDX` that is taken. -/
theorem witness_ConfigWriteThenRead :
    State.reset.par.ok ∧ (0x40, 0x00001F1F#32) ∈ configBits ∧ (0x1A0#32).toNat % 256 < 161 ∧
      ∀ off ∈ [0x40, 0x5C, 0x60, 0x68],
        ∃ t, step (withAction State.reset (.write 32 off 0x1A0#32) []) = .next t := by
  refine ⟨by decide, by decide, by decide, ?_⟩
  intro off h
  simp only [List.mem_cons, List.not_mem_nil, or_false] at h
  rcases h with rfl | rfl | rfl | rfl <;> exact ⟨_, rfl⟩

theorem witness_HostStream :
    (withHost [.load [1#8]] encoding).host = .load [1#8] :: [] ∧ ¬(encoding.mode = .dec ∧ encoding.fault = false) ∧
      (withHost [.load [1#8]] (decoding [0#8, 0#8])).host = .load [1#8] :: [] ∧
      (withHost [.append [1#8]] encoding).host = .append [1#8] :: [] ∧
      (withHost [.take 0] encoding).host = .take 0 :: [] := by
  decide

/-- A decoder in the middle of a segment, with a written word, a snapshot, filled caches and a command to run. -/
def busy : State :=
  { decoding [0x71#8, 0xAC#8, 0xE4#8] with
    mem := wordsAt 262143 [-5], bmAddr := 262143#18, midx := 160#8, bbn := 7#4, bb := 0x7F#8
    slots := State.reset.slots.set 15 (some Bank.fresh), tcvFwd := [1, 64], gcv := ⟨[1], [], [2, 3], [64]⟩
    host := [.write 32 4 0x31000000#32] }

theorem busy_inv : busy.Inv where
  par := by decide
  memForm := by decide
  memRange := by decide
  cursor := by decide
  bmAddr := by decide
  midx := by decide
  bitBuffer := by decide
  slots := by
    intro x hx b hb
    have h : (busy.slots.toList.all fun y => match y with | none => true | some c => decide c.ok) = true := by
      decide +kernel
    have := List.all_eq_true.mp h x hx
    subst hb
    simpa using this
  noSlot := by
    intro k hk
    have : 16 ≤ k := hk
    simp [Vector.getD, this]
  noFault := fun _ => ⟨rfl, rfl, by decide +kernel⟩
  faultCode := fun h => absurd h (by decide)
  caches := by
    refine ⟨by decide, by decide, fun a => ?_⟩
    cases a <;> decide

theorem busy_coderInv : busy.CoderInv where
  interval := fun _ => by decide
  idle := fun _ h => absurd h (by decide)
  code := fun _ _ => by decide
  byteBuffer := fun _ _ => by decide

theorem witness_StepNeverStops : busy.Inv := busy_inv

theorem witness_StepKeepsInv : busy.Inv ∧ ∃ t, step busy = .next t := by
  refine ⟨busy_inv, ?_⟩
  have h : after (step busy) (fun _ => true) = true := by decide +kernel
  obtain ⟨t, ht, -⟩ := next_of_after h
  exact ⟨t, ht⟩

theorem witness_StepKeepsCoderInv :
    busy.Inv ∧ busy.CoderInv ∧ keepsSource busy ∧ ∃ t, step busy = .next t :=
  ⟨busy_inv, busy_coderInv, fun _ _ h => by simp [busy] at h, witness_StepKeepsInv.2⟩

end Sys2Proof.Tests
end

