-- ==== Sys2Proof/Laws/Exec.lean ====
section
/-! SUPPORT. What executing a command can do, said once (60_exceptions.md R181; 45_system_codestream.md R175): reset,
take a fault before anything changed, run out of source bytes, or do its work and retire. -/

open Sys2Proof.Claims

namespace Sys2Proof.Machine

/-- `u` is what command `i` makes of `s` where it retires, but for `CMDCNT`; with the checks it has passed. -/
def effect : Instr → State → State → Prop
  | .nop, s, u => u = s
  | .srst, _, _ => False
  | .mrst, s, u => u = resetBank s
  | .mrst1 ctx, s, u => u = resetModel ctx.toNat s
  | .mupd b ctx, s, u => u = update ctx.toNat b s
  | .mrate b ctx, s, u => u = { s with rateOut := storeInt 32 ((bankGet s ctx.toNat).rate b) }
  | .rclr, s, u => u = { s with rateAcc := 0#64 }
  | .snap slot, s, u =>
    slot.toNat < s.par.nslot ∧ u = { s with slots := s.slots.setIfInBounds slot.toNat (some s.bank) }
  | .rest slot, s, u => ∃ b, s.slots.getD slot.toNat none = some b ∧ u = { s with bank := b }
  | .einit m, s, u => u = openEncoder (if m then resetBank s else s)
  | .encb c b ctx, s, u => u = codeBit ctx.toNat b c s
  | .enci c n v, s, u => u = codeInt n.toNat v.toNat c s
  | .efin, s, u => u = { flushEncoder s with low := 0x0000#16, high := 0xFFFF#16, pend := 0#32, mode := .idle }
  | .dinit m, s, u => primeCode 16 (openDecoder (if m then resetBank s else s)) = some u
  | .decb ctx, s, u => ∃ b v, decodeBit ctx.toNat s = some (b, v) ∧ u = { v with result := BitVec.ofNat 32 (bit b) }
  | .deci n, s, u => ∃ r v, decodeInt n.toNat s = some (r, v) ∧ u = { v with result := BitVec.ofNat 32 r }
  | .dfin, s, u =>
    u = { s with low := 0x0000#16, high := 0xFFFF#16, code := 0#16, db := 0#8, dbn := 0#4, mode := .idle }
  | .enblk c h, s, u => u = codeBlock c h s
  | .deblk h, s, u => blockCheck (encode (.deblk h)) s = none ∧ decodeBlock h s = some u
  | .tfwd, s, u => blockCheck (encode .tfwd) s = none ∧ u = transformBlock .fwd s
  | .tinv, s, u => blockCheck (encode .tinv) s = none ∧ u = transformBlock .inv s
  | .tflush, s, u => u = { s with tcvFwd := [], tcvInv := [], gcv := ⟨[], [], [], []⟩ }
  | .csput byte, s, u => u = sinkPush byte s
  | .csget, s, u => ∃ b v, srcNext s = some (b, v) ∧ u = { v with result := b.setWidth 32 }
  | .csrw k, s, u => u = { s with cur := s.cur - k.toNat }

/-- The state after the imprecise `E_EOS` of a decoding command (42_arith_decoder.md R129). -/
def exhaustion : Instr → State → State
  | .dinit m, s => exhaustedInit (encode (.dinit m)) s
  | .deblk h, s => exhaustedBlock (encode (.deblk h)) s.blkBase.toNat (currentBlock s).len.product s
  | i, s => exhausted (encode i) s

/-- The four ways a command ends. -/
inductive Executes (i : Instr) (s : State) : State → Prop
  /-- `SRST`. -/
  | reset (hi : i = .srst) : Executes i s (resetKeepingMemory s)
  /-- A precise fault; `E_MODE` only where the mode refuses the command. -/
  | fault (e : FaultCode) (info : Word) (hmode : e = .mode → admits s.mode i = false) :
    Executes i s (takeFault e info s)
  /-- The source ran out under a decoding command. -/
  | exhausted (hadm : admits s.mode i = true) (hdec : decodes i = true)
    (hblk : ∀ h, i = .deblk h → blockCheck (encode i) s = none) : Executes i s (exhaustion i s)
  /-- The command did its work and retired. -/
  | retired (hadm : admits s.mode i = true) {u : State} (hu : effect i s u) : Executes i s (retire u)

theorem raise_executes {i : Instr} {s t : State} {e : FaultCode} {info : Word} (h : raise e info s = .next t)
    (hmode : e = .mode → admits s.mode i = false) : Executes i s t := by
  cases h
  exact .fault e info hmode

theorem retired_executes {i : Instr} {s t u : State} (h : retired u = .next t) (hadm : admits s.mode i = true)
    (hu : effect i s u) : Executes i s t := by
  cases h
  exact .retired hadm hu

theorem deblkCheck_none_blockCheck {h : Bool} {w : Word} {s : State} (hc : deblkCheck h w s = none) :
    blockCheck w s = none := by
  unfold deblkCheck at hc
  split at hc
  · cases hc
  · assumption

theorem blockCheck_ne_mode {w info : Word} {s : State} {e : FaultCode} (hc : blockCheck w s = some (e, info)) :
    e ≠ .mode := by
  unfold blockCheck at hc
  dsimp only at hc
  split_ifs at hc <;> cases hc <;> decide

theorem planeCheck_ne_mode {info : Word} {s : State} {e : FaultCode} (hc : planeCheck s = some (e, info)) :
    e ≠ .mode := by
  unfold planeCheck at hc
  split_ifs at hc <;> cases hc <;> decide

theorem planeCheckDec_ne_mode {h : Bool} {info : Word} {s : State} {e : FaultCode}
    (hc : planeCheckDec h s = some (e, info)) : e ≠ .mode := by
  unfold planeCheckDec at hc
  split_ifs at hc <;> cases hc <;> decide

theorem deblkCheck_ne_mode {h : Bool} {w info : Word} {s : State} {e : FaultCode}
    (hc : deblkCheck h w s = some (e, info)) : e ≠ .mode := by
  unfold deblkCheck at hc
  split at hc
  · cases hc
    exact blockCheck_ne_mode ‹_›
  · exact planeCheckDec_ne_mode hc

theorem enblkCheck_ne_mode {w info : Word} {s : State} {e : FaultCode} (hc : enblkCheck w s = some (e, info)) :
    e ≠ .mode := by
  unfold enblkCheck at hc
  split at hc
  · cases hc
    exact blockCheck_ne_mode ‹_›
  · split at hc
    · cases hc
      exact planeCheck_ne_mode ‹_›
    · split at hc
      · cases hc
        decide
      · cases hc

theorem txCheck_ne_mode {w info : Word} {s : State} {e : FaultCode} (hc : txCheck w s = some (e, info)) :
    e ≠ .mode := by
  unfold txCheck at hc
  dsimp only at hc
  split at hc
  · cases hc
    exact blockCheck_ne_mode ‹_›
  · split_ifs at hc <;> cases hc <;> decide

/-- A command behind a check: the fault, or what comes after the check. -/
theorem guarded_executes {i : Instr} {s t : State} {e : FaultCode} {info : Word} {p : Prop} [Decidable p] {r : Result}
    (hmode : p → e = .mode → admits s.mode i = false) (hr : ¬p → r = .next t → Executes i s t)
    (h : (if p then raise e info s else r) = .next t) : Executes i s t := by
  split at h
  · exact raise_executes h (hmode ‹_›)
  · exact hr ‹_› h

/-- A command behind the check of the one mode `m` that lets it run. -/
theorem modeGuarded_executes {i : Instr} {s t : State} {m : Mode} {info : Word} {r : Result}
    (hadm : admits s.mode i = decide (s.mode = m)) (hr : admits s.mode i = true → r = .next t → Executes i s t)
    (h : (if s.mode ≠ m then raise .mode info s else r) = .next t) : Executes i s t :=
  guarded_executes (fun hne _ => hadm.trans (decide_eq_false hne))
    (fun heq => hr (hadm.trans (decide_eq_true (not_not.mp heq)))) h

/-- A command behind the check of the one mode `m` that refuses it. -/
theorem modeBarred_executes {i : Instr} {s t : State} {m : Mode} {info : Word} {r : Result}
    (hadm : admits s.mode i = decide (s.mode ≠ m)) (hr : admits s.mode i = true → r = .next t → Executes i s t)
    (h : (if s.mode = m then raise .mode info s else r) = .next t) : Executes i s t :=
  guarded_executes (fun heq _ => hadm.trans (decide_eq_false (not_not_intro heq)))
    (fun hne => hr (hadm.trans (decide_eq_true hne))) h

/-- The mode check of the commands that can be cost-only. -/
theorem costOnly_admitted {c : Bool} {m : Mode} : (c || decide (m = .enc)) = true ↔ ¬(c = false ∧ m ≠ .enc) := by
  cases c <;> simp

/-- A command that runs in ENC, or anywhere where it is cost-only. -/
theorem costGuarded_executes {i : Instr} {s t : State} {c : Bool} {info : Word} {r : Result}
    (hadm : admits s.mode i = (c || decide (s.mode = .enc)))
    (hr : admits s.mode i = true → r = .next t → Executes i s t)
    (h : (if c = false ∧ s.mode ≠ .enc then raise .mode info s else r) = .next t) : Executes i s t :=
  guarded_executes
    (fun hno _ => hadm.trans (Bool.eq_false_iff.mpr fun hyes => costOnly_admitted.mp hyes hno))
    (fun hyes => hr (hadm.trans (costOnly_admitted.mpr hyes))) h

theorem execRest_executes {slot : BitVec 4} {s t : State} (h : execRest slot s = .next t) :
    Executes (.rest slot) s t := by
  refine guarded_executes nofun (fun _ h => ?_) h
  split at h
  · exact raise_executes h nofun
  · exact retired_executes h rfl ⟨_, ‹_›, rfl⟩

theorem execDinit_executes {m : Bool} {s t : State} (h : execDinit m s = .next t) : Executes (.dinit m) s t := by
  refine modeGuarded_executes rfl (fun hadm h => ?_) h
  split at h
  · cases h
    exact .exhausted hadm rfl nofun
  · exact retired_executes h hadm ‹_›

theorem execDecb_executes {ctx : BitVec 8} {s t : State} (h : execDecb ctx s = .next t) :
    Executes (.decb ctx) s t := by
  refine modeGuarded_executes rfl (fun hadm => guarded_executes nofun fun _ h => ?_) h
  split at h
  · cases h
    exact .exhausted hadm rfl nofun
  · exact retired_executes h hadm ⟨_, _, ‹_›, rfl⟩

theorem execDeci_executes {n : BitVec 5} {s t : State} (h : execDeci n s = .next t) :
    Executes (.deci n) s t := by
  refine modeGuarded_executes rfl (fun hadm => guarded_executes nofun fun _ h => ?_) h
  split at h
  · cases h
    exact .exhausted hadm rfl nofun
  · exact retired_executes h hadm ⟨_, _, ‹_›, rfl⟩

theorem execEnblk_executes {c hd : Bool} {s t : State} (h : execEnblk c hd s = .next t) :
    Executes (.enblk c hd) s t := by
  refine costGuarded_executes rfl (fun hadm h => ?_) h
  split at h
  · exact raise_executes h fun he => absurd he (enblkCheck_ne_mode ‹_›)
  · exact retired_executes h hadm rfl

theorem execDeblk_executes {hd : Bool} {s t : State} (h : execDeblk hd s = .next t) :
    Executes (.deblk hd) s t := by
  refine modeGuarded_executes rfl (fun hadm h => ?_) h
  split at h
  · exact raise_executes h fun he => absurd he (deblkCheck_ne_mode ‹_›)
  · have hblk := deblkCheck_none_blockCheck ‹_›
    split at h
    · cases h
      exact .exhausted hadm rfl fun _ _ => hblk
    · exact retired_executes h hadm ⟨hblk, ‹_›⟩

theorem execTfwd_executes {s t : State} (h : execTfwd s = .next t) : Executes .tfwd s t := by
  unfold execTfwd at h
  split at h
  · exact raise_executes h fun he => absurd he (txCheck_ne_mode ‹_›)
  · exact retired_executes h rfl ⟨((txCheck_eq_none_iff _ _).mp ‹_›).1, rfl⟩

theorem execTinv_executes {s t : State} (h : execTinv s = .next t) : Executes .tinv s t := by
  unfold execTinv at h
  split at h
  · exact raise_executes h fun he => absurd he (txCheck_ne_mode ‹_›)
  · exact retired_executes h rfl ⟨((txCheck_eq_none_iff _ _).mp ‹_›).1, rfl⟩

theorem execCsget_executes {s t : State} (h : execCsget s = .next t) : Executes .csget s t := by
  refine modeBarred_executes rfl (fun hadm h => ?_) h
  split at h
  · exact raise_executes h nofun
  · exact retired_executes h hadm ⟨_, _, ‹_›, rfl⟩

/-- Every command ends in one of the four ways. -/
theorem exec_executes {i : Instr} {s t : State} (h : exec i s = .next t) : Executes i s t := by
  cases i with
  | srst =>
    cases h
    exact .reset rfl
  | nop | mrst | rclr | tflush => exact retired_executes h rfl rfl
  | mrst1 ctx | mupd b ctx | mrate b ctx =>
    exact guarded_executes nofun (fun _ h => retired_executes h rfl rfl) h
  | snap slot => exact guarded_executes nofun (fun hk h => retired_executes h rfl ⟨Nat.lt_of_not_le hk, rfl⟩) h
  | rest slot => exact execRest_executes h
  | einit m | efin | dfin => exact modeGuarded_executes rfl (fun hadm h => retired_executes h hadm rfl) h
  | encb c b ctx | enci c n v =>
    exact costGuarded_executes rfl
      (fun hadm => guarded_executes nofun fun _ h => retired_executes h hadm rfl) h
  | dinit m => exact execDinit_executes h
  | decb ctx => exact execDecb_executes h
  | deci n => exact execDeci_executes h
  | enblk c hd => exact execEnblk_executes h
  | deblk hd => exact execDeblk_executes h
  | tfwd => exact execTfwd_executes h
  | tinv => exact execTinv_executes h
  | csput byte => exact modeBarred_executes rfl (fun hadm h => retired_executes h hadm rfl) h
  | csget => exact execCsget_executes h
  | csrw k =>
    exact modeBarred_executes rfl
      (fun hadm => guarded_executes nofun fun _ h => retired_executes h hadm rfl) h

end Sys2Proof.Machine
end

