-- ==== Sys2Proof/Laws/Preserves.lean ====
section
/-! SUPPORT. What every bit coded or decoded keeps, the whole commands keep: one induction per loop, for any property of
the state. -/

namespace Sys2Proof.Machine

/-! Encoding. -/

theorem codeInt_preserves {P : State → Prop} {k : Bool} (hcode : ∀ c b s, P s → P (codeBit c b k s)) (n v : Nat)
    {s : State} (hs : P s) : P (codeInt n v k s) := by
  induction n generalizing s with
  | zero => exact hs
  | succ n ih => exact ih (hcode _ _ _ hs)

theorem encTerminal_preserves {P : State → Prop} {k : Bool} (hcode : ∀ c b s, P s → P (codeBit c b k s))
    (blk : Block) (inf : Nat) (pos : Axes Nat) (p : Nat) {s : State} (hs : P s) :
    P (encTerminal blk inf pos p k s) := by
  have hbits : P ((planesDown p inf).foldl
      (fun st q => codeBit (ctxMag q) (magnitudeBit (memRead s (blk.addr pos)) q) k st) s) :=
    List.foldlRecOn _ _ hs fun t ht q _ => hcode _ _ t ht
  unfold encTerminal
  dsimp only
  split
  · exact hcode _ _ _ hbits
  · exact hbits

theorem walkEncLoop_preserves {P : State → Prop} {k : Bool} (hcode : ∀ c b s, P s → P (codeBit c b k s))
    (blk : Block) (inf n : Nat) (b : Sub) (p : Int) {s : State} (hs : P s) : P (walkEncLoop blk inf k n b p s) := by
  induction n generalizing b p s with
  | zero => exact hs
  | succ n ih =>
    unfold walkEncLoop
    split
    · exact hs
    · split
      · exact encTerminal_preserves hcode blk inf b.pos _ hs
      · split
        · exact hcode _ _ _ hs
        · exact ih _ _ (hcode _ _ _ (hcode _ _ _ hs))
        · exact List.foldlRecOn _ _ (hcode _ _ _ (hcode _ _ _ hs)) fun t ht child _ => ih child p ht

theorem codeBlock_preserves {P : State → Prop} {k : Bool} (hcode : ∀ c b s, P s → P (codeBit c b k s)) (hd : Bool)
    {s : State} (hs : P s) : P (codeBlock k hd s) := by
  unfold codeBlock walkEnc
  split
  · exact walkEncLoop_preserves hcode _ _ _ _ _ (codeInt_preserves hcode _ _ hs)
  · exact walkEncLoop_preserves hcode _ _ _ _ _ hs

theorem emitMany_preserves {P : State → Prop} (hemit : ∀ x s, P s → P (emitBit x s)) (n : Nat) (x : Bool) {s : State}
    (hs : P s) : P (emitMany n x s) := by
  induction n generalizing s with
  | zero => exact hs
  | succ n ih => exact ih (hemit _ _ hs)

theorem emitWithPending_preserves {P : State → Prop} (hemit : ∀ x s, P s → P (emitBit x s))
    (hpend : ∀ s p, P s → P { s with pend := p }) (x : Bool) {s : State} (hs : P s) : P (emitWithPending x s) :=
  hpend _ _ (emitMany_preserves hemit _ _ (hemit _ _ hs))

/-- A property kept by emitting a bit, and that does not see the interval and `PEND`, is kept by `EncRenorm`. -/
theorem encRenormLoop_preserves {P : State → Prop} (hemit : ∀ x s, P s → P (emitBit x s))
    (hregs : ∀ s l h p, P s → P { s with low := l, high := h, pend := p }) (n : Nat) {s : State} (hs : P s) :
    P (encRenormLoop n s) := by
  induction n generalizing s with
  | zero => exact hs
  | succ n ih =>
    unfold encRenormLoop
    split
    · exact ih (hregs _ _ _ _ (emitWithPending_preserves hemit (fun t p => hregs t t.low t.high p) _ hs))
    · exact ih (hregs s _ _ _ hs)
    · exact hs

theorem encRenorm_narrow_preserves {P : State → Prop} (hemit : ∀ x s, P s → P (emitBit x s))
    (hregs : ∀ s l h p, P s → P { s with low := l, high := h, pend := p }) (c : Nat) (b : Bool) {s : State}
    (hs : P s) : P (encRenorm (narrow c b s)) := by
  refine encRenormLoop_preserves hemit hregs _ ?_
  unfold narrow
  split
  · exact hregs s _ s.high s.pend hs
  · exact hregs s s.low _ s.pend hs

theorem emitBits_preserves {P : State → Prop} (hemit : ∀ x s, P s → P (emitBit x s)) (n : Nat) (v : BitVec 16)
    {s : State} (hs : P s) : P (emitBits n v s) := by
  induction n generalizing s with
  | zero => exact hs
  | succ n ih => exact ih (hemit _ _ hs)

theorem padByte_preserves {P : State → Prop} (hemit : ∀ x s, P s → P (emitBit x s)) (n : Nat) {s : State} (hs : P s) :
    P (padByte n s) := by
  induction n generalizing s with
  | zero => exact hs
  | succ n ih =>
    unfold padByte
    split
    · exact hs
    · exact ih (hemit _ _ hs)

theorem flushEncoder_preserves {P : State → Prop} (hemit : ∀ x s, P s → P (emitBit x s))
    (hpend : ∀ s p, P s → P { s with pend := p }) {s : State} (hs : P s) : P (flushEncoder s) :=
  padByte_preserves hemit _ (emitBits_preserves hemit _ _ (emitWithPending_preserves hemit hpend _ hs))

/-! Decoding. -/

/-- A property kept by taking an input bit, and that does not see the interval and `CODE`, is kept by the loop of
R121. -/
theorem decRenormLoop_preserves {P : State → Prop} (hbit : ∀ s x t, P s → getBit s = some (x, t) → P t)
    (hregs : ∀ s l h c, P s → P { s with low := l, high := h, code := c }) (n : Nat) {s t : State} (hs : P s)
    (h : decRenormLoop n s = some t) : P t := by
  induction n generalizing s with
  | zero =>
    cases h
    exact hs
  | succ n ih =>
    unfold decRenormLoop at h
    split at h
    · split at h
      · cases h
      · exact ih (hregs _ _ _ _ (hbit _ _ _ hs ‹_›)) h
    · split at h
      · cases h
      · exact ih (hregs _ _ _ _ (hbit _ _ _ hs ‹_›)) h
    · cases h
      exact hs

theorem primeCode_preserves {P : State → Prop} (hbit : ∀ s x t, P s → getBit s = some (x, t) → P t)
    (hcode : ∀ s c, P s → P { s with code := c }) (n : Nat) {s t : State} (hs : P s) (h : primeCode n s = some t) :
    P t := by
  induction n generalizing s with
  | zero =>
    cases h
    exact hs
  | succ n ih =>
    unfold primeCode at h
    split at h
    · cases h
    · exact ih (hcode _ _ (hbit _ _ _ hs ‹_›)) h

/-- `P` is kept by every decoded bit. -/
abbrev KeptByDecodeBit (P : State → Prop) : Prop := ∀ c s b t, P s → decodeBit c s = some (b, t) → P t

theorem decodeIntLoop_preserves {P : State → Prop} (hdec : KeptByDecodeBit P) (n v : Nat) {s t : State} {r : Nat}
    (hs : P s) (h : decodeIntLoop n v s = some (r, t)) : P t := by
  induction n generalizing s v with
  | zero =>
    cases h
    exact hs
  | succ n ih =>
    unfold decodeIntLoop at h
    split at h
    · cases h
    · exact ih _ (hdec _ _ _ _ hs ‹_›) h

theorem decMagnitude_preserves {P : State → Prop} (hdec : KeptByDecodeBit P) (l : List Nat) (m : Nat) {s t : State}
    {r : Nat} (hs : P s) (h : decMagnitude l m s = some (r, t)) : P t := by
  induction l generalizing s m with
  | nil =>
    cases h
    exact hs
  | cons q rest ih =>
    unfold decMagnitude at h
    split at h
    · cases h
    · exact ih _ (hdec _ _ _ _ hs ‹_›) h

theorem foldlM_preserves {α : Type} {P : State → Prop} (f : State → α → Option State) (l : List α)
    (hf : ∀ s t x, x ∈ l → P s → f s x = some t → P t) {s t : State} (hs : P s) (h : l.foldlM f s = some t) : P t := by
  induction l generalizing s with
  | nil =>
    cases h
    exact hs
  | cons x rest ih =>
    simp only [List.foldlM_cons, Option.bind_eq_bind, Option.bind_eq_some_iff] at h
    obtain ⟨u, hu, h⟩ := h
    exact ih (fun s t y hy => hf s t y (List.mem_cons_of_mem _ hy)) (hf s u x (List.mem_cons_self ..) hs hu) h

/-! Sub-blocks of a block. -/

/-- The position names an element of the block. -/
def Block.has (blk : Block) (pos : Axes Nat) : Prop := ∀ a, pos.get a < blk.len.get a

/-- The sub-block lies inside the block. -/
def Sub.inside (blk : Block) (b : Sub) : Prop := ∀ a, b.pos.get a + b.len.get a ≤ blk.len.get a

theorem Block.root_inside (blk : Block) : blk.root.inside blk := by
  intro a
  cases a <;> simp [Block.root, Axes.get]

theorem forall_axis {p : Axis → Prop} : (∀ a, p a) ↔ p .t ∧ p .s ∧ p .v ∧ p .u :=
  ⟨fun h => ⟨h .t, h .s, h .v, h .u⟩, fun ⟨ht, hs, hv, hu⟩ a => by cases a <;> assumption⟩

theorem halves_inside {x l : Nat} {h : Nat × Nat} (hh : h ∈ halves x l) : h.1 + h.2 ≤ x + l := by
  unfold halves at hh
  split at hh
  · simp_all
  · simp only [List.mem_cons, List.not_mem_nil, or_false] at hh
    rcases hh with rfl | rfl <;> dsimp only <;> omega

theorem Sub.inside.children {blk : Block} {b child : Sub} (hb : b.inside blk) (hc : child ∈ children b) :
    child.inside blk := by
  simp only [Machine.children, List.mem_flatMap, List.mem_map] at hc
  obtain ⟨t, ht, s, hs, v, hv, u, hu, rfl⟩ := hc
  have := halves_inside ht
  have := halves_inside hs
  have := halves_inside hv
  have := halves_inside hu
  simp only [Sub.inside, forall_axis, Axes.get] at hb ⊢
  omega

theorem Sub.inside.cells {blk : Block} {b : Sub} {pos : Axes Nat} (hb : b.inside blk) (hp : pos ∈ b.cells) :
    blk.has pos := by
  simp only [Sub.cells, List.mem_flatMap, List.mem_map, List.mem_range] at hp
  obtain ⟨t, ht, s, hs, v, hv, u, hu, rfl⟩ := hp
  simp only [Sub.inside, Block.has, forall_axis, Axes.get] at hb ⊢
  omega

theorem Sub.inside.single {blk : Block} {b : Sub} (hb : b.inside blk) (h1 : b.single = true) : blk.has b.pos := by
  have hlen : b.len = ⟨1, 1, 1, 1⟩ := by simpa [Sub.single] using h1
  simp only [Sub.inside, hlen, Block.has, forall_axis, Axes.get] at hb ⊢
  omega

/-- A two-digit number of mixed radix is below the product of its radices. -/
theorem mixedRadix_lt {i n j m : Nat} (hi : i < n) (hj : j < m) : i * m + j < n * m :=
  calc i * m + j < i * m + m := by omega
    _ = (i + 1) * m := (Nat.succ_mul i m).symm
    _ ≤ n * m := Nat.mul_le_mul_right m hi

/-- `Addr` of an element lies between the block's base and its end (20_memory.md R55). -/
theorem Block.addr_bounds {blk : Block} {pos : Axes Nat} (h : blk.has pos) :
    blk.base ≤ blk.addr pos ∧ blk.addr pos < blk.base + blk.len.product := by
  obtain ⟨ht, hs, hv, hu⟩ := forall_axis.mp h
  simp only [Axes.get] at ht hs hv hu
  simp only [Block.addr, Axes.product]
  have hvol := mixedRadix_lt ht (mixedRadix_lt hs (mixedRadix_lt hv hu))
  simp only [← Nat.mul_assoc] at hvol ⊢
  omega

/-- `P` is kept by every write of a word of the block. -/
abbrev KeptByBlockWrite (blk : Block) (P : State → Prop) : Prop :=
  ∀ pos v s, blk.has pos → P s → P (memWrite (blk.addr pos) v s)

theorem fill0_preserves {P : State → Prop} {blk : Block} (hwr : KeptByBlockWrite blk P) {b : Sub}
    (hb : b.inside blk) {s : State} (hs : P s) : P (fill0 blk b s) :=
  List.foldlRecOn _ _ hs fun t ht _ he => hwr _ _ t (hb.cells he) ht

theorem decTerminal_preserves {P : State → Prop} {blk : Block} (hdec : KeptByDecodeBit P)
    (hwr : KeptByBlockWrite blk P) (inf : Nat) {pos : Axes Nat} (hpos : blk.has pos) (p : Nat) {s t : State}
    (hs : P s) (h : decTerminal blk inf pos p s = some t) : P t := by
  unfold decTerminal at h
  split at h
  · cases h
  · have hm := decMagnitude_preserves hdec _ _ hs ‹_›
    split at h
    · cases h
      exact hwr _ _ _ hpos hm
    · split at h
      · cases h
      · cases h
        exact hwr _ _ _ hpos (hdec _ _ _ _ hm ‹_›)

theorem walkDecLoop_preserves {P : State → Prop} {blk : Block} (hdec : KeptByDecodeBit P)
    (hwr : KeptByBlockWrite blk P) (inf n : Nat) {b : Sub} (hb : b.inside blk) (p : Int) {s t : State} (hs : P s)
    (h : walkDecLoop blk inf n b p s = some t) : P t := by
  induction n generalizing b p s t with
  | zero =>
    cases h
    exact hs
  | succ n ih =>
    unfold walkDecLoop at h
    split at h
    · cases h
      exact fill0_preserves hwr hb hs
    · split at h
      · exact decTerminal_preserves hdec hwr inf (hb.single ‹_›) _ hs h
      · split at h
        · cases h
        · cases h
          exact fill0_preserves hwr hb (hdec _ _ _ _ hs ‹_›)
        · have h1 := hdec _ _ _ _ hs ‹_›
          split at h
          · cases h
          · exact ih hb _ (hdec _ _ _ _ h1 ‹_›) h
          · exact foldlM_preserves _ _ (fun _ _ _ hx hu => ih (hb.children hx) p hu) (hdec _ _ _ _ h1 ‹_›) h

/-- What every decoded bit, every write into the current block and a write of `INF` keep, `DEBLK` keeps. -/
theorem decodeBlock_preserves {P : State → Prop} (hd : Bool) {s t : State} (hdec : KeptByDecodeBit P)
    (hwr : KeptByBlockWrite (currentBlock s) P) (hinf : hd = true → ∀ s n, P s → P { s with inf := n }) (hs : P s)
    (h : decodeBlock hd s = some t) : P t := by
  unfold decodeBlock at h
  split at h
  · cases h
  · rename_i s1 hh
    refine walkDecLoop_preserves hdec hwr _ _ (Block.root_inside _) _ ?_ h
    unfold decodeHeader at hh
    split at hh
    · split at hh
      · cases hh
      · cases hh
        exact hinf ‹_› _ _ (decodeIntLoop_preserves hdec _ _ hs ‹_›)
    · cases hh
      exact hs

/-! The transform. -/

theorem mem_lines_has {blk : Block} {a : Axis} {line : List Nat} (hl : line ∈ lines blk a) {x : Nat} (hx : x ∈ line) :
    ∃ pos, blk.has pos ∧ x = blk.addr pos := by
  simp only [lines, List.mem_flatMap, List.mem_map, List.mem_range] at hl
  obtain ⟨t, ht, s, hs, v, hv, u, hu, rfl⟩ := hl
  obtain ⟨i, hi, rfl⟩ := List.mem_map.mp hx
  refine ⟨_, ?_, rfl⟩
  rw [List.mem_range] at hi
  rw [Block.has, forall_axis]
  cases a <;> exact ⟨‹_›, ‹_›, ‹_›, ‹_›⟩

theorem writeLine_preserves {P : State → Prop} {blk : Block} (hwr : KeptByBlockWrite blk P)
    (hclamp : ∀ x s, P s → P (noteClamp x s)) (addrs : List Nat)
    (haddr : ∀ x ∈ addrs, ∃ pos, blk.has pos ∧ x = blk.addr pos) (ys : List Int) {s : State} (hs : P s) :
    P (writeLine addrs ys s) := by
  induction addrs generalizing ys s with
  | nil => exact hs
  | cons a rest ih =>
    cases ys with
    | nil => exact hs
    | cons y ys =>
      obtain ⟨pos, hpos, rfl⟩ := haddr a (List.mem_cons_self ..)
      exact ih (fun x hx => haddr x (List.mem_cons_of_mem _ hx)) ys (hclamp _ _ (hwr _ _ _ hpos hs))

/-- What the cache touches with the block's lengths, the writes into the block and `TSAT` keep, a transform keeps. -/
theorem transformBlock_preserves {P : State → Prop} (d : Dir) {s : State}
    (hwr : KeptByBlockWrite (currentBlock s) P) (hclamp : ∀ x s, P s → P (noteClamp x s))
    (htc : ∀ a t, P t → P (touchTC d ((currentBlock s).len.get a) t))
    (hgc : ∀ a t, P t → P (touchGC a ((currentBlock s).len.get a) t)) (hs : P s) : P (transformBlock d s) := by
  refine List.foldlRecOn _ _ hs fun t ht a _ => ?_
  exact List.foldlRecOn _ _ (hgc a _ (htc a _ ht)) fun u hu line hl =>
    writeLine_preserves hwr hclamp line (fun _ hx => mem_lines_has hl hx) _ hu

end Sys2Proof.Machine
end

