-- ==== Sys2Proof/Laws/Models.lean ====
section
/-! SUPPORT. The invariant R15 of the models: the fresh model has it, `Update` keeps it. -/

namespace Sys2Proof.Machine

/-- The counts of `Update` (40_model_bank.md R92) from a model with R15's invariant: they have it again, so they fit
the 12 bits. -/
theorem updateCounts_bounds {z t : Nat} (hz : 1 ≤ z) (hzt : z + 1 ≤ t) (ht : t ≤ 4094) (b : Bool) :
    1 ≤ (updateCounts z t b).1 ∧ (updateCounts z t b).1 + 1 ≤ (updateCounts z t b).2 ∧
      (updateCounts z t b).2 ≤ 4094 := by
  cases b <;> simp only [updateCounts, Config.maxTot, Bool.false_eq_true, if_true, if_false] <;> split <;>
    dsimp only <;> omega

theorem Model.update_counts {m : Model} (h : m.ok) (b : Bool) :
    (m.update b).z.toNat = (updateCounts m.z.toNat m.t.toNat b).1 ∧
      (m.update b).t.toNat = (updateCounts m.z.toNat m.t.toNat b).2 := by
  obtain ⟨hz, hzt, ht⟩ := h
  have hb := updateCounts_bounds hz hzt ht b
  simp only [Model.update, BitVec.toNat_ofNat]
  omega

theorem Model.update_ok {m : Model} (h : m.ok) (b : Bool) : (m.update b).ok := by
  obtain ⟨hz', ht'⟩ := Model.update_counts h b
  obtain ⟨hz, hzt, ht⟩ := h
  simpa only [Model.ok, hz', ht'] using updateCounts_bounds hz hzt ht b

theorem Model.fresh_ok : Model.fresh.ok := by decide

theorem Bank.fresh_ok : Bank.fresh.ok := by
  intro m hm
  rw [Vector.mem_toList_iff] at hm
  simpa only [Bank.fresh, Vector.eq_of_mem_replicate hm] using Model.fresh_ok

theorem Bank.setIfInBounds_ok {b : Bank} (hb : b.ok) (c : Nat) {m : Model} (hm : m.ok) :
    Bank.ok (b.setIfInBounds c m) := by
  intro x hx
  rw [Vector.toList_setIfInBounds] at hx
  rcases List.mem_or_eq_of_mem_set hx with hx | rfl
  · exact hb x hx
  · exact hm

theorem bankGet_ok {s : State} (hb : s.bank.ok) (c : Nat) : (bankGet s c).ok := by
  by_cases hc : c < Config.nctx
  · have hget : bankGet s c = s.bank[c] := by simp [bankGet, Vector.getD, hc]
    rw [hget]
    exact hb _ (Vector.mem_toList_iff.mpr (Vector.getElem_mem hc))
  · have hget : bankGet s c = Model.fresh := by simp [bankGet, Vector.getD, hc]
    exact hget ▸ Model.fresh_ok

theorem update_bank_ok {s : State} (hb : s.bank.ok) (c : Nat) (b : Bool) : (update c b s).bank.ok :=
  Bank.setIfInBounds_ok hb c (Model.update_ok (bankGet_ok hb c) b)

end Sys2Proof.Machine
end

