-- ==== Sys2Proof/Laws/Invariant.lean ====
section
/-! SUPPORT. The state invariant, operation by operation: each shared operation keeps it once and for all. -/

namespace Sys2Proof.Machine

/-- The invariant of a machine that executes a command: `FAULT = 0`, so that the bank is one of R15's. -/
def State.Live (s : State) : Prop := s.Inv ∧ s.fault = false

variable {s t : State}

theorem State.Live.bank_ok (h : s.Live) : s.bank.ok := by
  obtain ⟨-, -, hb⟩ := h.1.noFault h.2
  exact hb

/-! Faults, retiring and resetting. -/

theorem FaultCode.code_range (e : FaultCode) : 1 ≤ e.code.toNat ∧ e.code.toNat ≤ 9 := by cases e <;> decide

theorem takeFault_inv (h : s.Inv) (e : FaultCode) (info : Word) : (takeFault e info s).Inv :=
  { h with noFault := nofun, faultCode := fun _ => e.code_range }

theorem retire_inv (h : s.Inv) : (retire s).Inv := { h with }

theorem answer_inv (h : s.Inv) (r : HostResp) : (answer r s).Inv := { h with }

theorem emptySlots_getD (k : Nat) : State.reset.slots.getD k none = none := by
  by_cases hk : k < Config.slotNumbers <;> simp [State.reset, Vector.getD, hk]

theorem keysOk_nil (n : Nat) : keysOk n [] := ⟨List.Pairwise.nil, nofun⟩

theorem blkCap_pos {p : Params} (h : p.ok) : 0 < p.blkCap := by
  obtain ⟨-, -, -, -, hpos, -⟩ := h
  exact hpos

theorem emptyBuffer_ok : (0#4).toNat ≤ 7 ∧ (0#8).toNat < 2 ^ (0#4).toNat := by decide

/-- A state whose registers have their reset values has the invariant if its memory and source are in form. -/
theorem reset_inv_of (hpar : s.par.ok) (hwf : s.mem.wf) (hrange : ∀ c ∈ s.mem.cells, c.1 < s.par.blkCap)
    (hcur : s.cur ≤ s.inp.length)
    (hregs : s = { State.reset with
      mem := s.mem, inp := s.inp, cur := s.cur, out := s.out, host := s.host, resp := s.resp, par := s.par
      freeCtr := s.freeCtr }) : s.Inv := by
  rw [hregs]
  exact
    { par := hpar
      memForm := hwf
      memRange := hrange
      cursor := hcur
      bmAddr := blkCap_pos hpar
      midx := (by decide : (0#8).toNat < Config.nctx)
      bitBuffer := emptyBuffer_ok
      slots := by
        rintro x hx b rfl
        exact absurd (Vector.eq_of_mem_replicate (Vector.mem_toList_iff.mp hx)) nofun
      noSlot := fun k _ => emptySlots_getD k
      noFault := fun _ => ⟨rfl, rfl, Bank.fresh_ok⟩
      faultCode := nofun
      caches := ⟨keysOk_nil _, keysOk_nil _, fun a => by cases a <;> exact keysOk_nil _⟩ }

theorem reset_inv : State.reset.Inv :=
  reset_inv_of (by decide) reset_memory_wf nofun le_rfl rfl

theorem resetKeepingMemory_inv (h : s.Inv) : (resetKeepingMemory s).Inv :=
  reset_inv_of h.par h.memForm h.memRange h.cursor rfl

theorem powerOn_inv (h : s.Inv) : (powerOn s).Inv :=
  reset_inv_of h.par List.Pairwise.nil nofun le_rfl rfl

/-! The bank and the slots. -/

theorem bank_inv (h : s.Inv) {b : Bank} (hb : b.ok) : State.Inv { s with bank := b } :=
  { h with
    noFault := fun hf => by
      obtain ⟨herr, hinfo, -⟩ := h.noFault hf
      exact ⟨herr, hinfo, hb⟩ }

theorem update_live (h : s.Live) (c : Nat) (b : Bool) : (update c b s).Live :=
  ⟨bank_inv h.1 (update_bank_ok h.bank_ok c b), h.2⟩

theorem cost_live (h : s.Live) (c : Nat) (b : Bool) : (cost c b s).Live :=
  update_live (s := { s with rateAcc := s.rateAcc + BitVec.ofInt 64 ((bankGet s c).rate b) })
    ⟨{ h.1 with }, h.2⟩ c b

theorem resetModel_inv (h : s.Live) (c : Nat) : (resetModel c s).Inv :=
  bank_inv h.1 (Bank.setIfInBounds_ok h.bank_ok c Model.fresh_ok)

theorem resetBank_live (h : s.Live) : (resetBank s).Live := ⟨bank_inv h.1 Bank.fresh_ok, h.2⟩

theorem maybeResetBank_live (h : s.Live) (m : Bool) : (if m then resetBank s else s).Live := by
  split
  · exact resetBank_live h
  · exact h

theorem getD_setIfInBounds_ne {α : Type} {n j k : Nat} (v : Vector α n) (x d : α) (h : j ≠ k) :
    (v.setIfInBounds j x).getD k d = v.getD k d := by
  by_cases hk : k < n <;> simp [Vector.getD, hk, h]

theorem snap_inv (h : s.Live) {k : Nat} (hk : k < s.par.nslot) :
    State.Inv { s with slots := s.slots.setIfInBounds k (some s.bank) } where
  par := h.1.par
  memForm := h.1.memForm
  memRange := h.1.memRange
  cursor := h.1.cursor
  bmAddr := h.1.bmAddr
  midx := h.1.midx
  bitBuffer := h.1.bitBuffer
  slots := by
    rintro x hx b rfl
    rw [Vector.toList_setIfInBounds] at hx
    rcases List.mem_or_eq_of_mem_set hx with hx | hx
    · exact h.1.slots _ hx b rfl
    · cases hx
      exact h.bank_ok
  noSlot := by
    intro j hj
    have hne : k ≠ j := fun e => absurd (e ▸ hk : j < s.par.nslot) (Nat.not_lt.mpr hj)
    exact (getD_setIfInBounds_ne s.slots _ none hne).trans (h.1.noSlot j hj)
  noFault := h.1.noFault
  faultCode := h.1.faultCode
  caches := h.1.caches

theorem slot_bank_ok (h : s.Inv) {k : Nat} {b : Bank} (hb : s.slots.getD k none = some b) : b.ok := by
  by_cases hk : k < Config.slotNumbers
  · have hget : s.slots[k] = some b := by simpa [Vector.getD, hk] using hb
    exact h.slots _ (Vector.mem_toList_iff.mpr (hget ▸ Vector.getElem_mem hk)) b rfl
  · simp [Vector.getD, hk] at hb

/-! Output and input bits. -/

/-- A shift that takes in a bit doubles and adds. -/
theorem shiftBitIn_toNat {w : Nat} (x : BitVec w) (b : Bool) :
    (x <<< 1 ||| BitVec.ofNat w (bit b)).toNat = (2 * x.toNat + bit b) % 2 ^ w := by
  have hconcat : x <<< 1 ||| BitVec.ofNat w (bit b) = x.shiftConcat b := by
    ext i hi
    by_cases h0 : i = 0 <;> cases b <;> simp [bit, BitVec.getElem_shiftConcat, h0]
  rw [hconcat, BitVec.toNat_shiftConcat]
  cases b <;> simp [bit, Nat.shiftLeft_eq, Nat.mul_comm]

theorem bit_le_one (b : Bool) : bit b ≤ 1 := by cases b <;> decide

/-- One bit more in the output buffer: it holds `BBN + 1` bits, so at most 7 unless it is full. -/
theorem bitBuffer_push {bb : BitVec 8} {bbn : BitVec 4} (h : bbn.toNat ≤ 7 ∧ bb.toNat < 2 ^ bbn.toNat)
    (hne : bbn + 1#4 ≠ 8#4) (x : Bool) :
    (bbn + 1#4).toNat ≤ 7 ∧ (bb <<< 1 ||| BitVec.ofNat 8 (bit x)).toNat < 2 ^ (bbn + 1#4).toNat := by
  obtain ⟨hn, hb⟩ := h
  have hsum : (bbn + 1#4).toNat = bbn.toNat + 1 := by simp; omega
  have hne' : bbn.toNat + 1 ≠ 8 := fun e => hne (BitVec.eq_of_toNat_eq (hsum.trans e))
  rw [hsum, shiftBitIn_toNat, Nat.pow_succ]
  have := bit_le_one x
  exact ⟨by omega, (Nat.mod_le _ _).trans_lt (by omega)⟩

theorem emitBit_live (h : s.Live) (x : Bool) : (emitBit x s).Live := by
  refine ⟨?_, by rw [emitBit_onlyEncoder x s]; exact h.2⟩
  unfold emitBit
  dsimp only
  split
  · exact { h.1 with bitBuffer := emptyBuffer_ok }
  · exact { h.1 with bitBuffer := bitBuffer_push h.1.bitBuffer ‹_› x }

theorem encodeBit_live (h : s.Live) (c : Nat) (b : Bool) : (encodeBit c b s).Live :=
  update_live (encRenorm_narrow_preserves (P := State.Live) (fun x _ ht => emitBit_live ht x)
    (fun _ _ _ _ ht => ⟨{ ht.1 with }, ht.2⟩) c b h) c b

theorem codeBit_live (h : s.Live) (c : Nat) (b k : Bool) : (codeBit c b k s).Live := by
  unfold codeBit
  split
  · exact cost_live h c b
  · exact encodeBit_live h c b

theorem flushEncoder_live (h : s.Live) : (flushEncoder s).Live :=
  flushEncoder_preserves (P := State.Live) (fun x _ ht => emitBit_live ht x) (fun _ _ ht => ⟨{ ht.1 with }, ht.2⟩) h

theorem srcNext_inv (h : s.Inv) {b : Byte} (hn : srcNext s = some (b, t)) : t.Inv := by
  obtain ⟨hb, rfl⟩ := srcNext_some hn
  exact { h with cursor := (List.getElem?_eq_some_iff.mp hb).1 }

theorem getBit_live (h : s.Live) {x : Bool} (hx : getBit s = some (x, t)) : t.Live := by
  unfold getBit at hx
  split at hx
  · split at hx
    · cases hx
    · rename_i hn
      cases hx
      have hs1 := srcNext_inv h.1 hn
      obtain ⟨-, rfl⟩ := srcNext_some hn
      exact ⟨{ hs1 with }, h.2⟩
  · cases hx
    exact ⟨{ h.1 with }, h.2⟩

theorem narrow_live (h : s.Live) (c : Nat) (b : Bool) : (narrow c b s).Live := by
  unfold narrow
  split <;> exact ⟨{ h.1 with }, h.2⟩

theorem decodeBit_live : KeptByDecodeBit State.Live := by
  intro c s b t h hd
  unfold decodeBit at hd
  dsimp only at hd
  split at hd
  · cases hd
  · rename_i hs
    cases hd
    exact update_live (decRenormLoop_preserves (P := State.Live) (fun _ _ _ hu hx => getBit_live hu hx)
      (fun _ _ _ _ hu => ⟨{ hu.1 with }, hu.2⟩) _ (narrow_live h c _) hs) c _

theorem openDecoder_live (h : s.Live) : (openDecoder s).Live := ⟨{ h.1 with }, h.2⟩

theorem primeCode_live (h : s.Live) {n : Nat} (hp : primeCode n s = some t) : t.Live :=
  primeCode_preserves (P := State.Live) (fun _ _ _ hu hx => getBit_live hu hx) (fun _ _ hu => ⟨{ hu.1 with }, hu.2⟩)
    n h hp

/-! Blocks. -/

/-- The block passes `BlockCheck` under the parameters (43_bitplane.md R131). -/
def Block.fits (blk : Block) (p : Params) : Prop :=
  (∀ a, 1 ≤ blk.len.get a ∧ blk.len.get a ≤ p.maxLen) ∧ blk.base + blk.len.product ≤ p.blkCap

/-- The invariant of a machine that works on a block that fits its memory. -/
def State.LiveOn (blk : Block) (s : State) : Prop := s.Live ∧ blk.fits s.par

theorem memWrite_inv (h : s.Inv) {a : Nat} (ha : a < s.par.blkCap) (v : Word) : (memWrite a v s).Inv :=
  { h with
    memForm := s.mem.write_wf a v h.memForm
    memRange := fun c hc => by
      rcases mem_cellsSet hc with rfl | hc
      · exact ha
      · exact h.memRange c hc }

theorem freeWords_inv (h : s.Inv) {k n a : Nat} (ha : a + n ≤ s.par.blkCap) : (freeWords k n a s).Inv := by
  induction n generalizing a s with
  | zero => exact h
  | succ n ih =>
    exact ih (memWrite_inv h (by omega) _) (show a + 1 + n ≤ s.par.blkCap by omega)

theorem memWrite_liveOn (blk : Block) : KeptByBlockWrite blk (State.LiveOn blk) := fun _ v _ hpos h =>
  ⟨⟨memWrite_inv h.1.1 (Nat.lt_of_lt_of_le (Block.addr_bounds hpos).2 h.2.2) v, h.1.2⟩, h.2⟩

theorem decodeBit_liveOn (blk : Block) : KeptByDecodeBit (State.LiveOn blk) := by
  intro c s b t h hd
  refine ⟨decodeBit_live c s b t h.1 hd, ?_⟩
  rw [decodeBit_onlyDecoder c hd]
  exact h.2

theorem noteClamp_liveOn (blk : Block) (x : Int) (h : s.LiveOn blk) : (noteClamp x s).LiveOn blk :=
  ⟨⟨{ h.1.1 with }, h.1.2⟩, h.2⟩

theorem mem_keyInsert {n m : Nat} {l : List Nat} : m ∈ keyInsert n l ↔ m = n ∨ m ∈ l := by
  induction l with
  | nil => simp [keyInsert]
  | cons k rest ih =>
    unfold keyInsert
    split
    · simp
    · split
      · subst_vars
        simp
      · simp only [List.mem_cons, ih]
        exact or_left_comm

theorem keyInsert_rising {n : Nat} {l : List Nat} (h : l.Pairwise (· < ·)) : (keyInsert n l).Pairwise (· < ·) := by
  induction l with
  | nil => exact List.pairwise_singleton ..
  | cons k rest ih =>
    obtain ⟨hk, hrest⟩ := List.pairwise_cons.mp h
    unfold keyInsert
    split
    · rename_i hn
      refine List.pairwise_cons.mpr ⟨fun m hm => ?_, h⟩
      rcases List.mem_cons.mp hm with rfl | hm
      · exact hn
      · exact hn.trans (hk m hm)
    · split
      · exact h
      · refine List.pairwise_cons.mpr ⟨fun m hm => ?_, ih hrest⟩
        rcases mem_keyInsert.mp hm with rfl | hm
        · omega
        · exact hk m hm

theorem keyInsert_keysOk {maxLen n : Nat} {l : List Nat} (h : keysOk maxLen l) (hn : 1 ≤ n ∧ n ≤ maxLen) :
    keysOk maxLen (keyInsert n l) := by
  refine ⟨keyInsert_rising h.1, fun m hm => ?_⟩
  rcases mem_keyInsert.mp hm with rfl | hm
  · exact hn
  · exact h.2 m hm

theorem touchTC_liveOn (blk : Block) (d : Dir) (a : Axis) (h : s.LiveOn blk) :
    (touchTC d (blk.len.get a) s).LiveOn blk := by
  obtain ⟨hfwd, hinv, hgc⟩ := h.1.1.caches
  cases d <;> unfold touchTC <;> dsimp only <;> split
  · exact h
  · exact ⟨⟨{ h.1.1 with caches := ⟨keyInsert_keysOk hfwd (h.2.1 a), hinv, hgc⟩ }, h.1.2⟩, h.2⟩
  · exact h
  · exact ⟨⟨{ h.1.1 with caches := ⟨hfwd, keyInsert_keysOk hinv (h.2.1 a), hgc⟩ }, h.1.2⟩, h.2⟩

theorem Axes.get_set {α : Type} (x : Axes α) (a b : Axis) (y : α) :
    (x.set a y).get b = if b = a then y else x.get b := by
  cases a <;> cases b <;> rfl

theorem setKeys_ok {maxLen : Nat} {x : Axes (List Nat)} (h : ∀ a, keysOk maxLen (x.get a)) (a : Axis) {l : List Nat}
    (hl : keysOk maxLen l) (b : Axis) : keysOk maxLen ((x.set a l).get b) := by
  rw [Axes.get_set]
  split
  · exact hl
  · exact h b

theorem touchGC_liveOn (blk : Block) (a : Axis) (h : s.LiveOn blk) :
    (touchGC a (blk.len.get a) s).LiveOn blk := by
  obtain ⟨hfwd, hinv, hgc⟩ := h.1.1.caches
  unfold touchGC
  split
  · exact h
  · exact ⟨⟨{ h.1.1 with
      caches := ⟨hfwd, hinv, setKeys_ok hgc a (keyInsert_keysOk (hgc a) (h.2.1 a))⟩ }, h.1.2⟩, h.2⟩

theorem blockCheck_none_fits {w : Word} (h : blockCheck w s = none) : (currentBlock s).fits s.par :=
  (blockCheck_eq_none_iff w s).mp h

/-! Commands. -/

theorem transformBlock_live (h : s.Live) {w : Word} (hc : blockCheck w s = none) (d : Dir) :
    (transformBlock d s).Live :=
  (transformBlock_preserves (P := State.LiveOn (currentBlock s)) d (memWrite_liveOn _)
    (fun x _ ht => noteClamp_liveOn _ x ht) (fun a _ ht => touchTC_liveOn _ d a ht)
    (fun a _ ht => touchGC_liveOn _ a ht) ⟨h, blockCheck_none_fits hc⟩).1

theorem decodeBlock_live (h : s.Live) {w : Word} (hc : blockCheck w s = none) {hd : Bool}
    (hb : decodeBlock hd s = some t) : t.Live :=
  (decodeBlock_preserves (P := State.LiveOn (currentBlock s)) hd (decodeBit_liveOn _) (memWrite_liveOn _)
    (fun _ _ _ ht => ⟨⟨{ ht.1.1 with }, ht.1.2⟩, ht.2⟩) ⟨h, blockCheck_none_fits hc⟩ hb).1

theorem exhausted_inv (h : s.Inv) (w : Word) : (exhausted w s).Inv :=
  { h with cursor := le_rfl, noFault := nofun, faultCode := fun _ => FaultCode.code_range .eos }

theorem exhaustion_inv (h : s.Inv) {i : Instr} (hblk : ∀ hd, i = .deblk hd → blockCheck (encode i) s = none) :
    (exhaustion i s).Inv := by
  unfold exhaustion
  split
  · exact { exhausted_inv h _ with }
  · rename_i hd
    exact freeWords_inv (s := { exhausted (encode (.deblk hd)) s with inf := Config.freeInf s.freeCtr })
      { exhausted_inv h _ with } (blockCheck_none_fits (hblk hd rfl)).2
  · exact exhausted_inv h _

/-- What a command does before it retires keeps the invariant. -/
theorem effect_inv {i : Instr} (h : s.Live) (hu : effect i s t) : t.Inv := by
  cases i with
  | srst => exact hu.elim
  | nop => exact hu ▸ h.1
  | mrst => exact hu ▸ (resetBank_live h).1
  | mrst1 ctx => exact hu ▸ resetModel_inv h _
  | mupd b ctx => exact hu ▸ (update_live h _ b).1
  | mrate b ctx => exact hu ▸ { h.1 with }
  | rclr => exact hu ▸ { h.1 with }
  | snap slot => exact hu.2 ▸ snap_inv h hu.1
  | rest slot =>
    obtain ⟨b, hb, rfl⟩ := hu
    exact bank_inv h.1 (slot_bank_ok h.1 hb)
  | einit m => exact hu ▸ { (maybeResetBank_live h m).1 with bitBuffer := emptyBuffer_ok }
  | encb c b ctx => exact hu ▸ (codeBit_live h _ b c).1
  | enci c n v => exact hu ▸ (codeInt_preserves (P := State.Live) (fun c b _ ht => codeBit_live ht c b _) _ _ h).1
  | efin =>
    have hflush := flushEncoder_live h
    simp only [effect] at hu
    generalize flushEncoder s = u at hu hflush
    exact hu ▸ { hflush.1 with }
  | dinit m => exact (primeCode_live (openDecoder_live (maybeResetBank_live h m)) hu).1
  | decb ctx =>
    obtain ⟨b, v, hv, rfl⟩ := hu
    exact { (decodeBit_live _ _ _ _ h hv).1 with }
  | deci n =>
    obtain ⟨r, v, hv, rfl⟩ := hu
    exact { (decodeIntLoop_preserves decodeBit_live _ _ h hv).1 with }
  | dfin => exact hu ▸ { h.1 with }
  | enblk c hd => exact hu ▸ (codeBlock_preserves (P := State.Live) (fun c b _ ht => codeBit_live ht c b _) hd h).1
  | deblk hd => exact (decodeBlock_live h hu.1 hu.2).1
  | tfwd => exact hu.2 ▸ (transformBlock_live h hu.1 _).1
  | tinv => exact hu.2 ▸ (transformBlock_live h hu.1 _).1
  | tflush =>
    exact hu ▸ { h.1 with
      caches := ⟨keysOk_nil _, keysOk_nil _, fun a => by cases a <;> exact keysOk_nil _⟩ }
  | csput byte => exact hu ▸ { h.1 with }
  | csget =>
    obtain ⟨b, v, hv, rfl⟩ := hu
    exact { srcNext_inv h.1 hv with }
  | csrw k => exact hu ▸ { h.1 with cursor := (Nat.sub_le ..).trans h.1.cursor }

end Sys2Proof.Machine
end

