-- ==== Sys2Proof/Laws/HostSteps.lean ====
section
/-! SUPPORT. What a host action can do, said once (10_state.md R10; 20_memory.md R52, R53, R59; 70_reset_and_hazards.md
R200). -/

namespace Sys2Proof.Machine

variable {s t : State}

/-- What the command step does (45_system_codestream.md R176). -/
inductive CommandStep (w : Word) (s : State) : State → Prop
  /-- The fault state runs `SRST`. -/
  | reset : CommandStep w s (resetKeepingMemory s)
  /-- The fault state drops every other word. -/
  | dropped (hf : s.fault = true) : CommandStep w s s
  /-- An illegal word. -/
  | illegal : CommandStep w s (takeFault .ill w s)
  /-- A legal word. -/
  | command (hf : s.fault = false) {i : Instr} {t : State} (hi : Executes i s t) : CommandStep w s t

theorem cmdWrite_commandStep {w : Word} (h : cmdWrite w s = .next t) : CommandStep w s t := by
  unfold cmdWrite at h
  split at h
  · split at h
    · cases h
      exact .reset
    · cases h
      exact .dropped ‹_›
  · split at h
    · cases h
      exact .illegal
    · exact .command (Bool.not_eq_true _ ▸ ‹_›) (exec_executes h)

/-- What a host action on `s` can do. -/
inductive HostStep (a : HostAction) (s : State) : State → Prop
  /-- A bus error, or a `HostTake`. -/
  | answered (r : HostResp) : HostStep a s (answer r s)
  /-- The read of a register. -/
  | read (r : Reg) (v : Word) : HostStep a s (answer (.data v) (readEffect r s))
  /-- The write of a register but `CMD`. -/
  | write (r : Reg) (v : Word) (hin : r = .bmData → s.bmAddr.toNat < s.par.blkCap) :
    HostStep a s (answer .done (writeEffect r v s))
  /-- The write of `CMD`. -/
  | command (w : Word) {t : State} (hc : CommandStep w (answer .done s) t) : HostStep a s t
  /-- `HostLoad`. -/
  | load (bytes : List Byte) (ha : a = .load bytes) : HostStep a s (answer .done (hostLoad bytes s))
  /-- `HostAppend`. -/
  | append (bytes : List Byte) : HostStep a s (answer .done (hostAppend bytes s))
  /-- The reset line. -/
  | resetLine : HostStep a s (answer .done (resetKeepingMemory s))
  /-- Power-on. -/
  | powerOn : HostStep a s (answer .done (powerOn s))

theorem outsideBmem_eq_false {r : Reg} (h : ¬outsideBmem r s = true) (hr : r = .bmData) :
    s.bmAddr.toNat < s.par.blkCap := by
  subst hr
  simpa [outsideBmem] using h

theorem hostStep_cases {a : HostAction} (h : hostStep a s = .next t) : HostStep a s t := by
  cases a with
  | read bits off =>
    simp only [hostStep, busRead] at h
    split at h
    · cases h
      exact .answered _
    · split at h
      · cases h
      · cases h
        exact .read _ _
  | write bits off v =>
    simp only [hostStep, busWrite] at h
    split at h
    · cases h
      exact .answered _
    · split at h
      · exact .command v (cmdWrite_commandStep h)
      · split at h
        · cases h
        · cases h
          exact .write _ v (outsideBmem_eq_false ‹_›)
  | load bytes =>
    cases h
    exact .load bytes rfl
  | append bytes =>
    cases h
    exact .append bytes
  | take start =>
    cases h
    exact .answered _
  | resetLine =>
    cases h
    exact .resetLine
  | powerOn =>
    cases h
    exact .powerOn

/-- A step performs the host's next action, or changes nothing. -/
theorem step_cases (h : step s = .next t) :
    t = s ∨ ∃ a rest, s.host = a :: rest ∧ HostStep a { s with host := rest } t := by
  unfold step at h
  split at h
  · cases h
    exact .inl rfl
  · exact .inr ⟨_, _, ‹_›, hostStep_cases h⟩

end Sys2Proof.Machine
end

