-- ==== Sys2Proof/Proofs/StepInvariant.lean ====
section
/-! PROOF. Every step keeps the state invariant. -/

namespace Sys2Proof.Machine

variable {s t : State}

/-- A block-memory address fits the 18 bits of `BM_ADDR` (10_state.md R41). -/
theorem bmAddr_mod_toNat (h : s.par.ok) (n : Nat) :
    (BitVec.ofNat 18 (n % s.par.blkCap)).toNat = n % s.par.blkCap := by
  have hlt : n % s.par.blkCap < s.par.blkCap := Nat.mod_lt _ (blkCap_pos h)
  obtain ⟨-, -, -, -, -, hcap⟩ := h
  rw [BitVec.toNat_ofNat]
  exact Nat.mod_eq_of_lt (by omega)

theorem setBmAddr_inv (h : s.Inv) (n : Nat) :
    State.Inv { s with bmAddr := BitVec.ofNat 18 (n % s.par.blkCap) } :=
  { h with bmAddr := (bmAddr_mod_toNat h.par n).trans_lt (Nat.mod_lt _ (blkCap_pos h.par)) }

theorem advanceBmAddr_inv (h : s.Inv) : (advanceBmAddr s).Inv := setBmAddr_inv h _

theorem readEffect_inv (h : s.Inv) (r : Reg) : (readEffect r s).Inv := by
  unfold readEffect
  split
  · exact advanceBmAddr_inv h
  · exact h

theorem emptyKeys_ok (n : Nat) (a : Axis) : keysOk n ((⟨[], [], [], []⟩ : Axes (List Nat)).get a) := by
  cases a <;> exact keysOk_nil n

theorem writeEffect_inv (h : s.Inv) {r : Reg} (hin : r = .bmData → s.bmAddr.toNat < s.par.blkCap) (v : Word) :
    (writeEffect r v s).Inv := by
  obtain ⟨hfwd, hinv, hgc⟩ := h.caches
  cases r with
  | status =>
    unfold writeEffect
    dsimp only
    split
    · exact { h with }
    · exact h
  | bplane | blkBase | blkLen => exact { h with }
  | tlen => exact { h with caches := ⟨hfwd, hinv, emptyKeys_ok _⟩ }
  | gain a => exact { h with caches := ⟨hfwd, hinv, setKeys_ok hgc a (keysOk_nil _)⟩ }
  | midx =>
    unfold writeEffect
    dsimp only
    split
    · exact { h with midx := by simpa using ‹v.toNat % 256 < Config.nctx› }
    · exact h
  | bmAddr => exact setBmAddr_inv h _
  | bmData => exact advanceBmAddr_inv (memWrite_inv h (hin rfl) v)
  | id | cmd | err | errInfo | cmdCnt | result | rateOut | rateLo | rateHi | acLow | acHigh | acPend | acCode
  | acBits | mval | csCur | csLen | csPeek | outCnt | tcFills | gcFills | slotv => exact h

theorem executes_inv (h : s.Inv) (hf : s.fault = false) {i : Instr} (hi : Executes i s t) : t.Inv := by
  cases hi with
  | reset _ => exact resetKeepingMemory_inv h
  | fault e info _ => exact takeFault_inv h e info
  | exhausted _ _ hblk => exact exhaustion_inv h hblk
  | retired _ hu => exact retire_inv (effect_inv ⟨h, hf⟩ hu)

theorem commandStep_inv (h : s.Inv) {w : Word} (hc : CommandStep w s t) : t.Inv := by
  cases hc with
  | reset => exact resetKeepingMemory_inv h
  | dropped _ => exact h
  | illegal => exact takeFault_inv h _ _
  | command hf hi => exact executes_inv h hf hi

theorem hostLoad_inv (h : s.Inv) (bytes : List Byte) : (hostLoad bytes s).Inv := by
  unfold hostLoad
  split
  · exact { h with cursor := Nat.zero_le _ }
  · exact { h with cursor := Nat.zero_le _ }

theorem hostStep_inv (h : s.Inv) {a : HostAction} (hs : HostStep a s t) : t.Inv := by
  cases hs with
  | answered r => exact answer_inv h r
  | read r v => exact answer_inv (readEffect_inv h r) _
  | write r v hin => exact answer_inv (writeEffect_inv h hin v) _
  | command w hc => exact commandStep_inv (answer_inv h .done) hc
  | load bytes _ => exact answer_inv (hostLoad_inv h bytes) _
  | append bytes =>
    exact answer_inv (s := hostAppend bytes s)
      { h with cursor := h.cursor.trans (by simp [hostAppend]) } _
  | resetLine => exact answer_inv (resetKeepingMemory_inv h) _
  | powerOn => exact answer_inv (powerOn_inv h) _

/-- Settles O59: a step performs one host action, and each keeps the invariant. -/
theorem stepKeepsInv : Obligations.StepKeepsInv := by
  intro s t h hs
  rcases step_cases hs with rfl | ⟨a, rest, -, ha⟩
  · exact h
  · exact hostStep_inv (s := { s with host := rest }) { h with } ha

end Sys2Proof.Machine
end

