-- ==== Sys2Proof/Laws/Interval.lean ====
section
/-! SUPPORT. The interval of the arithmetic coder: what a pass of the renormalisation does to it, on integers, and
why the loops end settled (41_arith_encoder.md R110 to R113; 42_arith_decoder.md R121, R122). -/

namespace Sys2Proof.Machine

/-! The registers as integers. -/

theorem shiftIn_toNat (x : BitVec 16) (b : Bool) : (shiftIn x b).toNat = (2 * x.toNat + bit b) % 65536 :=
  shiftBitIn_toNat x b

theorem xor_bit15 {x : Nat} (h : x < 65536) : x ^^^ 32768 = (x + 32768) % 65536 := by
  have hdiv : (x ^^^ 32768) / 2 ^ 15 = x / 2 ^ 15 ^^^ 1 := Nat.xor_div_two_pow
  have hmod : (x ^^^ 32768) % 2 ^ 15 = x % 2 ^ 15 ^^^ 0 := Nat.xor_mod_two_pow
  have htop : x / 2 ^ 15 ^^^ 1 = 1 - x / 2 ^ 15 := by
    have : x / 2 ^ 15 < 2 := by omega
    interval_cases x / 2 ^ 15 <;> rfl
  rw [Nat.xor_zero] at hmod
  omega

theorem flipTop_toNat (x : BitVec 16) : (flipTop x).toNat = (x.toNat + 32768) % 65536 :=
  (BitVec.toNat_xor ..).trans (xor_bit15 x.isLt)

theorem msb_eq_decide_toNat (x : BitVec 16) : x.msb = decide (32768 ≤ x.toNat) := BitVec.msb_eq_decide x

theorem bit14_eq_true_iff (x : BitVec 16) : x.getLsbD 14 = true ↔ 16384 ≤ x.toNat % 32768 := by
  rw [BitVec.getLsbD, Nat.testBit_eq_decide_div_mod_eq, decide_eq_true_eq]
  omega

/-- What R113 tests, on integers: which pass the loop takes. -/
theorem renormCase_cases (low high : BitVec 16) :
    (renormCase low high = .same ∧ (32768 ≤ low.toNat ↔ 32768 ≤ high.toNat)) ∨
    (renormCase low high = .straddle ∧ ¬(32768 ≤ low.toNat ↔ 32768 ≤ high.toNat) ∧
      16384 ≤ low.toNat % 32768 ∧ high.toNat % 32768 < 16384) ∨
    (renormCase low high = .settled ∧ ¬(32768 ≤ low.toNat ↔ 32768 ≤ high.toNat) ∧
      ¬(16384 ≤ low.toNat % 32768 ∧ high.toNat % 32768 < 16384)) := by
  have hmsb : low.msb = high.msb ↔ (32768 ≤ low.toNat ↔ 32768 ≤ high.toNat) := by
    rw [msb_eq_decide_toNat, msb_eq_decide_toNat, decide_eq_decide]
  have hmid : (low.getLsbD 14 = true ∧ high.getLsbD 14 = false) ↔
      (16384 ≤ low.toNat % 32768 ∧ high.toNat % 32768 < 16384) := by
    rw [← Bool.not_eq_true, bit14_eq_true_iff, bit14_eq_true_iff, Nat.not_le]
  unfold renormCase
  simp only [hmsb, hmid]
  split
  · exact .inl ⟨rfl, ‹_›⟩
  · split
    · exact .inr (.inl ⟨rfl, ‹_›, ‹_›⟩)
    · exact .inr (.inr ⟨rfl, ‹_›, ‹_›⟩)

/-! One pass. -/

/-- `x` as one pass of R113 shifts it: doubled with the bit `b` put in, the top bit taken out in case (a) and the one
below it in case (b). -/
def passed (c : Renorm) (x : BitVec 16) (b : Bool) : BitVec 16 :=
  match c with
  | .same => shiftIn x b
  | .straddle => flipTop (shiftIn x b)
  | .settled => x

/-- What a pass takes off the doubled registers, the same for every register of the interval. -/
theorem passed_toNat {low high : BitVec 16} (hc : renormCase low high ≠ .settled) :
    ∃ k, ∀ (x : BitVec 16) (b : Bool), low.toNat ≤ x.toNat → x.toNat ≤ high.toNat →
      (passed (renormCase low high) x b).toNat + k = 2 * x.toNat + bit b := by
  rcases renormCase_cases low high with ⟨hcase, hsame⟩ | ⟨hcase, hdiff, hl, hh⟩ | ⟨hcase, -⟩
  · refine ⟨if 32768 ≤ low.toNat then 65536 else 0, fun x b hlx hxh => ?_⟩
    have := high.isLt
    have := bit_le_one b
    rw [hcase, passed, shiftIn_toNat]
    split <;> omega
  · refine ⟨32768, fun x b hlx hxh => ?_⟩
    have := high.isLt
    have := bit_le_one b
    rw [hcase, passed, flipTop_toNat, shiftIn_toNat]
    omega
  · exact absurd hcase hc

/-- A pass doubles the interval's width and keeps every value inside that was inside, whatever bit it takes in. -/
theorem pass_interval {low high : BitVec 16} (hlh : low.toNat ≤ high.toNat) (hc : renormCase low high ≠ .settled) :
    (passed (renormCase low high) high true).toNat + 1 - (passed (renormCase low high) low false).toNat =
        2 * (high.toNat + 1 - low.toNat) ∧
      ∀ (x : BitVec 16) (b : Bool), low.toNat ≤ x.toNat → x.toNat ≤ high.toNat →
        (passed (renormCase low high) low false).toNat ≤ (passed (renormCase low high) x b).toNat ∧
          (passed (renormCase low high) x b).toNat ≤ (passed (renormCase low high) high true).toNat := by
  obtain ⟨k, hk⟩ := passed_toNat hc
  have hl : _ + k = 2 * low.toNat + 0 := hk low false le_rfl hlh
  have hh : _ + k = 2 * high.toNat + 1 := hk high true hlh le_rfl
  refine ⟨by omega, fun x b hlx hxh => ?_⟩
  have hx := hk x b hlx hxh
  have := bit_le_one b
  omega

/-- Where the loop stops by itself the interval is the one of R110. -/
theorem settled_intervalOk {low high : BitVec 16} (hlh : low.toNat ≤ high.toNat)
    (hc : renormCase low high = .settled) : intervalOk low high := by
  rcases renormCase_cases low high with ⟨hcase, -⟩ | ⟨hcase, -⟩ | ⟨-, hdiff, hmid⟩
  · exact absurd (hcase.symm.trans hc) nofun
  · exact absurd (hcase.symm.trans hc) nofun
  · unfold intervalOk
    have := low.isLt
    have := high.isLt
    omega

/-- The whole range is settled. -/
theorem fullWidth_intervalOk {low high : BitVec 16} (h : 65536 ≤ high.toNat + 1 - low.toNat) :
    intervalOk low high := by
  unfold intervalOk
  have := high.isLt
  omega

/-! The loops. Their fuel suffices: each pass doubles the width, and a width of `2^16` is settled. -/

theorem encRenormLoop_settled {s : State} (h : renormCase s.low s.high = .settled) (n : Nat) :
    encRenormLoop n s = s := by
  cases n <;> simp [encRenormLoop, h]

theorem encRenormLoop_pass {s : State} (h : renormCase s.low s.high ≠ .settled) (n : Nat) :
    ∃ t : State, encRenormLoop (n + 1) s = encRenormLoop n t ∧
      t.low = passed (renormCase s.low s.high) s.low false ∧
      t.high = passed (renormCase s.low s.high) s.high true := by
  cases hc : renormCase s.low s.high with
  | same =>
    exact ⟨{ emitWithPending s.low.msb s with low := shiftIn s.low false, high := shiftIn s.high true },
      by rw [encRenormLoop, hc], rfl, rfl⟩
  | straddle =>
    exact ⟨{ s with
      pend := s.pend + 1#32, low := flipTop (shiftIn s.low false), high := flipTop (shiftIn s.high true) },
      by rw [encRenormLoop, hc], rfl, rfl⟩
  | settled => exact absurd hc h

theorem doubled_width {w n : Nat} (h : 65536 ≤ w * 2 ^ (n + 1)) : 65536 ≤ 2 * w * 2 ^ n := by
  rwa [Nat.mul_comm 2 w, Nat.mul_assoc, ← Nat.pow_succ']

/-- `EncRenorm` ends with a settled interval (41_arith_encoder.md R113). -/
theorem encRenormLoop_intervalOk (n : Nat) {s : State} (hlh : s.low.toNat ≤ s.high.toNat)
    (hwidth : 65536 ≤ (s.high.toNat + 1 - s.low.toNat) * 2 ^ n) :
    intervalOk (encRenormLoop n s).low (encRenormLoop n s).high := by
  induction n generalizing s with
  | zero =>
    rw [Nat.pow_zero, Nat.mul_one] at hwidth
    exact fullWidth_intervalOk hwidth
  | succ n ih =>
    by_cases hc : renormCase s.low s.high = .settled
    · rw [encRenormLoop_settled hc]
      exact settled_intervalOk hlh hc
    · obtain ⟨t, ht, hl, hh⟩ := encRenormLoop_pass hc n
      obtain ⟨hdouble, hinside⟩ := pass_interval hlh hc
      rw [ht]
      refine ih ?_ ?_
      · rw [hl, hh]
        exact (hinside s.high true hlh le_rfl).1
      · rw [hl, hh, hdouble]
        exact doubled_width hwidth

/-- `LOW <= CODE <= HIGH` (42_arith_decoder.md R122). -/
abbrev State.codeInside (s : State) : Prop := s.low.toNat ≤ s.code.toNat ∧ s.code.toNat ≤ s.high.toNat

/-- What taking an input bit changes, and the bound of `DBN` (R120). -/
theorem getBit_frame {s t : State} {x : Bool} (h : getBit s = some (x, t)) :
    t = { s with db := t.db, dbn := t.dbn, cur := t.cur } ∧ (s.dbn.toNat ≤ 8 → t.dbn.toNat ≤ 8) := by
  unfold getBit at h
  split at h
  · split at h
    · cases h
    · rename_i hs
      obtain ⟨-, rfl⟩ := srcNext_some hs
      cases h
      exact ⟨rfl, fun _ => Nat.le_of_ble_eq_true rfl⟩
  · cases h
    refine ⟨rfl, fun hn => ?_⟩
    have hsub := BitVec.toNat_sub s.dbn 1#4
    have hne : s.dbn.toNat ≠ 0 := fun e => ‹¬s.dbn = 0#4› (BitVec.eq_of_toNat_eq e)
    simp only [BitVec.toNat_ofNat] at hsub
    dsimp only
    omega

theorem decRenormLoop_settled {s : State} (h : renormCase s.low s.high = .settled) (n : Nat) :
    decRenormLoop n s = some s := by
  cases n <;> simp [decRenormLoop, h]

theorem decRenormLoop_pass {s t : State} (h : renormCase s.low s.high ≠ .settled) {n : Nat}
    (hd : decRenormLoop (n + 1) s = some t) :
    ∃ (x : Bool) (u : State), decRenormLoop n u = some t ∧
      u.low = passed (renormCase s.low s.high) s.low false ∧
      u.high = passed (renormCase s.low s.high) s.high true ∧
      u.code = passed (renormCase s.low s.high) s.code x ∧ (s.dbn.toNat ≤ 8 → u.dbn.toNat ≤ 8) := by
  unfold decRenormLoop at hd
  cases hc : renormCase s.low s.high with
  | same =>
    simp only [hc] at hd
    split at hd
    · cases hd
    · rename_i hx
      exact ⟨_, _, hd, rfl, rfl, rfl, fun hn => (getBit_frame hx).2 hn⟩
  | straddle =>
    simp only [hc] at hd
    split at hd
    · cases hd
    · rename_i hx
      exact ⟨_, _, hd, rfl, rfl, rfl, fun hn => (getBit_frame hx).2 hn⟩
  | settled => exact absurd hc h

/-- The decoder's loop ends with a settled interval and `CODE` inside it (42_arith_decoder.md R121, R122). -/
theorem decRenormLoop_intervalOk (n : Nat) {s t : State} (hcode : s.codeInside)
    (hwidth : 65536 ≤ (s.high.toNat + 1 - s.low.toNat) * 2 ^ n) (hdbn : s.dbn.toNat ≤ 8)
    (h : decRenormLoop n s = some t) : intervalOk t.low t.high ∧ t.codeInside ∧ t.dbn.toNat ≤ 8 := by
  have hlh := hcode.1.trans hcode.2
  induction n generalizing s with
  | zero =>
    cases h
    rw [Nat.pow_zero, Nat.mul_one] at hwidth
    exact ⟨fullWidth_intervalOk hwidth, hcode, hdbn⟩
  | succ n ih =>
    by_cases hc : renormCase s.low s.high = .settled
    · rw [decRenormLoop_settled hc] at h
      cases h
      exact ⟨settled_intervalOk hlh hc, hcode, hdbn⟩
    · obtain ⟨x, u, hu, hl, hh, hx, hn⟩ := decRenormLoop_pass hc h
      obtain ⟨hdouble, hinside⟩ := pass_interval hlh hc
      have hin := hinside s.code x hcode.1 hcode.2
      rw [← hl, ← hh, ← hx] at hin
      refine ih hin ?_ (hn hdbn) hu (hin.1.trans hin.2)
      rw [hl, hh, hdouble]
      exact doubled_width hwidth

/-! Narrowing. -/

/-- The bounds of `Split` on integers: the width is above `4 * 4094`. -/
theorem splitQuotient_bounds {w z t : Nat} (hw : 16386 ≤ w) (hz : 1 ≤ z) (hzt : z + 1 ≤ t) (ht : t ≤ 4094) :
    4 ≤ w * z / t ∧ w * z / t + 4 ≤ w := by
  have hlower : 4 * t ≤ w * z := by nlinarith
  have hupper : w * z < (w - 3) * t := by
    have := Nat.mul_le_mul_left w hzt
    rw [Nat.mul_succ] at this
    rw [Nat.sub_mul]
    omega
  have h4 := (Nat.le_div_iff_mul_le (by omega)).mpr hlower
  have h3 := (Nat.div_lt_iff_lt_mul (by omega)).mpr hupper
  omega

/-- `Split` under R15 and R110 (41_arith_encoder.md R111): both symbols keep at least four values. -/
theorem split_bounds {s : State} {c : Nat} (hi : intervalOk s.low s.high) (hm : (bankGet s c).ok) :
    ∃ k : Nat, split c s = k ∧ 4 ≤ k ∧ s.low.toNat + k + 3 ≤ s.high.toNat := by
  obtain ⟨hz, hzt, ht⟩ := hm
  obtain ⟨hl, hh, hmid⟩ := hi
  obtain ⟨hlower, hupper⟩ :=
    splitQuotient_bounds (w := s.high.toNat + 1 - s.low.toNat) (by omega) hz hzt ht
  refine ⟨_, ?_, hlower, by omega⟩
  unfold split
  push_cast [show s.low.toNat ≤ s.high.toNat + 1 by omega]
  ring_nf

theorem storeInt_toNat {v : Nat} (h : v < 65536) : (storeInt 16 v).toNat = v := by
  simp [storeInt, Nat.mod_eq_of_lt h]

/-- Narrowing leaves a non-empty interval (41_arith_encoder.md R114); with the decoder's decision `CODE` stays inside
(42_arith_decoder.md R121). -/
theorem narrow_interval {s : State} {c : Nat} (hi : intervalOk s.low s.high) (hm : (bankGet s c).ok) (b : Bool) :
    (narrow c b s).low.toNat ≤ (narrow c b s).high.toNat ∧
      (s.codeInside → b = decodedBit c s → (narrow c b s).codeInside) := by
  obtain ⟨k, hk, hlow, hhigh⟩ := split_bounds hi hm
  have := s.high.isLt
  unfold State.codeInside decodedBit narrow
  rw [hk]
  cases b with
  | true =>
    have hl : (storeInt 16 ((s.low.toNat : Int) + k)).toNat = s.low.toNat + k := by
      exact_mod_cast storeInt_toNat (v := s.low.toNat + k) (by omega)
    simp only [if_true, hl]
    refine ⟨by omega, fun hcode hb => ?_⟩
    have := of_decide_eq_true hb.symm
    omega
  | false =>
    have hh : (storeInt 16 ((s.low.toNat : Int) + k - 1)).toNat = s.low.toNat + k - 1 := by
      have h1 : (s.low.toNat : Int) + k - 1 = ((s.low.toNat + k - 1 : Nat) : Int) := by omega
      rw [h1]
      exact storeInt_toNat (by omega)
    simp only [Bool.false_eq_true, if_false, hh]
    refine ⟨by omega, fun hcode hb => ?_⟩
    have := of_decide_eq_false hb.symm
    omega

/-- The fuel of R113's loops suffices for every non-empty interval. -/
theorem renormPasses_suffice {low high : Nat} (h : low ≤ high) : 65536 ≤ (high + 1 - low) * 2 ^ renormPasses := by
  have hone : 1 ≤ high + 1 - low := by omega
  exact Nat.mul_le_mul_right (2 ^ renormPasses) hone

/-- `EncodeBit` keeps the interval settled (41_arith_encoder.md R114). -/
theorem encodeBit_intervalOk {s : State} {c : Nat} (hi : intervalOk s.low s.high) (hm : (bankGet s c).ok) (b : Bool) :
    intervalOk (encodeBit c b s).low (encodeBit c b s).high := by
  obtain ⟨hlh, -⟩ := narrow_interval hi hm b
  exact encRenormLoop_intervalOk renormPasses hlh (renormPasses_suffice hlh)

/-- `DecodeBit` keeps the interval settled and `CODE` inside it (42_arith_decoder.md R121, R122). -/
theorem decodeBit_intervalOk {s t : State} {c : Nat} {b : Bool} (hi : intervalOk s.low s.high)
    (hm : (bankGet s c).ok) (hcode : s.codeInside) (hdbn : s.dbn.toNat ≤ 8) (h : decodeBit c s = some (b, t)) :
    intervalOk t.low t.high ∧ t.codeInside ∧ t.dbn.toNat ≤ 8 := by
  unfold decodeBit at h
  dsimp only at h
  split at h
  · cases h
  · rename_i u hu
    cases h
    obtain ⟨hlh, hin⟩ := narrow_interval hi hm (decodedBit c s)
    have hn : (narrow c (decodedBit c s) s).dbn = s.dbn := by
      unfold narrow
      split <;> rfl
    have hu' := decRenormLoop_intervalOk renormPasses (hin hcode rfl) (renormPasses_suffice hlh) (hn ▸ hdbn) hu
    exact hu'

end Sys2Proof.Machine
end

