-- ==== Sys2Proof/Proofs/CoderInvariant.lean ====
section
/-! PROOF. Every step of a host that keeps R207 keeps the coder's invariant. -/

namespace Sys2Proof.Machine

variable {s t : State}

/-! Where nothing of the coder moves. -/

theorem coderInv_of_fault (h : s.fault = true) : s.CoderInv where
  interval hf := absurd (h.symm.trans hf) nofun
  idle hf := absurd (h.symm.trans hf) nofun
  code hf := absurd (h.symm.trans hf) nofun
  byteBuffer hf := absurd (h.symm.trans hf) nofun

theorem fullInterval_ok : intervalOk 0x0000#16 0xFFFF#16 := by decide

/-- Outside a segment, with the whole range as the interval. -/
theorem coderInv_of_idle (hm : s.mode = .idle) (hl : s.low = 0x0000#16) (hh : s.high = 0xFFFF#16) :
    s.CoderInv where
  interval _ := hl ▸ hh ▸ fullInterval_ok
  idle _ _ := ⟨hl, hh⟩
  code _ hd := absurd (hm.symm.trans hd) nofun
  byteBuffer _ hd := absurd (hm.symm.trans hd) nofun

theorem coderInv_of_enc (hm : s.mode = .enc) (hi : intervalOk s.low s.high) : s.CoderInv where
  interval _ := hi
  idle _ hd := absurd (hm.symm.trans hd) nofun
  code _ hd := absurd (hm.symm.trans hd) nofun
  byteBuffer _ hd := absurd (hm.symm.trans hd) nofun

/-- What coding leaves of the coder's registers where it only prices: all of them. -/
theorem onlyEncoder_coderInv (h : s.CoderInv) (ho : onlyEncoder s t) (hl : t.low = s.low) (hh : t.high = s.high) :
    t.CoderInv := by
  rw [ho, hl, hh]
  exact { h with }

theorem onlyTransform_coderInv (h : s.CoderInv) (ho : onlyTransform s t) : t.CoderInv := by
  rw [ho]
  exact { h with }

/-! Encoding. -/

/-- Pricing a bit changes `RATEACC` and the bank. -/
theorem cost_eq (c : Nat) (b : Bool) (s : State) : ∃ r k, cost c b s = { s with rateAcc := r, bank := k } :=
  ⟨_, _, rfl⟩

/-- A cost-only bit leaves the interval alone (40_model_bank.md R96). -/
theorem codeBit_costOnly_interval (c : Nat) (b : Bool) (s : State) :
    (codeBit c b true s).low = s.low ∧ (codeBit c b true s).high = s.high := by
  obtain ⟨r, k, h⟩ := cost_eq c b s
  rw [codeBit, if_pos rfl, h]
  exact ⟨rfl, rfl⟩

/-- A live machine with a settled interval. -/
def State.Settled (s : State) : Prop := s.Live ∧ intervalOk s.low s.high

theorem codeBit_settled (c : Nat) (b k : Bool) (s : State) (h : s.Settled) : (codeBit c b k s).Settled := by
  refine ⟨codeBit_live h.1 c b k, ?_⟩
  cases k with
  | true =>
    obtain ⟨hl, hh⟩ := codeBit_costOnly_interval c b s
    exact hl.symm ▸ hh.symm ▸ h.2
  | false => exact encodeBit_intervalOk h.2 (bankGet_ok h.1.bank_ok c) b

/-- A coding command, given that it keeps whatever a coded bit keeps. -/
theorem coding_coderInv {k : Bool} (h : s.Live) (hc : s.CoderInv) (hmode : k = true ∨ s.mode = .enc)
    (ho : onlyEncoder s t)
    (hkeeps : ∀ P : State → Prop, (∀ c b u, P u → P (codeBit c b k u)) → P s → P t) : t.CoderInv := by
  cases k with
  | true =>
    obtain ⟨hl, hh⟩ := hkeeps (fun u => u.low = s.low ∧ u.high = s.high)
      (fun c b u hu => (codeBit_costOnly_interval c b u).imp (·.trans hu.1) (·.trans hu.2)) ⟨rfl, rfl⟩
    exact onlyEncoder_coderInv hc ho hl hh
  | false =>
    have ht := hkeeps State.Settled (fun c b u => codeBit_settled c b false u) ⟨h, hc.interval h.2⟩
    refine coderInv_of_enc ?_ ht.2
    rw [ho]
    exact hmode.resolve_left nofun

/-! Decoding. -/

/-- A live machine in a decode segment with the coder's invariant. -/
def State.Decoding (s : State) : Prop :=
  s.Live ∧ s.mode = .dec ∧ intervalOk s.low s.high ∧ s.codeInside ∧ s.dbn.toNat ≤ 8

theorem State.Decoding.coderInv (h : s.Decoding) : s.CoderInv := by
  obtain ⟨-, hm, hi, hcode, hn⟩ := h
  exact
    { interval := fun _ => hi
      idle := fun _ hidle => absurd (hm.symm.trans hidle) nofun
      code := fun _ _ => hcode
      byteBuffer := fun _ _ => hn }

theorem State.CoderInv.decoding (hc : s.CoderInv) (h : s.Live) (hm : s.mode = .dec) : s.Decoding :=
  ⟨h, hm, hc.interval h.2, hc.code h.2 hm, hc.byteBuffer h.2 hm⟩

theorem decodeBit_decoding : KeptByDecodeBit State.Decoding := by
  intro c s b t ⟨h, hm, hi, hcode, hn⟩ hd
  refine ⟨decodeBit_live c s b t h hd, ?_, decodeBit_intervalOk hi (bankGet_ok h.bank_ok c) hcode hn hd⟩
  rw [decodeBit_onlyDecoder c hd]
  exact hm

/-- A decode segment on a block that fits. -/
def State.DecodingOn (blk : Block) (s : State) : Prop := s.Decoding ∧ blk.fits s.par

theorem decodeBit_decodingOn (blk : Block) : KeptByDecodeBit (State.DecodingOn blk) := by
  intro c s b t h hd
  refine ⟨decodeBit_decoding c s b t h.1 hd, ?_⟩
  rw [decodeBit_onlyDecoder c hd]
  exact h.2

theorem memWrite_decodingOn (blk : Block) : KeptByBlockWrite blk (State.DecodingOn blk) :=
  fun pos v s hpos h => ⟨⟨(memWrite_liveOn blk pos v s hpos ⟨h.1.1, h.2⟩).1, h.1.2⟩, h.2⟩

theorem decodeBlock_decoding (h : s.Decoding) {w : Word} (hc : blockCheck w s = none) {hd : Bool}
    (hb : decodeBlock hd s = some t) : t.Decoding :=
  (decodeBlock_preserves (P := State.DecodingOn (currentBlock s)) hd (decodeBit_decodingOn _)
    (memWrite_decodingOn _) (fun _ _ _ hu => ⟨⟨⟨{ hu.1.1.1 with }, hu.1.1.2⟩, hu.1.2⟩, hu.2⟩)
    ⟨h, blockCheck_none_fits hc⟩ hb).1

/-- What `DINIT` keeps while it fills `CODE`. -/
def State.Priming (s : State) : Prop :=
  s.mode = .dec ∧ s.low = 0x0000#16 ∧ s.high = 0xFFFF#16 ∧ s.dbn.toNat ≤ 8

theorem getBit_priming {x : Bool} (h : s.Priming) (hx : getBit s = some (x, t)) : t.Priming := by
  obtain ⟨hm, hl, hh, hn⟩ := h
  obtain ⟨hframe, hdbn⟩ := getBit_frame hx
  refine ⟨?_, ?_, ?_, hdbn hn⟩ <;> (rw [hframe]; assumption)

theorem primeCode_priming {n : Nat} (h : primeCode n (openDecoder s) = some t) : t.Priming :=
  primeCode_preserves (P := State.Priming) (fun _ _ _ hu hx => getBit_priming hu hx) (fun _ _ hu => hu) n
    (s := openDecoder s) ⟨rfl, rfl, rfl, Nat.zero_le 8⟩ h

theorem State.Priming.coderInv (h : s.Priming) : s.CoderInv := by
  obtain ⟨hm, hl, hh, hn⟩ := h
  have hlow : s.low.toNat ≤ s.code.toNat := hl ▸ Nat.zero_le _
  have hhigh : s.code.toNat ≤ s.high.toNat := hh ▸ Nat.le_of_lt_succ s.code.isLt
  exact
    { interval := fun _ => hl ▸ hh ▸ fullInterval_ok
      idle := fun _ hidle => absurd (hm.symm.trans hidle) nofun
      code := fun _ _ => ⟨hlow, hhigh⟩
      byteBuffer := fun _ _ => hn }

/-! Commands. -/

theorem costOnly_or_enc {c : Bool} {m : Mode} (h : (c || decide (m = .enc)) = true) : c = true ∨ m = .enc := by
  simpa using h

/-- What an admitted command does before it retires keeps the coder's invariant. -/
theorem effect_coderInv {i : Instr} (h : s.Live) (hc : s.CoderInv) (hadm : admits s.mode i = true)
    (hu : effect i s t) : t.CoderInv := by
  cases i with
  | srst => exact hu.elim
  | nop => exact hu ▸ hc
  | mrst | mrst1 _ | mupd _ _ | mrate _ _ | rclr | tflush | csput _ | csrw _ => exact hu ▸ { hc with }
  | snap slot => exact hu.2 ▸ { hc with }
  | rest slot =>
    obtain ⟨b, -, rfl⟩ := hu
    exact { hc with }
  | einit m => exact hu ▸ coderInv_of_enc rfl fullInterval_ok
  | encb c b ctx =>
    exact hu ▸ coding_coderInv h hc (costOnly_or_enc hadm) (codeBit_onlyEncoder _ b c s)
      fun P hP hs => hP _ _ _ hs
  | enci c n v =>
    exact hu ▸ coding_coderInv h hc (costOnly_or_enc hadm) (codeInt_onlyEncoder _ _ c s)
      fun P hP hs => codeInt_preserves hP _ _ hs
  | enblk c hd =>
    exact hu ▸ coding_coderInv h hc (costOnly_or_enc hadm) (codeBlock_onlyEncoder c hd s)
      fun P hP hs => codeBlock_preserves hP hd hs
  | efin => exact hu ▸ coderInv_of_idle rfl rfl rfl
  | dinit m => exact (primeCode_priming hu).coderInv
  | decb ctx =>
    obtain ⟨b, v, hv, rfl⟩ := hu
    exact { (decodeBit_decoding _ _ _ _ (hc.decoding h (of_decide_eq_true hadm)) hv).coderInv with }
  | deci n =>
    obtain ⟨r, v, hv, rfl⟩ := hu
    exact { (decodeIntLoop_preserves decodeBit_decoding _ _
      (hc.decoding h (of_decide_eq_true hadm)) hv).coderInv with }
  | dfin => exact hu ▸ coderInv_of_idle rfl rfl rfl
  | deblk hd => exact (decodeBlock_decoding (hc.decoding h (of_decide_eq_true hadm)) hu.1 hu.2).coderInv
  | tfwd => exact hu.2 ▸ onlyTransform_coderInv hc (transformBlock_onlyTransform _ s)
  | tinv => exact hu.2 ▸ onlyTransform_coderInv hc (transformBlock_onlyTransform _ s)
  | csget =>
    obtain ⟨b, v, hv, rfl⟩ := hu
    obtain ⟨-, rfl⟩ := srcNext_some hv
    exact { hc with }

theorem reset_coderInv : State.reset.CoderInv := coderInv_of_idle rfl rfl rfl

theorem freeWords_fault (k n a : Nat) (s : State) : (freeWords k n a s).fault = s.fault := by
  induction n generalizing a s with
  | zero => rfl
  | succ n ih => exact ih _ _

theorem exhaustion_fault (i : Instr) (s : State) : (exhaustion i s).fault = true := by
  unfold exhaustion
  split
  · rfl
  · exact freeWords_fault _ _ _ _
  · rfl

theorem commandStep_coderInv (h : s.Inv) (hc : s.CoderInv) {w : Word} (hw : CommandStep w s t) : t.CoderInv := by
  cases hw with
  | reset => exact coderInv_of_idle rfl rfl rfl
  | dropped _ => exact hc
  | illegal => exact coderInv_of_fault rfl
  | command hf hi =>
    cases hi with
    | reset _ => exact coderInv_of_idle rfl rfl rfl
    | fault _ _ _ => exact coderInv_of_fault rfl
    | exhausted _ _ _ => exact coderInv_of_fault (exhaustion_fault _ s)
    | retired hadm hu => exact { effect_coderInv ⟨h, hf⟩ hc hadm hu with }

theorem writeEffect_coderInv (hc : s.CoderInv) (r : Reg) (v : Word) : (writeEffect r v s).CoderInv := by
  cases r with
  | status | midx =>
    unfold writeEffect
    dsimp only
    split <;> exact { hc with }
  | _ => exact { hc with }

theorem readEffect_coderInv (hc : s.CoderInv) (r : Reg) : (readEffect r s).CoderInv := by
  unfold readEffect
  split <;> exact { hc with }

/-- A `HostLoad` that keeps R207 leaves the coder alone (70_reset_and_hazards.md R207). -/
theorem hostLoad_coderInv (hc : s.CoderInv) (hkeep : s.mode = .dec → s.fault = true) (bytes : List Byte) :
    (hostLoad bytes s).CoderInv := by
  have hnot : ¬(s.mode = .dec ∧ s.fault = false) := fun ⟨hm, hf⟩ => absurd (hkeep hm) (by simp [hf])
  unfold hostLoad
  rw [if_neg hnot]
  exact { hc with }

theorem hostStep_coderInv (h : s.Inv) (hc : s.CoderInv) {a : HostAction}
    (hkeep : ∀ bytes, a = .load bytes → s.mode = .dec → s.fault = true) (hs : HostStep a s t) : t.CoderInv := by
  cases hs with
  | answered r => exact { hc with }
  | read r v => exact { readEffect_coderInv hc r with }
  | write r v _ => exact { writeEffect_coderInv hc r v with }
  | command w hw => exact commandStep_coderInv (answer_inv h .done) { hc with } hw
  | load bytes ha => exact { hostLoad_coderInv hc (hkeep bytes ha) bytes with }
  | append bytes => exact { hc with }
  | resetLine => exact coderInv_of_idle rfl rfl rfl
  | powerOn => exact coderInv_of_idle rfl rfl rfl

/-- Settles O60: a step performs one host action, and each keeps the coder's invariant. -/
theorem stepKeepsCoderInv : Obligations.StepKeepsCoderInv := by
  intro s t h hc hkeep hs
  rcases step_cases hs with rfl | ⟨a, rest, ha, hstep⟩
  · exact hc
  · refine hostStep_coderInv (s := { s with host := rest }) { h with } { hc with } ?_ hstep
    rintro bytes rfl hm
    exact hkeep bytes rest ha hm

end Sys2Proof.Machine
end

