-- ==== Sys2Proof/Laws/CommandFrame.lean ====
section
/-! SUPPORT. What a command that retires may change, over all of them. -/

open Sys2Proof.Claims

namespace Sys2Proof.Machine

variable {s t u : State}

/-- What no command but `SRST` touches before it retires stays: `FAULT` and its record, `CMDCNT`, the configuration
but `INF`, `MIDX`, `BM_ADDR`, `IN` and the model's own fields. -/
abbrev onlyCommand (s u : State) : Prop :=
  u = { s with
        mode := u.mode, tsat := u.tsat, result := u.result, rateOut := u.rateOut, rateAcc := u.rateAcc
        low := u.low, high := u.high, pend := u.pend, code := u.code, bb := u.bb, bbn := u.bbn, db := u.db
        dbn := u.dbn, inf := u.inf, bank := u.bank, slots := u.slots, tcvFwd := u.tcvFwd, tcvInv := u.tcvInv
        gcv := u.gcv, tcFills := u.tcFills, gcFills := u.gcFills, outCnt := u.outCnt, mem := u.mem
        cur := u.cur, out := u.out }

/-- What command `i` may make of `s` before it retires, and which commands change the pieces few commands change. -/
structure CommandFrame (i : Instr) (s u : State) : Prop where
  fixed : onlyCommand s u
  mode : u.mode = s.mode ∨ i = .efin ∨ i = .dfin ∨ ∃ m, i = .einit m ∨ i = .dinit m
  inf : u.inf = s.inf ∨ i = .deblk true
  slots : u.slots = s.slots ∨ ∃ k, i = .snap k
  mem : u.mem = s.mem ∨ writesBlock i = true
  out : s.out <+: u.out

theorem emitBit_out (x : Bool) (s : State) : s.out <+: (emitBit x s).out := by
  unfold emitBit
  dsimp only
  split
  · exact List.prefix_append ..
  · exact List.prefix_refl _

theorem codeBit_out (c : Nat) (b k : Bool) (s : State) : s.out <+: (codeBit c b k s).out := by
  cases k with
  | true =>
    obtain ⟨r, m, h⟩ := cost_eq c b s
    rw [codeBit, if_pos rfl, h]
  | false =>
    exact encRenorm_narrow_preserves (P := fun u => s.out <+: u.out)
      (fun x u hu => hu.trans (emitBit_out x u)) (fun _ _ _ _ hu => hu) c b (List.prefix_refl _)

theorem flushEncoder_out (s : State) : s.out <+: (flushEncoder s).out :=
  flushEncoder_preserves (P := fun u => s.out <+: u.out) (fun x u hu => hu.trans (emitBit_out x u))
    (fun _ _ hu => hu) (List.prefix_refl _)

theorem flushEncoder_onlyEncoder (s : State) : onlyEncoder s (flushEncoder s) :=
  flushEncoder_preserves (P := onlyEncoder s) (fun x u hu => hu.trans (emitBit_onlyEncoder x u))
    (fun _ _ hu => hu.trans rfl) rfl

/-- The frame of a coding command. -/
theorem onlyEncoder.frame {i : Instr} (ho : onlyEncoder s u) (hout : s.out <+: u.out) : CommandFrame i s u where
  fixed := by rw [ho]
  mode := .inl (by rw [ho])
  inf := .inl (by rw [ho])
  slots := .inl (by rw [ho])
  mem := .inl (by rw [ho])
  out := hout

/-- The frame of a command that only prices or decodes. -/
theorem onlyDecoder.frame {i : Instr} (ho : onlyDecoder s u) : CommandFrame i s u where
  fixed := by rw [ho]
  mode := .inl (by rw [ho])
  inf := .inl (by rw [ho])
  slots := .inl (by rw [ho])
  mem := .inl (by rw [ho])
  out := by rw [ho]

theorem onlyTransform.frame {i : Instr} (ho : onlyTransform s u) (hi : writesBlock i = true) :
    CommandFrame i s u where
  fixed := by rw [ho]
  mode := .inl (by rw [ho])
  inf := .inl (by rw [ho])
  slots := .inl (by rw [ho])
  mem := .inr hi
  out := by rw [ho]

theorem decodeBlock_frame {h : Bool} (hd : decodeBlock h s = some u) : CommandFrame (.deblk h) s u := by
  obtain ⟨ho, hinf⟩ := decodeBlock_only h hd
  exact
    { fixed := by rw [ho]
      mode := .inl (by rw [ho])
      inf := by
        cases h with
        | true => exact .inr rfl
        | false => exact .inl (hinf rfl)
      slots := .inl (by rw [ho])
      mem := .inr rfl
      out := by rw [ho] }

theorem primed_frame {m : Bool} (hp : primeCode 16 (openDecoder (if m then resetBank s else s)) = some u) :
    CommandFrame (.dinit m) s u := by
  have ho := primeCode_onlyDecoder 16 hp
  exact
    { fixed := by rw [ho]; cases m <;> rfl
      mode := .inr (.inr (.inr ⟨m, .inr rfl⟩))
      inf := .inl (by rw [ho]; cases m <;> rfl)
      slots := .inl (by rw [ho]; cases m <;> rfl)
      mem := .inl (by rw [ho]; cases m <;> rfl)
      out := by rw [ho]; cases m <;> exact List.prefix_refl _ }

/-- The frame of a command that changes none of the watched pieces, by definition. -/
theorem plain_frame {i : Instr} (hfixed : onlyCommand s u) (hmode : u.mode = s.mode) (hinf : u.inf = s.inf)
    (hslots : u.slots = s.slots) (hmem : u.mem = s.mem) (hout : s.out <+: u.out) : CommandFrame i s u :=
  ⟨hfixed, .inl hmode, .inl hinf, .inl hslots, .inl hmem, hout⟩

/-- Every command stays in its frame. -/
theorem effect_frame {i : Instr} (hu : effect i s u) : CommandFrame i s u := by
  cases i with
  | srst => exact hu.elim
  | nop | mrst | mrst1 _ | mupd _ _ | mrate _ _ | rclr | tflush | csrw _ =>
    exact hu ▸ plain_frame rfl rfl rfl rfl rfl (List.prefix_refl _)
  | snap slot => exact hu.2 ▸ ⟨rfl, .inl rfl, .inl rfl, .inr ⟨slot, rfl⟩, .inl rfl, List.prefix_refl _⟩
  | rest slot =>
    obtain ⟨b, -, rfl⟩ := hu
    exact plain_frame rfl rfl rfl rfl rfl (List.prefix_refl _)
  | einit m =>
    cases m <;>
      exact hu ▸ ⟨rfl, .inr (.inr (.inr ⟨_, .inl rfl⟩)), .inl rfl, .inl rfl, .inl rfl, List.prefix_refl _⟩
  | encb c b ctx => exact hu ▸ (codeBit_onlyEncoder _ b c s).frame (codeBit_out _ b c s)
  | enci c n v =>
    exact hu ▸ (codeInt_onlyEncoder _ _ c s).frame
      (codeInt_preserves (P := fun t => s.out <+: t.out) (fun d b t ht => ht.trans (codeBit_out d b c t)) _ _
        (List.prefix_refl _))
  | enblk c hd =>
    exact hu ▸ (codeBlock_onlyEncoder c hd s).frame
      (codeBlock_preserves (P := fun t => s.out <+: t.out) (fun d b t ht => ht.trans (codeBit_out d b c t)) hd
        (List.prefix_refl _))
  | efin =>
    have ho := flushEncoder_onlyEncoder s
    have hout := flushEncoder_out s
    simp only [effect] at hu
    generalize flushEncoder s = f at hu ho hout
    subst hu
    exact
      { fixed := by rw [ho]
        mode := .inr (.inl rfl)
        inf := .inl (by rw [ho])
        slots := .inl (by rw [ho])
        mem := .inl (by rw [ho])
        out := hout }
  | dinit m => exact primed_frame hu
  | decb ctx =>
    obtain ⟨b, v, hv, rfl⟩ := hu
    exact { (decodeBit_onlyDecoder _ hv).frame with
      fixed := by rw [decodeBit_onlyDecoder _ hv] }
  | deci n =>
    obtain ⟨r, v, hv, rfl⟩ := hu
    exact { (decodeIntLoop_onlyDecoder _ _ hv).frame with
      fixed := by rw [decodeIntLoop_onlyDecoder _ _ hv] }
  | dfin => exact hu ▸ ⟨rfl, .inr (.inr (.inl rfl)), .inl rfl, .inl rfl, .inl rfl, List.prefix_refl _⟩
  | deblk hd => exact decodeBlock_frame hu.2
  | tfwd => exact hu.2 ▸ (transformBlock_onlyTransform _ s).frame rfl
  | tinv => exact hu.2 ▸ (transformBlock_onlyTransform _ s).frame rfl
  | csput byte => exact hu ▸ plain_frame rfl rfl rfl rfl rfl (List.prefix_append ..)
  | csget =>
    obtain ⟨b, v, hv, rfl⟩ := hu
    obtain ⟨-, rfl⟩ := srcNext_some hv
    exact plain_frame rfl rfl rfl rfl rfl (List.prefix_refl _)

theorem freeWords_frame (k n a : Nat) (s : State) : freeWords k n a s = { s with mem := (freeWords k n a s).mem } := by
  induction n generalizing a s with
  | zero => rfl
  | succ n ih => exact ih (a + 1) (memWrite a (Config.freeWord k a) s)

/-- What the imprecise `E_EOS` of command `i` may make of `s` (42_arith_decoder.md R129). -/
structure ExhaustionFrame (i : Instr) (s t : State) : Prop where
  fixed : t = { s with
    fault := true, err := 7#8, errInfo := encode i, cur := s.inp.length, freeCtr := s.freeCtr + 1
    mode := t.mode, result := t.result, low := t.low, high := t.high, code := t.code, db := t.db, dbn := t.dbn
    inf := t.inf, bank := t.bank, mem := t.mem }
  mode : t.mode = s.mode ∨ ∃ m, i = .dinit m
  inf : t.inf = s.inf ∨ ∃ h, i = .deblk h
  mem : t.mem = s.mem ∨ ∃ h, i = .deblk h

theorem exhaustion_frame (i : Instr) (s : State) : ExhaustionFrame i s (exhaustion i s) := by
  unfold exhaustion
  split
  · exact ⟨rfl, .inr ⟨_, rfl⟩, .inl rfl, .inl rfl⟩
  · unfold exhaustedBlock
    rw [freeWords_frame]
    exact ⟨rfl, .inl rfl, .inr ⟨_, rfl⟩, .inr ⟨_, rfl⟩⟩
  · exact ⟨rfl, .inl rfl, .inl rfl, .inl rfl⟩

end Sys2Proof.Machine
end

