-- ==== Sys2Proof/Proofs/CommandProperties.lean ====
section
/-! PROOF. What commands keep and which modes allow them (10_state.md R12, R19). -/

open Sys2Proof.Claims

namespace Sys2Proof.Machine

variable {s t u : State}

/-- Settles O35, along the four ways a command ends. -/
theorem commandsKeepConfiguration : Obligations.CommandsKeepConfiguration := by
  intro i s t h
  cases exec_executes h with
  | reset hi => exact ⟨rfl, List.prefix_refl _, fun _ => rfl, fun hne => absurd hi hne⟩
  | fault e info _ =>
    exact ⟨rfl, List.prefix_refl _, fun _ => rfl, fun _ =>
      ⟨rfl, fun _ => rfl, fun _ => .inl rfl, rfl, rfl, rfl, rfl, rfl, rfl, fun _ => rfl⟩⟩
  | exhausted _ _ _ =>
    obtain ⟨hfixed, -, hinf, hmem⟩ := exhaustion_frame i s
    generalize exhaustion i s = t at hfixed hinf hmem
    rw [hfixed]
    refine ⟨rfl, List.prefix_refl _, fun hw => hmem.resolve_right ?_, fun _ => ⟨rfl,
      fun hne => hinf.resolve_right fun ⟨hd, hi⟩ => hne hd hi, fun _ => .inr ⟨rfl, rfl, rfl⟩, rfl, rfl, rfl, rfl,
      rfl, rfl, fun _ => rfl⟩⟩
    rintro ⟨hd, rfl⟩
    cases hw
  | retired _ hu =>
    rename_i u
    obtain ⟨hfixed, -, hinf, hslots, hmem, hout⟩ := effect_frame hu
    rw [hfixed]
    refine ⟨rfl, hout, fun hw => hmem.resolve_right (by simp [hw]), fun _ => ⟨rfl,
      fun hne => hinf.resolve_right (hne true), fun hi => .inl (hinf.resolve_right ?_), rfl, rfl, rfl, rfl, rfl, rfl,
      fun hne => hslots.resolve_right fun ⟨k, hk⟩ => hne k hk⟩⟩
    rintro rfl
    cases hi

/-! Modes. -/

/-- A command the mode refuses raises `E_MODE` before anything else (10_state.md R19). -/
theorem exec_refused {i : Instr} (h : admits s.mode i = false) : exec i s = .next (faulted s 2#8 (encode i)) := by
  cases i with
  | encb c b ctx | enci c n v | enblk c hd =>
    have hmode : c = false ∧ s.mode ≠ .enc := by simpa [admits] using h
    exact if_pos hmode
  | einit m | dinit m | efin | decb ctx | deci n | deblk hd | dfin => exact if_pos (of_decide_eq_false h)
  | csput byte | csget | csrw k => exact if_pos (not_not.mp (of_decide_eq_false h))
  | nop | srst | mrst | mrst1 ctx | mupd b ctx | mrate b ctx | rclr | snap slot | rest slot | tfwd | tinv | tflush =>
    cases h

theorem effect_fault {i : Instr} (hu : effect i s u) : u.fault = s.fault := by
  rw [(effect_frame hu).fixed]

theorem FaultCode.code_ne_mode {e : FaultCode} (h : e ≠ .mode) : e.code ≠ 2#8 := by
  cases e with
  | mode => exact absurd rfl h
  | _ => decide

theorem exec_admitted_not_modeFault {i : Instr} (hf : s.fault = false) (hadm : admits s.mode i = true)
    (h : exec i s = .next t) (ht : t.fault = true) : t.err ≠ 2#8 := by
  cases exec_executes h with
  | reset _ => cases ht
  | fault e info hmode => exact FaultCode.code_ne_mode fun he => absurd (hmode he) (by simp [hadm])
  | exhausted _ _ _ =>
    rw [(exhaustion_frame i s).fixed]
    exact (by decide : (7#8 : BitVec 8) ≠ 2#8)
  | retired _ hu => exact absurd ((effect_fault hu).symm.trans ht) (by simp [hf])

/-- A command that does not fault was admitted and did its work, or reset the machine. -/
theorem exec_noFault {i : Instr} (h : exec i s = .next t) (ht : t.fault = false) (hi : i ≠ .srst) :
    admits s.mode i = true ∧ ∃ u, effect i s u ∧ t = retire u := by
  cases exec_executes h with
  | reset hr => exact absurd hr hi
  | fault _ _ _ => cases ht
  | exhausted _ _ _ => exact absurd ((exhaustion_fault i s).symm.trans ht) nofun
  | retired hadm hu => exact ⟨hadm, _, hu, rfl⟩

theorem exec_mode_kept {i : Instr} (h : exec i s = .next t) :
    t.mode = s.mode ∨ i = .efin ∨ i = .dfin ∨ i = .srst ∨ ∃ m, i = .einit m ∨ i = .dinit m := by
  cases exec_executes h with
  | reset hi => exact .inr (.inr (.inr (.inl hi)))
  | fault _ _ _ => exact .inl rfl
  | exhausted _ _ _ =>
    rcases (exhaustion_frame i s).mode with hm | ⟨m, hm⟩
    · exact .inl hm
    · exact .inr (.inr (.inr (.inr ⟨m, .inr hm⟩)))
  | retired _ hu =>
    rcases (effect_frame hu).mode with hm | hm | hm | hm
    · exact .inl hm
    · exact .inr (.inl hm)
    · exact .inr (.inr (.inl hm))
    · exact .inr (.inr (.inr (.inr hm)))

/-- The mode transitions of R19, for the commands that do not fault. -/
theorem exec_mode_transitions (ht : t.fault = false) :
    (∀ m, exec (.einit m) s = .next t → s.mode = .idle ∧ t.mode = .enc) ∧
    (exec .efin s = .next t → s.mode = .enc ∧ t.mode = .idle) ∧
    (∀ m, exec (.dinit m) s = .next t → s.mode = .idle ∧ t.mode = .dec) ∧
    (exec .dfin s = .next t → s.mode = .dec ∧ t.mode = .idle) := by
  refine ⟨fun m h => ?_, fun h => ?_, fun m h => ?_, fun h => ?_⟩ <;>
    obtain ⟨hadm, u, hu, rfl⟩ := exec_noFault h ht nofun <;> refine ⟨of_decide_eq_true hadm, ?_⟩
  · exact hu ▸ rfl
  · exact hu ▸ rfl
  · have hmode : u.mode = (openDecoder (if m then resetBank s else s)).mode := by rw [primeCode_onlyDecoder 16 hu]
    exact hmode
  · exact hu ▸ rfl

theorem step_reset_mode {rest : List HostAction} (ha : s.host = .resetLine :: rest ∨ s.host = .powerOn :: rest)
    (h : step s = .next t) : t.mode = .idle := by
  rcases ha with ha | ha <;> simp only [step, ha, hostStep] at h <;> cases h <;> rfl

/-- Settles O31: the mode checks come first, and the four ways a command ends say the rest. -/
theorem modesAdmitCommands : Obligations.ModesAdmitCommands := by
  refine ⟨fun i s h => exec_refused h, fun i s t hf hadm h ht => exec_admitted_not_modeFault hf hadm h ht,
    fun s t _ ht => ?_, fun i s t h => exec_mode_kept h, fun s t rest ha h => step_reset_mode ha h⟩
  obtain ⟨heinit, hefin, hdinit, hdfin⟩ := exec_mode_transitions (s := s) ht
  refine ⟨heinit, hefin, hdinit, hdfin, fun h => ?_⟩
  cases h
  rfl

end Sys2Proof.Machine
end

