-- ==== Sys2Proof/Proofs/ConfigFaults.lean ====
section
/-! PROOF. The configuration faults of the block commands, in their order (43_bitplane.md R131, R137, R140;
44_transform.md R150). -/

open Sys2Proof.Claims

namespace Sys2Proof.Machine

variable {s : State}

/-! The checks, in the words of the statements. -/

theorem lengthsLegal_iff : lengthsLegal s ↔ badLength s.par.maxLen (currentBlock s).len = false := by
  rw [badLength_eq_false_iff, lengthsLegal, forall_axis, forall_axis]
  rfl

theorem transformLengthsLegal_iff :
    transformLengthsLegal s ↔ badLength Config.maxTransformLen (transformLen s) = false := by
  rw [badLength_eq_false_iff, transformLengthsLegal, forall_axis, forall_axis]
  rfl

theorem blockCheck_of_not_lengthsLegal (h : ¬lengthsLegal s) (w : Word) : blockCheck w s = some (.cfg, 1#32) := by
  rw [lengthsLegal_iff, Bool.not_eq_false] at h
  exact if_pos h

theorem blockCheck_of_overflow (h : lengthsLegal s) (ho : s.par.blkCap < s.blkBase.toNat + nel s) (w : Word) :
    blockCheck w s = some (.ovf, w) := by
  rw [lengthsLegal_iff] at h
  unfold blockCheck
  dsimp only
  rw [if_neg (by simp [h])]
  exact if_pos ho

theorem blockCheck_of_blockLegal (h : blockLegal s) (w : Word) : blockCheck w s = none :=
  (blockCheck_eq_none_iff w s).mpr ⟨(badLength_eq_false_iff _ _).mp (lengthsLegal_iff.mp h.1), h.2⟩

/-! The walker. -/

/-- The checks of `ENBLK` or `DEBLK` after the mode's. -/
def walkerCheck : Instr → State → Option (FaultCode × Word)
  | .enblk c h, s => enblkCheck (encode (.enblk c h)) s
  | .deblk h, s => deblkCheck h (encode (.deblk h)) s
  | _, _ => none

/-- The checks of the planes that come after `BlockCheck`. -/
def walkerPlaneCheck : Instr → State → Option (FaultCode × Word)
  | .deblk h, s => planeCheckDec h s
  | _, s => planeCheck s

/-- `ENBLK` or `DEBLK`. -/
def isWalker (i : Instr) : Prop := (∃ c h, i = .enblk c h) ∨ ∃ h, i = .deblk h

theorem exec_of_walkerCheck {i : Instr} (hadm : admits s.mode i = true) {e : FaultCode} {info : Word}
    (hc : walkerCheck i s = some (e, info)) : exec i s = .next (faulted s e.code info) := by
  cases i with
  | enblk c h =>
    simp only [exec, execEnblk, if_neg (costOnly_admitted.mp hadm)]
    simp only [walkerCheck] at hc
    rw [hc]
    rfl
  | deblk h =>
    simp only [exec, execDeblk, if_neg (not_not_intro (of_decide_eq_true hadm : s.mode = .dec))]
    simp only [walkerCheck] at hc
    rw [hc]
    rfl
  | _ => cases hc

theorem walkerCheck_of_blockCheck {i : Instr} (hi : isWalker i) {f : FaultCode × Word}
    (hc : blockCheck (encode i) s = some f) : walkerCheck i s = some f := by
  rcases hi with ⟨c, h, rfl⟩ | ⟨h, rfl⟩
  · simp only [walkerCheck, enblkCheck, hc]
  · simp only [walkerCheck, deblkCheck, hc]

theorem walkerCheck_of_planeCheck {i : Instr} (hi : isWalker i) (hb : blockLegal s) {f : FaultCode × Word}
    (hc : walkerPlaneCheck i s = some f) : walkerCheck i s = some f := by
  have hnone := blockCheck_of_blockLegal hb (encode i)
  rcases hi with ⟨c, h, rfl⟩ | ⟨h, rfl⟩
  · simp only [walkerPlaneCheck] at hc
    simp only [walkerCheck, enblkCheck, hnone, hc]
  · simp only [walkerPlaneCheck] at hc
    simp only [walkerCheck, deblkCheck, hnone, hc]

theorem walkerPlaneCheck_sup {i : Instr} (hi : isWalker i) (h : 30 < s.sup.toNat) :
    walkerPlaneCheck i s = some (.cfg, 4#32) := by
  rcases hi with ⟨c, hd, rfl⟩ | ⟨hd, rfl⟩ <;> exact if_pos h

theorem walkerPlaneCheck_inf {i : Instr} (hi : isWalker i) (hs : s.sup.toNat ≤ 30) (h : s.sup.toNat < s.inf.toNat)
    (hne : i ≠ .deblk true) : walkerPlaneCheck i s = some (.cfg, 5#32) := by
  rcases hi with ⟨c, hd, rfl⟩ | ⟨hd, rfl⟩
  · exact (if_neg (Nat.not_lt.mpr hs)).trans (if_pos h)
  · have hfalse : hd = false := Bool.eq_false_iff.mpr fun e => hne (e ▸ rfl)
    exact (if_neg (Nat.not_lt.mpr hs)).trans (if_pos ⟨hfalse, h⟩)

/-- The word `ENBLK` reports is the first of the block that is out of range (43_bitplane.md R137). -/
theorem firstOutOfRange_eq {a : Nat} (ha : inBlock s a) (hbig : 2 ^ (s.sup.toNat + 1) ≤ (memRead s a).natAbs)
    (hfirst : ∀ b, inBlock s b → b < a → (memRead s b).natAbs < 2 ^ (s.sup.toNat + 1)) :
    firstOutOfRange (currentBlock s) s.sup.toNat s = some a := by
  obtain ⟨hbase, hend⟩ := ha
  have hfind : (List.range (currentBlock s).len.product).find?
      (fun i => decide (2 ^ (s.sup.toNat + 1) ≤ (memRead s ((currentBlock s).base + i)).natAbs)) =
        some (a - s.blkBase.toNat) := by
    rw [List.find?_range_eq_some]
    refine ⟨?_, List.mem_range.mpr ?_, fun j hj => ?_⟩
    · rw [decide_eq_true_eq, show (currentBlock s).base + (a - s.blkBase.toNat) = a from Nat.add_sub_cancel' hbase]
      exact hbig
    · exact Nat.sub_lt_left_of_lt_add hbase hend
    · have hlt : s.blkBase.toNat + j < a := by omega
      rw [Bool.not_eq_true', decide_eq_false_iff_not, Nat.not_le]
      exact hfirst (s.blkBase.toNat + j) ⟨Nat.le_add_right .., hlt.trans hend⟩ hlt
  unfold firstOutOfRange
  rw [hfind, Option.map_some]
  exact congrArg some (Nat.add_sub_cancel' hbase)

theorem enblkCheck_of_outOfRange (hb : blockLegal s) (hs : s.sup.toNat ≤ 30) (hi : s.inf.toNat ≤ s.sup.toNat)
    {a : Nat} (ha : firstOutOfRange (currentBlock s) s.sup.toNat s = some a) (w : Word) :
    enblkCheck w s = some (.range, BitVec.ofNat 32 a) := by
  have hplane : planeCheck s = none := (if_neg (Nat.not_lt.mpr hs)).trans (if_neg (Nat.not_lt.mpr hi))
  simp only [enblkCheck, blockCheck_of_blockLegal hb, hplane, ha]

/-- Settles O41: each premise decides the first check that fails. -/
theorem walkerConfigFaults : Obligations.WalkerConfigFaults := by
  intro s i hi hadm
  refine ⟨fun h => ?_, fun h ho => ?_, fun hb h => ?_, fun hb hs h hne => ?_, ?_⟩
  · exact exec_of_walkerCheck hadm (walkerCheck_of_blockCheck hi (blockCheck_of_not_lengthsLegal h _))
  · exact exec_of_walkerCheck hadm (walkerCheck_of_blockCheck hi (blockCheck_of_overflow h ho _))
  · exact exec_of_walkerCheck hadm (walkerCheck_of_planeCheck hi hb (walkerPlaneCheck_sup hi h))
  · exact exec_of_walkerCheck hadm (walkerCheck_of_planeCheck hi hb (walkerPlaneCheck_inf hi hs h hne))
  · rintro hb hs hinf ⟨c, h, rfl⟩ a ha hbig hfirst
    exact exec_of_walkerCheck hadm (enblkCheck_of_outOfRange hb hs hinf (firstOutOfRange_eq ha hbig hfirst) _)

/-! The transform. -/

theorem exec_of_txCheck {i : Instr} (hi : i = .tfwd ∨ i = .tinv) {e : FaultCode} {info : Word}
    (hc : txCheck (encode i) s = some (e, info)) : exec i s = .next (faulted s e.code info) := by
  rcases hi with rfl | rfl
  · simp only [exec, execTfwd, hc]
    rfl
  · simp only [exec, execTinv, hc]
    rfl

theorem txCheck_of_blockCheck {w : Word} {f : FaultCode × Word} (hc : blockCheck w s = some f) :
    txCheck w s = some f := by
  simp only [txCheck, hc]

theorem txCheck_of_not_transformLengthsLegal (hb : blockLegal s) (h : ¬transformLengthsLegal s) (w : Word) :
    txCheck w s = some (.cfg, 2#32) := by
  rw [transformLengthsLegal_iff, Bool.not_eq_false] at h
  simp only [txCheck, blockCheck_of_blockLegal hb, h, if_true]

theorem anyAxis_eq_true_iff (p : Axis → Bool) : allAxes.any p = true ↔ ∃ a, p a = true := by
  simp [List.any_eq_true, mem_allAxes]

theorem transformLen_get (a : Axis) : (transformLen s).get a = (s.tlen.get a).toNat := by cases a <;> rfl

theorem currentBlock_len_get (a : Axis) : (currentBlock s).len.get a = (s.blkLen.get a).toNat := by cases a <;> rfl

theorem txCheck_of_long (hb : blockLegal s) (ht : transformLengthsLegal s)
    (h : ∃ a, (s.tlen.get a).toNat < (s.blkLen.get a).toNat) (w : Word) : txCheck w s = some (.cfg, 3#32) := by
  have hlong : (allAxes.any fun a => decide ((transformLen s).get a < (currentBlock s).len.get a)) = true := by
    simpa only [anyAxis_eq_true_iff, decide_eq_true_eq, transformLen_get, currentBlock_len_get] using h
  simp only [txCheck, blockCheck_of_blockLegal hb, transformLengthsLegal_iff.mp ht, hlong, if_true,
    Bool.false_eq_true, if_false]

theorem txCheck_of_zeroWeight (hb : blockLegal s) (ht : transformLengthsLegal s)
    (hle : ∀ a, (s.blkLen.get a).toNat ≤ (s.tlen.get a).toNat)
    (h : ∃ a, weight s a (s.blkLen.get a).toNat = 0) (w : Word) : txCheck w s = some (.cfg, 6#32) := by
  have hlong : (allAxes.any fun a => decide ((transformLen s).get a < (currentBlock s).len.get a)) = false := by
    simpa only [← Bool.not_eq_true, anyAxis_eq_true_iff, decide_eq_true_eq, transformLen_get, currentBlock_len_get,
      not_exists, Nat.not_lt] using hle
  have hzero : (allAxes.any fun a => decide (weight s a ((currentBlock s).len.get a) = 0)) = true := by
    simpa only [anyAxis_eq_true_iff, decide_eq_true_eq, currentBlock_len_get] using h
  simp only [txCheck, blockCheck_of_blockLegal hb, transformLengthsLegal_iff.mp ht, hlong, hzero, if_true,
    Bool.false_eq_true, if_false]

/-- Settles O45: each premise decides the first check of `TxCheck` that fails. -/
theorem transformConfigFaults : Obligations.TransformConfigFaults := by
  intro s i hi
  refine ⟨fun h => ?_, fun h ho => ?_, fun hb h => ?_, fun hb ht h => ?_, fun hb ht hle h => ?_⟩
  · exact exec_of_txCheck hi (txCheck_of_blockCheck (blockCheck_of_not_lengthsLegal h _))
  · exact exec_of_txCheck hi (txCheck_of_blockCheck (blockCheck_of_overflow h ho _))
  · exact exec_of_txCheck hi (txCheck_of_not_transformLengthsLegal hb h _)
  · exact exec_of_txCheck hi (txCheck_of_long hb ht h _)
  · exact exec_of_txCheck hi (txCheck_of_zeroWeight hb ht hle h _)

end Sys2Proof.Machine
end

