-- ==== Sys2Proof/Laws/Access.lean ====
section
/-! SUPPORT. What a bus access of the host does, register by register (20_memory.md R52, R53). -/

open Sys2Proof.Claims

namespace Sys2Proof.Machine

variable {s t : State}

theorem step_of_host {a : HostAction} {rest : List HostAction} (h : s.host = a :: rest) :
    step s = hostStep a { s with host := rest } := by
  simp only [step, h]

theorem step_withAction (s : State) (a : HostAction) (rest : List HostAction) :
    step (withAction s a rest) = hostStep a { s with host := rest } := rfl

theorem busRead_of_regAt {off : Nat} {r : Reg} (hr : regAt off = some r) (hin : outsideBmem r s = false) :
    busRead 32 off s = .next (answer (.data (regValue s r)) (readEffect r s)) := by
  simp only [busRead, accessed, if_true, hr, hin, Bool.false_eq_true, if_false]

theorem busWrite_of_regAt {off : Nat} {r : Reg} (hr : regAt off = some r) (hcmd : r ≠ .cmd)
    (hin : outsideBmem r s = false) (v : Word) :
    busWrite 32 off v s = .next (answer .done (writeEffect r v s)) := by
  simp only [busWrite, accessed, if_true, hr, hcmd, hin, Bool.false_eq_true, if_false]

theorem outsideBmem_of_ne {r : Reg} (h : r ≠ .bmData) (s : State) : outsideBmem r s = false := by
  simp [outsideBmem, h]

/-- A host access of `BM_DATA` inside `BMEM` reaches its word (10_state.md R42). -/
theorem outsideBmem_of_lt (h : s.bmAddr.toNat < s.par.blkCap) (r : Reg) : outsideBmem r s = false := by
  simp [outsideBmem, h]

/-- A register's word does not depend on the host's program and the last answer. -/
theorem regValue_host_resp (s : State) (rest : List HostAction) (resp : HostResp) (r : Reg) :
    regValue { s with host := rest, resp := resp } r = regValue s r := by
  cases r <;> rfl

/-- The step of a host read of a register but `BM_DATA`: it changes nothing of J4D (20_memory.md R61). -/
theorem step_read {off : Nat} {r : Reg} (hr : regAt off = some r) (hne : r ≠ .bmData) (s : State)
    (rest : List HostAction) :
    step (withAction s (.read 32 off) rest) = .next { s with host := rest, resp := .data (regValue s r) } := by
  rw [step_withAction, hostStep, busRead_of_regAt hr (outsideBmem_of_ne hne _), readEffect, if_neg hne]
  exact congrArg (fun w => Host.Outcome.next { s with host := rest, resp := .data w })
    (regValue_host_resp s rest s.resp r)

/-- The step of a host write of a register but `CMD` and `BM_DATA`. -/
theorem step_write {off : Nat} {r : Reg} (hr : regAt off = some r) (hcmd : r ≠ .cmd) (hne : r ≠ .bmData) (s : State)
    (rest : List HostAction) (v : Word) :
    step (withAction s (.write 32 off v) rest) =
      .next (answer .done (writeEffect r v { s with host := rest })) := by
  rw [step_withAction, hostStep, busWrite_of_regAt hr hcmd (outsideBmem_of_ne hne _)]

/-! Words as numbers. -/

theorem append_toNat {m n : Nat} (x : BitVec m) (y : BitVec n) : (x ++ y).toNat = x.toNat * 2 ^ n + y.toNat := by
  rw [BitVec.toNat_append, ← Nat.shiftLeft_add_eq_or_of_lt y.isLt, Nat.shiftLeft_eq]

theorem word_eq_ofNat {w : Word} {n : Nat} (h : w.toNat = n) : w = BitVec.ofNat 32 n := by
  rw [← h, BitVec.ofNat_toNat, BitVec.setWidth_eq]

theorem setWidth_eq_ofNat {m n : Nat} (x : BitVec m) : x.setWidth n = BitVec.ofNat n x.toNat := by
  exact (BitVec.ofNat_toNat n x).symm

end Sys2Proof.Machine
end

