-- ==== Sys2Proof/Proofs/RegisterBlock.lean ====
section
/-! PROOF. The register block: reads, bus errors, the window into block memory, writes of the configuration
(10_state.md section 3; 20_memory.md R52, R53). -/

open Sys2Proof.Claims

namespace Sys2Proof.Machine

variable {s t : State}

/-! Reads. -/

theorem mul_bit (n : Nat) (b : Bool) : n * bit b = if b then n else 0 := by
  cases b <;> simp [bit]

theorem statusWord_eq (s : State) : statusWord s = BitVec.ofNat 32
    ((match s.mode with | .idle => 0 | .enc => 1 | .dec => 2) + (if s.fault then 4 else 0) +
      (if s.inp.length ≤ s.cur then 8 else 0) + (if s.tsat then 16 else 0)) := by
  simp only [statusWord, mul_bit, eod, decide_eq_true_eq]
  cases s.mode <;> rfl

theorem sum_range_map (f : Nat → Nat) (n : Nat) : ((List.range n).map f).sum = ∑ k ∈ Finset.range n, f k := rfl

theorem slotvWord_eq (s : State) : slotvWord s =
    BitVec.ofNat 32 (∑ k ∈ Finset.range 16, if (s.slots.getD k none).isSome then 2 ^ k else 0) := by
  simp only [slotvWord, sum_range_map, Nat.mul_comm (bit _), mul_bit, slotValid]

theorem slotvSum_lt (s : State) :
    (∑ k ∈ Finset.range 16, if (s.slots.getD k none).isSome then 2 ^ k else 0) < 2 ^ 32 := by
  have hle : (∑ k ∈ Finset.range 16, if (s.slots.getD k none).isSome then 2 ^ k else 0) ≤
      ∑ k ∈ Finset.range 16, 2 ^ k := Finset.sum_le_sum fun k _ => by split <;> simp
  exact hle.trans_lt (by decide)

theorem peekWord_eq (s : State) : peekWord s =
    BitVec.ofNat 32 (match s.inp[s.cur]? with | some b => b.toNat | none => 0x100) := by
  unfold peekWord
  cases s.inp[s.cur]? with
  | some b => exact setWidth_eq_ofNat b
  | none => rfl

theorem acBits_toNat (s : State) : (regValue s .acBits).toNat =
    s.bb.toNat + s.bbn.toNat * 2 ^ 8 + s.db.toNat * 2 ^ 16 + s.dbn.toNat * 2 ^ 24 := by
  simp only [regValue, append_toNat, BitVec.toNat_ofNat]
  omega

theorem bplane_toNat (s : State) : (regValue s .bplane).toNat = s.sup.toNat + s.inf.toNat * 2 ^ 8 := by
  simp only [regValue, append_toNat, BitVec.toNat_ofNat]
  omega

theorem mval_toNat (s : State) : (regValue s .mval).toNat =
    (bankGet s s.midx.toNat).t.toNat * 2 ^ 16 + (bankGet s s.midx.toNat).z.toNat := by
  simp only [regValue, append_toNat, BitVec.toNat_ofNat]
  omega

theorem rateHi_toNat (s : State) : (regValue s .rateHi).toNat = s.rateAcc.toNat / 2 ^ 32 := by
  have := s.rateAcc.isLt
  rw [regValue, BitVec.extractLsb'_toNat, Nat.shiftRight_eq_div_pow]
  omega

/-- The entry says what the register at its offset reads as. -/
def readsAs (s : State) (p : Nat × Nat) : Prop :=
  p.2 < 2 ^ 32 ∧ ∃ r, regAt p.1 = some r ∧ r ≠ .bmData ∧ regValue s r = BitVec.ofNat 32 p.2

theorem readsAs_of {off v : Nat} (r : Reg) (hr : regAt off = some r) (hne : r ≠ .bmData) (hlt : v < 2 ^ 32)
    (hv : regValue s r = BitVec.ofNat 32 v) : readsAs s (off, v) := ⟨hlt, r, hr, hne, hv⟩

theorem readsAs_narrow {off m : Nat} {x : BitVec m} (r : Reg) (hr : regAt off = some r) (hne : r ≠ .bmData)
    (hm : m ≤ 32) (hv : regValue s r = x.setWidth 32) : readsAs s (off, x.toNat) :=
  readsAs_of r hr hne (x.isLt.trans_le (Nat.pow_le_pow_right (by decide) hm)) (hv.trans (setWidth_eq_ofNat x))

theorem readsAs_word {off : Nat} {x : Word} (r : Reg) (hr : regAt off = some r) (hne : r ≠ .bmData)
    (hv : regValue s r = x) : readsAs s (off, x.toNat) :=
  readsAs_of r hr hne x.isLt (hv.trans (word_eq_ofNat rfl))

theorem packBytes_toNat (x : Axes (BitVec 7)) :
    (packBytes x).toNat = x.t.toNat * 2 ^ 24 + x.s.toNat * 2 ^ 16 + x.v.toNat * 2 ^ 8 + x.u.toNat := by
  have := x.t.isLt
  have := x.s.isLt
  have := x.v.isLt
  have := x.u.isLt
  rw [packBytes, BitVec.toNat_ofNat]
  omega

theorem readsAs_value {off v : Nat} (r : Reg) (hr : regAt off = some r) (hne : r ≠ .bmData)
    (hv : (regValue s r).toNat = v) : readsAs s (off, v) :=
  readsAs_of r hr hne (hv ▸ (regValue s r).isLt) (word_eq_ofNat hv)

theorem registerWords_readsAs (s : State) : ∀ p ∈ registerWords s, readsAs s p := by
  simp only [registerWords, List.forall_mem_append, List.forall_mem_cons]
  refine ⟨⟨⟨?_, ?_, ?_, ?_, ?_, ?_, ?_, ?_, ?_, ?_, ?_, ?_, ?_, ?_, ?_, List.forall_mem_nil _⟩,
    ⟨?_, ?_, ?_, ?_, ?_, ?_, ?_, ?_, ?_, ?_, ?_, List.forall_mem_nil _⟩⟩,
    ⟨?_, ?_, ?_, ?_, ?_, ?_, ?_, List.forall_mem_nil _⟩⟩
  · exact readsAs_value .id rfl nofun rfl
  · exact readsAs_value .cmd rfl nofun rfl
  · refine readsAs_of .status rfl nofun ?_ (statusWord_eq s)
    cases s.mode <;> dsimp only <;> split_ifs <;> omega
  · exact readsAs_narrow .err rfl nofun (by decide) rfl
  · exact readsAs_word .errInfo rfl nofun rfl
  · exact readsAs_word .cmdCnt rfl nofun rfl
  · exact readsAs_word .result rfl nofun rfl
  · exact readsAs_word .rateOut rfl nofun rfl
  · exact readsAs_value .rateLo rfl nofun (by simp [regValue])
  · exact readsAs_value .rateHi rfl nofun (rateHi_toNat s)
  · exact readsAs_narrow .acLow rfl nofun (by decide) rfl
  · exact readsAs_narrow .acHigh rfl nofun (by decide) rfl
  · exact readsAs_word .acPend rfl nofun rfl
  · exact readsAs_narrow .acCode rfl nofun (by decide) rfl
  · exact readsAs_value .acBits rfl nofun (acBits_toNat s)
  · exact readsAs_value .bplane rfl nofun (bplane_toNat s)
  · exact readsAs_word .blkBase rfl nofun rfl
  · exact readsAs_value .blkLen rfl nofun (packBytes_toNat s.blkLen)
  · exact readsAs_value .tlen rfl nofun (packBytes_toNat s.tlen)
  · exact readsAs_narrow (.gain .t) rfl nofun (by decide) rfl
  · exact readsAs_narrow (.gain .s) rfl nofun (by decide) rfl
  · exact readsAs_narrow (.gain .v) rfl nofun (by decide) rfl
  · exact readsAs_narrow (.gain .u) rfl nofun (by decide) rfl
  · exact readsAs_narrow .midx rfl nofun (by decide) rfl
  · exact readsAs_value .mval rfl nofun (mval_toNat s)
  · exact readsAs_narrow .bmAddr rfl nofun (by decide) rfl
  · exact readsAs_value .csCur rfl nofun (BitVec.toNat_ofNat ..)
  · exact readsAs_value .csLen rfl nofun (BitVec.toNat_ofNat ..)
  · refine readsAs_of .csPeek rfl nofun ?_ (peekWord_eq s)
    cases s.inp[s.cur]? with
    | some b => exact b.isLt.trans (by decide)
    | none => decide
  · exact readsAs_word .outCnt rfl nofun rfl
  · exact readsAs_word .tcFills rfl nofun rfl
  · exact readsAs_word .gcFills rfl nofun rfl
  · exact readsAs_of .slotv rfl nofun (slotvSum_lt s) (slotvWord_eq s)

theorem registerWords_offsets (s : State) :
    (registerWords s).map Prod.fst = registerOffsets.filter (· ≠ 0x6C) := by
  simp only [registerWords, List.map_append, List.map_cons, List.map_nil]
  decide

/-- Settles O52: each entry of `registerWords` is what its register reads as. -/
theorem registerReads : Obligations.RegisterReads := by
  refine ⟨fun s off v hp rest resp => ?_, fun s => ⟨registerWords_offsets s, fun p hp => ?_⟩⟩
  · obtain ⟨-, r, hr, hne, hv⟩ := registerWords_readsAs s _ hp
    rw [step_read hr hne, ← hv]
    exact congrArg (fun w => Host.Outcome.next { s with host := rest, resp := .data w })
      (regValue_host_resp s s.host resp r)
  · exact (registerWords_readsAs s p hp).1

/-! Bus errors. -/

/-- The 34 registers stand at the aligned offsets below `0x8C` but `0x3C` (10_state.md R49). -/
theorem regAt_isSome_iff (off : Nat) : (regAt off).isSome = true ↔ off % 4 = 0 ∧ off ≠ 0x3C ∧ off < 0x8C := by
  constructor
  · intro h
    by_contra hno
    unfold regAt at h
    split at h
    all_goals first | omega | cases h
  · rintro ⟨h4, hne, hlt⟩
    obtain ⟨k, rfl⟩ := Nat.dvd_of_mod_eq_zero h4
    have hk : k < 35 := by omega
    interval_cases k <;> first | rfl | omega

theorem accessed_eq_none {bits off : Nat} (h : bits ≠ 32 ∨ off % 4 ≠ 0 ∨ off = 0x3C ∨ 0x8C ≤ off) :
    accessed bits off = none := by
  unfold accessed
  split
  · rw [← Option.not_isSome_iff_eq_none, regAt_isSome_iff]
    omega
  · rfl

/-- Settles O53: such an access reaches no register, and every other offset is one of the 34. -/
theorem busErrors : Obligations.BusErrors := by
  refine ⟨fun s bits off v rest h => ⟨fun ha => ?_, fun ha => ?_⟩, fun off h4 hne hlt => ?_⟩
  · rw [step_of_host ha, hostStep, busRead, accessed_eq_none h]
    rfl
  · rw [step_of_host ha, hostStep, busWrite, accessed_eq_none h]
    rfl
  · exact Option.isSome_iff_exists.mp ((regAt_isSome_iff off).mpr ⟨h4, hne, hlt⟩)

/-! The window into block memory. -/

/-- Settles O55: the access is inside `BMEM`, and a read after the write is `Memory.read_write`. -/
theorem blockWindow : Obligations.BlockWindow := by
  intro s rest h
  refine ⟨fun ha => ?_, fun v ha => ⟨s.mem.write s.bmAddr.toNat v, ?_, fun hwf a => ?_⟩⟩
  · rw [step_of_host ha, hostStep,
      busRead_of_regAt (s := { s with host := rest }) (r := .bmData) rfl (outsideBmem_of_lt h _), readEffect,
      if_pos rfl]
    rfl
  · rw [step_of_host ha, hostStep,
      busWrite_of_regAt (s := { s with host := rest }) (r := .bmData) rfl nofun (outsideBmem_of_lt h _)]
    rfl
  · exact s.mem.read_write hwf _ a v

/-! Writes of the configuration. -/

theorem packBytes_eq_append (x : Axes (BitVec 7)) :
    packBytes x = 0#1 ++ x.t ++ 0#1 ++ x.s ++ 0#1 ++ x.v ++ 0#1 ++ x.u := by
  apply BitVec.eq_of_toNat_eq
  rw [packBytes_toNat]
  simp only [append_toNat, BitVec.toNat_ofNat]
  omega

theorem lengths_readBack (v : Word) : packBytes (unpackBytes v) = v &&& 0x7F7F7F7F#32 := by
  rw [packBytes_eq_append, unpackBytes]
  apply BitVec.eq_of_getLsbD_eq
  intro i hi
  simp only [BitVec.getLsbD_append, BitVec.getLsbD_extractLsb', BitVec.getLsbD_and]
  interval_cases i <;> simp

theorem bplane_readBack (v : Word) :
    0#19 ++ v.extractLsb' 8 5 ++ 0#3 ++ v.extractLsb' 0 5 = v &&& 0x00001F1F#32 := by
  apply BitVec.eq_of_getLsbD_eq
  intro i hi
  simp only [BitVec.getLsbD_append, BitVec.getLsbD_extractLsb', BitVec.getLsbD_and]
  interval_cases i <;> simp

theorem gain_readBack (v : Word) : (v.extractLsb' 0 24).setWidth 32 = v &&& 0x00FFFFFF#32 := by
  ext i hi
  interval_cases i <;> simp

theorem midx_readBack (v : Word) : (v.extractLsb' 0 8).setWidth 32 = v &&& 0x000000FF#32 := by
  ext i hi
  interval_cases i <;> simp

theorem regValue_answer (resp : HostResp) (s : State) (r : Reg) : regValue (answer resp s) r = regValue s r := by
  cases r <;> rfl

/-- A read after a write of the same register answers what the write left in it. -/
theorem write_then_read {off : Nat} {r : Reg} (hr : regAt off = some r) (hcmd : r ≠ .cmd) (hne : r ≠ .bmData)
    {rest later : List HostAction} {v w : Word}
    (hw : regValue (writeEffect r v { s with host := rest }) r = w)
    (h : step (withAction s (.write 32 off v) rest) = .next t) :
    step (withAction t (.read 32 off) later) = .next { t with host := later, resp := .data w } := by
  rw [step_write hr hcmd hne] at h
  cases h
  rw [step_read hr hne, regValue_answer, hw]

/-- A configuration register keeps the bits `configBits` names of a written word (10_state.md R34 to R38). -/
theorem configBits_readBack (v : Word) : ∀ p ∈ configBits,
    ∃ r, regAt p.1 = some r ∧ r ≠ .cmd ∧ r ≠ .bmData ∧ ∀ s, regValue (writeEffect r v s) r = v &&& p.2 := by
  simp only [configBits, List.forall_mem_cons]
  refine ⟨?_, ?_, ?_, ?_, ?_, ?_, ?_, ?_, List.forall_mem_nil _⟩
  · exact ⟨.bplane, rfl, nofun, nofun, fun _ => bplane_readBack v⟩
  · exact ⟨.blkBase, rfl, nofun, nofun, fun _ => BitVec.and_allOnes.symm⟩
  · exact ⟨.blkLen, rfl, nofun, nofun, fun _ => lengths_readBack v⟩
  · exact ⟨.tlen, rfl, nofun, nofun, fun _ => lengths_readBack v⟩
  · exact ⟨.gain .t, rfl, nofun, nofun, fun _ => gain_readBack v⟩
  · exact ⟨.gain .s, rfl, nofun, nofun, fun _ => gain_readBack v⟩
  · exact ⟨.gain .v, rfl, nofun, nofun, fun _ => gain_readBack v⟩
  · exact ⟨.gain .u, rfl, nofun, nofun, fun _ => gain_readBack v⟩

theorem writeEffect_midx_value {v : Word} (hv : v.toNat % 256 < 161) (s : State) :
    regValue (writeEffect .midx v s) .midx = v &&& 0x000000FF#32 := by
  rw [writeEffect, if_pos hv]
  exact midx_readBack v

theorem writeEffect_bmAddr_value (h : s.par.ok) (v : Word) :
    regValue (writeEffect .bmAddr v s) .bmAddr = BitVec.ofNat 32 (v.toNat % s.par.blkCap) := by
  simp only [regValue, writeEffect, setWidth_eq_ofNat, bmAddr_mod_toNat h]

/-- Settles O56: the writes one by one, then the reads by `write_then_read`. -/
theorem configWriteThenRead : Obligations.ConfigWriteThenRead := by
  intro s v rest
  refine ⟨?_, ?_, ?_, ?_, ?_, ?_, ?_, ?_, fun t later => ⟨fun p hp hw => ?_, fun hv hw => ?_, fun hpar hw => ?_⟩⟩
  · refine (step_write (r := .status) rfl nofun nofun s rest v).trans ?_
    rw [writeEffect]
    split <;> rfl
  · exact step_write (r := .bplane) rfl nofun nofun s rest v
  · exact step_write (r := .blkBase) rfl nofun nofun s rest v
  · exact step_write (r := .blkLen) rfl nofun nofun s rest v
  · exact step_write (r := .tlen) rfl nofun nofun s rest v
  · simp only [List.forall_mem_cons]
    exact ⟨step_write (r := .gain .t) rfl nofun nofun s rest v, step_write (r := .gain .s) rfl nofun nofun s rest v,
      step_write (r := .gain .v) rfl nofun nofun s rest v, step_write (r := .gain .u) rfl nofun nofun s rest v,
      List.forall_mem_nil _⟩
  · refine (step_write (r := .midx) rfl nofun nofun s rest v).trans ?_
    rw [writeEffect]
    split <;> rfl
  · exact step_write (r := .bmAddr) rfl nofun nofun s rest v
  · obtain ⟨r, hr, hcmd, hne, hback⟩ := configBits_readBack v p hp
    exact write_then_read hr hcmd hne (hback _) hw
  · exact write_then_read (r := .midx) rfl nofun nofun (writeEffect_midx_value hv _) hw
  · exact write_then_read (r := .bmAddr) rfl nofun nofun
      (writeEffect_bmAddr_value (s := { s with host := rest }) hpar v) hw

end Sys2Proof.Machine
end

