-- ==== Sys2Proof/Proofs/StepAndReset.lean ====
section
/-! PROOF. The step on a `CMD` write, the resets, and `MUPD` (10_state.md R20, R22, R48; 40_model_bank.md R99). -/

open Sys2Proof.Claims

namespace Sys2Proof.Machine

variable {s t : State}

/-- A write of `CMD` is the command step (10_state.md R22). -/
theorem step_cmdWrite {w : Word} {rest : List HostAction} (h : s.host = .write 32 4 w :: rest) :
    step s = cmdWrite w { s with host := rest, resp := .done } := step_of_host h

/-- The command step runs a legal word's command where `FAULT = 0` (45_system_codestream.md R176). -/
theorem cmdWrite_of_decode {w : Word} {i : Instr} (hf : s.fault = false) (hi : decode w = .ok i) :
    cmdWrite w s = exec i s := by
  simp only [cmdWrite, hf, hi, Bool.false_eq_true, if_false]

/-- Settles O6: a `CMD` write is the command step, which runs what it decodes. -/
theorem stepRunsCommand : Obligations.StepRunsCommand := by
  refine ⟨fun s w i rest ha hf hi => ?_, fun s w i hf hw hi => ?_, fun s ha => ?_⟩
  · rw [step_cmdWrite ha]
    exact cmdWrite_of_decode hf hi
  · rw [step_cmdWrite (s := s.withFetchWord 32 w) rfl, Nat.mod_eq_of_lt hw]
    exact cmdWrite_of_decode hf hi
  · simp only [step, ha]

/-! Reset. -/

theorem reset_bankGet {c : Nat} (hc : c < 161) : bankGet State.reset c = Model.fresh := by
  have hget : State.reset.bank.getD c Model.fresh = (Vector.replicate Config.nctx Model.fresh)[c] := by
    simp [State.reset, Bank.fresh, Vector.getD, hc]
  exact hget.trans (Vector.getElem_replicate hc)

theorem reset_slotValid (k : Nat) : slotValid State.reset k = false := by
  rw [slotValid, emptySlots_getD]
  rfl

theorem reset_slotvWord : slotvWord State.reset = 0#32 := by
  simp only [slotvWord, reset_slotValid]
  decide

theorem reset_mval : regValue State.reset .mval = 0x00020001#32 := by
  have hmodel : bankGet State.reset State.reset.midx.toNat = Model.fresh := reset_bankGet (by decide)
  simp only [regValue, hmodel]
  decide

/-- Settles O10, piece by piece. -/
theorem resetState : Obligations.ResetState := by
  refine ⟨rfl, rfl, rfl, rfl, rfl, fun c hc => reset_bankGet hc, reset_slotValid, rfl, rfl, fun a => ?_, rfl, rfl,
    rfl, by decide, by decide, by decide, fun a => ?_, reset_mval, rfl, ?_⟩
  · cases a <;> rfl
  · cases a <;> rfl
  · simp only [List.forall_mem_cons]
    exact ⟨rfl, rfl, rfl, rfl, rfl, rfl, rfl, rfl, rfl, rfl, rfl, rfl, rfl, rfl, rfl, rfl, rfl, rfl, reset_slotvWord,
      List.forall_mem_nil _⟩

/-- Settles O11: the three resets are the same update of the reset state. -/
theorem softResetResult : Obligations.SoftResetResult := by
  refine ⟨fun s => rfl, fun s t rest h => ?_⟩
  cases h
  refine ⟨fun ha => step_of_host ha, fun ha => ⟨{ seed := s.mem.seed + 1, cells := [] }, step_of_host ha, rfl⟩⟩

/-- Settles O58, by the invariants of the reset state. -/
theorem resetSatisfiesInvariants : Obligations.ResetSatisfiesInvariants := ⟨reset_inv, reset_coderInv⟩

/-! `MUPD`. -/

theorem exec_mupd {ctx : BitVec 8} (hc : ctx.toNat < 161) (b : Bool) (s : State) :
    exec (.mupd b ctx) s = .next (retire (update ctx.toNat b s)) := if_neg (Nat.not_le.mpr hc)

/-- The rule of R92 with the count of zeros written once. -/
theorem updateCounts_eq (z t : Nat) (b : Bool) : updateCounts z t b =
    if t + 1 = 4095 then
      (max 1 ((z + (if b then 0 else 1)) / 2),
        max 1 ((z + (if b then 0 else 1)) / 2) + max 1 ((t + 1 - (z + (if b then 0 else 1))) / 2))
    else (z + (if b then 0 else 1), t + 1) := by
  cases b <;> rfl

/-- Settles O13: the new model is `Update`'s, whose counts are R92's and fit their 12 bits. -/
theorem mupdResult : Obligations.MupdResult := by
  intro s b ctx hc hm
  refine ⟨(bankGet s ctx.toNat).update b, exec_mupd hc b s, Model.update_ok hm b, ?_⟩
  obtain ⟨hz, ht⟩ := Model.update_counts hm b
  dsimp only
  rw [hz, ht, updateCounts_eq]
  split
  · rename_i hfull
    exact ⟨rfl, by rw [hfull]⟩
  · exact ⟨rfl, rfl⟩

end Sys2Proof.Machine
end

/-! PROOF. Writes that a register ignores and the host's out-of-band actions (20_memory.md R54, R59). -/

namespace Sys2Proof.Machine

open Sys2Proof.Claims

section HostAccess

variable {s : State}

/-! ### Writes that change nothing (20_memory.md R54) -/

/-- Every offset of `readOnlyOffsets` has a register, and that register ignores what is written to it. -/
theorem readOnlyOffsets_ignored {off : Nat} (h : off ∈ readOnlyOffsets) :
    ∃ r, regAt off = some r ∧ r ≠ .cmd ∧ r ≠ .bmData ∧ ∀ v s, writeEffect r v s = s := by
  simp only [readOnlyOffsets, List.mem_cons, List.not_mem_nil, or_false] at h
  rcases h with rfl | rfl | rfl | rfl | rfl | rfl | rfl | rfl | rfl | rfl | rfl | rfl | rfl | rfl | rfl | rfl | rfl |
    rfl | rfl | rfl | rfl
  all_goals exact ⟨_, rfl, nofun, nofun, fun _ _ => rfl⟩

/-- A field of a masked word is the field of the word where the mask has all its bits. -/
theorem extractLsb'_and_mask {w i n : Nat} (v : BitVec w) {mask : BitVec w}
    (h : mask.extractLsb' i n = BitVec.allOnes n) : (v &&& mask).extractLsb' i n = v.extractLsb' i n := by
  rw [BitVec.extractLsb'_and, h, BitVec.and_allOnes]

theorem and_fullMask (v : Word) : v &&& 0xFFFFFFFF#32 = v := BitVec.and_allOnes

theorem unpackBytes_and_mask (v : Word) : unpackBytes (v &&& 0x7F7F7F7F#32) = unpackBytes v := by
  simp (disch := decide) only [unpackBytes, extractLsb'_and_mask]

theorem writeEffect_gain_and_mask (a : Axis) (v : Word) (s : State) :
    writeEffect (.gain a) v s = writeEffect (.gain a) (v &&& 0x00FFFFFF#32) s := by
  simp (disch := decide) only [writeEffect, extractLsb'_and_mask]

/-- Masking the low bits of a word is the remainder modulo the power of two. -/
theorem and_lowMask_toNat {w : Nat} (v mask : BitVec w) (n : Nat) (h : mask.toNat = 2 ^ n - 1) :
    (v &&& mask).toNat = v.toNat % 2 ^ n := by
  rw [BitVec.toNat_and, h, Nat.and_two_pow_sub_one_eq_mod]

/-- A writable register looks at no bit of the written word outside its mask in `writtenBits`. -/
theorem writtenBits_suffice (v : Word) : ∀ p ∈ writtenBits,
    ∃ r, regAt p.1 = some r ∧ r ≠ .cmd ∧ ∀ s, writeEffect r v s = writeEffect r (v &&& p.2) s := by
  simp only [writtenBits, List.forall_mem_cons]
  refine ⟨?_, ?_, ?_, ?_, ?_, ?_, ?_, ?_, ?_, ?_, ?_, List.forall_mem_nil _⟩
  · exact ⟨.status, rfl, nofun, fun s => by simp [writeEffect]⟩
  · exact ⟨.bplane, rfl, nofun, fun s => by
      simp (disch := decide) only [writeEffect, extractLsb'_and_mask]⟩
  · exact ⟨.blkBase, rfl, nofun, fun s => by rw [and_fullMask]⟩
  · exact ⟨.blkLen, rfl, nofun, fun s => by simp only [writeEffect, unpackBytes_and_mask]⟩
  · exact ⟨.tlen, rfl, nofun, fun s => by simp only [writeEffect, unpackBytes_and_mask]⟩
  · exact ⟨.gain .t, rfl, nofun, writeEffect_gain_and_mask .t v⟩
  · exact ⟨.gain .s, rfl, nofun, writeEffect_gain_and_mask .s v⟩
  · exact ⟨.gain .v, rfl, nofun, writeEffect_gain_and_mask .v v⟩
  · exact ⟨.gain .u, rfl, nofun, writeEffect_gain_and_mask .u v⟩
  · exact ⟨.midx, rfl, nofun, fun s => by
      simp (disch := decide) only [writeEffect, extractLsb'_and_mask, and_lowMask_toNat v 0x000000FF#32 8,
        Nat.reducePow, Nat.mod_mod]⟩
  · exact ⟨.bmData, rfl, nofun, fun s => by rw [and_fullMask]⟩

theorem busWrite_congr {off : Nat} {r : Reg} (hr : regAt off = some r) (hcmd : r ≠ .cmd) {v w : Word}
    (h : writeEffect r v s = writeEffect r w s) : busWrite 32 off v s = busWrite 32 off w s := by
  simp only [busWrite, accessed, if_true, hr, hcmd, if_false, h]

/-- Settles O54: a read-only register ignores the whole word, another register the bits outside its mask, and `BM_ADDR`
what a `BLKCAP` that divides `2^18` takes away anyway. -/
theorem readOnlyWritesIgnored : Obligations.ReadOnlyWritesIgnored := by
  refine ⟨fun s off v rest hoff ha => ?_, fun s off mask v h => ?_, fun s v hdvd => ?_, fun s rest ha => ?_⟩
  · obtain ⟨r, hr, hcmd, hne, hignored⟩ := readOnlyOffsets_ignored hoff
    rw [step_of_host ha, hostStep, busWrite_of_regAt hr hcmd (outsideBmem_of_ne hne _), hignored]
    rfl
  · obtain ⟨r, hr, hcmd, hsame⟩ := writtenBits_suffice v _ h
    exact busWrite_congr hr hcmd (hsame s)
  · refine busWrite_congr (r := .bmAddr) rfl nofun ?_
    simp only [writeEffect, and_lowMask_toNat v 0x0003FFFF#32 18 (by decide), Nat.mod_mod_of_dvd _ hdvd]
  · rw [step_of_host ha, hostStep, busRead_of_regAt (r := .cmd) rfl rfl]
    rfl

/-! ### The host's out-of-band actions (20_memory.md R59) -/

theorem hostLoad_eq (bytes : List Byte) (h : ¬(s.mode = .dec ∧ s.fault = false)) :
    hostLoad bytes s = { s with inp := bytes, cur := 0 } := by
  rw [hostLoad, if_neg h]

/-- A `HostLoad` frees the coder's five registers at most (70_reset_and_hazards.md R207). -/
theorem hostLoad_frame (bytes : List Byte) (s : State) :
    hostLoad bytes s = { s with
      inp := bytes, cur := 0, low := (hostLoad bytes s).low, high := (hostLoad bytes s).high
      code := (hostLoad bytes s).code, db := (hostLoad bytes s).db, dbn := (hostLoad bytes s).dbn
      freeCtr := (hostLoad bytes s).freeCtr } := by
  unfold hostLoad
  split <;> rfl

/-- Settles O57: each action's step is its effect on the state with the action taken off. -/
theorem hostStream : Obligations.HostStream := by
  intro s rest bytes start
  refine ⟨fun ha hmode => ?_, fun ha => ⟨_, step_of_host ha, ?_⟩, step_of_host, step_of_host⟩
  · exact (step_of_host ha).trans (congrArg (Host.Outcome.next <| answer .done ·)
      (hostLoad_eq (s := { s with host := rest }) bytes hmode))
  · exact congrArg (answer .done) (hostLoad_frame bytes { s with host := rest })

end HostAccess

end Sys2Proof.Machine

/-! PROOF. The flush of the encoder, bit by bit (41_arith_encoder.md R112, R119; 20_memory.md R60). -/

namespace Sys2Proof.Machine

open Sys2Proof.Claims

section EncoderFlush

variable {s t u : State}

/-! ### Bits of a byte in collection -/

/-- The low `n` bits of `bb`, oldest first (10_state.md R33). -/
def oldestFirst (n : Nat) (bb : BitVec 8) : List Bool := (List.range n).map fun i => bb.getLsbD (n - 1 - i)

theorem waitingBits_eq (s : State) : waitingBits s = oldestFirst s.bbn.toNat s.bb := rfl

theorem byteBits_eq (b : Byte) : byteBits b = oldestFirst 8 b := rfl

/-- Shifting a bit in appends it to the bits collected before. -/
theorem oldestFirst_shiftBitIn {n : Nat} (h : n ≤ 7) (bb : BitVec 8) (x : Bool) :
    oldestFirst (n + 1) (bb <<< 1 ||| BitVec.ofNat 8 (bit x)) = oldestFirst n bb ++ [x] := by
  have hold : ∀ i ∈ List.range n, (bb <<< 1 ||| BitVec.ofNat 8 (bit x)).getLsbD (n - i) = bb.getLsbD (n - 1 - i) := by
    intro i hi
    have hlt : i < n := List.mem_range.mp hi
    have hbit : (BitVec.ofNat 8 (bit x)).getLsbD (n - i) = false := by
      cases x with
      | false => simp [bit]
      | true => simp [bit, BitVec.getLsbD_one]; omega
    rw [BitVec.getLsbD_or, hbit, Bool.or_false, BitVec.getLsbD_shiftLeft]
    simp only [show n - i < 8 by omega, show ¬n - i < 1 by omega, show n - i - 1 = n - 1 - i by omega, decide_true,
      decide_false, Bool.not_false, Bool.true_and]
  have hnew : (bb <<< 1 ||| BitVec.ofNat 8 (bit x)).getLsbD 0 = x := by
    cases x <;> simp [bit]
  unfold oldestFirst
  rw [List.range_succ, List.map_append, List.map_singleton, Nat.add_sub_cancel, Nat.sub_self, hnew,
    List.map_congr_left hold]

/-! ### Emitting bits -/

/-- Between bytes nothing is left of the last one (10_state.md R33). -/
def cleanBuffer (s : State) : Prop := s.bbn = 0#4 → s.bb = 0#8

/-- From `s` to `t` exactly the bits `bits` went to the output: whole bytes to the sink, the rest to `BB`. -/
structure Emits (bits : List Bool) (s t : State) : Prop where
  collected : t.bbn.toNat ≤ 7
  clean : cleanBuffer s ∨ bits ≠ [] → cleanBuffer t
  pushed : ∃ bytes : List Byte,
    t = { s with
          pend := t.pend, bb := t.bb, bbn := t.bbn, out := s.out ++ bytes
          outCnt := s.outCnt + BitVec.ofNat 32 bytes.length } ∧
      bytes.flatMap byteBits ++ waitingBits t = waitingBits s ++ bits

theorem Emits.refl (h : s.bbn.toNat ≤ 7) : Emits [] s s where
  collected := h
  clean := fun hc => hc.resolve_right fun hne => hne rfl
  pushed := ⟨[], by simp, by simp⟩

theorem Emits.trans {xs ys : List Bool} (h1 : Emits xs s t) (h2 : Emits ys t u) : Emits (xs ++ ys) s u where
  collected := h2.collected
  clean := fun hc => h2.clean <| by
    by_cases hys : ys = []
    · exact .inl (h1.clean (by simpa [hys] using hc))
    · exact .inr hys
  pushed := by
    obtain ⟨bytes1, ht, hbits1⟩ := h1.pushed
    obtain ⟨bytes2, hu, hbits2⟩ := h2.pushed
    refine ⟨bytes1 ++ bytes2, ?_, ?_⟩
    · rw [ht] at hu
      rw [hu]
      simp [BitVec.ofNat_add, BitVec.add_assoc]
    · rw [List.flatMap_append, List.append_assoc, hbits2, ← List.append_assoc, hbits1, List.append_assoc]

theorem emitBit_of_full (h : s.bbn + 1#4 = 8#4) (x : Bool) :
    emitBit x s = sinkPush (s.bb <<< 1 ||| BitVec.ofNat 8 (bit x)) { s with bb := 0#8, bbn := 0#4 } := if_pos h

theorem emitBit_of_room (h : s.bbn + 1#4 ≠ 8#4) (x : Bool) :
    emitBit x s = { s with bb := s.bb <<< 1 ||| BitVec.ofNat 8 (bit x), bbn := s.bbn + 1#4 } := if_neg h

theorem bbn_succ_toNat (h : s.bbn.toNat ≤ 7) : (s.bbn + 1#4).toNat = s.bbn.toNat + 1 := by
  rw [BitVec.toNat_add]
  exact Nat.mod_eq_of_lt (by simp; omega)

theorem bbn_full_iff (h : s.bbn.toNat ≤ 7) : s.bbn + 1#4 = 8#4 ↔ s.bbn.toNat = 7 := by
  rw [← BitVec.toNat_inj, bbn_succ_toNat h]
  simp

/-- The collected bits are counted modulo 8. -/
theorem emitBit_bbn_toNat (h : s.bbn.toNat ≤ 7) (x : Bool) : (emitBit x s).bbn.toNat = (s.bbn.toNat + 1) % 8 := by
  by_cases hfull : s.bbn + 1#4 = 8#4
  · rw [emitBit_of_full hfull, (bbn_full_iff h).mp hfull]
    rfl
  · rw [emitBit_of_room hfull]
    have hne := mt (bbn_full_iff h).mpr hfull
    exact (bbn_succ_toNat h).trans (Nat.mod_eq_of_lt (by omega)).symm

theorem emitBit_emits (h : s.bbn.toNat ≤ 7) (x : Bool) : Emits [x] s (emitBit x s) := by
  have hbits := oldestFirst_shiftBitIn h s.bb x
  by_cases hfull : s.bbn + 1#4 = 8#4
  · rw [emitBit_of_full hfull]
    refine ⟨Nat.zero_le _, fun _ _ => rfl, [_], rfl, ?_⟩
    rw [(bbn_full_iff h).mp hfull] at hbits
    rw [waitingBits_eq s, (bbn_full_iff h).mp hfull, ← hbits]
    simp [byteBits_eq, waitingBits_eq, oldestFirst]
  · rw [emitBit_of_room hfull]
    have hne := mt (bbn_full_iff h).mpr hfull
    refine ⟨?_, fun _ h0 => ?_, [], by simp, ?_⟩
    · exact (bbn_succ_toNat h).trans_le (by omega)
    · have := congrArg BitVec.toNat h0
      exact absurd ((bbn_succ_toNat h).symm.trans this) (by simp)
    · rw [waitingBits_eq s, ← hbits, ← bbn_succ_toNat h]
      rfl

theorem emitMany_emits (n : Nat) (x : Bool) (h : s.bbn.toNat ≤ 7) :
    Emits (List.replicate n x) s (emitMany n x s) := by
  induction n generalizing s with
  | zero => exact .refl h
  | succ n ih => exact (emitBit_emits h x).trans (ih (emitBit_emits h x).collected)

theorem emitWithPending_emits (x : Bool) (h : s.bbn.toNat ≤ 7) :
    Emits ([x] ++ List.replicate s.pend.toNat (!x)) s (emitWithPending x s) := by
  have h1 := emitBit_emits h x
  have h2 := h1.trans (emitMany_emits (emitBit x s).pend.toNat (!x) h1.collected)
  rw [emitBit_pend] at h2
  obtain ⟨bytes, ht, hbits⟩ := h2.pushed
  unfold emitWithPending
  dsimp only
  rw [emitBit_pend]
  exact ⟨h2.collected, h2.clean, bytes, by rw [ht], hbits⟩

theorem emitBits_emits (n : Nat) (v : BitVec 16) (h : s.bbn.toNat ≤ 7) :
    Emits ((List.range n).map fun i => v.getLsbD (n - 1 - i)) s (emitBits n v s) := by
  induction n generalizing s with
  | zero => exact .refl h
  | succ n ih =>
    have hsplit : ((List.range (n + 1)).map fun i => v.getLsbD (n + 1 - 1 - i)) =
        [v.getLsbD n] ++ (List.range n).map fun i => v.getLsbD (n - 1 - i) := by
      simp [List.range_succ_eq_map, Function.comp_def, Nat.sub_sub, Nat.add_comm]
    rw [hsplit]
    exact (emitBit_emits h _).trans (ih (emitBit_emits h _).collected)

/-- Padding takes as many zero bits as the byte in collection lacks, none if it holds no bit. -/
theorem padByte_emits (n : Nat) (h : s.bbn.toNat ≤ 7) (hn : (8 - s.bbn.toNat) % 8 ≤ n) :
    Emits (List.replicate ((8 - s.bbn.toNat) % 8) false) s (padByte n s) ∧ (padByte n s).bbn = 0#4 := by
  induction n generalizing s with
  | zero =>
    have h0 : s.bbn.toNat = 0 := by omega
    rw [h0]
    exact ⟨.refl h, BitVec.eq_of_toNat_eq h0⟩
  | succ n ih =>
    by_cases h0 : s.bbn = 0#4
    · rw [padByte, if_pos h0]
      refine ⟨?_, h0⟩
      rw [h0]
      exact .refl h
    · have hpos : s.bbn.toNat ≠ 0 := fun e => h0 (BitVec.eq_of_toNat_eq e)
      have hcount := emitBit_bbn_toNat h false
      have h1 := emitBit_emits h false
      obtain ⟨h2, hzero⟩ := ih h1.collected (by omega)
      rw [padByte, if_neg h0]
      refine ⟨?_, hzero⟩
      have hlen : (8 - s.bbn.toNat) % 8 = (8 - (emitBit false s).bbn.toNat) % 8 + 1 := by omega
      rw [hlen, List.replicate_succ]
      exact h1.trans h2

/-! ### The flush -/

theorem flushEncoder_emits (h : s.bbn.toNat ≤ 7) :
    ∃ pad, pad < 8 ∧ (flushEncoder s).bbn = 0#4 ∧
      Emits ([s.low.msb] ++ List.replicate s.pend.toNat (!s.low.msb) ++
        ((List.range 15).map fun i => s.low.getLsbD (14 - i)) ++ List.replicate pad false) s (flushEncoder s) := by
  have h1 := emitWithPending_emits s.low.msb h
  have h2 := h1.trans (emitBits_emits 15 s.low h1.collected)
  obtain ⟨h3, hzero⟩ := padByte_emits 16 h2.collected (by omega)
  exact ⟨_, Nat.mod_lt _ (by decide), hzero, h2.trans h3⟩

/-- Settles O24: after the flush no bit waits, so all its bits are in the bytes pushed. -/
theorem efinFlushes : Obligations.EfinFlushes := by
  intro s hm h
  obtain ⟨pad, hpad, hzero, hflush⟩ := flushEncoder_emits h
  obtain ⟨bytes, ht, hbits⟩ := hflush.pushed
  have hclean : (flushEncoder s).bb = 0#8 := hflush.clean (.inr (by simp)) hzero
  refine ⟨bytes, pad, hpad, ?_, ?_⟩
  · rw [waitingBits_eq (flushEncoder s), hzero] at hbits
    simpa [oldestFirst] using hbits
  · have hexec : exec .efin s = execEfin s := rfl
    rw [hexec, execEfin, if_neg (not_not_intro hm), retired, retire, ht, hclean, hzero]

end EncoderFlush

end Sys2Proof.Machine

/-! SUPPORT. The arithmetic of a transform pass: the clamp, the square root of the weights, and one line of words
(44_transform.md R152 to R156). -/

namespace Sys2Proof.Machine

open Sys2Proof.Claims

section PassArithmetic

variable {s : State}

/-- `sat32` stores the clamped integer (44_transform.md R154). -/
theorem sat32_toInt (x : Int) : (sat32 x).toInt = clamp32 x := by
  have hclamp : (if 2147483647 < x then 2147483647 else if x < -2147483648 then -2147483648 else x) = clamp32 x := by
    unfold clamp32
    omega
  unfold sat32
  rw [hclamp]
  exact BitVec.toInt_ofInt_eq_self (by decide) (by unfold clamp32; omega) (by unfold clamp32; omega)

theorem clamp32_toInt (w : Word) : clamp32 w.toInt = w.toInt := by
  have := BitVec.le_toInt w
  have := BitVec.toInt_lt (x := w)
  unfold clamp32
  omega

/-- The loop keeps `r * r ≤ x < (r + 2 ^ n) ^ 2`, so it ends with the root (00_scope.md section 5). -/
theorem isqrtLoop_eq_sqrt {x n r : Nat} (hle : r * r ≤ x) (hlt : x < (r + 2 ^ n) * (r + 2 ^ n)) :
    isqrtLoop x n r = Nat.sqrt x := by
  induction n generalizing r with
  | zero => exact Nat.eq_sqrt.mpr ⟨hle, hlt⟩
  | succ n ih =>
    rw [isqrtLoop]
    split
    · exact ih ‹_› (by rwa [Nat.add_assoc, ← Nat.two_mul, ← Nat.pow_succ'])
    · exact ih hle (Nat.lt_of_not_le ‹_›)

theorem isqrt_eq_sqrt {x : Nat} (h : x < 2 ^ 64) : isqrt x = Nat.sqrt x :=
  isqrtLoop_eq_sqrt (Nat.zero_le x) (by simpa using h)

/-- The weight of an axis, with the exact square root (44_transform.md R153). -/
theorem weight_eq_weightNat (h : transformLengthsLegal s) (a : Axis) :
    weight s a (s.blkLen.get a).toNat = weightNat s a := by
  have hratio : (s.tlen.get a).toNat * 2 ^ 32 / (s.blkLen.get a).toNat < 2 ^ 64 := by
    have hlen := (h a).2
    exact (Nat.div_le_self _ _).trans_lt (by omega)
  rw [weight, weightOf, ratioRoot, transformLen_get, isqrt_eq_sqrt hratio, weightNat]

/-- The sum of a line's products as Mathlib writes it. -/
theorem sumUpTo_eq_sum (f : Nat → Int) (n : Nat) : sumUpTo f n = ∑ i ∈ Finset.range n, f i := by
  induction n with
  | zero => rfl
  | succ n ih => rw [sumUpTo, ih, Finset.sum_range_succ]

/-- The table entry by which input `j` enters output `k`: the inverse exchanges the indices (44_transform.md R152). -/
def coefficient (n : Nat) : Dir → Nat → Nat → Int
  | .fwd, k, j => cf n k j
  | .inv, k, j => cf n j k

/-- The weight a pass multiplies by: `W` forward, `WINV` back (44_transform.md R153). -/
def passWeight (w : Nat) : Dir → Nat
  | .fwd => w
  | .inv => inverseWeight w

/-- The transform of one line in the direction `d`, before the clamp, as `pass` selects it. -/
def lineTransform (w : Nat) : Dir → List Int → List Int
  | .fwd, x => fwd1D x w
  | .inv, y => inv1D y (inverseWeight w)

/-- R155 and R156 in one form. -/
theorem lineTransform_eq (w : Nat) (d : Dir) (x : List Int) :
    lineTransform w d x = (List.range x.length).map fun k =>
      ((∑ j ∈ Finset.range x.length, coefficient x.length d k j * x.getD j 0) * passWeight w d + 2 ^ 45) / 2 ^ 46 := by
  cases d <;> simp only [lineTransform, fwd1D, inv1D, roundWeighted, sumUpTo_eq_sum, coefficient, passWeight]

theorem lineTransform_length (w : Nat) (d : Dir) (x : List Int) : (lineTransform w d x).length = x.length := by
  rw [lineTransform_eq, List.length_map, List.length_range]

end PassArithmetic

end Sys2Proof.Machine

/-! SUPPORT. The lines of a block along an axis: each element lies on exactly one of them (20_memory.md R55,
44_transform.md R157). -/

namespace Sys2Proof.Machine

section BlockLines

variable {blk : Block} {a : Axis} {pos : Axes Nat}

/-! ### Positions and addresses -/

theorem Axes.ext_get {α : Type} {x y : Axes α} (h : ∀ a, x.get a = y.get a) : x = y := by
  obtain ⟨ht, hs, hv, hu⟩ := forall_axis.mp h
  cases x
  cases y
  exact (Axes.mk.injEq ..).mpr ⟨ht, hs, hv, hu⟩

@[simp] theorem Axes.get_set_self {α : Type} (x : Axes α) (a : Axis) (y : α) : (x.set a y).get a = y := by
  rw [Axes.get_set, if_pos rfl]

@[simp] theorem Axes.set_set {α : Type} (x : Axes α) (a : Axis) (y z : α) : (x.set a y).set a z = x.set a z := by
  cases a <;> rfl

@[simp] theorem Axes.set_get {α : Type} (x : Axes α) (a : Axis) : x.set a (x.get a) = x := by
  cases a <;> rfl

/-- A position of the block with another index of the block's range on one axis. -/
theorem Block.has.set (h : blk.has pos) {i : Nat} (hi : i < blk.len.get a) : blk.has (pos.set a i) := by
  intro b
  rw [Axes.get_set]
  split
  · rename_i hb
    rwa [hb]
  · exact h b

/-- A number of mixed radix determines its two digits. -/
theorem mixedRadix_inj {i i' j j' m : Nat} (hj : j < m) (hj' : j' < m) (h : i * m + j = i' * m + j') :
    i = i' ∧ j = j' := by
  have hm : 0 < m := Nat.zero_lt_of_lt hj
  have hi : i = i' := by
    have := congrArg (· / m) h
    simpa [Nat.mul_comm _ m, Nat.mul_add_div hm, Nat.div_eq_of_lt hj, Nat.div_eq_of_lt hj'] using this
  subst hi
  exact ⟨rfl, Nat.add_left_cancel h⟩

/-- Different elements of a block have different addresses (20_memory.md R55). -/
theorem Block.addr_inj {p q : Axes Nat} (hp : blk.has p) (hq : blk.has q) (h : blk.addr p = blk.addr q) : p = q := by
  obtain ⟨-, hps, hpv, hpu⟩ := forall_axis.mp hp
  obtain ⟨-, hqs, hqv, hqu⟩ := forall_axis.mp hq
  simp only [Axes.get] at hps hpv hpu hqs hqv hqu
  simp only [Block.addr, Nat.add_assoc, Nat.add_left_cancel_iff] at h
  have hp2 := mixedRadix_lt hpv hpu
  have hq2 := mixedRadix_lt hqv hqu
  have hp3 := mixedRadix_lt hps hp2
  have hq3 := mixedRadix_lt hqs hq2
  simp only [Nat.mul_assoc] at h hp3 hq3
  obtain ⟨ht, h⟩ := mixedRadix_inj hp3 hq3 h
  obtain ⟨hs, h⟩ := mixedRadix_inj hp2 hq2 h
  obtain ⟨hv, hu⟩ := mixedRadix_inj hpu hqu h
  exact Axes.ext_get (forall_axis.mpr ⟨ht, hs, hv, hu⟩)

/-! ### The positions of a sub-block, each once -/

theorem Sub.cells_eq_product (b : Sub) : b.cells =
    (List.range b.len.t ×ˢ List.range b.len.s ×ˢ List.range b.len.v ×ˢ List.range b.len.u).map fun i =>
      ⟨b.pos.t + i.1, b.pos.s + i.2.1, b.pos.v + i.2.2.1, b.pos.u + i.2.2.2⟩ := by
  simp [Sub.cells, SProd.sprod, List.product, List.map_flatMap, Function.comp_def]

theorem Sub.cells_nodup (b : Sub) : b.cells.Nodup := by
  rw [Sub.cells_eq_product]
  refine List.Nodup.map (fun i j h => ?_) ?_
  · simp only [Axes.mk.injEq, Nat.add_left_cancel_iff] at h
    exact Prod.ext h.1 (Prod.ext h.2.1 (Prod.ext h.2.2.1 h.2.2.2))
  · exact List.nodup_range.product (List.nodup_range.product (List.nodup_range.product List.nodup_range))

theorem Sub.mem_cells {b : Sub} :
    pos ∈ b.cells ↔ ∀ a, b.pos.get a ≤ pos.get a ∧ pos.get a < b.pos.get a + b.len.get a := by
  simp only [Sub.cells, List.mem_flatMap, List.mem_map, List.mem_range, forall_axis, Axes.get]
  constructor
  · rintro ⟨t, ht, s, hs, v, hv, u, hu, rfl⟩
    dsimp only
    omega
  · rintro ⟨⟨ht, ht'⟩, ⟨hs, hs'⟩, ⟨hv, hv'⟩, ⟨hu, hu'⟩⟩
    refine ⟨pos.t - b.pos.t, by omega, pos.s - b.pos.s, by omega, pos.v - b.pos.v, by omega, pos.u - b.pos.u, by omega,
      ?_⟩
    simp only [Nat.add_sub_cancel', ht, hs, hv, hu]

/-! ### Lines -/

/-- The elements with index 0 on axis `a`: one for each line along it. -/
def crossSection (blk : Block) (a : Axis) : Sub := { pos := ⟨0, 0, 0, 0⟩, len := blk.len.set a 1 }

/-- The addresses of the line along `a` through `pos`, in increasing index. -/
def lineThrough (blk : Block) (a : Axis) (pos : Axes Nat) : List Nat :=
  (List.range (blk.len.get a)).map fun i => blk.addr (pos.set a i)

theorem lines_eq_map (blk : Block) (a : Axis) : lines blk a = (crossSection blk a).cells.map (lineThrough blk a) := by
  simp [lines, Sub.cells, crossSection, List.map_flatMap, lineThrough, Function.comp_def]

theorem lineThrough_set (blk : Block) (a : Axis) (pos : Axes Nat) (i : Nat) :
    lineThrough blk a (pos.set a i) = lineThrough blk a pos := by
  simp only [lineThrough, Axes.set_set]

theorem mem_crossSection :
    pos ∈ (crossSection blk a).cells ↔ pos.get a = 0 ∧ ∀ b, b ≠ a → pos.get b < blk.len.get b := by
  rw [Sub.mem_cells]
  have hzero : ∀ b, (⟨0, 0, 0, 0⟩ : Axes Nat).get b = 0 := fun b => by cases b <;> rfl
  simp only [crossSection, hzero, Nat.zero_le, true_and, Nat.zero_add, Axes.get_set]
  constructor
  · intro h
    exact ⟨by simpa using h a, fun b hb => by simpa [hb] using h b⟩
  · rintro ⟨h0, h⟩ b
    split
    · rename_i hb
      rw [hb, h0]
      exact Nat.one_pos
    · exact h b ‹_›

/-- Every line starts in the cross-section, and its elements are elements of the block. -/
theorem has_set_of_mem_crossSection (h : pos ∈ (crossSection blk a).cells) {i : Nat} (hi : i < blk.len.get a) :
    blk.has (pos.set a i) := by
  intro b
  rw [Axes.get_set]
  split
  · rename_i hb
    rwa [hb]
  · exact (mem_crossSection.mp h).2 b ‹_›

/-- Every element of the block lies on a line. -/
theorem lineThrough_mem_lines (h : blk.has pos) (a : Axis) : lineThrough blk a pos ∈ lines blk a := by
  rw [lines_eq_map, ← lineThrough_set blk a pos 0]
  refine List.mem_map_of_mem (mem_crossSection.mpr ⟨Axes.get_set_self .., fun b hb => ?_⟩)
  rw [Axes.get_set, if_neg hb]
  exact h b

theorem lines_nodup {line : List Nat} (hl : line ∈ lines blk a) : line.Nodup := by
  rw [lines_eq_map] at hl
  obtain ⟨p, hp, rfl⟩ := List.mem_map.mp hl
  refine List.nodup_range.map_on fun i hi j hj h => ?_
  have hij := Block.addr_inj (has_set_of_mem_crossSection hp (List.mem_range.mp hi))
    (has_set_of_mem_crossSection hp (List.mem_range.mp hj)) h
  simpa using congrArg (Axes.get · a) hij

/-- No element lies on two lines. -/
theorem lines_pairwise_disjoint (blk : Block) (a : Axis) : (lines blk a).Pairwise List.Disjoint := by
  rw [lines_eq_map, List.pairwise_map]
  refine (Sub.cells_nodup _).imp_of_mem fun {p q} hp hq hne x hxp hxq => hne ?_
  obtain ⟨i, hi, rfl⟩ := List.mem_map.mp hxp
  obtain ⟨j, hj, h⟩ := List.mem_map.mp hxq
  have hpos := Block.addr_inj (has_set_of_mem_crossSection hq (List.mem_range.mp hj))
    (has_set_of_mem_crossSection hp (List.mem_range.mp hi)) h
  have hstart : (p.set a i).set a 0 = (q.set a j).set a 0 := by rw [hpos]
  rw [Axes.set_set, Axes.set_set] at hstart
  rwa [← (mem_crossSection.mp hp).1, Axes.set_get, (mem_crossSection.mp hp).1, ← (mem_crossSection.mp hq).1,
    Axes.set_get] at hstart

end BlockLines

end Sys2Proof.Machine

/-! PROOF. The words the transforms leave (44_transform.md R150 to R158, R161, R162). -/

namespace Sys2Proof.Machine

open Sys2Proof.Claims

section TransformedWords

variable {s t : State} {blk : Block} {a : Axis} {pos : Axes Nat} {d : Dir}

/-! ### One pass -/

theorem memRead_of_read {x : Nat} (h : t.mem.read x = s.mem.read x) : memRead t x = memRead s x :=
  congrArg BitVec.toInt h

/-- A line written back holds the clamped results (44_transform.md R154, R157). -/
theorem writeLine_read {addrs : List Nat} (hnodup : addrs.Nodup) {ys : List Int} (hwf : s.mem.wf) {p : Nat × Int}
    (hp : p ∈ addrs.zip ys) : memRead (writeLine addrs ys s) p.1 = clamp32 p.2 := by
  induction addrs generalizing ys s with
  | nil => cases hp
  | cons x rest ih =>
    cases ys with
    | nil => cases hp
    | cons y ys =>
      obtain ⟨hx, hrest⟩ := List.nodup_cons.mp hnodup
      have hwf1 : (noteClamp y (memWrite x (sat32 y) s)).mem.wf := s.mem.write_wf _ _ hwf
      rcases List.mem_cons.mp hp with rfl | hp
      · have hkept := (writeLine_writesOnly (· ∈ rest) rest (fun _ h => h) ys _ hwf1).other x hx
        refine (memRead_of_read hkept).trans ?_
        rw [← sat32_toInt]
        exact congrArg BitVec.toInt ((s.mem.read_write hwf ..).trans (if_pos rfl))
      · exact ih hrest hwf1 hp

/-- Lines that share no address are transformed independently: each from the words before the pass. -/
theorem foldl_transformLine_read (f : List Int → List Int) {ls : List (List Nat)} (hdisj : ls.Pairwise List.Disjoint)
    (hnodup : ∀ line ∈ ls, line.Nodup) (hwf : s.mem.wf) {line : List Nat} (hl : line ∈ ls) {p : Nat × Int}
    (hp : p ∈ line.zip (f (line.map (memRead s)))) : memRead (ls.foldl (transformLine f) s) p.1 = clamp32 p.2 := by
  induction ls generalizing s with
  | nil => cases hl
  | cons first rest ih =>
    obtain ⟨hfirst, hrest⟩ := List.pairwise_cons.mp hdisj
    obtain ⟨hnfirst, hnrest⟩ := List.forall_mem_cons.mp hnodup
    have h1 : WritesOnly (· ∈ first) s.mem (transformLine f s first).mem :=
      writeLine_writesOnly _ first (fun _ h => h) _ s hwf
    rcases List.mem_cons.mp hl with rfl | hl
    · have h2 := foldl_writesOnly (· ∉ line) (transformLine f) rest
        (fun other ho u hu => writeLine_writesOnly _ other (fun x hx hx' => hfirst other ho hx' hx) _ u hu) _ h1.wf
      exact (memRead_of_read (h2.other p.1 (not_not_intro (List.of_mem_zip hp).1))).trans
        (writeLine_read hnfirst hwf hp)
    · have hsame : line.map (memRead (transformLine f s first)) = line.map (memRead s) :=
        List.map_congr_left fun x hx => memRead_of_read (h1.other x fun hx' => hfirst line hl hx' hx)
      exact ih hrest hnrest h1.wf hl (by rwa [hsame])

theorem touchTC_mem (d : Dir) (n : Nat) (s : State) : (touchTC d n s).mem = s.mem := by
  cases d <;> (unfold touchTC; dsimp only; split <;> rfl)

theorem touchGC_mem (a : Axis) (n : Nat) (s : State) : (touchGC a n s).mem = s.mem := by
  unfold touchGC
  split <;> rfl

theorem touched_mem (d : Dir) (a : Axis) (n : Nat) (s : State) : (touchGC a n (touchTC d n s)).mem = s.mem :=
  (touchGC_mem a n _).trans (touchTC_mem d n s)

theorem pass_eq (d : Dir) (blk : Block) (wgt : Axis → Nat) (s : State) (a : Axis) :
    pass d blk wgt s a =
      transformLines (lineTransform (wgt a) d) blk a (touchGC a (blk.len.get a) (touchTC d (blk.len.get a) s)) := by
  cases d <;> rfl

theorem pass_wf (d : Dir) (blk : Block) (wgt : Axis → Nat) (a : Axis) (hwf : s.mem.wf) :
    (pass d blk wgt s a).mem.wf := by
  rw [pass_eq]
  exact (transformLines_writesOnly (fun _ => True) _ blk a (fun _ _ _ _ => trivial) _ (by rwa [touched_mem])).wf

/-- Element `k` of the transform of the line through `pos`, from the words `x` of the block and the weight `w`, as R155
and R156 state it. -/
def lineElement (w : Nat) (d : Dir) (n : Nat) (a : Axis) (x : Words) (pos : Axes Nat) (k : Nat) : Int :=
  ((∑ j ∈ Finset.range n, coefficient n d k j * x (pos.set a j)) * passWeight w d + 2 ^ 45) / 2 ^ 46

theorem lineTransform_lineThrough (w : Nat) (d : Dir) (blk : Block) (a : Axis) (pos : Axes Nat) (s : State) :
    lineTransform w d ((lineThrough blk a pos).map (memRead s)) =
      (List.range (blk.len.get a)).map
        (lineElement w d (blk.len.get a) a (fun p => memRead s (blk.addr p)) pos) := by
  have hlen : ((lineThrough blk a pos).map (memRead s)).length = blk.len.get a := by simp [lineThrough]
  have hget : ∀ j ∈ Finset.range (blk.len.get a),
      ((lineThrough blk a pos).map (memRead s)).getD j 0 = memRead s (blk.addr (pos.set a j)) := by
    intro j hj
    simp [lineThrough, List.getD_eq_getElem?_getD, Finset.mem_range.mp hj]
  rw [lineTransform_eq, hlen]
  refine List.map_congr_left fun k _ => ?_
  rw [lineElement, Finset.sum_congr rfl fun j hj => by rw [hget j hj]]

/-- What a pass leaves at an element of the block, from the words before it (44_transform.md R157). -/
theorem pass_read (hwf : s.mem.wf) (hpos : blk.has pos) (d : Dir) (wgt : Axis → Nat) (a : Axis) :
    memRead (pass d blk wgt s a) (blk.addr pos) =
      clamp32 (lineElement (wgt a) d (blk.len.get a) a (fun p => memRead s (blk.addr p)) pos (pos.get a)) := by
  have hmem := touched_mem d a (blk.len.get a) s
  have hread : memRead (touchGC a (blk.len.get a) (touchTC d (blk.len.get a) s)) = memRead s :=
    funext fun x => memRead_of_read (by rw [hmem])
  rw [pass_eq, transformLines]
  refine foldl_transformLine_read (lineTransform (wgt a) d) (lines_pairwise_disjoint blk a) (fun _ h => lines_nodup h)
    (by rwa [hmem]) (lineThrough_mem_lines hpos a) 
    (p := (blk.addr pos, lineElement (wgt a) d (blk.len.get a) a (fun p => memRead s (blk.addr p)) pos (pos.get a))) ?_
  rw [hread, lineTransform_lineThrough, lineThrough, List.zip_map']
  exact List.mem_map.mpr ⟨pos.get a, List.mem_range.mpr (hpos a), by rw [Axes.set_get]⟩

/-! ### The four passes -/

/-- The pass of the statements in the direction `d`. -/
def axisPass (s : State) : Dir → Axis → Words → Words
  | .fwd => forwardPass s
  | .inv => inversePass s

/-- The passes of the statements along the axes of a list, the first one first. -/
def axisPasses (s : State) (d : Dir) : List Axis → Words → Words
  | [], x => x
  | a :: rest, x => axisPasses s d rest (axisPass s d a x)

theorem axisPass_eq (s : State) (d : Dir) (a : Axis) (x : Words) (pos : Axes Nat) :
    axisPass s d a x pos = clamp32 (lineElement (weightNat s a) d (s.blkLen.get a).toNat a x pos (pos.get a)) := by
  cases d <;> rfl

theorem lineElement_congr {x y : Words} {n : Nat} (h : ∀ j < n, x (pos.set a j) = y (pos.set a j)) (w : Nat) (d : Dir)
    (k : Nat) : lineElement w d n a x pos k = lineElement w d n a y pos k := by
  rw [lineElement, lineElement, Finset.sum_congr rfl fun j hj => by rw [h j (Finset.mem_range.mp hj)]]

/-- Passes one after another on the words of the current block of `s` are the passes of the statements. -/
theorem passes_read {wgt : Axis → Nat} (hwgt : ∀ a, wgt a = weightNat s a) (axes : List Axis) {x : Words}
    (hwf : t.mem.wf) (hx : ∀ pos, (currentBlock s).has pos → memRead t ((currentBlock s).addr pos) = x pos)
    (hpos : (currentBlock s).has pos) :
    memRead (axes.foldl (pass d (currentBlock s) wgt) t) ((currentBlock s).addr pos) =
      axisPasses s d axes x pos := by
  induction axes generalizing t x with
  | nil => exact hx pos hpos
  | cons a rest ih =>
    refine ih (pass_wf d _ wgt a hwf) fun p hp => ?_
    rw [pass_read hwf hp, axisPass_eq, hwgt, currentBlock_len_get]
    refine congrArg clamp32 (lineElement_congr (fun j hj => hx _ (hp.set ?_)) _ _ _)
    rwa [currentBlock_len_get]

/-- The command of the direction `d`. -/
def transformCommand : Dir → Instr
  | .fwd => .tfwd
  | .inv => .tinv

theorem txCheck_of_transformLegal (h : transformLegal s) (w : Word) : txCheck w s = none := by
  obtain ⟨hblock, htlen, hle, hweight⟩ := h
  rw [txCheck_eq_none_iff]
  simp only [transformLen_get, currentBlock_len_get]
  exact ⟨blockCheck_of_blockLegal hblock w, htlen, hle, hweight⟩

theorem exec_transformCommand (h : transformLegal s) (d : Dir) :
    exec (transformCommand d) s = .next (retire (transformBlock d s)) := by
  cases d with
  | fwd =>
    have hexec : exec .tfwd s = execTfwd s := rfl
    rw [transformCommand, hexec, execTfwd, txCheck_of_transformLegal h]
    rfl
  | inv =>
    have hexec : exec .tinv s = execTinv s := rfl
    rw [transformCommand, hexec, execTinv, txCheck_of_transformLegal h]
    rfl

/-- The words a transform leaves in a legal block (44_transform.md R158, R161, R162). -/
theorem transform_words (h : transformLegal s) (hwf : s.mem.wf) (d : Dir) :
    ∃ t, exec (transformCommand d) s = .next t ∧ ∀ pos : Axes Nat, (∀ a, pos.get a < (s.blkLen.get a).toNat) →
      memRead t (elementAddr s pos) =
        axisPasses s d (passOrder d) (fun p => memRead s (elementAddr s p)) pos := by
  refine ⟨_, exec_transformCommand h d, fun pos hpos => ?_⟩
  have hwgt : ∀ a, weight s a ((currentBlock s).len.get a) = weightNat s a := fun a => by
    rw [currentBlock_len_get, weight_eq_weightNat h.2.1]
  exact passes_read hwgt (passOrder d) hwf (fun _ _ => rfl) fun a => by
    rw [currentBlock_len_get]
    exact hpos a

/-! ### One line at weight 1.0 -/

/-- The weight 1.0 is its own inverse. -/
theorem passWeight_one (d : Dir) : passWeight 65536 d = 65536 := by cases d <;> rfl

/-- An axis at full length with gain 1.0 has weight 1.0 (44_transform.md R153). -/
theorem weightNat_eq_one (hgain : s.gain.get a = 0x010000#24) (htlen : s.tlen = s.blkLen)
    (hpos : 1 ≤ (s.blkLen.get a).toNat) : weightNat s a = 65536 := by
  rw [weightNat, hgain, htlen, Nat.mul_div_cancel_left _ hpos, show 2 ^ 32 = 65536 * 65536 from rfl, Nat.sqrt_eq]
  rfl

theorem clamp32_clamp32 (x : Int) : clamp32 (clamp32 x) = clamp32 x := by
  unfold clamp32
  omega

theorem clamp32_axisPass (s : State) (d : Dir) (a : Axis) (x : Words) (pos : Axes Nat) :
    clamp32 (axisPass s d a x pos) = axisPass s d a x pos := by
  rw [axisPass_eq, clamp32_clamp32]

/-- At weight 1.0 the rounding is to the 30 fraction bits of the table. -/
theorem lineElement_one (d : Dir) (n : Nat) (a : Axis) (x : Words) (pos : Axes Nat) (k : Nat) :
    lineElement 65536 d n a x pos k =
      ((∑ j ∈ Finset.range n, coefficient n d k j * x (pos.set a j)) + 2 ^ 29) / 2 ^ 30 := by
  rw [lineElement, passWeight_one]
  omega

/-- Along an axis of length 1 at weight 1.0 a pass leaves every 32-bit word as it is. -/
theorem axisPass_single (hlen : s.blkLen.get a = 1#7) (hw : weightNat s a = 65536) {x : Words} (h0 : pos.get a = 0)
    (hx : clamp32 (x pos) = x pos) (d : Dir) : axisPass s d a x pos = x pos := by
  have hcf : coefficient 1 d 0 0 = 2 ^ 30 := by cases d <;> rfl
  have hset : pos.set a 0 = pos := by rw [← h0, Axes.set_get]
  rw [axisPass_eq, hw, hlen, lineElement_one, h0, show (1#7).toNat = 1 from rfl, Finset.sum_range_one, hcf, hset,
    show (2 ^ 30 * x pos + 2 ^ 29) / 2 ^ 30 = x pos by omega, hx]

/-- So do passes along several such axes. -/
theorem axisPasses_single {axes : List Axis} (hlen : ∀ a ∈ axes, s.blkLen.get a = 1#7) (hw : ∀ a, weightNat s a = 65536)
    {x : Words} (h0 : ∀ a ∈ axes, pos.get a = 0) (hx : clamp32 (x pos) = x pos) (d : Dir) :
    axisPasses s d axes x pos = x pos := by
  induction axes generalizing x with
  | nil => rfl
  | cons a rest ih =>
    obtain ⟨hlena, hlen⟩ := List.forall_mem_cons.mp hlen
    obtain ⟨h0a, h0⟩ := List.forall_mem_cons.mp h0
    rw [axisPasses, ih hlen h0 (clamp32_axisPass ..), axisPass_single hlena (hw a) h0a hx]

/-- On a line along U the passes along the other axes change nothing. -/
theorem axisPasses_line (hlen : ∀ a, a ≠ .u → s.blkLen.get a = 1#7) (hw : ∀ a, weightNat s a = 65536) {x : Words}
    (hx : ∀ p, clamp32 (x p) = x p) (d : Dir) (k : Nat) :
    axisPasses s d (passOrder d) x ⟨0, 0, 0, k⟩ = axisPass s d .u x ⟨0, 0, 0, k⟩ := by
  have hothers {axes : List Axis} (hu : Axis.u ∉ axes) {y : Words} (k : Nat)
      (hy : clamp32 (y ⟨0, 0, 0, k⟩) = y ⟨0, 0, 0, k⟩) : axisPasses s d axes y ⟨0, 0, 0, k⟩ = y ⟨0, 0, 0, k⟩ := by
    refine axisPasses_single (fun a ha => hlen a fun h => hu (h ▸ ha)) hw (fun a ha => ?_) hy d
    cases a with
    | u => exact absurd ha hu
    | _ => rfl
  cases d with
  | fwd =>
    rw [passOrder, axisPasses]
    exact hothers (by decide) k (clamp32_axisPass ..)
  | inv =>
    have hlast : axisPasses s .inv (passOrder .inv) x = axisPass s .inv .u (axisPasses s .inv [.t, .s, .v] x) := rfl
    rw [hlast, axisPass_eq, axisPass_eq]
    exact congrArg clamp32 (lineElement_congr (fun j _ => hothers (by decide) j (hx _)) _ _ _)

/-- The current block is one line of `n` words along U, each axis at full length with gain 1.0. -/
structure UnitLine (s : State) (n : BitVec 7) : Prop where
  len : s.blkLen = ⟨1#7, 1#7, 1#7, n⟩
  tlen : s.tlen = s.blkLen
  gain : ∀ a, s.gain.get a = 0x010000#24
  one_le : 1 ≤ n.toNat
  le_64 : n.toNat ≤ 64
  le_maxLen : n.toNat ≤ s.par.maxLen
  fits : s.blkBase.toNat + n.toNat ≤ s.par.blkCap

theorem UnitLine.len_u {n : BitVec 7} (h : UnitLine s n) : s.blkLen.get .u = n := by
  rw [h.len]
  rfl

theorem UnitLine.len_other {n : BitVec 7} (h : UnitLine s n) : ∀ a, a ≠ .u → s.blkLen.get a = 1#7 := by
  rw [h.len]
  exact forall_axis.mpr ⟨fun _ => rfl, fun _ => rfl, fun _ => rfl, fun hu => absurd rfl hu⟩

theorem UnitLine.len_range {n : BitVec 7} (h : UnitLine s n) (a : Axis) :
    1 ≤ (s.blkLen.get a).toNat ∧ (s.blkLen.get a).toNat ≤ n.toNat := by
  by_cases ha : a = .u
  · rw [ha, h.len_u]
    exact ⟨h.one_le, le_refl _⟩
  · rw [h.len_other a ha]
    exact ⟨le_refl _, h.one_le⟩

theorem UnitLine.weight_one {n : BitVec 7} (h : UnitLine s n) (a : Axis) : weightNat s a = 65536 :=
  weightNat_eq_one (h.gain a) h.tlen (h.len_range a).1

theorem UnitLine.legal {n : BitVec 7} (h : UnitLine s n) : transformLegal s := by
  have hnel : nel s = n.toNat := by simp [nel, h.len]
  have htlen : transformLengthsLegal s := fun a => by
    rw [h.tlen]
    exact ⟨(h.len_range a).1, (h.len_range a).2.trans h.le_64⟩
  refine ⟨⟨fun a => ⟨(h.len_range a).1, (h.len_range a).2.trans h.le_maxLen⟩, hnel ▸ h.fits⟩, htlen,
    fun a => by rw [h.tlen], fun a => ?_⟩
  rw [weight_eq_weightNat htlen, h.weight_one]
  decide

/-- The words either transform leaves in such a line. -/
theorem UnitLine.words {n : BitVec 7} (h : UnitLine s n) (hwf : s.mem.wf) (d : Dir) :
    ∃ t, exec (transformCommand d) s = .next t ∧ ∀ k, k < n.toNat →
      memRead t (s.blkBase.toNat + k) = clamp32
        (((∑ j ∈ Finset.range n.toNat, coefficient n.toNat d k j * memRead s (s.blkBase.toNat + j)) + 2 ^ 29) /
          2 ^ 30) := by
  obtain ⟨t, ht, hwords⟩ := transform_words h.legal hwf d
  have haddr : ∀ k, elementAddr s ⟨0, 0, 0, k⟩ = s.blkBase.toNat + k := fun k => by simp [elementAddr]
  have hclamp : ∀ p, clamp32 (memRead s (elementAddr s p)) = memRead s (elementAddr s p) := fun _ => clamp32_toInt _
  refine ⟨t, ht, fun k hk => ?_⟩
  have hpos : ∀ a, (⟨0, 0, 0, k⟩ : Axes Nat).get a < (s.blkLen.get a).toNat :=
    forall_axis.mpr ⟨(h.len_range .t).1, (h.len_range .s).1, (h.len_range .v).1, h.len_u ▸ hk⟩
  rw [← haddr k, hwords _ hpos, axisPasses_line h.len_other h.weight_one hclamp, axisPass_eq, h.weight_one,
    lineElement_one, h.len_u]
  simp only [Axes.get, Axes.set, haddr]

/-- Settles O47: the block by its passes, the line by `UnitLine.words`. -/
theorem lineTransforms : Obligations.LineTransforms := by
  refine ⟨fun s hlegal hwf => ⟨transform_words hlegal hwf .fwd, transform_words hlegal hwf .inv⟩, ?_⟩
  intro s n hlen htlen hgain h1 h64 hmax hcap hwf
  have hline : UnitLine s n := ⟨hlen, htlen, hgain, h1, h64, hmax, hcap⟩
  exact ⟨hline.words hwf .fwd, hline.words hwf .inv⟩

end TransformedWords

end Sys2Proof.Machine

/-! SUPPORT. The encoder and the decoder's fields undo each other, format by format (30_encoding.md R71 to R80). -/

namespace Sys2Proof

open Sys2Proof.Laws

section Fields

variable (op : BitVec 8) (c b h m : Bool) (ctx byte : BitVec 8) (n : BitVec 5) (v : BitVec 16) (slot : BitVec 4)
  (k : BitVec 24) (w : Word)

/-! ### A field of an encoded word is the operand it was made from -/

@[simp] theorem fieldC_encodeM : fieldC (encodeM op c b ctx) = c := by
  simp only [fieldC, encodeM, BitVec.getLsbD_append, BitVec.getLsbD_ofBool]
  simp

@[simp] theorem fieldB_encodeM : fieldB (encodeM op c b ctx) = b := by
  simp only [fieldB, encodeM, BitVec.getLsbD_append, BitVec.getLsbD_ofBool]
  simp

@[simp] theorem fieldCtx_encodeM : fieldCtx (encodeM op c b ctx) = ctx :=
  BitVec.extractLsb'_append_eq_right

@[simp] theorem fieldC_encodeI : fieldC (encodeI op c n v) = c := by
  simp only [fieldC, encodeI, BitVec.getLsbD_append, BitVec.getLsbD_ofBool]
  simp

@[simp] theorem fieldN_encodeI : fieldN (encodeI op c n v) = n :=
  (extractLsb'_append_upper _ v 0 5).trans BitVec.extractLsb'_append_eq_right

@[simp] theorem fieldV_encodeI : fieldV (encodeI op c n v) = v :=
  BitVec.extractLsb'_append_eq_right

@[simp] theorem fieldSlot_encodeS : fieldSlot (encodeS op slot) = slot :=
  BitVec.extractLsb'_append_eq_right

@[simp] theorem fieldC_encodeB : fieldC (encodeB op c h m) = c := by
  simp only [fieldC, encodeB, BitVec.getLsbD_append, BitVec.getLsbD_ofBool]
  simp

@[simp] theorem fieldH_encodeB : fieldH (encodeB op c h m) = h := by
  simp only [fieldH, encodeB, BitVec.getLsbD_append, BitVec.getLsbD_ofBool]
  simp

@[simp] theorem fieldM_encodeB : fieldM (encodeB op c h m) = m := by
  simp only [fieldM, encodeB, BitVec.getLsbD_append, BitVec.getLsbD_ofBool]
  simp

@[simp] theorem fieldK_encodeR : fieldK (encodeR op k) = k :=
  BitVec.extractLsb'_append_eq_right

@[simp] theorem fieldByte_encodeY : fieldByte (encodeY op byte) = byte :=
  BitVec.extractLsb'_append_eq_right

/-! ### Encoding the fields of a word gives the opcode and the word's bits at those fields

A row need not use every flag of its format, so the flags it uses are a parameter. -/

theorem encodeM_fields : encodeM op (c && fieldC w) (b && fieldB w) (fieldCtx w) =
    encodeN op ||| (w &&& encodeM 0#8 c b (BitVec.allOnes 8)) := by
  apply BitVec.eq_of_getLsbD_eq
  simp only [encodeM, encodeN, fieldC, fieldB, fieldCtx, BitVec.getLsbD_append, BitVec.getLsbD_or, BitVec.getLsbD_and,
    BitVec.getLsbD_extractLsb', BitVec.getLsbD_allOnes, BitVec.getLsbD_ofBool, BitVec.getLsbD_zero]
  grind

theorem encodeI_fields : encodeI op (c && fieldC w) (fieldN w) (v &&& fieldV w) =
    encodeN op ||| (w &&& encodeI 0#8 c (BitVec.allOnes 5) v) := by
  apply BitVec.eq_of_getLsbD_eq
  simp only [encodeI, encodeN, fieldC, fieldN, fieldV, BitVec.getLsbD_append, BitVec.getLsbD_or, BitVec.getLsbD_and,
    BitVec.getLsbD_extractLsb', BitVec.getLsbD_allOnes, BitVec.getLsbD_ofBool, BitVec.getLsbD_zero]
  grind

theorem encodeB_fields : encodeB op (c && fieldC w) (h && fieldH w) (m && fieldM w) =
    encodeN op ||| (w &&& encodeB 0#8 c h m) := by
  apply BitVec.eq_of_getLsbD_eq
  simp only [encodeB, encodeN, fieldC, fieldH, fieldM, BitVec.getLsbD_append, BitVec.getLsbD_or, BitVec.getLsbD_and,
    BitVec.getLsbD_ofBool, BitVec.getLsbD_zero]
  grind

theorem encodeR_fields : encodeR op (fieldK w) = encodeN op ||| (w &&& encodeR 0#8 (BitVec.allOnes 24)) := by
  apply BitVec.eq_of_getLsbD_eq
  simp only [encodeR, encodeN, fieldK, BitVec.getLsbD_append, BitVec.getLsbD_or, BitVec.getLsbD_and,
    BitVec.getLsbD_extractLsb', BitVec.getLsbD_allOnes, BitVec.getLsbD_zero]
  grind

/-- The formats S and Y: the opcode, `z` zeros and one operand of `n` bits. -/
theorem lowOperand_field {p z n : Nat} (op : BitVec p) (w : BitVec (p + z + n)) :
    op ++ 0#z ++ w.extractLsb' 0 n = (op ++ 0#z ++ 0#n) ||| (w &&& (0#p ++ 0#z ++ BitVec.allOnes n)) := by
  apply BitVec.eq_of_getLsbD_eq
  simp only [BitVec.getLsbD_append, BitVec.getLsbD_or, BitVec.getLsbD_and, BitVec.getLsbD_extractLsb',
    BitVec.getLsbD_allOnes, BitVec.getLsbD_zero]
  grind

end Fields

/-! ### The rows of R80 -/

section Rows

variable {op : Op} {w : Word}

theorem encode_opcode (i : Instr) : opOfCode ((encode i).extractLsb' 24 8).toNat = some (rowOf i) := by
  cases i with
  | nop => exact EncodeRow.nop
  | srst => exact EncodeRow.srst
  | mrst => exact EncodeRow.mrst
  | mrst1 ctx => exact EncodeRow.mrst1 ctx
  | mupd b ctx => exact EncodeRow.mupd b ctx
  | mrate b ctx => exact EncodeRow.mrate b ctx
  | rclr => exact EncodeRow.rclr
  | snap slot => exact EncodeRow.snap slot
  | rest slot => exact EncodeRow.rest slot
  | einit m => exact EncodeRow.einit m
  | encb c b ctx => exact EncodeRow.encb c b ctx
  | enci c n v => exact EncodeRow.enci c n v
  | efin => exact EncodeRow.efin
  | dinit m => exact EncodeRow.dinit m
  | decb ctx => exact EncodeRow.decb ctx
  | deci n => exact EncodeRow.deci n
  | dfin => exact EncodeRow.dfin
  | enblk c h => exact EncodeRow.enblk c h
  | deblk h => exact EncodeRow.deblk h
  | tfwd => exact EncodeRow.tfwd
  | tinv => exact EncodeRow.tinv
  | tflush => exact EncodeRow.tflush
  | csput byte => exact EncodeRow.csput byte
  | csget => exact EncodeRow.csget
  | csrw k => exact EncodeRow.csrw k

theorem rowOf_instrOf (op : Op) (w : Word) : rowOf (instrOf op w) = op := by cases op <;> rfl

/-- Reading the operands of an encoded command by its row gives the command back. -/
theorem instrOf_encode (i : Instr) : instrOf (rowOf i) (encode i) = i := by
  cases i <;> simp [rowOf, instrOf, encode]

/-- `match` has no bit outside `mask` (R80). -/
theorem opMatch_and_opMask (op : Op) : opMatch op &&& opMask op = opMatch op := by cases op <;> rfl

/-- The operands a row reads are exactly the bits its mask leaves free, and its other bits are `match`. -/
theorem encode_instrOf (op : Op) (w : Word) : encode (instrOf op w) = opMatch op ||| (w &&& ~~~opMask op) := by
  cases op with
  | nop | srst | mrst | rclr | efin | dfin | tfwd | tinv | tflush | csget =>
    simp [instrOf, encode, encodeN, opMatch, opMask]
  | mrst1 | decb => exact encodeM_fields _ false false w
  | mupd | mrate => exact encodeM_fields _ false true w
  | encb => exact encodeM_fields _ true true w
  | einit | dinit => exact encodeB_fields _ false false true w
  | enblk => exact encodeB_fields _ true true false w
  | deblk => exact encodeB_fields _ false true false w
  | enci => exact (congrArg (encodeI _ _ _) BitVec.allOnes_and.symm).trans (encodeI_fields _ true _ w)
  | deci => exact (congrArg (encodeI _ _ _) BitVec.zero_and.symm).trans (encodeI_fields _ false _ w)
  | snap | rest => exact lowOperand_field (z := 20) (n := 4) _ w
  | csput => exact lowOperand_field (z := 16) (n := 8) _ w
  | csrw => exact encodeR_fields _ w

/-- A word has the value `v` under a mask exactly when `v` and the word's unmasked bits make up the word. -/
theorem and_mask_eq_iff {n : Nat} {x v mask : BitVec n} (hv : v &&& mask = v) :
    x &&& mask = v ↔ v ||| (x &&& ~~~mask) = x := by
  constructor
  · rintro rfl
    rw [← BitVec.and_or_distrib_left]
    simp
  · intro h
    have hout : x &&& ~~~mask &&& mask = 0#n := by simp [BitVec.and_assoc]
    rw [← h, BitVec.and_or_distrib_right, hv, hout, BitVec.or_zero]

/-- The criterion of R80: a word passes a row's mask exactly when it encodes what the row reads from it. -/
theorem masked_iff_encode_instrOf : w &&& opMask op = opMatch op ↔ encode (instrOf op w) = w := by
  rw [encode_instrOf]
  exact and_mask_eq_iff (opMatch_and_opMask op)

end Rows

end Sys2Proof

/-! PROOF. Decoding and encoding are inverse, and the table decides which words are legal (30_encoding.md R80, R81). -/

namespace Sys2Proof

open Sys2Proof.Laws

section Inverse

variable {w : Word} {i : Instr}

/-- A word the decoder accepts passes the mask of one row and is read by it. -/
theorem decode_ok (h : decode w = .ok i) : ∃ op, w &&& opMask op = opMatch op ∧ instrOf op w = i := by
  unfold decode at h
  split at h
  · cases h
  · split at h
    · cases h
      exact ⟨_, ‹_›, rfl⟩
    · cases h

/-- Settles O1: the opcode selects the command's row, whose fields hold the operands. -/
theorem decodeOfEncode : Obligations.DecodeOfEncode := by
  intro i
  have hread := instrOf_encode i
  have hmask : encode i &&& opMask (rowOf i) = opMatch (rowOf i) :=
    masked_iff_encode_instrOf.mpr (congrArg encode hread)
  simp only [decode, encode_opcode, hmask, if_true, hread]

/-- Settles O2, by the criterion of R80. -/
theorem encodeOfDecode : Obligations.EncodeOfDecode := by
  intro w i h
  obtain ⟨op, hmask, rfl⟩ := decode_ok h
  exact masked_iff_encode_instrOf.mp hmask

/-- The legal words are the encodings. -/
theorem decode_eq_ok_iff : decode w = .ok i ↔ encode i = w :=
  ⟨encodeOfDecode w i, fun h => h ▸ decodeOfEncode i⟩

/-- Settles O3: both sides say that `w` encodes what the row reads from it. -/
theorem maskAndMatchDecide : Obligations.MaskAndMatchDecide := fun _ _ =>
  masked_iff_encode_instrOf.trans decode_eq_ok_iff.symm

/-- Settles O4: each word is the command's encoding. -/
theorem sampleWordsDecode : Obligations.SampleWordsDecode := by
  simp only [Obligations.SampleWordsDecode, decode_eq_ok_iff]
  decide

end Inverse

end Sys2Proof

/-! PROOF. Illegal words and operands out of range (30_encoding.md R79, R81; 60_exceptions.md R182). -/

namespace Sys2Proof.Machine

open Sys2Proof.Claims

section EncodingFaults

variable {s : State}

/-- The command step of a word the decoder rejects (45_system_codestream.md R176). -/
theorem cmdWrite_of_illegal {w : Word} {e : Illegal} (hf : s.fault = false) (he : decode w = .error e) :
    cmdWrite w s = .next (faulted s 1#8 w) := by
  simp only [cmdWrite, hf, he, Bool.false_eq_true, if_false]
  rfl

/-- Settles O5: a word the decoder accepts passes a row's mask, and one that passes is accepted. -/
theorem illegalWordsFault : Obligations.IllegalWordsFault := by
  refine fun w s hf => ⟨fun hno => ?_, fun ⟨op, hmask⟩ => ?_⟩
  · cases hd : decode w with
    | error e => exact cmdWrite_of_illegal hf hd
    | ok i =>
      obtain ⟨op, hmask, -⟩ := decode_ok hd
      exact absurd hmask (hno op)
  · have hd := (maskAndMatchDecide op w).mp hmask
    exact ⟨_, hd, cmdWrite_of_decode hf hd⟩

theorem operandLength_eq_zero_iff {n : BitVec 5} : n = 0#5 ↔ ¬1 ≤ n.toNat := by
  rw [BitVec.toNat_eq, Nat.not_le, Nat.lt_one_iff]
  rfl

theorem enci_wellFormed_eq_false {c : Bool} {n : BitVec 5} {v : BitVec 16} :
    (Instr.enci c n v).wellFormed = false ↔ n = 0#5 ∨ 16 < n.toNat ∨ 2 ^ n.toNat ≤ v.toNat := by
  simp only [Instr.wellFormed, Bool.and_eq_false_iff, decide_eq_false_iff_not, operandLength_eq_zero_iff, Nat.not_le,
    Nat.not_lt, or_assoc]

theorem deci_wellFormed_eq_false {n : BitVec 5} :
    (Instr.deci n).wellFormed = false ↔ n = 0#5 ∨ 16 < n.toNat := by
  simp only [Instr.wellFormed, Bool.and_eq_false_iff, decide_eq_false_iff_not, operandLength_eq_zero_iff, Nat.not_le]

/-- An admitted command passes its mode check, and its range check is `Instr.wellFormed` (30_encoding.md R79). -/
theorem exec_outOfRange {i : Instr} (hwf : i.wellFormed = false) (hadm : admits s.mode i = true) :
    exec i s = .next (faulted s 3#8 (encode i)) := by
  cases i with
  | mrst1 ctx | mupd b ctx | mrate b ctx => exact if_pos (Nat.not_lt.mp (of_decide_eq_false hwf))
  | encb c b ctx =>
    exact (if_neg (costOnly_admitted.mp hadm)).trans (if_pos (Nat.not_lt.mp (of_decide_eq_false hwf)))
  | decb ctx =>
    exact (if_neg (not_not.mpr (of_decide_eq_true hadm))).trans (if_pos (Nat.not_lt.mp (of_decide_eq_false hwf)))
  | enci c n v =>
    exact (if_neg (costOnly_admitted.mp hadm)).trans (if_pos (enci_wellFormed_eq_false.mp hwf))
  | deci n =>
    exact (if_neg (not_not.mpr (of_decide_eq_true hadm))).trans (if_pos (deci_wellFormed_eq_false.mp hwf))
  | _ => cases hwf

/-- Settles O32, by the order of the two checks. -/
theorem operandRangeFaults : Obligations.OperandRangeFaults := fun _ _ => exec_outOfRange

end EncodingFaults

end Sys2Proof.Machine

/-! PROOF. Commands that only write fields of the state: the bank resets, the snapshots, the plain and the codestream
commands (40_model_bank.md R97 to R103; 44_transform.md R163; 45_system_codestream.md R170 to R174). -/

namespace Sys2Proof.Machine

open Sys2Proof.Claims

section PlainCommands

variable {s : State}

/-- Settles O12, by the definition of the reset. -/
theorem modelResetCommands : Obligations.ModelResetCommands := fun _ =>
  ⟨rfl, fun _ hc => if_neg (Nat.not_le.mpr hc)⟩

/-! Snapshots. -/

theorem exec_snap {k : BitVec 4} (hk : k.toNat < s.par.nslot) :
    exec (.snap k) s = .next (retire { s with slots := s.slots.setIfInBounds k.toNat (some s.bank) }) :=
  if_neg (Nat.not_le.mpr hk)

/-- `REST` of a slot that the machine has goes by the slot's valid bit (40_model_bank.md R103). -/
theorem exec_rest_of_valid {k : BitVec 4} (hk : k.toNat < s.par.nslot) {b : Bank}
    (hb : s.slots.getD k.toNat none = some b) : exec (.rest k) s = .next (retire { s with bank := b }) := by
  simp only [exec, execRest, if_neg (Nat.not_le.mpr hk), hb]
  rfl

theorem exec_rest_of_invalid {k : BitVec 4} (hk : k.toNat < s.par.nslot)
    (hb : s.slots.getD k.toNat none = none) : exec (.rest k) s = .next (faulted s 4#8 (k.setWidth 32)) := by
  simp only [exec, execRest, if_neg (Nat.not_le.mpr hk), hb]
  rfl

theorem getD_setIfInBounds_self {α : Type} {n k : Nat} (v : Vector α n) (x d : α) (hk : k < n) :
    (v.setIfInBounds k x).getD k d = x := by
  simp [Vector.getD, hk]

/-- Settles O16: a slot number has 4 bits, so each of them names a place of `slots`. -/
theorem snapAndRest : Obligations.SnapAndRest := by
  refine fun s k => ⟨fun hk => ⟨exec_snap hk, fun b hb => exec_rest_of_valid hk hb,
    fun hb => exec_rest_of_invalid hk hb, fun t u ht hslots hpar => ?_⟩,
    fun hk => ⟨if_pos hk, if_pos hk⟩⟩
  obtain rfl := Host.Outcome.next.inj ((exec_snap hk).symm.trans ht)
  have hvalid : u.slots.getD k.toNat none = some s.bank := by
    rw [hslots]
    exact getD_setIfInBounds_self s.slots (some s.bank) none k.isLt
  exact exec_rest_of_valid (hpar ▸ hk) hvalid

/-! Codestream. -/

theorem srcNext_of_byte {b : Byte} (hb : s.inp[s.cur]? = some b) :
    srcNext s = some (b, { s with cur := s.cur + 1 }) := by
  simp only [srcNext, hb]

theorem srcNext_of_end (h : s.inp.length ≤ s.cur) : srcNext s = none := by
  simp only [srcNext, List.getElem?_eq_none h]

theorem exec_csget_of_byte (hm : s.mode ≠ .dec) {b : Byte} (hb : s.inp[s.cur]? = some b) :
    exec .csget s = .next (retire { s with result := b.setWidth 32, cur := s.cur + 1 }) := by
  simp only [exec, execCsget, if_neg hm, srcNext_of_byte hb]
  rfl

theorem exec_csget_of_end (hm : s.mode ≠ .dec) (h : s.inp.length ≤ s.cur) :
    exec .csget s = .next (faulted s 7#8 0x61000000#32) := by
  simp only [exec, execCsget, if_neg hm, srcNext_of_end h]
  rfl

/-- Settles O51: each guard of a command decides which of its results is taken. -/
theorem plainAndCodestreamCommands : Obligations.PlainAndCodestreamCommands := by
  refine fun s => ⟨rfl, rfl, rfl, fun b hm => if_neg hm, fun hm => ⟨fun b hb => exec_csget_of_byte hm hb,
    exec_csget_of_end hm, fun k => ⟨fun hk => ?_, fun hk => ?_⟩⟩⟩
  · exact (if_neg hm).trans (if_neg (Nat.not_lt.mpr hk))
  · exact (if_neg hm).trans (if_pos hk)

end PlainCommands

end Sys2Proof.Machine

/-! PROOF. Coding for real and pricing: the bank both leave (41_arith_encoder.md R115; 43_bitplane.md R143), and the
cost-only bit (R117). -/

namespace Sys2Proof.Machine

open Sys2Proof.Claims

section SameBank

/-- What the coder's walk looks at is the same: the bank and block memory. -/
structure SameBank (s t : State) : Prop where
  bank : s.bank = t.bank
  mem : s.mem = t.mem

variable {s t u : State}

theorem memRead_congr (h : s.mem = t.mem) (a : Nat) : memRead s a = memRead t a := by
  rw [memRead, memRead, h]

/-- A coded bit and a priced bit update the same model (41_arith_encoder.md R115). -/
theorem codeBit_sameBank (c : Nat) (b k l : Bool) (h : SameBank s t) :
    SameBank (codeBit c b k s) (codeBit c b l t) where
  bank := by
    rw [codeBit_bank, codeBit_bank, update, update, bankSet_bank, bankSet_bank, bankGet_congr h.bank, h.bank]
  mem := by
    rw [codeBit_onlyEncoder c b k s, codeBit_onlyEncoder c b l t]
    exact h.mem

theorem codeInt_sameBank (n v : Nat) (k l : Bool) (h : SameBank s t) :
    SameBank (codeInt n v k s) (codeInt n v l t) := by
  induction n generalizing s t with
  | zero => exact h
  | succ n ih => exact ih (codeBit_sameBank _ _ k l h)

theorem encTerminal_sameBank (blk : Block) (inf : Nat) (pos : Axes Nat) (p : Nat) (k l : Bool) (h : SameBank s t) :
    SameBank (encTerminal blk inf pos p k s) (encTerminal blk inf pos p l t) := by
  unfold encTerminal
  dsimp only
  rw [memRead_congr h.mem]
  have hbits := List.foldl_rel (l := planesDown p inf) h fun q _ _ _ huv =>
    codeBit_sameBank (ctxMag q) (magnitudeBit (memRead t (blk.addr pos)) q) k l huv
  split
  · exact codeBit_sameBank _ _ k l hbits
  · exact hbits

theorem chooseFlag_congr (h : s.mem = t.mem) (blk : Block) (inf : Nat) (b : Sub) (p : Nat) :
    chooseFlag blk inf b p s = chooseFlag blk inf b p t := by
  have hmax : maxMagnitude blk b s = maxMagnitude blk b t := by simp only [maxMagnitude, memRead_congr h]
  simp only [chooseFlag, hmax]

/-- The walk decides by block memory alone, so that pricing takes the same path as coding (43_bitplane.md R143). -/
theorem walkEncLoop_sameBank (blk : Block) (inf : Nat) (k l : Bool) (n : Nat) (b : Sub) (p : Int)
    (h : SameBank s t) : SameBank (walkEncLoop blk inf k n b p s) (walkEncLoop blk inf l n b p t) := by
  induction n generalizing b p s t with
  | zero => exact h
  | succ n ih =>
    unfold walkEncLoop
    rw [chooseFlag_congr h.mem]
    split
    · exact h
    · split
      · exact encTerminal_sameBank blk inf b.pos _ k l h
      · split
        · exact codeBit_sameBank _ _ k l h
        · exact ih _ _ (codeBit_sameBank _ _ k l (codeBit_sameBank _ _ k l h))
        · exact List.foldl_rel (codeBit_sameBank _ _ k l (codeBit_sameBank _ _ k l h))
            fun child _ _ _ huv => ih child p huv

theorem codeBlock_sameBank (k l hd : Bool) (s : State) : SameBank (codeBlock k hd s) (codeBlock l hd s) := by
  unfold codeBlock walkEnc
  refine walkEncLoop_sameBank _ _ k l _ _ _ ?_
  split
  · exact codeInt_sameBank _ _ k l ⟨rfl, rfl⟩
  · exact ⟨rfl, rfl⟩

/-! The commands. -/

/-- An admitted `ENCB` or `ENCI` whose operands are in range retires. -/
theorem exec_encb {c b : Bool} {ctx : BitVec 8} (hadm : admits s.mode (.encb c b ctx) = true)
    (hwf : (Instr.encb c b ctx).wellFormed = true) :
    exec (.encb c b ctx) s = .next (retire (codeBit ctx.toNat b c s)) :=
  (if_neg (costOnly_admitted.mp hadm)).trans (if_neg (Nat.not_le.mpr (of_decide_eq_true hwf)))

theorem exec_enci {c : Bool} {n : BitVec 5} {v : BitVec 16} (hadm : admits s.mode (.enci c n v) = true)
    (hwf : (Instr.enci c n v).wellFormed = true) :
    exec (.enci c n v) s = .next (retire (codeInt n.toNat v.toNat c s)) :=
  (if_neg (costOnly_admitted.mp hadm)).trans
    (if_neg fun hbad => Bool.eq_false_iff.mp (enci_wellFormed_eq_false.mpr hbad) hwf)

theorem exec_enblk {c hd : Bool} (hadm : admits s.mode (.enblk c hd) = true)
    (hc : enblkCheck (encode (.enblk c hd)) s = none) :
    exec (.enblk c hd) s = .next (retire (codeBlock c hd s)) := by
  simp only [exec, execEnblk, if_neg (costOnly_admitted.mp hadm), hc]
  rfl

/-- The checks of `ENBLK` after the mode's pass where each of them passes (43_bitplane.md R137). -/
theorem enblkCheck_eq_none_iff (w : Word) (s : State) :
    enblkCheck w s = none ↔ blockCheck w s = none ∧ planeCheck s = none ∧
      firstOutOfRange (currentBlock s) s.sup.toNat s = none := by
  unfold enblkCheck
  split
  · simp [*]
  · split
    · simp [*]
    · split <;> simp [*]

/-- The command's word is only reported by `ENBLK`'s checks, it does not decide them. -/
theorem enblkCheck_word (v w : Word) (s : State) : enblkCheck v s = none ↔ enblkCheck w s = none := by
  simp only [enblkCheck_eq_none_iff, blockCheck_eq_none_iff]

/-- Two commands that retire from states with the same bank leave the same bank. -/
theorem bank_eq_of_retired {i j : Instr} {v w : State} (hi : exec i s = .next (retire v))
    (hj : exec j s = .next (retire w)) (h : SameBank v w) (ht : exec i s = .next t) (hu : exec j s = .next u) :
    t.bank = u.bank := by
  cases hi.symm.trans ht
  cases hj.symm.trans hu
  exact h.bank

/-- Two commands that take a precise fault leave the bank. -/
theorem bank_eq_of_faulted {i j : Instr} {e d : BitVec 8} {v w : Word} (hi : exec i s = .next (faulted s e v))
    (hj : exec j s = .next (faulted s d w)) (ht : exec i s = .next t) (hu : exec j s = .next u) :
    t.bank = u.bank := by
  cases hi.symm.trans ht
  cases hj.symm.trans hu
  rfl

/-- Settles O21: `CodeBit` with `C = 1` is `Cost`, which every mode admits. -/
theorem costOnlyBit : Obligations.CostOnlyBit := fun _ _ _ hc => exec_encb rfl (decide_eq_true hc)

/-- Settles O40: both commands take the same fault or code the same bits. -/
theorem costAndRealAgreeOnBank : Obligations.CostAndRealAgreeOnBank := by
  intro s t u hm
  refine ⟨fun b ctx => ?_, fun n v => ?_, fun hd => ?_⟩
  · have hreal : admits s.mode (.encb false b ctx) = true := decide_eq_true hm
    cases hwf : (Instr.encb true b ctx).wellFormed with
    | false => exact bank_eq_of_faulted (exec_outOfRange hwf rfl) (exec_outOfRange hwf hreal)
    | true =>
      exact bank_eq_of_retired (exec_encb rfl hwf) (exec_encb hreal hwf) (codeBit_sameBank _ b _ _ ⟨rfl, rfl⟩)
  · have hreal : admits s.mode (.enci false n v) = true := decide_eq_true hm
    cases hwf : (Instr.enci true n v).wellFormed with
    | false => exact bank_eq_of_faulted (exec_outOfRange hwf rfl) (exec_outOfRange hwf hreal)
    | true =>
      exact bank_eq_of_retired (exec_enci rfl hwf) (exec_enci hreal hwf) (codeInt_sameBank _ _ _ _ ⟨rfl, rfl⟩)
  · have hreal : admits s.mode (.enblk false hd) = true := decide_eq_true hm
    have hsame := enblkCheck_word (encode (.enblk true hd)) (encode (.enblk false hd)) s
    by_cases hc : enblkCheck (encode (.enblk true hd)) s = none
    · exact bank_eq_of_retired (exec_enblk rfl hc) (exec_enblk hreal (hsame.mp hc)) (codeBlock_sameBank _ _ hd s)
    · obtain ⟨f, hf⟩ := Option.ne_none_iff_exists'.mp hc
      obtain ⟨g, hg⟩ := Option.ne_none_iff_exists'.mp (mt hsame.mpr hc)
      exact bank_eq_of_faulted (exec_of_walkerCheck (i := .enblk true hd) rfl hf)
        (exec_of_walkerCheck (i := .enblk false hd) hreal hg)

end SameBank

end Sys2Proof.Machine

/-! SUPPORT. `LOG2Q` against the binary logarithm it approximates: the loop of R94 squares a mantissa, truncates, and
keeps the integer digit of twice the logarithm (40_model_bank.md R94). -/

namespace Sys2Proof.Machine

section LogarithmBounds

/-- A mantissa of R94, as the 1.30 fixed-point number it is, lies in `[1, 2)`. -/
abbrev isMantissa (x : Nat) : Prop := 2 ^ 30 ≤ x ∧ x < 2 ^ 31

/-- The binary logarithm of a mantissa of R94. -/
noncomputable def mantissaLog (x : Nat) : ℝ := Real.logb 2 ((x : ℝ) / 2 ^ 30)

theorem logb_two_pow (n : Nat) : Real.logb 2 ((2 : ℝ) ^ n) = n := by
  rw [Real.logb_pow, Real.logb_self_eq_one one_lt_two, mul_one]

theorem mantissaLog_range {x : Nat} (hx : isMantissa x) : 0 ≤ mantissaLog x ∧ mantissaLog x < 1 := by
  have hlow : (2 ^ 30 : ℝ) ≤ x := by exact_mod_cast hx.1
  have hhigh : (x : ℝ) < 2 ^ 31 := by exact_mod_cast hx.2
  refine ⟨Real.logb_nonneg one_lt_two (by linarith), ?_⟩
  rw [mantissaLog, Real.logb_lt_iff_lt_rpow one_lt_two (by linarith), Real.rpow_one]
  linarith

/-- Dropping the fraction of a number from `2^30` on lowers its logarithm by less than `2^-29`. -/
theorem mantissaLog_floor {p : ℝ} {z : Nat} (hz : 2 ^ 30 ≤ z) (hlow : (z : ℝ) ≤ p) (hhigh : p < z + 1) :
    mantissaLog z ≤ Real.logb 2 (p / 2 ^ 30) ∧ Real.logb 2 (p / 2 ^ 30) ≤ mantissaLog z + 1 / 2 ^ 29 := by
  have hzr : (2 ^ 30 : ℝ) ≤ z := by exact_mod_cast hz
  have hzpos : (0 : ℝ) < z := by linarith
  have hppos : 0 < p := hzpos.trans_le hlow
  have hdiff : Real.logb 2 (p / 2 ^ 30) - mantissaLog z = Real.log (p / z) / Real.log 2 := by
    rw [mantissaLog, Real.logb_div hppos.ne' (by norm_num), Real.logb_div hzpos.ne' (by norm_num),
      sub_sub_sub_cancel_right, ← Real.logb_div hppos.ne' hzpos.ne', Real.logb]
  have hlog0 : 0 ≤ Real.log (p / z) := Real.log_nonneg ((one_le_div hzpos).mpr hlow)
  have hlog1 : Real.log (p / z) ≤ 1 / 2 ^ 30 :=
    calc Real.log (p / z) ≤ p / z - 1 := Real.log_le_sub_one_of_pos (div_pos hppos hzpos)
      _ = (p - z) / z := by rw [sub_div, div_self hzpos.ne']
      _ ≤ 1 / 2 ^ 30 := div_le_div₀ zero_le_one (by linarith) (by norm_num) hzr
  have htwo := Real.log_two_gt_d9
  have hquot : Real.log (p / z) / Real.log 2 ≤ 1 / 2 ^ 29 := by
    rw [div_le_iff₀ (by linarith)]
    linarith
  have hquot0 : 0 ≤ Real.log (p / z) / Real.log 2 := div_nonneg hlog0 (by linarith)
  constructor <;> linarith

/-- One squaring of R94, truncated, with `j` the digit it gives: twice the logarithm but for less than `2^-29`. -/
theorem mantissaLog_square {x : Nat} (hx : isMantissa x) (j : Nat) (hz : 2 ^ 30 ≤ x * x / 2 ^ (30 + j)) :
    j + mantissaLog (x * x / 2 ^ (30 + j)) ≤ 2 * mantissaLog x ∧
      2 * mantissaLog x ≤ j + mantissaLog (x * x / 2 ^ (30 + j)) + 1 / 2 ^ 29 := by
  have hxpos : (x : ℝ) ≠ 0 := Nat.cast_ne_zero.mpr (by omega)
  have hfloor : ⌊((x * x : Nat) : ℝ) / (2 ^ (30 + j) : Nat)⌋₊ = x * x / 2 ^ (30 + j) := Nat.floor_div_eq_div _ _
  have hlow := Nat.floor_le (a := ((x * x : Nat) : ℝ) / (2 ^ (30 + j) : Nat)) (by positivity)
  have hhigh := Nat.lt_floor_add_one (((x * x : Nat) : ℝ) / (2 ^ (30 + j) : Nat))
  rw [hfloor] at hlow hhigh
  have hdouble : 2 * mantissaLog x =
      j + Real.logb 2 (((x * x : Nat) : ℝ) / (2 ^ (30 + j) : Nat) / 2 ^ 30) := by
    push_cast
    rw [mantissaLog, Real.logb_div hxpos (by norm_num), Real.logb_div (by positivity) (by norm_num),
      Real.logb_div (by positivity) (by positivity), Real.logb_mul hxpos hxpos, logb_two_pow, logb_two_pow]
    push_cast
    ring
  obtain ⟨h1, h2⟩ := mantissaLog_floor hz hlow hhigh
  rw [hdouble]
  constructor <;> linarith

/-- A round of R94 appends the digit `j` and goes on from the truncated square, a mantissa again. -/
theorem log2Loop_succ {x : Nat} (hx : isMantissa x) (n f : Nat) : ∃ j, isMantissa (x * x / 2 ^ (30 + j)) ∧
    log2Loop (n + 1) x f = log2Loop n (x * x / 2 ^ (30 + j)) (2 * f + j) := by
  have hlow : 2 ^ 30 * 2 ^ 30 ≤ x * x := Nat.mul_le_mul hx.1 hx.1
  have hhigh : x * x < 2 ^ 31 * 2 ^ 31 := Nat.mul_lt_mul'' hx.2 hx.2
  by_cases hy : 2 ^ 31 ≤ x * x / 2 ^ 30
  · refine ⟨1, by simp only [isMantissa]; omega, ?_⟩
    rw [log2Loop]
    simp only [if_pos hy, Nat.div_div_eq_div_mul, ← pow_succ]
  · refine ⟨0, by simp only [isMantissa]; omega, ?_⟩
    rw [log2Loop]
    simp only [if_neg hy, Nat.add_zero]

/-- `n` rounds of R94 give `n` binary digits of the logarithm, but for the truncations of the squares. -/
theorem log2Loop_bounds (n : Nat) {x : Nat} (hx : isMantissa x) (f : Nat) :
    (log2Loop n x f : ℝ) ≤ 2 ^ n * (f + mantissaLog x) ∧
      2 ^ n * (f + mantissaLog x) < log2Loop n x f + 1 + (2 ^ n - 1) / 2 ^ 29 := by
  induction n generalizing x f with
  | zero =>
    obtain ⟨h0, h1⟩ := mantissaLog_range hx
    simp only [log2Loop]
    constructor <;> linarith
  | succ n ih =>
    obtain ⟨j, hz, hloop⟩ := log2Loop_succ hx n f
    obtain ⟨hlow, hhigh⟩ := ih hz (2 * f + j)
    obtain ⟨hsq1, hsq2⟩ := mantissaLog_square hx j hz.1
    rw [hloop]
    push_cast at hlow hhigh
    have hpos : (0 : ℝ) < 2 ^ n := by positivity
    have hup := mul_le_mul_of_nonneg_left hsq1 hpos.le
    have hdown := mul_le_mul_of_nonneg_left hsq2 hpos.le
    rw [pow_succ]
    constructor <;> linarith

/-- The mantissa R94 starts from, and its logarithm. -/
theorem mantissa_start {k : Nat} (hk : 1 ≤ k) (hk31 : k < 2 ^ 31) :
    isMantissa (k * 2 ^ (30 - k.log2)) ∧ mantissaLog (k * 2 ^ (30 - k.log2)) = Real.logb 2 k - k.log2 := by
  have hk0 : k ≠ 0 := by omega
  have hexp : k.log2 ≤ 30 := Nat.lt_succ_iff.mp ((Nat.log2_lt hk0).mpr hk31)
  have hlow := Nat.mul_le_mul_right (2 ^ (30 - k.log2)) (Nat.log2_self_le hk0)
  have hhigh := Nat.mul_lt_mul_of_pos_right (Nat.lt_log2_self (n := k)) (Nat.two_pow_pos (30 - k.log2))
  rw [← pow_add] at hlow hhigh
  have hsum : k.log2 + (30 - k.log2) = 30 := by omega
  have hsum' : k.log2 + 1 + (30 - k.log2) = 31 := by omega
  rw [hsum] at hlow
  rw [hsum'] at hhigh
  refine ⟨⟨hlow, hhigh⟩, ?_⟩
  have hscale : ((k * 2 ^ (30 - k.log2) : Nat) : ℝ) / 2 ^ 30 = k / 2 ^ k.log2 := by
    rw [div_eq_div_iff (by positivity) (by positivity)]
    push_cast
    rw [mul_assoc, ← pow_add, Nat.add_comm, hsum]
  rw [mantissaLog, hscale, Real.logb_div (Nat.cast_ne_zero.mpr hk0) (by positivity), logb_two_pow]

/-- `LOG2Q(k)` is `2^16 * log2 k` rounded down, but for `2^-13`. -/
theorem log2q_bounds {k : Nat} (hk : 1 ≤ k) (hk31 : k < 2 ^ 31) :
    (log2q k : ℝ) ≤ 65536 * Real.logb 2 k ∧ 65536 * Real.logb 2 k < log2q k + 1 + 1 / 2 ^ 13 := by
  obtain ⟨hm, hlog⟩ := mantissa_start hk hk31
  obtain ⟨hlow, hhigh⟩ := log2Loop_bounds 16 hm 0
  rw [hlog] at hlow hhigh
  simp only [log2q]
  push_cast at hlow hhigh ⊢
  constructor <;> linarith

/-- Two logarithms of counts up to 4095 lie more than `23 * 2^-16` apart: `log2 (1 + 1/4094)` is a little more. -/
theorem logb_gap {m n : Nat} (hm : 1 ≤ m) (hmn : m < n) (hn : n ≤ 4095) :
    23 + 1 / 2 ^ 13 ≤ 65536 * (Real.logb 2 n - Real.logb 2 m) := by
  have hmpos : (1 : ℝ) ≤ m := by exact_mod_cast hm
  have hmle : (m : ℝ) ≤ 4094 := by exact_mod_cast (by omega : m ≤ 4094)
  have hsucc : (m : ℝ) + 1 ≤ n := by exact_mod_cast hmn
  have hratio : (1 : ℝ) + 1 / 4094 ≤ n / m := by
    rw [le_div_iff₀ (by linarith)]
    linarith
  have hlog : 2 * (1 / 4094) / (1 / 4094 + 2) ≤ Real.log ((n : ℝ) / m) :=
    (Real.le_log_one_add_of_nonneg (by norm_num)).trans (Real.log_le_log (by norm_num) hratio)
  have htwo := Real.log_two_lt_d9
  have htwo0 := Real.log_two_gt_d9
  rw [← Real.logb_div (by linarith) (by linarith), Real.logb, ← mul_div_assoc, le_div_iff₀ (by linarith)]
  linarith

/-- `LOG2Q` rises by at least `0x17` from each count to a greater one (40_model_bank.md R94, R95). -/
theorem log2q_gap {m n : Nat} (hm : 1 ≤ m) (hmn : m < n) (hn : n ≤ 4095) : log2q m + 23 ≤ log2q n := by
  obtain ⟨hup, -⟩ := log2q_bounds hm (by omega)
  obtain ⟨-, hdown⟩ := log2q_bounds (hm.trans hmn.le) (by omega : n < 2 ^ 31)
  have hgap := logb_gap hm hmn hn
  have hlt : (log2q m : ℝ) + 22 < log2q n := by linarith
  exact_mod_cast hlt

theorem log2q_mono {m n : Nat} (hm : 1 ≤ m) (hmn : m ≤ n) (hn : n ≤ 4095) : log2q m ≤ log2q n := by
  rcases Nat.eq_or_lt_of_le hmn with rfl | hlt
  · exact le_rfl
  · exact (Nat.le_add_right ..).trans (log2q_gap hm hlt hn)

/-- The mantissa 1.0 has only zero digits. -/
theorem log2Loop_one (n : Nat) : log2Loop n (2 ^ 30) 0 = 0 := by
  induction n with
  | zero => rfl
  | succ n ih => exact ih

/-- `LOG2Q` is exact on powers of two (40_model_bank.md R94). -/
theorem log2q_two_pow {e : Nat} (he : e ≤ 30) : log2q (2 ^ e) = e * 65536 := by
  simp only [log2q, Nat.log2_two_pow, ← pow_add, Nat.add_sub_cancel' he, log2Loop_one, Nat.add_zero]

end LogarithmBounds

end Sys2Proof.Machine

/-! PROOF. Rates: `LOG2Q` and `MRATE` (40_model_bank.md R94, R95, R100, R104). -/

namespace Sys2Proof.Machine

section Rates

/-- How often a model has seen the symbol `b`. -/
def Model.count (m : Model) (b : Bool) : Nat := if b then m.t.toNat - m.z.toNat else m.z.toNat

theorem Model.rate_eq (m : Model) (b : Bool) : m.rate b = log2q m.t.toNat - log2q (m.count b) := rfl

/-- Under R15 both symbols have been seen, and neither alone. -/
theorem Model.count_bounds {m : Model} (h : m.ok) (b : Bool) : 1 ≤ m.count b ∧ m.count b < m.t.toNat := by
  obtain ⟨hz, hzt, -⟩ := h
  cases b <;> simp only [Model.count, Bool.false_eq_true, if_true, if_false] <;> omega

/-- The rate of a symbol falls as its count rises (40_model_bank.md R104). -/
theorem Model.rate_lt {m n : Model} {b : Bool} (hm : m.ok) (hn : n.ok) (ht : m.t = n.t)
    (hc : n.count b < m.count b) : m.rate b < n.rate b := by
  obtain ⟨hpos, -⟩ := Model.count_bounds hn b
  obtain ⟨-, hlt⟩ := Model.count_bounds hm b
  obtain ⟨-, -, htop⟩ := hm
  have hgap := log2q_gap hpos hc (by omega)
  rw [Model.rate_eq, Model.rate_eq, ht]
  omega

/-- Settles O15: neighbouring logarithms lie further apart than `LOG2Q` rounds. -/
theorem log2qIncreasing : Obligations.Log2qIncreasing := by
  refine ⟨fun k hk hk' => ?_, fun e he => log2q_two_pow (he.trans (by decide)), fun m n hm hn ht hz => ?_⟩
  · exact lt_of_lt_of_le (Nat.lt_add_of_pos_right (by decide)) (log2q_gap hk (Nat.lt_succ_self k) hk')
  · refine Model.rate_lt hm hn ht ?_
    obtain ⟨-, hzt, -⟩ := hn
    simp only [Model.count, if_true, ht]
    omega

theorem log2q_one : log2q 1 = 0 := log2q_two_pow (e := 0) (by decide)

theorem log2q_4094 : log2q 4094 = 0xBFFD1 := by decide

/-- The bounds of R95: the total lies above either count and is at most 4094. -/
theorem Model.rate_bounds {m : Model} (h : m.ok) (b : Bool) :
    log2q (m.count b) + 0x17 ≤ log2q m.t.toNat ∧ log2q m.t.toNat ≤ 0xBFFD1 := by
  obtain ⟨hpos, hlt⟩ := Model.count_bounds h b
  obtain ⟨-, -, htop⟩ := h
  refine ⟨log2q_gap hpos hlt (by omega), ?_⟩
  rw [← log2q_4094]
  exact log2q_mono (by omega) htop (by decide)

/-- A rate is positive and fits `RATE_OUT`. -/
theorem rateOut_toNat {m : Model} (h : m.ok) (b : Bool) :
    (storeInt 32 (m.rate b)).toNat = log2q m.t.toNat - log2q (m.count b) := by
  obtain ⟨hgap, htop⟩ := Model.rate_bounds h b
  rw [storeInt, BitVec.toNat_ofInt, Model.rate_eq]
  omega

theorem exec_mrate {ctx : BitVec 8} (hc : ctx.toNat < 161) (b : Bool) (s : State) :
    exec (.mrate b ctx) s = .next (retire { s with rateOut := storeInt 32 ((bankGet s ctx.toNat).rate b) }) :=
  if_neg (Nat.not_le.mpr hc)

/-- Settles O14: the difference fits `RATE_OUT`, and R95's bounds are those of the logarithms. -/
theorem mrateResult : Obligations.MrateResult := by
  intro s b ctx hc hm
  obtain ⟨hgap, htop⟩ := Model.rate_bounds hm b
  refine ⟨_, exec_mrate hc b s, ?_⟩
  rw [rateOut_toNat hm b]
  exact ⟨Nat.sub_add_cancel (by omega), by omega, by omega⟩

end Rates

end Sys2Proof.Machine

/-! PROOF. The encoder: `Split`, the renormalisation pass by pass, and its commands one after another
(41_arith_encoder.md R110 to R118; 42_arith_decoder.md R127). -/

namespace Sys2Proof.Machine

open Sys2Proof.Claims

section EncoderPasses

variable {s t : State}

/-! ### `Split` -/

/-- `Split` on natural numbers, for every non-empty interval (41_arith_encoder.md R111). -/
theorem split_eq_splitNat (h : s.low.toNat ≤ s.high.toNat) (c : Nat) : split c s = (splitNat s c : Int) := by
  unfold split splitNat
  push_cast [h]
  rfl

/-- Settles O18, by the bounds of the quotient. -/
theorem splitWithinInterval : Obligations.SplitWithinInterval := by
  intro s c hm hi
  obtain ⟨k, hk, hfour, hhigh⟩ := split_bounds hi hm
  have heq := split_eq_splitNat (s := s) (by omega) c
  have hsplit : k = splitNat s c := by exact_mod_cast hk.symm.trans heq
  exact ⟨heq, by omega, by omega⟩

/-! ### One pass of `EncRenorm` -/

/-- What a pass of R113 does to the output. -/
def emitPass (s : State) : State :=
  match renormCase s.low s.high with
  | .same => emitWithPending s.low.msb s
  | .straddle => { s with pend := s.pend + 1#32 }
  | .settled => s

/-- One pass of the loop of R113; nothing once the interval is settled. -/
def encPass (s : State) : State :=
  { emitPass s with
    low := passed (renormCase s.low s.high) s.low false
    high := passed (renormCase s.low s.high) s.high true }

theorem encPass_settled (h : renormCase s.low s.high = .settled) : encPass s = s := by
  simp only [encPass, emitPass, passed, h]

theorem encRenormLoop_succ (n : Nat) (s : State) : encRenormLoop (n + 1) s = encRenormLoop n (encPass s) := by
  cases hc : renormCase s.low s.high with
  | settled => rw [encPass_settled hc, encRenormLoop_settled hc, encRenormLoop_settled hc]
  | same | straddle => simp only [encRenormLoop, encPass, emitPass, passed, hc]

/-! ### The end of the loop -/

/-- The passes so far have left `i` zeros at the end of `LOW` and `i` ones at the end of `HIGH`. -/
def Aligned (i : Nat) (s : State) : Prop := 2 ^ i ∣ s.low.toNat ∧ 2 ^ i ∣ s.high.toNat + 1

theorem Aligned.zero (s : State) : Aligned 0 s := ⟨one_dvd _, one_dvd _⟩

/-- A pass doubles a register and takes in a bit, up to its top bit. -/
theorem passed_mod {c : Renorm} (hc : c ≠ .settled) (x : BitVec 16) (b : Bool) :
    (passed c x b).toNat % 32768 = (2 * x.toNat + bit b) % 32768 := by
  cases c with
  | same =>
    rw [passed, shiftIn_toNat]
    omega
  | straddle =>
    rw [passed, flipTop_toNat, shiftIn_toNat]
    omega
  | settled => exact absurd rfl hc

theorem encPass_aligned {i : Nat} (hi : i < 15) (hc : renormCase s.low s.high ≠ .settled) (h : Aligned i s) :
    Aligned (i + 1) (encPass s) := by
  obtain ⟨hlow, hhigh⟩ := h
  have hdvd : 2 ^ (i + 1) ∣ 32768 := Nat.pow_dvd_pow 2 (show i + 1 ≤ 15 by omega)
  have hl : (encPass s).low.toNat % 32768 = 2 * s.low.toNat % 32768 := passed_mod hc s.low false
  have hh : (encPass s).high.toNat % 32768 = (2 * s.high.toNat + 1) % 32768 := passed_mod hc s.high true
  have hh1 : ((encPass s).high.toNat + 1) % 32768 = 2 * (s.high.toNat + 1) % 32768 := by omega
  rw [Aligned, ← Nat.dvd_mod_iff hdvd, hl, ← Nat.dvd_mod_iff (m := (encPass s).high.toNat + 1) hdvd, hh1,
    Nat.dvd_mod_iff hdvd, Nat.dvd_mod_iff hdvd, Nat.pow_succ']
  exact ⟨Nat.mul_dvd_mul_left 2 hlow, Nat.mul_dvd_mul_left 2 hhigh⟩

/-- After 15 passes only case (a) is left, and it leaves the whole range. -/
theorem encPass_settles (h : Aligned 15 s) : renormCase (encPass s).low (encPass s).high = .settled := by
  obtain ⟨⟨a, ha⟩, ⟨b, hb⟩⟩ := h
  rcases renormCase_cases s.low s.high with ⟨hcase, hsame⟩ | ⟨-, -, hmid, -⟩ | ⟨hcase, -⟩
  · have hl : (encPass s).low = shiftIn s.low false := by simp only [encPass, passed, hcase]
    have hh : (encPass s).high = shiftIn s.high true := by simp only [encPass, passed, hcase]
    have hlow : (encPass s).low = 0x0000#16 := BitVec.eq_of_toNat_eq <| by
      rw [hl, shiftIn_toNat, ha]
      simp only [bit, Bool.false_eq_true, if_false, BitVec.toNat_ofNat]
      omega
    have hhigh : (encPass s).high = 0xFFFF#16 := BitVec.eq_of_toNat_eq <| by
      rw [hh, shiftIn_toNat]
      simp only [bit, if_true, BitVec.toNat_ofNat]
      omega
    rw [hlow, hhigh]
    rfl
  · omega
  · rw [encPass_settled hcase, hcase]

theorem encRenormLoop_ends (n : Nat) {i : Nat} (hi : i + n = 15) (h : Aligned i s) :
    renormCase (encRenormLoop (n + 1) s).low (encRenormLoop (n + 1) s).high = .settled := by
  induction n generalizing i s with
  | zero =>
    obtain rfl : i = 15 := hi
    rw [encRenormLoop_succ]
    exact encPass_settles h
  | succ n ih =>
    by_cases hc : renormCase s.low s.high = .settled
    · rw [encRenormLoop_settled hc]
      exact hc
    · rw [encRenormLoop_succ]
      exact ih (by omega) (encPass_aligned (by omega) hc h)

/-- Settles O19: the passes fill the registers up with zeros and ones, and a non-empty interval doubles. -/
theorem renormalisationEnds : Obligations.RenormalisationEnds := fun s =>
  ⟨encRenormLoop_ends 15 rfl (Aligned.zero s),
    fun hlh => encRenormLoop_intervalOk renormPasses hlh (renormPasses_suffice hlh)⟩

/-! ### Opening and closing a segment -/

theorem exec_einit (hm : s.mode = .idle) (m : Bool) :
    exec (.einit m) s = .next (retire (openEncoder (if m then resetBank s else s))) :=
  if_neg (not_not_intro hm)

/-- Settles O17: the mode is the one the command asks for. -/
theorem einitAndDfinResults : Obligations.EinitAndDfinResults := by
  refine fun s => ⟨fun m hm => ?_, fun hm => if_neg (not_not_intro hm)⟩
  rw [exec_einit hm]
  cases m <;> rfl

/-! ### Coding a bit for real -/

theorem storeInt_natCast (w v : Nat) : storeInt w (v : Int) = BitVec.ofNat w v := BitVec.ofInt_natCast ..

/-- `narrow` with the split on natural numbers (41_arith_encoder.md R114). -/
theorem narrow_eq (hi : intervalOk s.low s.high) {c : Nat} (hm : (bankGet s c).ok) (b : Bool) :
    narrow c b s = if b then { s with low := BitVec.ofNat 16 (s.low.toNat + splitNat s c) }
      else { s with high := BitVec.ofNat 16 (s.low.toNat + splitNat s c - 1) } := by
  obtain ⟨hsplit, hfour, -⟩ := splitWithinInterval s c hm hi
  have hup : (s.low.toNat : Int) + split c s = ((s.low.toNat + splitNat s c : Nat) : Int) := by
    rw [hsplit, Nat.cast_add]
  have hdown : (s.low.toNat : Int) + split c s - 1 = ((s.low.toNat + splitNat s c - 1 : Nat) : Int) := by omega
  rw [narrow, hdown, hup, storeInt_natCast, storeInt_natCast]

theorem encRenorm_narrow_onlyEncoder (c : Nat) (b : Bool) (s : State) :
    onlyEncoder s (encRenorm (narrow c b s)) :=
  (narrow_onlyEncoder c b s).trans (encRenormLoop_onlyEncoder _ _)

theorem encRenorm_narrow_bank (c : Nat) (b : Bool) (s : State) : (encRenorm (narrow c b s)).bank = s.bank :=
  (encRenormLoop_bank renormPasses (narrow c b s)).trans (narrow_bank c b s)

theorem codeBit_real (c : Nat) (b : Bool) (s : State) : codeBit c b false s = encodeBit c b s :=
  if_neg Bool.false_ne_true

/-- The whole state after a bit coded for real. -/
theorem encodeBit_eq (c : Nat) (b : Bool) (s : State) :
    encodeBit c b s = { encRenorm (narrow c b s) with
      bank := s.bank.setIfInBounds c ((bankGet s c).update b) } := by
  have hbank := encRenorm_narrow_bank c b s
  simp only [encodeBit, update, bankSet, bankGet_congr hbank, hbank]

/-- Settles O20: the split fits, and the bank is what it was until the update. -/
theorem encbResult : Obligations.EncbResult := by
  intro s b ctx hmode hctx hm hi
  refine ⟨encRenorm (narrow ctx.toNat b s), by rw [narrow_eq hi hm], ?_, encodeBit_intervalOk hi hm b⟩
  have hcnt : (encRenorm (narrow ctx.toNat b s)).cmdCnt = s.cmdCnt := by rw [encRenorm_narrow_onlyEncoder ctx.toNat b s]
  have hadm : admits s.mode (.encb false b ctx) = true := decide_eq_true hmode
  rw [exec_encb hadm (decide_eq_true hctx), codeBit_real, encodeBit_eq, retire, hcnt]

/-! ### Frames -/

/-- The sink has grown by as many bytes as `OUTCNT` counts (20_memory.md R57). -/
def sinkGrown (s t : State) : Prop :=
  ∃ bytes, t.out = s.out ++ bytes ∧ t.outCnt = s.outCnt + BitVec.ofNat 32 bytes.length

theorem sinkGrown.refl (s : State) : sinkGrown s s := ⟨[], by simp, by simp⟩

theorem emitBit_sinkGrown (x : Bool) (h : sinkGrown s t) : sinkGrown s (emitBit x t) := by
  unfold emitBit
  dsimp only
  split
  · obtain ⟨bytes, hout, hcnt⟩ := h
    refine ⟨bytes ++ [t.bb <<< 1 ||| BitVec.ofNat 8 (bit x)], ?_, ?_⟩
    · simp [sinkPush, hout]
    · simp [sinkPush, hcnt, BitVec.ofNat_add, BitVec.add_assoc]
  · exact h

/-- What coding for real may do. -/
def realFrame (s t : State) : Prop := onlyEncoder s t ∧ t.rateAcc = s.rateAcc ∧ sinkGrown s t

theorem emitBit_realFrame (x : Bool) (h : realFrame s t) : realFrame s (emitBit x t) := by
  obtain ⟨ho, hr, hg⟩ := h
  exact ⟨ho.trans (emitBit_onlyEncoder x t), (emitBit_rateAcc x t).trans hr, emitBit_sinkGrown x hg⟩

theorem codeBit_realFrame (c : Nat) (b : Bool) (h : realFrame s t) : realFrame s (codeBit c b false t) := by
  obtain ⟨ho, hr, hg⟩ := encRenorm_narrow_preserves (P := realFrame s) (fun x _ hu => emitBit_realFrame x hu)
    (fun u _ _ _ ⟨ho, hr, hg⟩ => ⟨ho.trans (t := u) rfl, hr, hg⟩) c b h
  exact ⟨ho.trans (update_onlyEncoder c b _), hr, hg⟩

/-- What pricing may do. -/
def costFrame (s t : State) : Prop := t = { s with rateAcc := t.rateAcc, bank := t.bank }

theorem costFrame.refl (s : State) : costFrame s s := rfl

theorem codeBit_costFrame (c : Nat) (b : Bool) (h : costFrame s t) : costFrame s (codeBit c b true t) := by
  obtain ⟨r, k, hcost⟩ := cost_eq c b t
  rw [codeBit, if_pos rfl, hcost]
  unfold costFrame at h ⊢
  rw [h]

/-- A retiring coding command keeps what its bits keep. -/
theorem coding_preserves {i : Instr} {c : Bool} {P : State → Prop}
    (hi : (∃ b ctx, i = .encb c b ctx) ∨ (∃ n v, i = .enci c n v) ∨ ∃ h, i = .enblk c h)
    (hcode : ∀ ctx b u, P u → P (codeBit ctx b c u)) (hs : P s) (hu : effect i s t) : P t := by
  rcases hi with ⟨b, ctx, rfl⟩ | ⟨n, v, rfl⟩ | ⟨h, rfl⟩
  · exact hu ▸ hcode _ _ _ hs
  · exact hu ▸ codeInt_preserves hcode _ _ hs
  · exact hu ▸ codeBlock_preserves hcode h hs

/-- A command that counted in `CMDCNT` did its work. -/
theorem exec_counted {i : Instr} (h : exec i s = .next t) (hcnt : t.cmdCnt = s.cmdCnt + 1#32) (hi : i ≠ .srst) :
    ∃ u, effect i s u ∧ t = retire u := by
  have hne : s.cmdCnt ≠ s.cmdCnt + 1#32 := by simp
  cases exec_executes h with
  | reset hr => exact absurd hr hi
  | fault e info _ => exact absurd hcnt hne
  | exhausted _ _ _ =>
    rw [(exhaustion_frame i s).fixed] at hcnt
    exact absurd hcnt hne
  | retired _ hu => exact ⟨_, hu, rfl⟩

/-- Settles O22: every bit coded stays in the frame of its mode. -/
theorem codingFrames : Obligations.CodingFrames := by
  intro s t c i hi h hcnt
  have hne : i ≠ .srst := by rcases hi with ⟨b, ctx, rfl⟩ | ⟨n, v, rfl⟩ | ⟨h, rfl⟩ <;> nofun
  obtain ⟨u, hu, rfl⟩ := exec_counted h hcnt hne
  refine ⟨?_, ?_⟩ <;> rintro rfl
  · obtain ⟨ho, hr, hg⟩ := coding_preserves (P := realFrame s) hi (fun c b _ hu => codeBit_realFrame c b hu)
      ⟨.refl s, rfl, .refl s⟩ hu
    refine ⟨?_, hg⟩
    unfold onlyEncoder at ho
    rw [hr] at ho
    rw [ho]
    rfl
  · have hc : costFrame s u := coding_preserves hi (fun c b _ hu => codeBit_costFrame c b hu) (.refl s) hu
    unfold costFrame at hc
    rw [hc]
    rfl

/-! ### Symbols one after another -/

/-- Symbols coded one after another: a list of contexts and bits. -/
def codeAll (k : Bool) (l : List (Nat × Bool)) (s : State) : State :=
  l.foldl (fun u q => codeBit q.1 q.2 k u) s

theorem codeAll_nil (k : Bool) (s : State) : codeAll k [] s = s := rfl

theorem codeAll_cons (k : Bool) (q : Nat × Bool) (l : List (Nat × Bool)) (s : State) :
    codeAll k (q :: l) s = codeAll k l (codeBit q.1 q.2 k s) := rfl

theorem codeAll_append (k : Bool) (l m : List (Nat × Bool)) (s : State) :
    codeAll k (l ++ m) s = codeAll k m (codeAll k l s) := List.foldl_append

theorem codeAll_onlyEncoder (k : Bool) (l : List (Nat × Bool)) (s : State) : onlyEncoder s (codeAll k l s) :=
  foldl_onlyEncoder _ l (fun u q => codeBit_onlyEncoder q.1 q.2 k u) s

/-- Counting down from `n`. -/
theorem map_range_down_succ {α : Type} (f : Nat → α) (n : Nat) :
    ((List.range (n + 1)).map fun i => f (n + 1 - 1 - i)) = f n :: (List.range n).map fun i => f (n - 1 - i) := by
  simp [List.range_succ_eq_map, Function.comp_def, Nat.sub_sub, Nat.add_comm]

/-- The symbols of `CodeInt(n, v)`: the bits of `v` from bit `n-1` down, in `CTX_AUX` (41_arith_encoder.md R115). -/
def intSymbols (n v : Nat) : List (Nat × Bool) := (List.range n).map fun i => (ctxAux, v.testBit (n - 1 - i))

theorem intSymbols_succ (n v : Nat) : intSymbols (n + 1) v = (ctxAux, v.testBit n) :: intSymbols n v :=
  map_range_down_succ (fun i => (ctxAux, v.testBit i)) n

theorem codeInt_eq_codeAll (n v : Nat) (k : Bool) (s : State) : codeInt n v k s = codeAll k (intSymbols n v) s := by
  induction n generalizing s with
  | zero => rfl
  | succ n ih => rw [intSymbols_succ, codeAll_cons, codeInt, ih]

/-! Coding does not look at `CMDCNT`. -/

theorem emitBit_cmdCnt (x : Bool) (s : State) (n : Word) :
    emitBit x { s with cmdCnt := n } = { emitBit x s with cmdCnt := n } := by
  unfold emitBit
  dsimp only
  split <;> rfl

theorem emitMany_cmdCnt (m : Nat) (x : Bool) (s : State) (n : Word) :
    emitMany m x { s with cmdCnt := n } = { emitMany m x s with cmdCnt := n } := by
  induction m generalizing s with
  | zero => rfl
  | succ m ih => rw [emitMany, emitBit_cmdCnt, ih, emitMany]

theorem emitWithPending_cmdCnt (x : Bool) (s : State) (n : Word) :
    emitWithPending x { s with cmdCnt := n } = { emitWithPending x s with cmdCnt := n } := by
  simp only [emitWithPending, emitBit_cmdCnt, emitMany_cmdCnt]

theorem encPass_cmdCnt (s : State) (n : Word) :
    encPass { s with cmdCnt := n } = { encPass s with cmdCnt := n } := by
  unfold encPass emitPass
  dsimp only
  rw [emitWithPending_cmdCnt]
  split <;> rfl

theorem encRenormLoop_cmdCnt (m : Nat) (s : State) (n : Word) :
    encRenormLoop m { s with cmdCnt := n } = { encRenormLoop m s with cmdCnt := n } := by
  induction m generalizing s with
  | zero => rfl
  | succ m ih => rw [encRenormLoop_succ, encPass_cmdCnt, ih, encRenormLoop_succ]

theorem codeBit_cmdCnt (c : Nat) (b k : Bool) (s : State) (n : Word) :
    codeBit c b k { s with cmdCnt := n } = { codeBit c b k s with cmdCnt := n } := by
  have hnarrow : narrow c b { s with cmdCnt := n } = { narrow c b s with cmdCnt := n } := by cases b <;> rfl
  cases k with
  | true => rfl
  | false =>
    simp only [codeBit_real, encodeBit, encRenorm, hnarrow, encRenormLoop_cmdCnt]
    rfl

theorem codeAll_cmdCnt (k : Bool) (l : List (Nat × Bool)) (s : State) (n : Word) :
    codeAll k l { s with cmdCnt := n } = { codeAll k l s with cmdCnt := n } := by
  induction l generalizing s with
  | nil => rfl
  | cons q rest ih => rw [codeAll_cons, codeBit_cmdCnt, ih, codeAll_cons]

/-- `ENCB` commands one after another code their bits one after another and count in `CMDCNT`. -/
theorem runAll_encb {k : Bool} (l : List (BitVec 8 × Bool)) (hm : k = false → s.mode = .enc)
    (hctx : ∀ p ∈ l, p.1.toNat < 161) :
    runAll (l.map fun p => .encb k p.2 p.1) s =
      .next { codeAll k (l.map fun p => (p.1.toNat, p.2)) s with
              cmdCnt := s.cmdCnt + BitVec.ofNat 32 l.length } := by
  induction l generalizing s with
  | nil => simp [runAll, codeAll_nil]
  | cons p rest ih =>
    obtain ⟨hp, hrest⟩ := List.forall_mem_cons.mp hctx
    have hadm : admits s.mode (.encb k p.2 p.1) = true := costOnly_admitted.mpr fun hbad => hbad.2 (hm hbad.1)
    have hexec := exec_encb hadm (decide_eq_true hp)
    have ho := codeBit_onlyEncoder p.1.toNat p.2 k s
    have hmode : (retire (codeBit p.1.toNat p.2 k s)).mode = s.mode := by rw [ho]; rfl
    have hcnt : (codeBit p.1.toNat p.2 k s).cmdCnt = s.cmdCnt := by rw [ho]
    simp only [List.map_cons, runAll, hexec, ih (fun hk => hmode.trans (hm hk)) hrest]
    simp only [retire, codeAll_cmdCnt, codeAll_cons, hcnt, List.length_cons, BitVec.ofNat_add, BitVec.add_assoc]
    rw [BitVec.add_comm 1#32]

/-- Settles O23: both code the symbols of `CodeInt`. -/
theorem enciIsBits : Obligations.EnciIsBits := by
  intro s k n v hm h1 h16 hv
  have hadm : admits s.mode (.enci k n v) = true := costOnly_admitted.mpr fun hbad => hbad.2 (hm hbad.1)
  have hwf : (Instr.enci k n v).wellFormed = true := by simp [Instr.wellFormed, h1, h16, hv]
  have hrun := runAll_encb ((List.range n.toNat).map fun i => (0#8, v.getLsbD (n.toNat - 1 - i))) hm (by simp)
  rw [List.map_map, List.map_map] at hrun
  refine ⟨_, hrun, ?_⟩
  rw [exec_enci hadm hwf, codeInt_eq_codeAll, retire]
  have hcnt : (codeAll k (intSymbols n.toNat v.toNat) s).cmdCnt = s.cmdCnt := by rw [codeAll_onlyEncoder k _ s]
  rw [hcnt]
  rfl

/-! ### The decoder's interval -/

/-- The decoder's loop takes the encoder's passes (42_arith_decoder.md R121, R127). -/
theorem decRenormLoop_interval (n : Nat) {e d d' : State} (hl : d.low = e.low) (hh : d.high = e.high)
    (h : decRenormLoop n d = some d') :
    d'.low = (encRenormLoop n e).low ∧ d'.high = (encRenormLoop n e).high := by
  induction n generalizing d e with
  | zero =>
    cases h
    exact ⟨hl, hh⟩
  | succ n ih =>
    by_cases hc : renormCase d.low d.high = .settled
    · have he : renormCase e.low e.high = .settled := by rw [← hl, ← hh, hc]
      rw [decRenormLoop_settled hc] at h
      rw [encRenormLoop_settled he]
      cases h
      exact ⟨hl, hh⟩
    · obtain ⟨x, u, hu, hul, huh, -⟩ := decRenormLoop_pass hc h
      rw [encRenormLoop_succ]
      refine ih ?_ ?_ hu
      · rw [hul, hl, hh]
        rfl
      · rw [huh, hl, hh]
        rfl

theorem split_congr {e d : State} (hl : d.low = e.low) (hh : d.high = e.high) (hb : d.bank = e.bank) (c : Nat) :
    split c d = split c e := by
  rw [split, split, hl, hh, bankGet_congr hb]

theorem narrow_interval_congr {e d : State} (hl : d.low = e.low) (hh : d.high = e.high) (hb : d.bank = e.bank)
    (c : Nat) (b : Bool) :
    (narrow c b d).low = (narrow c b e).low ∧ (narrow c b d).high = (narrow c b e).high := by
  cases b <;> simp only [narrow, split_congr hl hh hb, hl, hh, Bool.false_eq_true, if_true, if_false, and_self]

/-- What a decoded bit does, by the decoder's loop (42_arith_decoder.md R121). -/
theorem decodeBit_eq_some {c : Nat} {b : Bool} {d d' : State} :
    decodeBit c d = some (b, d') ↔
      decodedBit c d = b ∧ ∃ u, decRenormLoop renormPasses (narrow c b d) = some u ∧ d' = update c b u := by
  unfold decodeBit
  dsimp only
  constructor
  · intro h
    split at h
    · cases h
    · cases h
      exact ⟨rfl, _, ‹_›, rfl⟩
  · rintro ⟨rfl, u, hu, rfl⟩
    rw [hu]

theorem decRenormLoop_bank (n : Nat) {d d' : State} (h : decRenormLoop n d = some d') : d'.bank = d.bank :=
  decRenormLoop_preserves (P := fun u => u.bank = d.bank)
    (fun _ _ _ hu hx => (congrArg State.bank (getBit_frame hx).1).trans hu) (fun _ _ _ _ hu => hu) n rfl h

/-- Settles O29: both narrow alike and take the same passes, and the bank is updated by the same bit. -/
theorem intervalLockStep : Obligations.IntervalLockStep := by
  intro e d d' c b hl hh hb h
  obtain ⟨-, u, hu, rfl⟩ := decodeBit_eq_some.mp h
  obtain ⟨hnl, hnh⟩ := narrow_interval_congr hl hh hb c b
  obtain ⟨hul, huh⟩ := decRenormLoop_interval renormPasses hnl hnh hu
  have hbank : u.bank = e.bank := (decRenormLoop_bank _ hu).trans ((narrow_bank c b d).trans hb)
  rw [encodeBit_eq]
  refine ⟨hul, huh, ?_⟩
  rw [update, bankSet_bank, bankGet_congr hbank, hbank]

end EncoderPasses

end Sys2Proof.Machine

/-! SUPPORT. Lists of bits as numbers, the bits a segment has written so far, and the bits a decoder has still to read
(20_memory.md R60; 41_arith_encoder.md R112, R113; 42_arith_decoder.md R120). -/

namespace Sys2Proof.Machine

open Sys2Proof.Claims

section BitStreams

variable {s t e d u : State} {n m k : Nat}

/-! ### Bits as a number -/

/-- The number a list of bits writes, most significant bit first. -/
def bitsValue (l : List Bool) : Nat := l.foldl (fun v x => 2 * v + bit x) 0

theorem bitsValue_concat (l : List Bool) (x : Bool) : bitsValue (l ++ [x]) = 2 * bitsValue l + bit x := by
  rw [bitsValue, List.foldl_append]
  rfl

theorem bitsValue_append (l r : List Bool) : bitsValue (l ++ r) = bitsValue l * 2 ^ r.length + bitsValue r := by
  induction r using List.reverseRecOn with
  | nil => simp [bitsValue]
  | append_singleton r x ih =>
    rw [← List.append_assoc, bitsValue_concat, ih, bitsValue_concat, List.length_append, List.length_singleton]
    ring

theorem bitsValue_cons (x : Bool) (l : List Bool) : bitsValue (x :: l) = bit x * 2 ^ l.length + bitsValue l := by
  have hone : bitsValue [x] = bit x := Nat.zero_add _
  rw [← List.singleton_append, bitsValue_append, hone]

theorem bitsValue_lt (l : List Bool) : bitsValue l < 2 ^ l.length := by
  induction l using List.reverseRecOn with
  | nil => exact Nat.one_pos
  | append_singleton l x ih =>
    have := bit_le_one x
    rw [bitsValue_concat, List.length_append, List.length_singleton, Nat.pow_succ]
    omega

/-- The bits of `x` from bit `n-1` down write `x` modulo `2^n`. -/
theorem bitsValue_testBits (n x : Nat) :
    bitsValue ((List.range n).map fun i => x.testBit (n - 1 - i)) = x % 2 ^ n := by
  induction n with
  | zero => simp [bitsValue, Nat.mod_one]
  | succ n ih =>
    rw [map_range_down_succ x.testBit, bitsValue_cons, ih, Nat.mod_pow_succ, ← Nat.toNat_testBit]
    cases x.testBit n <;> simp [bit, Nat.add_comm]

/-- A one with zeros after it is one more than a zero with ones after it. -/
theorem bitsValue_carry (l : List Bool) (p : Nat) :
    bitsValue (l ++ ([true] ++ List.replicate p false)) = bitsValue (l ++ ([false] ++ List.replicate p true)) + 1 := by
  induction p with
  | zero => simp [bitsValue_concat, bit]
  | succ p ih =>
    have hconcat (x y : Bool) : l ++ ([x] ++ List.replicate (p + 1) y) = (l ++ ([x] ++ List.replicate p y)) ++ [y] := by
      simp [List.replicate_succ']
    rw [hconcat, hconcat, bitsValue_concat, bitsValue_concat, ih]
    simp only [bit, Bool.false_eq_true, if_true, if_false]
    omega

theorem byteBits_length (b : Byte) : (byteBits b).length = 8 := by simp [byteBits]

theorem flatMap_byteBits_length (l : List Byte) : (l.flatMap byteBits).length = 8 * l.length := by
  simp [List.length_flatMap, byteBits_length, Nat.mul_comm]

/-! ### What a segment has written -/

/-- The bits written since the sink held `n` bytes. -/
def segmentBits (n : Nat) (s : State) : List Bool := (s.out.drop n).flatMap byteBits ++ waitingBits s

theorem Emits.segmentBits {bits : List Bool} (h : Emits bits s t) (hn : n ≤ s.out.length) :
    Machine.segmentBits n t = Machine.segmentBits n s ++ bits := by
  obtain ⟨bytes, ht, hbits⟩ := h.pushed
  have hout : t.out = s.out ++ bytes := by rw [ht]
  rw [Machine.segmentBits, hout, List.drop_append_of_le_length hn, List.flatMap_append, List.append_assoc, hbits,
    Machine.segmentBits, List.append_assoc]

/-- The bits written were `b` emitted next, with the pending bits after it (41_arith_encoder.md R112). -/
def resolved (n : Nat) (s : State) (b : Bool) : List Bool :=
  segmentBits n s ++ ([b] ++ List.replicate s.pend.toNat (!b))

/-- How many passes the renormalisations of the segment have taken. -/
def shifts (n : Nat) (s : State) : Nat := (segmentBits n s).length + s.pend.toNat

/-- What the bits so far put in front of the registers: a register value `x` stands for `offset + x`. -/
def offset (n : Nat) (s : State) : Nat := 32768 * bitsValue (resolved n s false)

theorem resolved_length (n : Nat) (s : State) (b : Bool) : (resolved n s b).length = shifts n s + 1 := by
  simp only [resolved, shifts, List.length_append, List.length_singleton, List.length_replicate]
  omega

theorem bitsValue_resolved (n : Nat) (s : State) (b : Bool) :
    32768 * bitsValue (resolved n s b) = offset n s + 32768 * bit b := by
  cases b with
  | false => rfl
  | true => exact congrArg (32768 * ·) (bitsValue_carry _ _)

/-- The sink holds the segment's start, and the byte in collection has room. -/
structure Emitting (n : Nat) (s : State) : Prop where
  started : n ≤ s.out.length
  collected : s.bbn.toNat ≤ 7

theorem Emits.emitting {bits : List Bool} (h : Emits bits s t) (hs : Emitting n s) : Emitting n t where
  started := by
    obtain ⟨bytes, ht, -⟩ := h.pushed
    rw [ht]
    exact hs.started.trans (List.length_append ▸ Nat.le_add_right _ _)
  collected := h.collected

theorem emitWithPending_segmentBits (hs : Emitting n s) (b : Bool) :
    segmentBits n (emitWithPending b s) = resolved n s b :=
  (emitWithPending_emits b hs.collected).segmentBits hs.started

/-- What a pass does to the segment's bits: one shift more, and case (a) settles the pending bits. -/
theorem emitPass_resolved (hs : Emitting n s) (hp : s.pend.toNat + 1 < 2 ^ 32) :
    (renormCase s.low s.high = .same →
      resolved n (emitPass s) false = resolved n s s.low.msb ++ [false]) ∧
    (renormCase s.low s.high = .straddle → resolved n (emitPass s) false = resolved n s false ++ [true]) := by
  refine ⟨fun hc => ?_, fun hc => ?_⟩
  · have hemit : emitPass s = emitWithPending s.low.msb s := by rw [emitPass, hc]
    rw [hemit, resolved, emitWithPending_segmentBits hs]
    rfl
  · have hemit : emitPass s = { s with pend := s.pend + 1#32 } := by rw [emitPass, hc]
    have hpend : (s.pend + 1#32).toNat = s.pend.toNat + 1 := by
      rw [BitVec.toNat_add]
      exact Nat.mod_eq_of_lt hp
    rw [hemit, resolved, hpend, List.replicate_succ', resolved, List.append_assoc, List.append_assoc]
    rfl

theorem emitPass_emitting (hs : Emitting n s) : Emitting n (emitPass s) := by
  unfold emitPass
  split
  · exact (emitWithPending_emits _ hs.collected).emitting hs
  · exact { hs with }
  · exact hs

/-! ### What a decoder has still to read -/

/-- The bits not yet consumed: those left of the last byte, then the source from the cursor on. -/
def unread (s : State) : List Bool := (byteBits s.db).take s.dbn.toNat ++ (s.inp.drop s.cur).flatMap byteBits

theorem byteBits_cons (b : Byte) : byteBits b = b.msb :: (byteBits (b <<< 1)).take 7 := by
  simp [byteBits, List.range_succ_eq_map, BitVec.msb_eq_getLsbD_last]

/-- `GetBit` takes the first bit not yet consumed (42_arith_decoder.md R120). -/
theorem getBit_of_unread (hn : s.dbn.toNat ≤ 7) {x : Bool} {rest : List Bool} (h : unread s = x :: rest) :
    ∃ t, getBit s = some (x, t) ∧ unread t = rest ∧ t.dbn.toNat ≤ 7 := by
  by_cases h0 : s.dbn = 0#4
  · cases hin : s.inp[s.cur]? with
    | none =>
      rw [unread, h0, List.drop_eq_nil_of_le (List.getElem?_eq_none_iff.mp hin)] at h
      cases h
    | some b =>
      have hdrop : s.inp.drop s.cur = b :: s.inp.drop (s.cur + 1) := by
        obtain ⟨hlt, hb⟩ := List.getElem?_eq_some_iff.mp hin
        rw [List.drop_eq_getElem_cons hlt, hb]
      rw [unread, h0, hdrop, List.flatMap_cons, byteBits_cons b] at h
      obtain ⟨rfl, rfl⟩ := List.cons.inj h
      refine ⟨{ s with cur := s.cur + 1, db := b <<< 1, dbn := 7#4 }, ?_, rfl, Nat.le_of_ble_eq_true rfl⟩
      rw [getBit, if_pos h0, srcNext_of_byte hin]
  · have hpos : s.dbn.toNat ≠ 0 := fun e => h0 (BitVec.eq_of_toNat_eq e)
    have hsub : (s.dbn - 1#4).toNat = s.dbn.toNat - 1 := by
      rw [BitVec.toNat_sub]
      simp only [BitVec.toNat_ofNat]
      omega
    obtain ⟨j, hj⟩ := Nat.exists_eq_succ_of_ne_zero hpos
    have hmin : min j 7 = j := by omega
    rw [unread, byteBits_cons, hj, List.take_succ_cons, List.take_take, hmin] at h
    obtain ⟨rfl, rfl⟩ := List.cons.inj h
    refine ⟨{ s with db := s.db <<< 1, dbn := s.dbn - 1#4 }, ?_, ?_, ?_⟩
    · rw [getBit, if_neg h0]
    · rw [unread, hsub, hj]
      rfl
    · exact hsub.trans_le (by omega)

/-- A decoder between two bits. -/
structure Reading (s : State) : Prop where
  buffered : s.dbn.toNat ≤ 7
  cursor : s.cur ≤ s.inp.length

theorem getBit_reading (hs : Reading s) {x : Bool} {rest : List Bool} (h : unread s = x :: rest) :
    ∃ t, getBit s = some (x, t) ∧ unread t = rest ∧ Reading t := by
  obtain ⟨t, ht, hrest, hn⟩ := getBit_of_unread hs.buffered h
  have hinp : t.inp = s.inp := by rw [getBit_onlyDecoder ht]
  exact ⟨t, ht, hrest, hn, hinp ▸ (getBit_cursor ht).2 hs.cursor⟩

/-- How many bits are left tells where the cursor stands. -/
theorem unread_length (hs : Reading s) : (unread s).length + 8 * s.cur = s.dbn.toNat + 8 * s.inp.length := by
  have hn := hs.buffered
  have hc := hs.cursor
  rw [unread, List.length_append, List.length_take, byteBits_length, flatMap_byteBits_length, List.length_drop]
  omega

end BitStreams

end Sys2Proof.Machine

/-! SUPPORT. Why a decoder follows the encoder (42_arith_decoder.md R127). The final bits of a segment write a number
that lies in the interval of every state of the encoder on the way, and `CODE` is that number's digits up to there. -/

namespace Sys2Proof.Machine

open Sys2Proof.Claims

section LockStep

variable {s e f d : State} {n m k c : Nat} {b : Bool} {bits : List Bool}

/-! ### The encoder's interval as a stretch of numbers -/

/-- An encoder that can take `m` more passes: `PEND` does not wrap. -/
structure Coding (n m : Nat) (s : State) : Prop where
  emitting : Emitting n s
  nonempty : s.low.toNat ≤ s.high.toNat
  room : shifts n s + m < 2 ^ 32

theorem Coding.mono (h : Coding n m s) (hkm : k ≤ m) : Coding n k s :=
  { h with room := (Nat.add_le_add_left hkm _).trans_lt h.room }

theorem Coding.pend_room (h : Coding n (m + 1) s) : s.pend.toNat + 1 < 2 ^ 32 := by
  have := h.room
  unfold shifts at this
  omega

/-- A pass counts as one shift. -/
theorem encPass_shifts (h : Coding n (m + 1) s) (hc : renormCase s.low s.high ≠ .settled) :
    shifts n (encPass s) = shifts n s + 1 := by
  obtain ⟨hsame, hstraddle⟩ := emitPass_resolved h.emitting h.pend_room
  have hlen : (resolved n (emitPass s) false).length = shifts n s + 2 := by
    cases hcase : renormCase s.low s.high with
    | same => rw [hsame hcase, List.length_append, resolved_length, List.length_singleton]
    | straddle => rw [hstraddle hcase, List.length_append, resolved_length, List.length_singleton]
    | settled => exact absurd hcase hc
  exact Nat.succ.inj ((resolved_length n (emitPass s) false).symm.trans hlen)

/-- A pass doubles what a register value stands for and adds the bit taken in (41_arith_encoder.md R113). -/
theorem encPass_position (h : Coding n (m + 1) s) (hc : renormCase s.low s.high ≠ .settled) {x : BitVec 16} (b : Bool)
    (hlx : s.low.toNat ≤ x.toNat) (hxh : x.toNat ≤ s.high.toNat) :
    offset n (encPass s) + (passed (renormCase s.low s.high) x b).toNat = 2 * (offset n s + x.toNat) + bit b := by
  obtain ⟨hsame, hstraddle⟩ := emitPass_resolved h.emitting h.pend_room
  have hoff : offset n (encPass s) = 32768 * bitsValue (resolved n (emitPass s) false) := rfl
  have hb := bit_le_one b
  have hhigh := s.high.isLt
  rcases renormCase_cases s.low s.high with ⟨hcase, hiff⟩ | ⟨hcase, -, hl, hh⟩ | ⟨hcase, -⟩
  · have hmsb : bit s.low.msb = if 32768 ≤ s.low.toNat then 1 else 0 := by
      rw [msb_eq_decide_toNat]
      simp only [bit, decide_eq_true_eq]
    have hvalue := bitsValue_resolved n s s.low.msb
    rw [hoff, hsame hcase, bitsValue_concat, hcase, passed, shiftIn_toNat, show bit false = 0 from rfl]
    split at hmsb <;> omega
  · rw [hoff, hstraddle hcase, bitsValue_concat, hcase, passed, flipTop_toNat, shiftIn_toNat,
      show bit true = 1 from rfl]
    have hdef : offset n s = 32768 * bitsValue (resolved n s false) := rfl
    omega
  · exact absurd hcase hc

theorem encPass_coding (h : Coding n (m + 1) s) : Coding n m (encPass s) := by
  by_cases hc : renormCase s.low s.high = .settled
  · rw [encPass_settled hc]
    exact h.mono (Nat.le_succ m)
  · refine ⟨{ emitPass_emitting h.emitting with }, ?_, ?_⟩
    · obtain ⟨-, hinside⟩ := pass_interval h.nonempty hc
      exact (hinside s.high true h.nonempty le_rfl).1
    · rw [encPass_shifts h hc, Nat.add_assoc, Nat.add_comm 1]
      exact h.room

theorem encRenormLoop_coding (j : Nat) (h : Coding n (j + m) s) : Coding n m (encRenormLoop j s) := by
  induction j generalizing s with
  | zero => exact h.mono (Nat.le_add_left _ _)
  | succ j ih =>
    rw [encRenormLoop_succ]
    rw [Nat.succ_add] at h
    exact ih (encPass_coding h)

/-- What `LOW` of `f` stands for lies in the interval of `s`, as far as the shifts of `s` show it. -/
def Refines (n : Nat) (f s : State) : Prop :=
  ∃ r, shifts n f = shifts n s + r ∧ (offset n s + s.low.toNat) * 2 ^ r ≤ offset n f + f.low.toNat ∧
    offset n f + f.low.toNat < (offset n s + s.high.toNat + 1) * 2 ^ r

theorem Refines.refl (h : s.low.toNat ≤ s.high.toNat) : Refines n s s := ⟨0, rfl, by omega, by omega⟩

theorem Refines.of_encPass (h : Coding n (m + 1) s) (hf : Refines n f (encPass s)) : Refines n f s := by
  by_cases hc : renormCase s.low s.high = .settled
  · rwa [encPass_settled hc] at hf
  · obtain ⟨r, hr, hlow, hhigh⟩ := hf
    have hl : offset n (encPass s) + (encPass s).low.toNat = 2 * (offset n s + s.low.toNat) :=
      encPass_position h hc false le_rfl h.nonempty
    have hh : offset n (encPass s) + (encPass s).high.toNat = 2 * (offset n s + s.high.toNat) + 1 :=
      encPass_position h hc true h.nonempty le_rfl
    rw [encPass_shifts h hc] at hr
    rw [hl] at hlow
    rw [hh] at hhigh
    refine ⟨r + 1, by omega, ?_, ?_⟩
    · calc (offset n s + s.low.toNat) * 2 ^ (r + 1) = 2 * (offset n s + s.low.toNat) * 2 ^ r := by ring
        _ ≤ _ := hlow
    · calc _ < _ := hhigh
        _ = (offset n s + s.high.toNat + 1) * 2 ^ (r + 1) := by ring

theorem Refines.of_encRenormLoop (j : Nat) (h : Coding n j s) (hf : Refines n f (encRenormLoop j s)) :
    Refines n f s := by
  induction j generalizing s with
  | zero => exact hf
  | succ j ih =>
    rw [encRenormLoop_succ] at hf
    exact (ih (encPass_coding h) hf).of_encPass h

/-! ### Narrowing -/

/-- The registers after narrowing, on integers (41_arith_encoder.md R114). -/
theorem narrow_toNat (hi : intervalOk s.low s.high) (hm : (bankGet s c).ok) :
    (narrow c true s).low.toNat = s.low.toNat + splitNat s c ∧
      (narrow c false s).high.toNat = s.low.toNat + splitNat s c - 1 := by
  obtain ⟨-, hfour, hhigh⟩ := splitWithinInterval s c hm hi
  have := s.high.isLt
  rw [narrow_eq hi hm, narrow_eq hi hm]
  simp only [if_true, Bool.false_eq_true, if_false, BitVec.toNat_ofNat]
  omega

theorem narrow_within (hi : intervalOk s.low s.high) (hm : (bankGet s c).ok) (b : Bool) :
    s.low.toNat ≤ (narrow c b s).low.toNat ∧ (narrow c b s).high.toNat ≤ s.high.toNat := by
  obtain ⟨hlow, hhigh⟩ := narrow_toNat hi hm
  obtain ⟨-, hfour, hle⟩ := splitWithinInterval s c hm hi
  cases b with
  | true => exact ⟨by omega, le_rfl⟩
  | false => exact ⟨le_rfl, by omega⟩

/-- A `CODE` inside the interval of a symbol decides for that symbol (42_arith_decoder.md R121). -/
theorem decodedBit_of_narrow (hi : intervalOk s.low s.high) (hm : (bankGet s c).ok)
    (hcode : (narrow c b s).codeInside) : decodedBit c s = b := by
  obtain ⟨hlow, hhigh⟩ := narrow_toNat hi hm
  obtain ⟨hsplit, hfour, -⟩ := splitWithinInterval s c hm hi
  obtain ⟨hl, hh⟩ := hcode
  rw [decodedBit, hsplit]
  cases b with
  | true =>
    have hc : (narrow c true s).code = s.code := rfl
    rw [hlow, hc] at hl
    exact decide_eq_true (by omega)
  | false =>
    have hc : (narrow c false s).code = s.code := rfl
    rw [hhigh, hc] at hh
    exact decide_eq_false (by omega)

/-- Narrowing writes nothing. -/
theorem narrow_segment (n c : Nat) (b : Bool) (s : State) :
    segmentBits n (narrow c b s) = segmentBits n s ∧ (narrow c b s).pend = s.pend := by
  cases b <;> exact ⟨rfl, rfl⟩

theorem narrow_shifts (n c : Nat) (b : Bool) (s : State) : shifts n (narrow c b s) = shifts n s := by
  obtain ⟨hseg, hpend⟩ := narrow_segment n c b s
  rw [shifts, hseg, hpend, shifts]

theorem narrow_offset (n c : Nat) (b : Bool) (s : State) : offset n (narrow c b s) = offset n s := by
  obtain ⟨hseg, hpend⟩ := narrow_segment n c b s
  rw [offset, resolved, hseg, hpend, offset, resolved]

theorem narrow_coding (h : Coding n m s) (hi : intervalOk s.low s.high) (hm : (bankGet s c).ok) (b : Bool) :
    Coding n m (narrow c b s) where
  emitting := by cases b <;> exact { h.emitting with }
  nonempty := (narrow_interval hi hm b).1
  room := narrow_shifts n c b s ▸ h.room

theorem Refines.of_narrow (hi : intervalOk s.low s.high) (hm : (bankGet s c).ok) (hf : Refines n f (narrow c b s)) :
    Refines n f s := by
  obtain ⟨r, hr, hlow, hhigh⟩ := hf
  obtain ⟨hwl, hwh⟩ := narrow_within hi hm b
  rw [narrow_shifts] at hr
  rw [narrow_offset] at hlow hhigh
  exact ⟨r, hr, (Nat.mul_le_mul_right _ (by omega)).trans hlow,
    hhigh.trans_le (Nat.mul_le_mul_right _ (by omega))⟩

/-! ### Symbols -/

/-- An encoder that can code `k` more symbols. -/
structure Encoding (n k : Nat) (s : State) : Prop where
  coding : Coding n (16 * k) s
  interval : intervalOk s.low s.high
  bank : s.bank.ok

theorem Encoding.narrow (h : Encoding n (k + 1) s) (c : Nat) (b : Bool) :
    Coding n (16 + 16 * k) (narrow c b s) :=
  narrow_coding (h.coding.mono (by omega)) h.interval (bankGet_ok h.bank c) b

theorem encodeBit_encoding (h : Encoding n (k + 1) s) (c : Nat) (b : Bool) : Encoding n k (encodeBit c b s) where
  coding :=
    have hloop := encRenormLoop_coding renormPasses (h.narrow c b)
    ⟨⟨hloop.emitting.started, hloop.emitting.collected⟩, hloop.nonempty, hloop.room⟩
  interval := encodeBit_intervalOk h.interval (bankGet_ok h.bank c) b
  bank := by
    rw [encodeBit_eq]
    exact update_bank_ok h.bank c b

theorem Refines.of_encodeBit (h : Encoding n (k + 1) s) (hf : Refines n f (encodeBit c b s)) : Refines n f s :=
  (Refines.of_encRenormLoop renormPasses ((h.narrow c b).mono (Nat.le_add_right _ _)) hf).of_narrow h.interval
    (bankGet_ok h.bank c)

theorem codeAll_real_cons (q : Nat × Bool) (l : List (Nat × Bool)) (s : State) :
    codeAll false (q :: l) s = codeAll false l (encodeBit q.1 q.2 s) := by
  rw [codeAll_cons, codeBit_real]

/-- Coding symbols keeps to the interval, however many are left. -/
theorem codeAll_encoding {l : List (Nat × Bool)} (h : Encoding n (l.length + k) s) :
    Encoding n k (codeAll false l s) ∧ ∀ f, Refines n f (codeAll false l s) → Refines n f s := by
  induction l generalizing s with
  | nil =>
    rw [List.length_nil, Nat.zero_add] at h
    exact ⟨h, fun _ => id⟩
  | cons q rest ih =>
    rw [List.length_cons, Nat.succ_add] at h
    obtain ⟨henc, hback⟩ := ih (encodeBit_encoding h q.1 q.2)
    rw [codeAll_real_cons]
    exact ⟨henc, fun f hf => (hback f hf).of_encodeBit h⟩

/-! ### The decoder beside the encoder -/

/-- The bits `bits` begin with a segment that was closed in the state `f`. -/
structure ClosedBy (n : Nat) (f : State) (bits : List Bool) : Prop where
  fits : 16 + shifts n f ≤ bits.length
  value : bitsValue (bits.take (16 + shifts n f)) = offset n f + f.low.toNat

/-- The decoder `d` of the bits `bits` stands where the encoder `e` stood: 16 bits ahead of its shifts. -/
structure InStep (n : Nat) (bits : List Bool) (e d : State) : Prop where
  low : d.low = e.low
  high : d.high = e.high
  bank : d.bank = e.bank
  reading : Reading d
  ahead : unread d = bits.drop (16 + shifts n e)
  code : bitsValue (bits.take (16 + shifts n e)) = offset n e + d.code.toNat

/-- `CODE` is inside the interval (42_arith_decoder.md R122). -/
theorem InStep.codeInside (h : InStep n bits e d) (hcl : ClosedBy n f bits) (hf : Refines n f e) : d.codeInside := by
  obtain ⟨r, hr, hlow, hhigh⟩ := hf
  have htake : bits.take (16 + shifts n f) =
      bits.take (16 + shifts n e) ++ (bits.drop (16 + shifts n e)).take r := by
    rw [hr, ← Nat.add_assoc, List.take_add]
  have hlen : ((bits.drop (16 + shifts n e)).take r).length = r := by
    have := hcl.fits
    rw [List.length_take, List.length_drop]
    omega
  have hrest := bitsValue_lt ((bits.drop (16 + shifts n e)).take r)
  have hvalue := hcl.value
  rw [htake, bitsValue_append, h.code, hlen] at hvalue
  rw [hlen] at hrest
  rw [← hvalue] at hlow hhigh
  have hpos : 0 < 2 ^ r := Nat.two_pow_pos r
  have h1 : offset n e + e.low.toNat < offset n e + d.code.toNat + 1 := by
    refine Nat.lt_of_mul_lt_mul_right (a := 2 ^ r) (hlow.trans_lt ?_)
    rw [Nat.succ_mul]
    omega
  have h2 : offset n e + d.code.toNat < offset n e + e.high.toNat + 1 :=
    Nat.lt_of_mul_lt_mul_right (a := 2 ^ r) ((Nat.le_add_right _ _).trans_lt hhigh)
  rw [State.codeInside, h.low, h.high]
  omega

theorem decRenormLoop_of_getBit (hc : renormCase d.low d.high ≠ .settled) {x : Bool} {u : State}
    (hx : getBit d = some (x, u)) (m : Nat) :
    decRenormLoop (m + 1) d = decRenormLoop m { u with
      low := passed (renormCase d.low d.high) d.low false, high := passed (renormCase d.low d.high) d.high true
      code := passed (renormCase d.low d.high) d.code x } := by
  cases hcase : renormCase d.low d.high with
  | same | straddle => simp only [decRenormLoop, hcase, hx, passed]
  | settled => exact absurd hcase hc

theorem encPass_bank (s : State) : (encPass s).bank = s.bank := by
  have h := encRenormLoop_bank 1 s
  rwa [encRenormLoop_succ] at h

/-- One pass of both loops. -/
theorem InStep.pass (h : InStep n bits e d) (hcl : ClosedBy n f bits) (he : Coding n (m + 1) e)
    (hc : renormCase e.low e.high ≠ .settled) (hf : Refines n f (encPass e)) (j : Nat) :
    ∃ u, decRenormLoop (j + 1) d = decRenormLoop j u ∧ InStep n bits (encPass e) u := by
  have hinside := h.codeInside hcl (hf.of_encPass he)
  have hshifts := encPass_shifts he hc
  have hlt : 16 + shifts n e < bits.length := by
    obtain ⟨r, hr, -⟩ := hf
    have := hcl.fits
    omega
  have hdrop := h.ahead
  rw [List.drop_eq_getElem_cons hlt] at hdrop
  obtain ⟨u, hu, hrest, hread⟩ := getBit_reading h.reading hdrop
  have hcd : renormCase d.low d.high ≠ .settled := by rwa [h.low, h.high]
  refine ⟨_, decRenormLoop_of_getBit hcd hu j, ?_⟩
  have hbank : u.bank = d.bank := by rw [(getBit_frame hu).1]
  rw [State.codeInside, h.low, h.high] at hinside
  have hpos := encPass_position he hc bits[16 + shifts n e] hinside.1 hinside.2
  exact
    { low := by rw [h.low, h.high]; rfl
      high := by rw [h.low, h.high]; rfl
      bank := hbank.trans (h.bank.trans (encPass_bank e).symm)
      reading := { hread with }
      ahead := by
        rw [hshifts]
        exact hrest
      code := by
        rw [hshifts, ← Nat.add_assoc, List.take_succ_eq_append_getElem hlt, bitsValue_concat, h.code, h.low, h.high,
          hpos] }

theorem InStep.renorm (h : InStep n bits e d) (hcl : ClosedBy n f bits) (j : Nat) (he : Coding n j e)
    (hf : Refines n f (encRenormLoop j e)) :
    ∃ u, decRenormLoop j d = some u ∧ InStep n bits (encRenormLoop j e) u := by
  induction j generalizing e d with
  | zero => exact ⟨d, rfl, h⟩
  | succ j ih =>
    by_cases hc : renormCase e.low e.high = .settled
    · have hcd : renormCase d.low d.high = .settled := by rw [h.low, h.high, hc]
      rw [encRenormLoop_settled hc]
      exact ⟨d, decRenormLoop_settled hcd _, h⟩
    · rw [encRenormLoop_succ] at hf ⊢
      have hpass := encPass_coding he
      obtain ⟨u, hu, hstep⟩ := h.pass hcl he hc (hf.of_encRenormLoop j hpass) j
      rw [hu]
      exact ih hstep hpass hf

theorem InStep.narrow (h : InStep n bits e d) (c : Nat) (b : Bool) :
    InStep n bits (narrow c b e) (narrow c b d) := by
  obtain ⟨hl, hh⟩ := narrow_interval_congr h.low h.high h.bank c b
  refine ⟨hl, hh, ?_, by cases b <;> exact { h.reading with }, ?_, ?_⟩
  · rw [narrow_bank, narrow_bank, h.bank]
  · rw [narrow_shifts, ← h.ahead]
    cases b <;> rfl
  · rw [narrow_shifts, narrow_offset, h.code]
    cases b <;> rfl

theorem InStep.update (h : InStep n bits e d) (c : Nat) (b : Bool) : InStep n bits (update c b e) (update c b d) :=
  { h with
    bank := by rw [Machine.update, Machine.update, bankSet_bank, bankSet_bank, bankGet_congr h.bank, h.bank]
    reading := { h.reading with } }

/-- One symbol: the decoder finds the bit that was coded (42_arith_decoder.md R127). -/
theorem InStep.decodeBit (h : InStep n bits e d) (hcl : ClosedBy n f bits) (he : Encoding n (k + 1) e)
    (hf : Refines n f (encodeBit c b e)) :
    ∃ d', Machine.decodeBit c d = some (b, d') ∧ InStep n bits (encodeBit c b e) d' := by
  have hcoding := (he.narrow c b).mono (Nat.le_add_right 16 _)
  have hn := h.narrow c b
  obtain ⟨u, hu, hstep⟩ := hn.renorm hcl renormPasses hcoding hf
  have hinside := hn.codeInside hcl (hf.of_encRenormLoop renormPasses hcoding)
  have hi : intervalOk d.low d.high := by
    rw [h.low, h.high]
    exact he.interval
  have hm : (bankGet d c).ok := bankGet_ok (h.bank ▸ he.bank) c
  exact ⟨Machine.update c b u, decodeBit_eq_some.mpr ⟨decodedBit_of_narrow hi hm hinside, u, hu, rfl⟩,
    hstep.update c b⟩

/-- The decoder `d` of the bits `bits` has the symbols `l` before it, and the encoder ended in `f`. -/
def Expects (n : Nat) (bits : List Bool) (f : State) (l : List (Nat × Bool)) (d : State) : Prop :=
  ClosedBy n f bits ∧ ∃ e, InStep n bits e d ∧ Encoding n l.length e ∧ codeAll false l e = f

theorem Expects.decodeBit {l : List (Nat × Bool)} (h : Expects n bits f ((c, b) :: l) d) :
    ∃ d', Machine.decodeBit c d = some (b, d') ∧ Expects n bits f l d' := by
  obtain ⟨hcl, e, hstep, he, hf⟩ := h
  have hnext := encodeBit_encoding he c b
  obtain ⟨hlast, hback⟩ := codeAll_encoding (k := 0) hnext
  rw [codeAll_real_cons] at hf
  rw [hf] at hlast hback
  obtain ⟨d', hd', hstep'⟩ := hstep.decodeBit hcl he (hback f (Refines.refl hlast.coding.nonempty))
  exact ⟨d', hd', hcl, _, hstep', hnext, hf⟩

/-- What stands in the results and block memory, and how many commands have retired, does not concern the decoder. -/
abbrev sameDecoder (d u : State) : Prop :=
  u = { d with mem := u.mem, inf := u.inf, result := u.result, cmdCnt := u.cmdCnt }

theorem Expects.congr {l : List (Nat × Bool)} {u : State} (h : Expects n bits f l d) (hu : sameDecoder d u) :
    Expects n bits f l u := by
  obtain ⟨hcl, e, hstep, he, hf⟩ := h
  refine ⟨hcl, e, ?_, he, hf⟩
  rw [hu]
  exact { hstep with reading := { hstep.reading with } }

end LockStep

end Sys2Proof.Machine

/-! PROOF. Whole segments: what `EFIN` closes, what `DINIT` opens, and the symbols in between (41_arith_encoder.md R116,
R117, R119; 42_arith_decoder.md R123, R124, R127, R128). -/

namespace Sys2Proof.Machine

open Sys2Proof.Claims

section Segments

variable {s e f d : State} {n : Nat} {bits : List Bool} {bytes tail : List Byte}

/-! ### Closing a segment -/

theorem flushEncoder_bank (s : State) : (flushEncoder s).bank = s.bank :=
  flushEncoder_preserves (P := fun u => u.bank = s.bank) (fun x u hu => (emitBit_bank x u).trans hu)
    (fun _ _ hu => hu) rfl

/-- `EFIN` pushes the flush to the sink and leaves the bank (41_arith_encoder.md R119). -/
theorem exec_efin (hm : s.mode = .enc) :
    ∃ t, exec .efin s = .next t ∧ t.out = (flushEncoder s).out ∧ t.bank = s.bank := by
  have hexec : exec .efin s = retired { flushEncoder s with
      low := 0x0000#16, high := 0xFFFF#16, pend := 0#32, mode := .idle } := if_neg (not_not_intro hm)
  have hbank := flushEncoder_bank s
  generalize flushEncoder s = u at hexec hbank ⊢
  exact ⟨_, hexec, rfl, hbank⟩

/-- The 15 bits of `LOW` after its first. -/
theorem bitsValue_lowBits (x : BitVec 16) :
    bitsValue ((List.range 15).map fun i => x.getLsbD (14 - i)) = x.toNat % 32768 :=
  bitsValue_testBits 15 x.toNat

/-- The bytes of a segment that the encoder closed in the state `f`, its last byte padded. -/
structure SegmentOf (n : Nat) (f : State) (bytes : List Byte) : Prop where
  closes : ∀ tail, ClosedBy n f (bytes.flatMap byteBits ++ tail)
  padded : ∃ pad, pad < 8 ∧ 8 * bytes.length = 16 + shifts n f + pad

/-- The flush completes the segment to the 16 bits of `LOW` behind the shifts, and pads the last byte
(41_arith_encoder.md R119). -/
theorem flushEncoder_segmentOf (h : Emitting n f) : SegmentOf n f ((flushEncoder f).out.drop n) := by
  generalize hbytes : (flushEncoder f).out.drop n = bytes
  obtain ⟨pad, hpad, hzero, hflush⟩ := flushEncoder_emits h.collected
  have hseg := hflush.segmentBits h.started
  have hwaiting : waitingBits (flushEncoder f) = [] := by rw [waitingBits_eq, hzero]; rfl
  have hall : bytes.flatMap byteBits = (resolved n f f.low.msb ++
      (List.range 15).map fun i => f.low.getLsbD (14 - i)) ++ List.replicate pad false := by
    rw [segmentBits, hbytes, hwaiting, List.append_nil] at hseg
    rw [hseg, resolved]
    simp only [List.append_assoc]
  have hlen : (resolved n f f.low.msb ++ (List.range 15).map fun i => f.low.getLsbD (14 - i)).length =
      16 + shifts n f := by
    rw [List.length_append, resolved_length, List.length_map, List.length_range]
    omega
  have hcount : 8 * bytes.length = 16 + shifts n f + pad := by
    rw [← flatMap_byteBits_length, hall, List.length_append, hlen, List.length_replicate]
  refine ⟨fun tail => ⟨?_, ?_⟩, pad, hpad, hcount⟩
  · rw [List.length_append, flatMap_byteBits_length]
    omega
  · rw [hall, List.append_assoc, ← hlen, List.take_left, bitsValue_append, List.length_map, List.length_range,
      bitsValue_lowBits]
    have hvalue := bitsValue_resolved n f f.low.msb
    have hlow := f.low.isLt
    rw [msb_eq_decide_toNat] at hvalue ⊢
    simp only [bit, decide_eq_true_eq] at hvalue
    split at hvalue <;> omega

/-! ### Opening a segment -/

/-- The state `EINIT` leaves (41_arith_encoder.md R116), whatever `CMDCNT` is. -/
def opened (k : Word) (s : State) : State := { openEncoder s with cmdCnt := k }

/-- `EINIT` begins with no shift and the registers standing for themselves. -/
theorem opened_segment (c : Word) (s : State) :
    shifts s.out.length (opened c s) = 0 ∧ offset s.out.length (opened c s) = 0 := by
  have hseg : segmentBits s.out.length (opened c s) = [] :=
    congrArg (·.flatMap byteBits ++ []) List.drop_length
  rw [shifts, offset, resolved, hseg]
  exact ⟨rfl, rfl⟩

theorem opened_encoding (c : Word) (hb : s.bank.ok) {k : Nat} (hk : 16 * k < 2 ^ 32) :
    Encoding s.out.length k (opened c s) := by
  obtain ⟨hshifts, -⟩ := opened_segment c s
  refine ⟨⟨⟨le_rfl, Nat.zero_le _⟩, Nat.zero_le _, ?_⟩, fullInterval_ok, hb⟩
  rw [hshifts]
  omega

theorem exec_dinit {u : State} (hm : s.mode = .idle) (hu : primeCode 16 (openDecoder s) = some u) :
    exec (.dinit false) s = .next (retire u) := by
  simp only [exec, execDinit, if_neg (not_not_intro hm), Bool.false_eq_true, if_false, hu]
  rfl

/-- `DINIT` moves bits from the source into `CODE`, the first the most significant (42_arith_decoder.md R123). -/
theorem primeCode_of_unread (k : Nat) (hd : Reading d) (hlen : k ≤ (unread d).length) :
    ∃ u, primeCode k d = some u ∧ unread u = (unread d).drop k ∧ Reading u ∧
      u = { d with code := u.code, db := u.db, dbn := u.dbn, cur := u.cur } ∧
      u.code.toNat = (d.code.toNat * 2 ^ k + bitsValue ((unread d).take k)) % 65536 := by
  induction k generalizing d with
  | zero => exact ⟨d, rfl, rfl, hd, rfl, by simp [bitsValue, Nat.mod_eq_of_lt d.code.isLt]⟩
  | succ k ih =>
    obtain ⟨x, rest, hx⟩ := List.exists_cons_of_length_pos (Nat.zero_lt_of_lt hlen)
    obtain ⟨v, hv, hrest, hread⟩ := getBit_reading hd hx
    obtain ⟨hframe, -⟩ := getBit_frame hv
    rw [hx, List.length_cons] at hlen
    have hnext : unread { v with code := shiftIn v.code x } = rest := hrest
    obtain ⟨u, hu, hun, hru, huf, hcode⟩ := ih (d := { v with code := shiftIn v.code x }) { hread with }
      (by rw [hnext]; omega)
    refine ⟨u, ?_, ?_, hru, ?_, ?_⟩
    · rw [primeCode, hv]
      exact hu
    · rw [hun, hnext, hx, List.drop_succ_cons]
    · rw [hframe] at huf
      exact huf
    · have hvc : v.code = d.code := by rw [hframe]
      have htake : ((unread d).take (k + 1)) = x :: rest.take k := by rw [hx, List.take_succ_cons]
      have hl : (rest.take k).length = k := by rw [List.length_take]; omega
      rw [hcode, hnext, htake, bitsValue_cons, hl, shiftIn_toNat, hvc]
      refine (((Nat.mod_modEq _ 65536).mul_right _).add_right _).trans (congrArg (· % 65536) ?_)
      ring

/-- After `DINIT` the decoder stands beside the encoder after `EINIT` (42_arith_decoder.md R127). -/
theorem openDecoder_inStep (c : Word) (hbank : d.bank = s.bank) (hcur : d.cur ≤ d.inp.length)
    (hbits : (d.inp.drop d.cur).flatMap byteBits = bits) (hlen : 16 ≤ bits.length) :
    ∃ u, primeCode 16 (openDecoder d) = some u ∧
      u = { openDecoder d with code := u.code, db := u.db, dbn := u.dbn, cur := u.cur } ∧
      InStep s.out.length bits (opened c s) u := by
  obtain ⟨hshifts, hoffset⟩ := opened_segment c s
  have hread : Reading (openDecoder d) := ⟨Nat.zero_le _, hcur⟩
  have hun : unread (openDecoder d) = bits := hbits
  obtain ⟨u, hu, hdrop, hru, hframe, hcode⟩ := primeCode_of_unread 16 hread (hun ▸ hlen)
  have hzero : (openDecoder d).code.toNat = 0 := rfl
  have hlt : bitsValue (bits.take 16) < 65536 := by
    have h16 := bitsValue_lt (bits.take 16)
    rwa [List.length_take_of_le hlen] at h16
  rw [hun, hzero, Nat.zero_mul, Nat.zero_add, Nat.mod_eq_of_lt hlt] at hcode
  refine ⟨u, hu, hframe, by rw [hframe]; rfl, by rw [hframe]; rfl, ?_, hru, ?_, ?_⟩
  · rw [hframe]
    exact hbank
  · rw [hshifts, hdrop, hun]
  · rw [hshifts, hoffset, Nat.zero_add, ← hcode]

/-! ### The commands -/

theorem exec_decb {ctx : BitVec 8} {b : Bool} {u : State} (hm : s.mode = .dec) (hc : ctx.toNat < 161)
    (hu : decodeBit ctx.toNat s = some (b, u)) :
    exec (.decb ctx) s = .next (retire { u with result := BitVec.ofNat 32 (bit b) }) := by
  simp only [exec, execDecb, if_neg (not_not_intro hm), if_neg (Nat.not_le.mpr hc), hu]
  rfl

/-- `DECB` commands give back the symbols before the decoder. -/
theorem decodeRun_of_expects (l : List (BitVec 8 × Bool)) (hctx : ∀ p ∈ l, p.1.toNat < 161) (hm : d.mode = .dec)
    (hfault : d.fault = false) (h : Expects n bits f (l.map fun p => (p.1.toNat, p.2)) d) :
    ∃ u, decodeRun (l.map Prod.fst) d = some (l.map fun p => if p.2 then 1#32 else 0#32, u) ∧
      Expects n bits f [] u ∧ u.inp = d.inp := by
  induction l generalizing d with
  | nil => exact ⟨d, rfl, h, rfl⟩
  | cons p rest ih =>
    obtain ⟨hp, hrest⟩ := List.forall_mem_cons.mp hctx
    obtain ⟨v, hv, hexp⟩ := h.decodeBit
    have ho := decodeBit_onlyDecoder _ hv
    have hvm : v.mode = .dec := by rw [ho]; exact hm
    have hvf : v.fault = false := by rw [ho]; exact hfault
    have hvi : v.inp = d.inp := by rw [ho]
    obtain ⟨u, hu, hend, hinp⟩ := ih (d := retire { v with result := BitVec.ofNat 32 (bit p.2) }) hrest hvm hvf
      (hexp.congr rfl)
    refine ⟨u, ?_, hend, hinp.trans hvi⟩
    have hresult : BitVec.ofNat 32 (bit p.2) = if p.2 then 1#32 else 0#32 := by cases p.2 <;> rfl
    have hfaultless : (retire { v with result := BitVec.ofNat 32 (bit p.2) }).fault = false := hvf
    simp only [List.map_cons, decodeRun, exec_decb hm hp hv, hfaultless, Bool.false_eq_true, if_false, hu]
    exact congrArg (fun w => some (w :: _, u)) hresult

/-! ### A whole segment -/

/-- The bytes of a segment, pushed behind what the sink held. -/
theorem codeAll_segmentOf (c : Word) (hb : s.bank.ok) {l : List (Nat × Bool)} (hl : 16 * l.length < 2 ^ 32)
    (he : codeAll false l (opened c s) = e) :
    ∃ bytes, (flushEncoder e).out = s.out ++ bytes ∧ SegmentOf s.out.length e bytes := by
  obtain ⟨henc, -⟩ := codeAll_encoding (k := 0) (opened_encoding c hb hl)
  rw [he] at henc
  have hout : s.out <+: e.out := he ▸ List.foldlRecOn (motive := fun u => s.out <+: u.out) l _
    (b := opened c s) (List.prefix_refl s.out) fun u hu q _ => hu.trans (codeBit_out q.1 q.2 false u)
  obtain ⟨bytes, hbytes⟩ := hout.trans (flushEncoder_out e)
  refine ⟨bytes, hbytes.symm, ?_⟩
  have hseg := flushEncoder_segmentOf henc.coding.emitting
  rwa [← hbytes, List.drop_left] at hseg

/-- What a decoder of a segment finds before it: the bytes at its cursor, and the encoder's bank. -/
structure SegmentAhead (s : State) (before bytes after : List Byte) (d : State) : Prop where
  bank : d.bank = s.bank
  source : d.inp = before ++ bytes ++ after
  cursor : d.cur = before.length

/-- `DINIT` on a segment has the segment's symbols before it. -/
theorem openDecoder_expects {c : Word} (hb : s.bank.ok) {l : List (Nat × Bool)} (hl : 16 * l.length < 2 ^ 32)
    (he : codeAll false l (opened c s) = e) (hseg : SegmentOf s.out.length e bytes) {before after : List Byte}
    (hd : SegmentAhead s before bytes after d) :
    ∃ u, primeCode 16 (openDecoder d) = some u ∧
      u = { openDecoder d with code := u.code, db := u.db, dbn := u.dbn, cur := u.cur } ∧
      Expects s.out.length (bytes.flatMap byteBits ++ after.flatMap byteBits) e l u := by
  have hcl := hseg.closes (after.flatMap byteBits)
  have hcur : d.cur ≤ d.inp.length := by
    rw [hd.source, hd.cursor, List.append_assoc, List.length_append]
    exact Nat.le_add_right _ _
  have hbits : (d.inp.drop d.cur).flatMap byteBits = bytes.flatMap byteBits ++ after.flatMap byteBits := by
    rw [hd.source, hd.cursor, List.append_assoc, List.drop_left, List.flatMap_append]
  obtain ⟨u, hu, hframe, hstep⟩ :=
    openDecoder_inStep c hd.bank hcur hbits ((Nat.le_add_right _ _).trans hcl.fits)
  exact ⟨u, hu, hframe, hcl, _, hstep, opened_encoding c hb hl, he⟩

/-- With no symbol left the decoder has the encoder's interval and bank, `CODE = LOW`, and has read the segment's last
byte and no further (42_arith_decoder.md R128). -/
theorem Expects.finished {before after : List Byte} (hseg : SegmentOf n f bytes)
    (h : Expects n (bytes.flatMap byteBits ++ after.flatMap byteBits) f [] d)
    (hinp : d.inp = before ++ bytes ++ after) :
    d.low = f.low ∧ d.high = f.high ∧ d.bank = f.bank ∧ d.code = f.low ∧
      d.cur = before.length + bytes.length := by
  obtain ⟨hcl, e, hstep, -, rfl⟩ := h
  rw [codeAll_nil] at hcl hseg ⊢
  refine ⟨hstep.low, hstep.high, hstep.bank, ?_, ?_⟩
  · have hcode := hstep.code
    rw [hcl.value] at hcode
    exact (BitVec.eq_of_toNat_eq (Nat.add_left_cancel hcode)).symm
  · obtain ⟨pad, hpad, hcount⟩ := hseg.padded
    have hleft := unread_length hstep.reading
    have hn := hstep.reading.buffered
    rw [hstep.ahead, hinp] at hleft
    simp only [List.length_drop, List.length_append, flatMap_byteBits_length] at hleft
    omega

/-- Settles O30: the encoder's run is its symbols from `EINIT`'s state, which the decoder then expects. -/
theorem codecRoundTrip : Obligations.CodecRoundTrip := by
  intro s syms hm hfault hb hctx hlen
  generalize hl : (syms.map fun p => (p.1.toNat, p.2)) = l
  have hllen : 16 * l.length < 2 ^ 32 := by rwa [← hl, List.length_map]
  generalize hc : (retire (openEncoder s)).cmdCnt + BitVec.ofNat 32 syms.length = c
  generalize he : codeAll false l (opened c s) = e
  have hrun : runAll (.einit false :: syms.map fun p => .encb false p.2 p.1) s = .next e := by
    have hcodes := runAll_encb (s := retire (openEncoder s)) (k := false) syms (fun _ => rfl) hctx
    rw [hc, hl, ← codeAll_cmdCnt] at hcodes
    simp only [runAll, exec_einit hm, Bool.false_eq_true, if_false, hcodes]
    exact congrArg _ he
  have hmode : e.mode = .enc := by
    rw [← he, codeAll_onlyEncoder false l (opened c s)]
    rfl
  obtain ⟨bytes, hout, hseg⟩ := codeAll_segmentOf c hb hllen he
  obtain ⟨t, ht, htout, -⟩ := exec_efin hmode
  refine ⟨e, t, bytes, hrun, ht, htout.trans hout, fun d before after hdm hdf hdb hinp hcur => ?_⟩
  obtain ⟨u, hu, hframe, hexp⟩ := openDecoder_expects hb hllen he hseg ⟨hdb, hinp, hcur⟩
  have hum : u.mode = .dec := by rw [hframe]; rfl
  have huf : u.fault = false := by rw [hframe]; exact hdf
  have hui : u.inp = d.inp := by rw [hframe]; rfl
  rw [← hl] at hexp
  obtain ⟨v, hv, hend, hvi⟩ := decodeRun_of_expects (d := retire u) syms hctx hum huf (hexp.congr rfl)
  exact ⟨retire u, v, exec_dinit hdm hu, hv, hend.finished hseg (hvi.trans (hui.trans hinp))⟩

end Segments

end Sys2Proof.Machine

/-! SUPPORT. The walk of a block as a list of symbols, with bounds on its length, and the halving of sub-blocks
(43_bitplane.md R132 to R137). -/

namespace Sys2Proof.Machine

open Sys2Proof.Claims

section WalkSymbols

variable {b child : Sub} {k n inf p : Nat}

/-! ### Children of a sub-block -/

/-- A child takes one of the halves on every axis (43_bitplane.md R132). -/
theorem mem_children :
    child ∈ children b ↔ ∀ a, (child.pos.get a, child.len.get a) ∈ halves (b.pos.get a) (b.len.get a) := by
  simp only [children, List.mem_flatMap, List.mem_map, forall_axis, Axes.get]
  constructor
  · rintro ⟨t, ht, s, hs, v, hv, u, hu, rfl⟩
    exact ⟨ht, hs, hv, hu⟩
  · rintro ⟨ht, hs, hv, hu⟩
    exact ⟨_, ht, _, hs, _, hv, _, hu, rfl⟩

theorem halves_of_ne_one {l : Nat} (h : l ≠ 1) (x : Nat) : halves x l = [(x, l / 2), (x + l / 2, l - l / 2)] :=
  if_neg h

/-- The halves lie in the axis, none is empty, and they are as short as halves can be. -/
theorem mem_halves_bounds {x l : Nat} {h : Nat × Nat} (hh : h ∈ halves x l) (hl : 1 ≤ l) :
    x ≤ h.1 ∧ h.1 + h.2 ≤ x + l ∧ 1 ≤ h.2 ∧ (l ≤ 2 ^ (k + 1) → h.2 ≤ 2 ^ k) := by
  have hpow : 2 ^ (k + 1) = 2 * 2 ^ k := Nat.pow_succ'
  have hpos := Nat.two_pow_pos k
  by_cases h1 : l = 1
  · rw [halves, if_pos h1, List.mem_singleton] at hh
    subst hh
    dsimp only
    omega
  · rw [halves_of_ne_one h1, List.mem_pair] at hh
    rcases hh with rfl | rfl <;> dsimp only <;> omega

/-- Every index of the axis lies in one of its halves. -/
theorem exists_mem_halves {x l i : Nat} (hx : x ≤ i) (hi : i < x + l) :
    ∃ h ∈ halves x l, h.1 ≤ i ∧ i < h.1 + h.2 := by
  by_cases h1 : l = 1
  · exact ⟨(x, 1), by simp [halves, h1], hx, by rwa [h1] at hi⟩
  · rw [halves_of_ne_one h1]
    by_cases hlow : i < x + l / 2
    · exact ⟨(x, l / 2), by simp, hx, hlow⟩
    · exact ⟨(x + l / 2, l - l / 2), by simp, Nat.le_of_not_lt hlow, by dsimp only; omega⟩

/-- Every axis of the sub-block has from 1 to `2^k` elements. -/
def Sub.within (k : Nat) (b : Sub) : Prop := ∀ a, 1 ≤ b.len.get a ∧ b.len.get a ≤ 2 ^ k

theorem Sub.within.succ (hb : b.within k) : b.within (k + 1) := fun a =>
  ⟨(hb a).1, (hb a).2.trans (Nat.pow_le_pow_right (by decide) (Nat.le_succ k))⟩

theorem children_within (hb : b.within (k + 1)) (hc : child ∈ children b) : child.within k := fun a =>
  have ⟨_, _, hpos, hhalf⟩ := mem_halves_bounds (mem_children.mp hc a) (hb a).1
  ⟨hpos, hhalf (hb a).2⟩

theorem children_cells_subset (hb : b.within k) (hc : child ∈ children b) : child.cells ⊆ b.cells := by
  intro pos hpos
  rw [Sub.mem_cells] at hpos ⊢
  intro a
  obtain ⟨hstart, hend, -, -⟩ := mem_halves_bounds (k := 0) (mem_children.mp hc a) (hb a).1
  have := hpos a
  dsimp only at hstart hend
  omega

/-- The children cover their parent. -/
theorem cells_subset_children (b : Sub) : b.cells ⊆ (children b).flatMap Sub.cells := by
  intro pos hpos
  rw [Sub.mem_cells] at hpos
  choose h hmem hle hlt using fun a => exists_mem_halves (hpos a).1 (hpos a).2
  have hget (f : Axis → Nat) (a : Axis) : (⟨f .t, f .s, f .v, f .u⟩ : Axes Nat).get a = f a := by cases a <;> rfl
  refine List.mem_flatMap.mpr
    ⟨{ pos := ⟨(h .t).1, (h .s).1, (h .v).1, (h .u).1⟩, len := ⟨(h .t).2, (h .s).2, (h .v).2, (h .u).2⟩ },
    mem_children.mpr fun a => ?_, Sub.mem_cells.mpr fun a => ?_⟩
  · rw [hget (fun a => (h a).1), hget (fun a => (h a).2)]
    exact hmem a
  · rw [hget (fun a => (h a).1), hget (fun a => (h a).2)]
    exact ⟨hle a, hlt a⟩

/-- Only a single element cannot be halved. -/
theorem Sub.single_of_within_zero (hb : b.within 0) : b.single = true := by
  have hlen : b.len = ⟨1, 1, 1, 1⟩ := Axes.ext_get fun a => by
    have := hb a
    cases a <;> exact Nat.le_antisymm this.2 this.1
  exact decide_eq_true hlen

/-- The halves have the axis' length together. -/
theorem halves_sum (x l : Nat) : ((halves x l).map Prod.snd).sum = l := by
  by_cases h1 : l = 1
  · simp [halves, h1]
  · rw [halves_of_ne_one h1]
    simp only [List.map_cons, List.map_nil, List.sum_cons, List.sum_nil]
    omega

/-- The children have the parent's elements together. -/
theorem children_product (b : Sub) : ((children b).map fun c => c.len.product).sum = b.len.product := by
  simp only [children, List.map_flatMap, List.map_map, Function.comp_def, Axes.product]
  simp only [List.flatMap_def, List.sum_flatten, List.map_map, Function.comp_def, List.sum_map_mul_left,
    List.sum_map_mul_right, halves_sum]

theorem product_pos (hb : b.within k) : 1 ≤ b.len.product :=
  Nat.mul_pos (Nat.mul_pos (Nat.mul_pos (hb .t).1 (hb .s).1) (hb .v).1) (hb .u).1

/-! ### The symbols -/

/-- The words of a block, by position. -/
def blockWords (blk : Block) (s : State) : Words := fun pos => memRead s (blk.addr pos)

/-- The symbols of `EncTerminal` for the word `x` (43_bitplane.md R135). -/
def terminalSymbols (inf p : Nat) (x : Int) : List (Nat × Bool) :=
  (planesDown p inf).map (fun q => (ctxMag q, magnitudeBit x q)) ++
    if (planesDown p inf).any (magnitudeBit x) then [(ctxAux, decide (x < 0))] else []

/-- The largest magnitude of the words `x` in a sub-block (43_bitplane.md R134). -/
def largest (x : Words) (b : Sub) : Nat := b.cells.foldl (fun m e => max m (x e).natAbs) 0

/-- `ChooseFlag` by the words alone (43_bitplane.md R134). -/
def flagOf (inf : Nat) (x : Words) (b : Sub) (p : Nat) : SegFlag :=
  if largest x b < 2 ^ inf then .zeroBlock else if largest x b < 2 ^ p then .lowerBitPlane else .splitBlock

/-- The symbols of `WalkEnc` with at most `n` nested calls (43_bitplane.md R136). -/
def walkSymbols (inf : Nat) (x : Words) : Nat → Sub → Int → List (Nat × Bool)
  | 0, _, _ => []
  | n + 1, b, p =>
    if p < inf then []
    else if b.single then terminalSymbols inf p.toNat (x b.pos)
    else
      match flagOf inf x b p.toNat with
      | .zeroBlock => [(ctxSeg p.toNat 0, true)]
      | .lowerBitPlane =>
        (ctxSeg p.toNat 0, false) :: (ctxSeg p.toNat 1, false) :: walkSymbols inf x n b (p - 1)
      | .splitBlock =>
        (ctxSeg p.toNat 0, false) :: (ctxSeg p.toNat 1, true) ::
          (children b).flatMap fun child => walkSymbols inf x n child p

/-- The symbols of `ENBLK`: the header if asked, then the walk (43_bitplane.md R137). -/
def blockSymbols (hd : Bool) (root : Sub) (sup inf : Nat) (x : Words) : List (Nat × Bool) :=
  (if hd then intSymbols 5 inf else []) ++ walkSymbols inf x walkDepth root sup

theorem codeAll_mem (c : Bool) (l : List (Nat × Bool)) (s : State) : (codeAll c l s).mem = s.mem := by
  rw [codeAll_onlyEncoder c l s]

theorem codeAll_map (c : Bool) {α : Type} (f : α → Nat × Bool) (l : List α) (s : State) :
    codeAll c (l.map f) s = l.foldl (fun st q => codeBit (f q).1 (f q).2 c st) s := List.foldl_map

theorem encTerminal_eq_codeAll (blk : Block) (pos : Axes Nat) (c : Bool) (s : State) :
    encTerminal blk inf pos p c s = codeAll c (terminalSymbols inf p (blockWords blk s pos)) s := by
  rw [terminalSymbols, codeAll_append, codeAll_map, encTerminal, blockWords]
  dsimp only
  split <;> rfl

/-- The walk codes its symbols; they depend on the block's words alone. -/
theorem walkEncLoop_eq_codeAll (blk : Block) (c : Bool) {x : Words} (n : Nat) (b : Sub) (p : Int) {s : State}
    (hx : blockWords blk s = x) :
    walkEncLoop blk inf c n b p s = codeAll c (walkSymbols inf x n b p) s := by
  induction n generalizing b p s with
  | zero => rfl
  | succ n ih =>
    have hflag : chooseFlag blk inf b p.toNat s = flagOf inf x b p.toNat := by rw [← hx]; rfl
    have hmem {l : List (Nat × Bool)} {u : State} (hu : blockWords blk u = x) :
        blockWords blk (codeAll c l u) = x := by
      rw [← hu]
      funext pos
      exact memRead_congr (codeAll_mem c l u) _
    have hsplit (l : List Sub) {u : State} (hu : blockWords blk u = x) :
        l.foldl (fun st child => walkEncLoop blk inf c n child p st) u =
          codeAll c (l.flatMap fun child => walkSymbols inf x n child p) u := by
      induction l generalizing u with
      | nil => rfl
      | cons child rest ihl =>
        rw [List.foldl_cons, ih child p hu, ihl (hmem hu), List.flatMap_cons, codeAll_append]
    unfold walkEncLoop walkSymbols
    rw [hflag]
    split
    · rfl
    · split
      · rw [encTerminal_eq_codeAll, hx]
      · have htwo (y z : Nat × Bool) : blockWords blk (codeBit z.1 z.2 c (codeBit y.1 y.2 c s)) = x :=
          hmem (l := [y, z]) hx
        cases flagOf inf x b p.toNat with
        | zeroBlock => rfl
        | lowerBitPlane => exact ih b (p - 1) (htwo (ctxSeg p.toNat 0, false) (ctxSeg p.toNat 1, false))
        | splitBlock => exact hsplit (children b) (htwo (ctxSeg p.toNat 0, false) (ctxSeg p.toNat 1, true))

theorem codeBlock_eq_codeAll (c hd : Bool) (s : State) :
    codeBlock c hd s =
      codeAll c (blockSymbols hd (currentBlock s).root s.sup.toNat s.inf.toNat (blockWords (currentBlock s) s)) s := by
  rw [codeBlock, walkEnc, blockSymbols, codeAll_append]
  cases hd with
  | false => exact walkEncLoop_eq_codeAll _ _ _ _ _ rfl
  | true =>
    simp only [if_true]
    rw [codeInt_eq_codeAll]
    refine walkEncLoop_eq_codeAll _ _ _ _ _ ?_
    funext pos
    exact memRead_congr (codeAll_mem _ _ _) _

/-! ### How many there are -/

theorem planesDown_length (p inf : Nat) : (planesDown p inf).length = p + 1 - inf := by
  simp [planesDown]

theorem terminalSymbols_length (hp : p ≤ 30) (x : Int) : (terminalSymbols inf p x).length ≤ 32 := by
  have hlen := planesDown_length p inf
  rw [terminalSymbols, List.length_append, List.length_map, hlen]
  split <;> simp only [List.length_singleton, List.length_nil] <;> omega

/-- A nested call codes at most two flags, and the elements at most 32 symbols each. -/
theorem walkSymbols_length (x : Words) (n : Nat) (hb : b.within k) {p : Int} (hp : p ≤ 30) :
    (walkSymbols inf x n b p).length ≤ b.len.product * (2 * n + 32) := by
  induction n generalizing b k p with
  | zero => exact Nat.zero_le _
  | succ n ih =>
    have hpos := product_pos hb
    have hstep : b.len.product * (2 * n + 32) + 2 ≤ b.len.product * (2 * (n + 1) + 32) := by
      have hadd : b.len.product * (2 * (n + 1) + 32) = b.len.product * (2 * n + 32) + b.len.product * 2 := by ring
      omega
    have hfew : 32 ≤ b.len.product * (2 * (n + 1) + 32) :=
      (Nat.le_add_left 32 _).trans (Nat.le_mul_of_pos_left _ hpos)
    unfold walkSymbols
    split
    · exact Nat.zero_le _
    · split
      · exact (terminalSymbols_length (by omega) _).trans hfew
      · split
        · exact (show 1 ≤ 32 by decide).trans hfew
        · exact (Nat.add_le_add_right (ih hb (by omega)) 2).trans hstep
        · refine (Nat.add_le_add_right ?_ 2).trans hstep
          rw [List.length_flatMap, ← children_product, ← List.sum_map_mul_right]
          exact List.sum_le_sum fun c hc =>
            ih (children_within hb.succ hc) hp

/-- The symbols of a block: 112 for each element, and the header's five. -/
theorem blockSymbols_length (hd : Bool) (hb : b.within k) {sup : Nat} (hs : sup ≤ 30) (x : Words) :
    (blockSymbols hd b sup inf x).length ≤ 5 + b.len.product * 112 := by
  have hwalk := walkSymbols_length (inf := inf) x walkDepth hb (p := sup) (by omega)
  have hheader : (if hd then intSymbols 5 inf else []).length ≤ 5 := by
    cases hd <;> simp [intSymbols]
  rw [blockSymbols, List.length_append]
  exact Nat.add_le_add hheader hwalk

end WalkSymbols

end Sys2Proof.Machine

/-! PROOF. The round trip of a block: a decoder that has the walk's symbols before it takes the same walk and writes the
words with the bits below `INF` cleared (43_bitplane.md R138 to R141). -/

namespace Sys2Proof.Machine

open Sys2Proof.Claims

section BlockRoundTrip

variable {s d t u : State} {blk : Block} {inf p k : Nat} {x : Words} {pos : Axes Nat} {cells more : List (Axes Nat)}

/-! ### The words written -/

/-- `v` with the bits of its magnitude below `inf` cleared (43_bitplane.md R141). -/
def cleared (inf : Nat) (v : Int) : Int := v.sign * ((v.natAbs / 2 ^ inf * 2 ^ inf : Nat) : Int)

theorem cleared_of_small {v : Int} (h : v.natAbs < 2 ^ inf) : cleared inf v = 0 := by
  simp [cleared, Nat.div_eq_of_lt h]

/-- From `s` to `t` the elements `cells` got their cleared words, and no element lost its own. -/
structure Decoded (blk : Block) (inf : Nat) (x : Words) (cells : List (Axes Nat)) (s t : State) : Prop where
  inside : ∀ pos ∈ cells, blk.has pos
  wf : t.mem.wf
  words : ∀ pos ∈ cells, memRead t (blk.addr pos) = cleared inf (x pos)
  kept : ∀ pos, blk.has pos → memRead s (blk.addr pos) = cleared inf (x pos) →
    memRead t (blk.addr pos) = cleared inf (x pos)

theorem Decoded.none (hwf : s.mem.wf) (h : t.mem = s.mem) : Decoded blk inf x [] s t where
  inside := nofun
  wf := h ▸ hwf
  words := nofun
  kept _ _ hs := (memRead_congr h _).trans hs

theorem Decoded.trans (h1 : Decoded blk inf x cells s t) (h2 : Decoded blk inf x more t u) :
    Decoded blk inf x (cells ++ more) s u where
  inside := List.forall_mem_append.mpr ⟨h1.inside, h2.inside⟩
  wf := h2.wf
  words := List.forall_mem_append.mpr ⟨fun pos hp => h2.kept pos (h1.inside pos hp) (h1.words pos hp), h2.words⟩
  kept pos hp hs := h2.kept pos hp (h1.kept pos hp hs)

theorem Decoded.of_mem_eq (h : Decoded blk inf x cells t u) (hmem : t.mem = s.mem) :
    Decoded blk inf x cells s u :=
  { h with kept := fun pos hp hs => h.kept pos hp ((memRead_congr hmem _).trans hs) }

theorem Decoded.subset (h : Decoded blk inf x cells s t) (hsub : more ⊆ cells) : Decoded blk inf x more s t where
  inside pos hp := h.inside pos (hsub hp)
  wf := h.wf
  words pos hp := h.words pos (hsub hp)
  kept := h.kept

theorem memWrite_decoded (hwf : s.mem.wf) (hpos : blk.has pos) {v : Word} (hv : v.toInt = cleared inf (x pos)) :
    Decoded blk inf x [pos] s (memWrite (blk.addr pos) v s) := by
  have hread (a : Nat) : memRead (memWrite (blk.addr pos) v s) a =
      if a = blk.addr pos then v.toInt else memRead s a := by
    simp only [memRead, memWrite, Memory.read_write s.mem hwf, apply_ite BitVec.toInt]
  refine ⟨?_, s.mem.write_wf _ _ hwf, ?_, fun q hq hs => ?_⟩
  · simpa using hpos
  · simpa [hread] using hv
  · rw [hread]
    split
    · rwa [Block.addr_inj hq hpos ‹_›]
    · exact hs

/-- `Fill0` of elements whose magnitudes are all below `2^inf`. -/
theorem fill0_decoded {b : Sub} (hin : b.inside blk) (hwf : s.mem.wf)
    (hx : ∀ pos ∈ b.cells, (x pos).natAbs < 2 ^ inf) : Decoded blk inf x b.cells s (fill0 blk b s) := by
  unfold fill0
  have hhas : ∀ pos ∈ b.cells, blk.has pos := fun _ hp => hin.cells hp
  generalize b.cells = l at hx hhas ⊢
  induction l generalizing s with
  | nil => exact .none hwf rfl
  | cons pos rest ih =>
    obtain ⟨hx0, hx⟩ := List.forall_mem_cons.mp hx
    obtain ⟨hp, hhas⟩ := List.forall_mem_cons.mp hhas
    have h1 := memWrite_decoded (v := 0#32) hwf hp (cleared_of_small hx0).symm
    exact h1.trans (ih h1.wf hx hhas)

theorem fill0_sameDecoder (blk : Block) (b : Sub) (s : State) : sameDecoder s (fill0 blk b s) :=
  List.foldlRecOn (motive := sameDecoder s) b.cells _ (b := s) rfl fun t ht e _ => by
    unfold sameDecoder at ht ⊢
    rw [ht]
    rfl

/-! ### Decoding what is expected -/

/-- The round trip of a block: the block it is decoded into, the plane of `INF`, the words coded, and the segment. -/
structure RoundTrip where
  blk : Block
  inf : Nat
  words : Words
  start : Nat
  bits : List Bool
  last : State

/-- The decoder has the symbols `l` of the round trip before it. -/
abbrev RoundTrip.Before (r : RoundTrip) (l : List (Nat × Bool)) (d : State) : Prop :=
  Expects r.start r.bits r.last l d

/-- `g` decodes the symbols `l` into the elements `cells`. -/
def RoundTrip.Follows (r : RoundTrip) (l : List (Nat × Bool)) (cells : List (Axes Nat)) (g : State → Option State) :
    Prop :=
  ∀ d rest, d.mem.wf → r.Before (l ++ rest) d →
    ∃ u, g d = some u ∧ r.Before rest u ∧ Decoded r.blk r.inf r.words cells d u

variable {r : RoundTrip} {l rest : List (Nat × Bool)}

theorem decodeBit_of_before {c : Nat} {b : Bool} (h : r.Before ((c, b) :: rest) d) :
    ∃ u, decodeBit c d = some (b, u) ∧ r.Before rest u ∧ u.mem = d.mem := by
  obtain ⟨u, hu, hrest⟩ := h.decodeBit
  exact ⟨u, hu, hrest, by rw [decodeBit_onlyDecoder c hu]⟩

/-- `DecodeInt` gives back the integer coded (42_arith_decoder.md R121). -/
theorem decodeIntLoop_of_before (n v w : Nat) (h : r.Before (intSymbols n w ++ rest) d) :
    ∃ u, decodeIntLoop n v d = some (v * 2 ^ n + w % 2 ^ n, u) ∧ r.Before rest u := by
  induction n generalizing v d with
  | zero => exact ⟨d, by simp [decodeIntLoop, Nat.mod_one], h⟩
  | succ n ih =>
    rw [intSymbols_succ] at h
    obtain ⟨t, ht, hrest, -⟩ := decodeBit_of_before h
    obtain ⟨u, hu, hend⟩ := ih (2 * v + bit (w.testBit n)) hrest
    have hvalue : (2 * v + bit (w.testBit n)) * 2 ^ n + w % 2 ^ n = v * 2 ^ (n + 1) + w % 2 ^ (n + 1) := by
      have hbit : bit (w.testBit n) = w / 2 ^ n % 2 := by
        rw [← Nat.toNat_testBit]
        cases w.testBit n <;> rfl
      rw [hbit, Nat.mod_pow_succ]
      ring
    rw [hvalue] at hu
    refine ⟨u, ?_, hend⟩
    rw [decodeIntLoop, ht]
    exact hu

/-! ### One element -/

theorem planesDown_eq_map (h : inf ≤ p) :
    planesDown p inf = (List.range (p + 1 - inf)).map fun i => inf + (p + 1 - inf - 1 - i) := by
  refine List.map_congr_left fun i hi => ?_
  have := List.mem_range.mp hi
  omega

/-- The bits of a magnitude from plane `p` down to `inf` write it with the bits below `inf` cleared. -/
theorem planesDown_sum {y : Nat} (hy : y < 2 ^ (p + 1)) (h : inf ≤ p) :
    ((planesDown p inf).map fun q => 2 ^ q * bit (y.testBit q)).sum = y / 2 ^ inf * 2 ^ inf := by
  have hbits (z n : Nat) : ((List.range n).map fun i => 2 ^ (n - 1 - i) * bit (z.testBit (n - 1 - i))).sum =
      z % 2 ^ n := by
    induction n with
    | zero => simp [Nat.mod_one]
    | succ n ih =>
      rw [map_range_down_succ fun i => 2 ^ i * bit (z.testBit i), List.sum_cons, ih, Nat.mod_pow_succ,
        ← Nat.toNat_testBit]
      cases z.testBit n <;> simp [bit, Nat.add_comm]
  have hterm (i : Nat) : 2 ^ (inf + i) * bit (y.testBit (inf + i)) =
      2 ^ i * bit ((y / 2 ^ inf).testBit i) * 2 ^ inf := by
    rw [Nat.testBit_div_two_pow, Nat.add_comm i inf]
    ring
  have hlt : y / 2 ^ inf < 2 ^ (p + 1 - inf) := by
    rw [Nat.div_lt_iff_lt_mul (Nat.two_pow_pos inf), ← Nat.pow_add]
    rwa [Nat.sub_add_cancel (by omega)]
  rw [planesDown_eq_map h, List.map_map]
  simp only [Function.comp_def, hterm]
  rw [List.sum_map_mul_right, hbits, Nat.mod_eq_of_lt hlt]

theorem decMagnitude_of_before (g : Nat → Bool) (planes : List Nat) (v : Nat)
    (h : r.Before (planes.map (fun q => (ctxMag q, g q)) ++ rest) d) :
    ∃ u, decMagnitude planes v d = some (v + (planes.map fun q => 2 ^ q * bit (g q)).sum, u) ∧ r.Before rest u ∧
      u.mem = d.mem := by
  induction planes generalizing v d with
  | nil => exact ⟨d, rfl, h, rfl⟩
  | cons q planes ih =>
    obtain ⟨t, ht, hrest, hmem⟩ := decodeBit_of_before h
    obtain ⟨u, hu, hend, hmem'⟩ := ih (v + 2 ^ q * bit (g q)) hrest
    refine ⟨u, ?_, hend, hmem'.trans hmem⟩
    rw [decMagnitude, ht, List.map_cons, List.sum_cons, ← Nat.add_assoc]
    exact hu

/-- A magnitude is zero where none of its bits is set. -/
theorem planes_any_eq (planes : List Nat) (g : Nat → Bool) :
    planes.any g = decide ((planes.map fun q => 2 ^ q * bit (g q)).sum ≠ 0) := by
  have hbit (q : Nat) : 2 ^ q * bit (g q) ≠ 0 ↔ g q = true := by cases h : g q <;> simp [bit]
  rw [Bool.eq_iff_iff, List.any_eq_true, decide_eq_true_eq, ne_eq, List.sum_eq_zero_iff]
  simp only [List.forall_mem_map, not_forall, hbit, exists_prop]

/-- The word stored for a sign and a magnitude. -/
theorem storeInt_cleared {v : Int} (hsmall : v.natAbs < 2 ^ 31) :
    (storeInt 32 (if v < 0 then -((v.natAbs / 2 ^ inf * 2 ^ inf : Nat) : Int)
      else ((v.natAbs / 2 ^ inf * 2 ^ inf : Nat) : Int))).toInt = cleared inf v := by
  have hle : v.natAbs / 2 ^ inf * 2 ^ inf ≤ v.natAbs := Nat.div_mul_le_self _ _
  have hvalue : (if v < 0 then -((v.natAbs / 2 ^ inf * 2 ^ inf : Nat) : Int)
      else ((v.natAbs / 2 ^ inf * 2 ^ inf : Nat) : Int)) = cleared inf v := by
    unfold cleared
    rcases lt_trichotomy v 0 with hneg | rfl | hpos
    · rw [if_pos hneg, Int.sign_eq_neg_one_of_neg hneg, Int.neg_one_mul]
    · simp
    · rw [if_neg (by omega), Int.sign_eq_one_of_pos hpos, Int.one_mul]
  rw [hvalue.symm, storeInt, BitVec.toInt_ofInt_eq_self (by decide)]
  · split <;> omega
  · split <;> omega

theorem decTerminal_follows (hpos : r.blk.has pos) (hp : p ≤ 30) (hinf : r.inf ≤ p)
    (hx : (r.words pos).natAbs < 2 ^ (p + 1)) :
    r.Follows (terminalSymbols r.inf p (r.words pos)) [pos] (decTerminal r.blk r.inf pos p) := by
  intro d rest hwf h
  have hsum : ((planesDown p r.inf).map fun q => 2 ^ q * bit (magnitudeBit (r.words pos) q)).sum =
      (r.words pos).natAbs / 2 ^ r.inf * 2 ^ r.inf := planesDown_sum hx hinf
  have hsmall : (r.words pos).natAbs < 2 ^ 31 := hx.trans_le (Nat.pow_le_pow_right (by decide) (by omega))
  have hstore := storeInt_cleared (inf := r.inf) hsmall
  rw [terminalSymbols, List.append_assoc, planes_any_eq, hsum] at h
  obtain ⟨t, ht, hsign, hmem⟩ := decMagnitude_of_before _ _ 0 h
  rw [hsum, Nat.zero_add] at ht
  simp only [decTerminal, ht]
  by_cases hzero : (r.words pos).natAbs / 2 ^ r.inf * 2 ^ r.inf = 0
  · have hclear : (0#32).toInt = cleared r.inf (r.words pos) := by simp [cleared, hzero]
    simp only [hzero, ne_eq, not_true_eq_false, decide_false, Bool.false_eq_true, if_false, List.nil_append] at hsign
    rw [if_pos hzero]
    exact ⟨_, rfl, hsign.congr rfl, (memWrite_decoded (hmem ▸ hwf) hpos hclear).of_mem_eq hmem⟩
  · simp only [hzero, ne_eq, not_false_eq_true, decide_true, if_true, List.singleton_append] at hsign
    obtain ⟨u, hu, hend, hmem'⟩ := decodeBit_of_before hsign
    rw [if_neg hzero, hu]
    refine ⟨_, rfl, hend.congr rfl, (memWrite_decoded ?_ hpos ?_).of_mem_eq (hmem'.trans hmem)⟩
    · rw [hmem', hmem]
      exact hwf
    · simpa only [decide_eq_true_eq] using hstore

/-! ### The walk -/

theorem largest_lt_iff {b : Sub} {n : Nat} (hn : 0 < n) :
    largest x b < n ↔ ∀ pos ∈ b.cells, (x pos).natAbs < n := by
  have hfold (l : List (Axes Nat)) (m : Nat) :
      l.foldl (fun m e => max m (x e).natAbs) m < n ↔ m < n ∧ ∀ pos ∈ l, (x pos).natAbs < n := by
    induction l generalizing m with
    | nil => simp
    | cons e rest ih => rw [List.foldl_cons, ih, max_lt_iff, List.forall_mem_cons, and_assoc]
  rw [largest, hfold]
  exact and_iff_right hn

theorem flagOf_zeroBlock {b : Sub} (h : flagOf inf x b p = .zeroBlock) :
    ∀ pos ∈ b.cells, (x pos).natAbs < 2 ^ inf := by
  unfold flagOf at h
  split_ifs at h with hlt
  exact (largest_lt_iff (Nat.two_pow_pos _)).mp hlt

theorem flagOf_lowerBitPlane {b : Sub} (h : flagOf inf x b p = .lowerBitPlane) :
    ∀ pos ∈ b.cells, (x pos).natAbs < 2 ^ p := by
  unfold flagOf at h
  split_ifs at h with _ hlt
  exact (largest_lt_iff (Nat.two_pow_pos _)).mp hlt

/-- Sub-blocks one after another. -/
theorem foldlM_follows (sym : Sub → List (Nat × Bool)) (g : Sub → State → Option State) (l : List Sub)
    (hg : ∀ c ∈ l, r.Follows (sym c) c.cells (g c)) :
    r.Follows (l.flatMap sym) (l.flatMap Sub.cells) fun d => l.foldlM (fun st c => g c st) d := by
  induction l with
  | nil => exact fun d rest hwf h => ⟨d, rfl, h, .none hwf rfl⟩
  | cons c l ih =>
    obtain ⟨hc, hl⟩ := List.forall_mem_cons.mp hg
    intro d rest hwf h
    rw [List.flatMap_cons, List.append_assoc] at h
    obtain ⟨t, ht, hrest, hdec⟩ := hc d _ hwf h
    obtain ⟨u, hu, hend, hdec'⟩ := ih hl t rest hdec.wf hrest
    refine ⟨u, ?_, hend, hdec.trans hdec'⟩
    simp only [List.foldlM_cons, ht]
    exact hu

/-- A bit before it that decides the way. -/
theorem RoundTrip.Follows.afterBit {c : Nat} {b : Bool} {g g' : State → Option State} (h : r.Follows l cells g')
    (hg : ∀ d u, decodeBit c d = some (b, u) → g d = g' u) : r.Follows ((c, b) :: l) cells g := by
  intro d rest hwf hd
  obtain ⟨t, ht, hrest, hmem⟩ := decodeBit_of_before hd
  obtain ⟨u, hu, hend, hdec⟩ := h t rest (hmem ▸ hwf) hrest
  exact ⟨u, (hg d t ht).trans hu, hend, hdec.of_mem_eq hmem⟩

theorem fill0_follows {b : Sub} (hin : b.inside r.blk) (hx : ∀ pos ∈ b.cells, (r.words pos).natAbs < 2 ^ r.inf) :
    r.Follows [] b.cells fun d => some (fill0 r.blk b d) := fun d _ hwf h =>
  ⟨_, rfl, h.congr (fill0_sameDecoder r.blk b d), fill0_decoded hin hwf hx⟩

theorem RoundTrip.Follows.subset {g : State → Option State} (h : r.Follows l cells g) (hsub : more ⊆ cells) :
    r.Follows l more g := by
  intro d rest hwf hd
  obtain ⟨u, hu, hend, hdec⟩ := h d rest hwf hd
  exact ⟨u, hu, hend, hdec.subset hsub⟩

theorem RoundTrip.Follows.congr {g g' : State → Option State} (h : r.Follows l cells g') (hg : ∀ d, g d = g' d) :
    r.Follows l cells g := fun d rest hwf hd => (hg d).symm ▸ h d rest hwf hd

/-- The walk behind a first flag 0: the second one decides (43_bitplane.md R139). -/
def walkDecSecond (blk : Block) (inf n : Nat) (b : Sub) (p : Int) (s : State) : Option State :=
  match decodeBit (ctxSeg p.toNat 1) s with
  | none => none
  | some (false, s2) => walkDecLoop blk inf n b (p - 1) s2
  | some (true, s2) => (children b).foldlM (fun st child => walkDecLoop blk inf n child p st) s2

theorem walkDecLoop_of_zeroBlock {n : Nat} {b : Sub} {p : Int} (hp : ¬p < inf) (hb : ¬b.single = true)
    (hd : decodeBit (ctxSeg p.toNat 0) d = some (true, u)) :
    walkDecLoop blk inf (n + 1) b p d = some (fill0 blk b u) := by
  simp only [walkDecLoop, if_neg hp, if_neg hb, hd]

theorem walkDecLoop_of_not_zeroBlock {n : Nat} {b : Sub} {p : Int} (hp : ¬p < inf) (hb : ¬b.single = true)
    (hd : decodeBit (ctxSeg p.toNat 0) d = some (false, u)) :
    walkDecLoop blk inf (n + 1) b p d = walkDecSecond blk inf n b p u := by
  simp only [walkDecLoop, if_neg hp, if_neg hb, hd]
  rfl

theorem walkDecSecond_of_lowerBitPlane {n : Nat} {b : Sub} {p : Int}
    (hd : decodeBit (ctxSeg p.toNat 1) d = some (false, u)) :
    walkDecSecond blk inf n b p d = walkDecLoop blk inf n b (p - 1) u := by
  simp only [walkDecSecond, hd]

theorem walkDecSecond_of_splitBlock {n : Nat} {b : Sub} {p : Int}
    (hd : decodeBit (ctxSeg p.toNat 1) d = some (true, u)) :
    walkDecSecond blk inf n b p d = (children b).foldlM (fun st child => walkDecLoop blk inf n child p st) u := by
  simp only [walkDecSecond, hd]

/-- The decoder's walk takes the encoder's (43_bitplane.md R139), as long as its calls do not run out: a plane or a
halving less for each. -/
theorem walkDecLoop_follows (n : Nat) {b : Sub} {p : Int} (hin : b.inside r.blk) (hb : b.within k)
    (hn : (p + 1).toNat + k + 1 ≤ n) (hp : p ≤ 30)
    (hx : ∀ pos ∈ b.cells, (r.words pos).natAbs < 2 ^ (p + 1).toNat) :
    r.Follows (walkSymbols r.inf r.words n b p) b.cells (walkDecLoop r.blk r.inf n b p) := by
  induction n generalizing b p k with
  | zero => omega
  | succ n ih =>
    unfold walkSymbols
    split
    · exact (fill0_follows hin fun pos hpos =>
        (hx pos hpos).trans_le (Nat.pow_le_pow_right (by decide) (by omega))).congr fun d => if_pos ‹_›
    · have hplane : (p + 1).toNat = p.toNat + 1 := by omega
      split
      · have hlen : b.len = ⟨1, 1, 1, 1⟩ := of_decide_eq_true ‹_›
        have hcells : b.cells = [b.pos] := by simp [Sub.cells, hlen]
        rw [hcells, hplane, List.forall_mem_singleton] at hx
        rw [hcells]
        exact (decTerminal_follows (hin.single ‹_›) (by omega) (by omega) hx).congr fun d =>
          (if_neg ‹_›).trans (if_pos ‹_›)
      · cases hflag : flagOf r.inf r.words b p.toNat with
        | zeroBlock =>
          exact (fill0_follows hin (flagOf_zeroBlock hflag)).afterBit
            fun d u hu => walkDecLoop_of_zeroBlock ‹_› ‹_› hu
        | lowerBitPlane =>
          have hsmall := flagOf_lowerBitPlane hflag
          have hlower := ih (p := p - 1) hin hb (by omega) (by omega) (by rwa [Int.sub_add_cancel])
          exact (hlower.afterBit fun d u hu => walkDecSecond_of_lowerBitPlane hu).afterBit
            fun d u hu => walkDecLoop_of_not_zeroBlock ‹_› ‹_› hu
        | splitBlock =>
          obtain ⟨j, rfl⟩ : ∃ j, k = j + 1 := Nat.exists_eq_succ_of_ne_zero fun hk =>
            absurd (Sub.single_of_within_zero (hk ▸ hb)) ‹_›
          have hsplit := foldlM_follows (r := r) _ (fun child => walkDecLoop r.blk r.inf n child p) (children b)
            fun child hc => ih (hin.children hc) (children_within hb hc) (by omega) hp
              fun pos hpos => hx pos (children_cells_subset hb hc hpos)
          have hall := hsplit.subset (cells_subset_children b)
          exact (hall.afterBit fun d u hu => walkDecSecond_of_splitBlock hu).afterBit
            fun d u hu => walkDecLoop_of_not_zeroBlock ‹_› ‹_› hu

/-! ### The commands -/

theorem deblkCheck_of_legal (hb : blockLegal s) (hs : s.sup.toNat ≤ 30) {h : Bool}
    (hi : h = false → s.inf.toNat ≤ s.sup.toNat) (w : Word) : deblkCheck h w s = none := by
  have hplane : planeCheckDec h s = none :=
    (if_neg (Nat.not_lt.mpr hs)).trans (if_neg fun hbad => absurd hbad.2 (Nat.not_lt.mpr (hi hbad.1)))
  simp only [deblkCheck, blockCheck_of_blockLegal hb, hplane]

theorem enblkCheck_of_legal (hb : blockLegal s) (hs : s.sup.toNat ≤ 30) (hi : s.inf.toNat ≤ s.sup.toNat)
    (hx : ∀ a, inBlock s a → (memRead s a).natAbs < 2 ^ (s.sup.toNat + 1)) (w : Word) :
    enblkCheck w s = none := by
  have hplane : planeCheck s = none := (if_neg (Nat.not_lt.mpr hs)).trans (if_neg (Nat.not_lt.mpr hi))
  have hfind : firstOutOfRange (currentBlock s) s.sup.toNat s = none := by
    rw [firstOutOfRange, Option.map_eq_none_iff, List.find?_eq_none]
    intro i hi
    have hin : inBlock s (s.blkBase.toNat + i) :=
      ⟨Nat.le_add_right _ _, Nat.add_lt_add_left (List.mem_range.mp hi) _⟩
    exact fun hge => Nat.not_le.mpr (hx _ hin) (of_decide_eq_true hge)
  simp only [enblkCheck, blockCheck_of_blockLegal hb, hplane, hfind]

theorem exec_deblk {h : Bool} (hm : s.mode = .dec) (hc : deblkCheck h (encode (.deblk h)) s = none)
    (hu : decodeBlock h s = some u) : exec (.deblk h) s = .next (retire u) := by
  simp only [exec, execDeblk, if_neg (not_not_intro hm), hc, hu]
  rfl

/-- What `DEBLK` needs to follow the walk: its block and planes, and the words in range. -/
structure RoundTrip.Ready (r : RoundTrip) (h : Bool) (d : State) : Prop where
  block : currentBlock d = r.blk
  lengths : r.blk.root.within 6
  planes : d.sup.toNat ≤ 30 ∧ r.inf ≤ d.sup.toNat
  header : h = false → d.inf.toNat = r.inf
  range : ∀ pos, r.blk.has pos → (r.words pos).natAbs < 2 ^ (d.sup.toNat + 1)
  memory : d.mem.wf

theorem decodeHeader_of_before {h : Bool} (hd : r.Ready h d)
    (hb : r.Before ((if h then intSymbols 5 r.inf else []) ++ rest) d) :
    ∃ u, decodeHeader h d = some u ∧ r.Before rest u ∧ u.inf.toNat = r.inf ∧ u.mem = d.mem := by
  cases h with
  | false => exact ⟨d, rfl, hb, hd.header rfl, rfl⟩
  | true =>
    obtain ⟨t, ht, hrest⟩ := decodeIntLoop_of_before 5 0 r.inf hb
    obtain ⟨hs, hi⟩ := hd.planes
    have hvalue : 0 * 2 ^ 5 + r.inf % 2 ^ 5 = r.inf := by omega
    rw [hvalue] at ht
    refine ⟨{ t with inf := BitVec.ofNat 5 r.inf }, ?_, hrest.congr rfl, ?_, ?_⟩
    · simp only [decodeHeader, if_true, decodeInt, ht]
    · rw [BitVec.toNat_ofNat]
      omega
    · rw [decodeIntLoop_onlyDecoder 5 0 ht]

theorem decodeBlock_of_before {h : Bool} (hd : r.Ready h d)
    (hb : r.Before (blockSymbols h r.blk.root d.sup.toNat r.inf r.words) d) :
    ∃ u, decodeBlock h d = some u ∧ r.Before [] u ∧ u.inf.toNat = r.inf ∧
      ∀ pos, r.blk.has pos → memRead u (r.blk.addr pos) = cleared r.inf (r.words pos) := by
  obtain ⟨t, ht, hrest, hinf, hmem⟩ := decodeHeader_of_before hd hb
  obtain ⟨hs, -⟩ := hd.planes
  have hwalk := walkDecLoop_follows (r := r) walkDepth (p := (d.sup.toNat : Int)) (Block.root_inside _) hd.lengths
    (by rw [walkDepth]; omega) (by omega) fun pos hpos => hd.range pos ((Block.root_inside _).cells hpos)
  obtain ⟨u, hu, hend, hdec⟩ := hwalk t [] (hmem ▸ hd.memory) (by rwa [List.append_nil])
  refine ⟨u, ?_, hend, ?_, fun pos hpos => hdec.words pos (Sub.mem_cells.mpr fun a => ?_)⟩
  · simp only [decodeBlock, ht, walkDec, hinf, hd.block]
    exact hu
  · rw [walkDecLoop_onlyBlockDecoder _ _ _ _ _ hu]
    exact hinf
  · have hzero : r.blk.root.pos.get a = 0 := by cases a <;> rfl
    rw [hzero]
    exact ⟨Nat.zero_le _, (Nat.zero_add _).symm ▸ hpos a⟩

/-- Every offset into a block is that of an element (20_memory.md R55). -/
theorem exists_pos_of_lt {len : Axes Nat} {i : Nat} (hi : i < len.product) :
    ∃ pos : Axes Nat, (∀ a, pos.get a < len.get a) ∧ ∀ base, Block.addr ⟨base, len⟩ pos = base + i := by
  have hpos : 0 < len.product := Nat.zero_lt_of_lt hi
  unfold Axes.product at hpos hi
  have hu : 0 < len.u := Nat.pos_of_mul_pos_left hpos
  have hv : 0 < len.v := Nat.pos_of_mul_pos_left (Nat.pos_of_mul_pos_right hpos)
  have hs : 0 < len.s := Nat.pos_of_mul_pos_left (Nat.pos_of_mul_pos_right (Nat.pos_of_mul_pos_right hpos))
  refine ⟨⟨i / len.u / len.v / len.s, i / len.u / len.v % len.s, i / len.u % len.v, i % len.u⟩,
    forall_axis.mpr ⟨?_, Nat.mod_lt _ hs, Nat.mod_lt _ hv, Nat.mod_lt _ hu⟩, fun base => ?_⟩
  · change i / len.u / len.v / len.s < len.t
    rwa [Nat.div_lt_iff_lt_mul hs, Nat.div_lt_iff_lt_mul hv, Nat.div_lt_iff_lt_mul hu]
  · have hdigits : i = len.u * (len.v * (len.s * (i / len.u / len.v / len.s) + i / len.u / len.v % len.s) +
        i / len.u % len.v) + i % len.u := by
      rw [Nat.div_add_mod, Nat.div_add_mod, Nat.div_add_mod]
    rw [Block.addr]
    dsimp only
    conv_rhs => rw [hdigits]
    ring

/-- The legal lengths are at most 64 (10_state.md R36). -/
theorem root_within (hpar : s.par.ok) (hb : blockLegal s) : (currentBlock s).root.within 6 := by
  obtain ⟨-, -, -, hmax, -⟩ := hpar
  intro a
  have hlen := (badLength_eq_false_iff _ _).mp (lengthsLegal_iff.mp hb.1) a
  exact ⟨hlen.1, hlen.2.trans hmax⟩

/-- A word of a legal block is in range where `ENBLK` takes it. -/
theorem blockWords_range (hx : ∀ a, inBlock s a → (memRead s a).natAbs < 2 ^ (s.sup.toNat + 1))
    (hpos : (currentBlock s).has pos) :
    (blockWords (currentBlock s) s pos).natAbs < 2 ^ (s.sup.toNat + 1) := hx _ (Block.addr_bounds hpos)

/-- The symbols that `ENBLK` codes in the state `s`. -/
def stateSymbols (h : Bool) (s : State) : List (Nat × Bool) :=
  blockSymbols h (currentBlock s).root s.sup.toNat s.inf.toNat (blockWords (currentBlock s) s)

/-- Few enough for `PEND` not to wrap (41_arith_encoder.md R113). -/
theorem stateSymbols_length (hpar : s.par.ok) (hb : blockLegal s) (hs : s.sup.toNat ≤ 30) (h : Bool) :
    16 * (stateSymbols h s).length < 2 ^ 32 := by
  have hlen : (stateSymbols h s).length ≤ 5 + nel s * 112 := blockSymbols_length h (root_within hpar hb) hs _
  obtain ⟨-, -, -, -, -, hcap⟩ := hpar
  have hfits := hb.2
  omega

/-- Retiring between the symbols and `EFIN` is as if `CMDCNT` had stood differently from the start. -/
theorem retire_codeAll_opened (l : List (Nat × Bool)) (s : State) :
    ∃ c, retire (codeAll false l (retire (openEncoder s))) = codeAll false l (opened c s) :=
  ⟨_, (codeAll_cmdCnt false l (retire (openEncoder s)) _).symm⟩

/-- The encoder's side: the segment of the block's symbols. -/
theorem runAll_enblk (hm : s.mode = .idle) (hb : blockLegal s) (hs : s.sup.toNat ≤ 30)
    (hi : s.inf.toNat ≤ s.sup.toNat) (hx : ∀ a, inBlock s a → (memRead s a).natAbs < 2 ^ (s.sup.toNat + 1))
    (h : Bool) :
    ∃ c f, runAll [.einit false, .enblk false h, .efin] s = .next f ∧
      f.out = (flushEncoder (codeAll false (stateSymbols h s) (opened c s))).out ∧
      f.bank = (codeAll false (stateSymbols h s) (opened c s)).bank := by
  have hblock : codeBlock false h (retire (openEncoder s)) =
      codeAll false (stateSymbols h s) (retire (openEncoder s)) :=
    codeBlock_eq_codeAll false h _
  have hcheck : enblkCheck (encode (.enblk false h)) (retire (openEncoder s)) = none :=
    enblkCheck_of_legal (s := retire (openEncoder s)) hb hs hi hx _
  have henblk := exec_enblk (s := retire (openEncoder s)) (c := false) rfl hcheck
  obtain ⟨c, hc⟩ := retire_codeAll_opened (stateSymbols h s) s
  rw [hblock, hc] at henblk
  have hmode : (codeAll false (stateSymbols h s) (opened c s)).mode = .enc := by
    rw [codeAll_onlyEncoder false _ (opened c s)]
    rfl
  obtain ⟨f, hf, hfout, hfbank⟩ := exec_efin hmode
  refine ⟨c, f, ?_, hfout, hfbank⟩
  simp only [runAll, exec_einit hm, Bool.false_eq_true, if_false, henblk, hf]

/-- The decoder's side: `DEBLK` with the block's symbols before it. -/
theorem exec_deblk_of_before {h : Bool} (hm : d.mode = .dec) (hb : blockLegal d) (hd : r.Ready h d)
    (hbefore : r.Before (blockSymbols h r.blk.root d.sup.toNat r.inf r.words) d) :
    ∃ t, exec (.deblk h) d = .next t ∧ r.Before [] t ∧ t.inf.toNat = r.inf ∧ t.fault = d.fault ∧
      t.inp = d.inp ∧ ∀ pos, r.blk.has pos → memRead t (r.blk.addr pos) = cleared r.inf (r.words pos) := by
  obtain ⟨u, hu, hend, hinf, hwords⟩ := decodeBlock_of_before hd hbefore
  obtain ⟨ho, -⟩ := decodeBlock_only h hu
  have hcheck : deblkCheck h (encode (.deblk h)) d = none :=
    deblkCheck_of_legal hb hd.planes.1 (fun hh => (hd.header hh).trans_le hd.planes.2) _
  exact ⟨retire u, exec_deblk hm hcheck hu, hend.congr rfl, hinf, (by rw [ho] : u.fault = d.fault),
    (by rw [ho] : u.inp = d.inp), hwords⟩

/-- Two blocks of the same lengths, wherever they stand. -/
def blockTrip (s d e : State) (bits : List Bool) : RoundTrip :=
  ⟨currentBlock d, s.inf.toNat, blockWords (currentBlock s) s, s.out.length, bits, e⟩

/-- The words of the round trip by their offsets in the two blocks. -/
theorem blockTrip_words {bits : List Bool} (hlen : d.blkLen = s.blkLen)
    (hwords : ∀ pos, (currentBlock d).has pos →
      memRead t ((currentBlock d).addr pos) = cleared s.inf.toNat ((blockTrip s d e bits).words pos))
    {i : Nat} (hi : i < nel s) :
    memRead t (d.blkBase.toNat + i) = cleared s.inf.toNat (memRead s (s.blkBase.toNat + i)) := by
  obtain ⟨pos, hpos, haddr⟩ := exists_pos_of_lt (len := (currentBlock s).len) hi
  have hblen : (currentBlock d).len = (currentBlock s).len := congrArg (Axes.map BitVec.toNat) hlen
  have hto : (currentBlock d).addr pos = d.blkBase.toNat + i := by
    rw [← haddr, ← hblen]
    rfl
  have hfrom : (blockTrip s d e bits).words pos = memRead s (s.blkBase.toNat + i) := by
    rw [← haddr]
    rfl
  rw [← hto, ← hfrom]
  exact hwords pos fun a => hblen ▸ hpos a

/-- Settles O44: the encoder codes the block's symbols, and the decoder's walk follows them. -/
theorem blockRoundTrip : Obligations.BlockRoundTrip := by
  intro s h hm hfault hb hpar hlegal hsup hinf hx
  have hlen := stateSymbols_length hpar hlegal hsup h
  obtain ⟨c, f, hrun, hfout, hfbank⟩ := runAll_enblk hm hlegal hsup hinf hx h
  generalize he : codeAll false (stateSymbols h s) (opened c s) = e at hfout hfbank
  obtain ⟨bytes, hout, hseg⟩ := codeAll_segmentOf c hb hlen he
  refine ⟨f, bytes, hrun, hfout.trans hout,
    fun d before after hdm hdf hdb hdpar hdlen hdsup hdinf hdlegal hwf hinp hcur => ?_⟩
  obtain ⟨u, hu, hframe, hexp⟩ := openDecoder_expects hb hlen he hseg ⟨hdb, hinp, hcur⟩
  have hdinit := exec_dinit hdm hu
  obtain ⟨code, db, dbn, cur, rfl⟩ : ∃ code db dbn cur,
      u = { openDecoder d with code := code, db := db, dbn := dbn, cur := cur } := ⟨_, _, _, _, hframe⟩
  generalize hv : retire { openDecoder d with code := code, db := db, dbn := dbn, cur := cur } = v at hdinit
  have hblen : (currentBlock d).len = (currentBlock s).len := congrArg (Axes.map BitVec.toNat) hdlen
  have hroot : (currentBlock d).root = (currentBlock s).root := by rw [Block.root, hblen, Block.root]
  have hready : (blockTrip s d e (bytes.flatMap byteBits ++ after.flatMap byteBits)).Ready h v := by
    subst hv
    exact
      { block := rfl
        lengths := hroot ▸ root_within hpar hlegal
        planes := hdsup ▸ ⟨hsup, hinf⟩
        header := fun hh => congrArg BitVec.toNat (hdinf hh)
        range := fun pos hpos => hdsup ▸ blockWords_range hx fun a => hblen ▸ hpos a
        memory := hwf }
  have hbefore : (blockTrip s d e (bytes.flatMap byteBits ++ after.flatMap byteBits)).Before
      (blockSymbols h (currentBlock d).root v.sup.toNat s.inf.toNat (blockWords (currentBlock s) s)) v := by
    have hvs : v.sup = s.sup := by rw [← hv]; exact hdsup
    rw [hroot, hvs]
    subst hv
    exact hexp.congr rfl
  have hvm : v.mode = .dec := by rw [← hv]; rfl
  have hvl : blockLegal v := by rw [← hv]; exact hdlegal
  obtain ⟨t, ht, hend, htinf, htf, hti, hwords⟩ := exec_deblk_of_before hvm hvl hready hbefore
  have htinp : t.inp = before ++ bytes ++ after := by rw [hti, ← hv]; exact hinp
  obtain ⟨-, -, hbank, -, hcursor⟩ := hend.finished hseg htinp
  refine ⟨t, ?_, ?_, hbank.trans hfbank.symm, BitVec.eq_of_toNat_eq htinf, hcursor,
    fun i hi => blockTrip_words hdlen hwords hi⟩
  · simp only [runAll, hdinit, ht]
  · rw [htf, ← hv]
    exact hdf

end BlockRoundTrip

end Sys2Proof.Machine

/-! SUPPORT. The decoder's operations as sequences of `GetBit`s, once each (42_arith_decoder.md R120, R121, R123;
43_bitplane.md R138 to R140), and how many bits of the source such a sequence needs. -/

namespace Sys2Proof.Machine

section DecoderSequences

variable {s t : State} {blk : Block} {inf n k : Nat} {b : Sub} {p : Int}

/-! ### One bit -/

theorem getBit_of_byte (h0 : s.dbn = 0#4) {b : Byte} (hb : s.inp[s.cur]? = some b) :
    getBit s = some (b.msb, { s with cur := s.cur + 1, db := b <<< 1, dbn := 7#4 }) := by
  rw [getBit, if_pos h0, srcNext_of_byte hb]

theorem getBit_of_buffered (h0 : s.dbn ≠ 0#4) :
    getBit s = some (s.db.msb, { s with db := s.db <<< 1, dbn := s.dbn - 1#4 }) :=
  if_neg h0

/-- `GetBit` fetches a byte where none is buffered, and shifts the buffered one otherwise (42_arith_decoder.md R120). -/
theorem getBit_cases {x : Bool} (h : getBit s = some (x, t)) :
    (∃ b, s.dbn = 0#4 ∧ s.inp[s.cur]? = some b ∧ x = b.msb ∧
      t = { s with cur := s.cur + 1, db := b <<< 1, dbn := 7#4 }) ∨
    (s.dbn ≠ 0#4 ∧ x = s.db.msb ∧ t = { s with db := s.db <<< 1, dbn := s.dbn - 1#4 }) := by
  by_cases h0 : s.dbn = 0#4
  · cases hb : s.inp[s.cur]? with
    | none =>
      rw [(getBit_eq_none_iff s).mpr ⟨h0, List.getElem?_eq_none_iff.mp hb⟩] at h
      cases h
    | some b =>
      rw [getBit_of_byte h0 hb] at h
      cases h
      exact .inl ⟨b, h0, rfl, rfl, rfl⟩
  · rw [getBit_of_buffered h0] at h
    cases h
    exact .inr ⟨h0, rfl, rfl⟩

theorem dbn_pred_toNat (h0 : s.dbn ≠ 0#4) : (s.dbn - 1#4).toNat + 1 = s.dbn.toNat := by
  have hpos : s.dbn.toNat ≠ 0 := fun e => h0 (BitVec.eq_of_toNat_eq e)
  rw [BitVec.toNat_sub]
  simp only [BitVec.toNat_ofNat]
  omega

/-! ### The sequences -/

/-- What a pass of the loop of R121 goes on with, `q` being the bit and the state that `GetBit` gave it. -/
def decPass (s : State) (q : Bool × State) : State :=
  { q.2 with
    low := passed (renormCase s.low s.high) s.low false, high := passed (renormCase s.low s.high) s.high true
    code := passed (renormCase s.low s.high) s.code q.1 }

theorem decRenormLoop_succ (hc : renormCase s.low s.high ≠ .settled) (n : Nat) :
    decRenormLoop (n + 1) s = (getBit s).bind fun q => decRenormLoop n (decPass s q) := by
  cases hx : getBit s with
  | none =>
    cases hcase : renormCase s.low s.high with
    | same | straddle => simp only [decRenormLoop, hcase, hx, Option.bind_none]
    | settled => exact absurd hcase hc
  | some q => exact decRenormLoop_of_getBit hc hx n

theorem decodeBit_eq_bind (c : Nat) (s : State) :
    decodeBit c s = (decRenormLoop renormPasses (narrow c (decodedBit c s) s)).bind fun u =>
      some (decodedBit c s, update c (decodedBit c s) u) := by
  unfold decodeBit
  dsimp only
  cases decRenormLoop renormPasses (narrow c (decodedBit c s) s) <;> rfl

theorem primeCode_succ (n : Nat) (s : State) :
    primeCode (n + 1) s = (getBit s).bind fun q => primeCode n { q.2 with code := shiftIn q.2.code q.1 } := by
  rw [primeCode]
  cases getBit s <;> rfl

theorem decodeIntLoop_succ (n v : Nat) (s : State) :
    decodeIntLoop (n + 1) v s = (decodeBit ctxAux s).bind fun q => decodeIntLoop n (2 * v + bit q.1) q.2 := by
  rw [decodeIntLoop]
  cases decodeBit ctxAux s <;> rfl

theorem decMagnitude_cons (q : Nat) (l : List Nat) (m : Nat) (s : State) :
    decMagnitude (q :: l) m s =
      (decodeBit (ctxMag q) s).bind fun x => decMagnitude l (m + 2 ^ q * bit x.1) x.2 := by
  rw [decMagnitude]
  cases decodeBit (ctxMag q) s <;> rfl

/-- The sign of a magnitude that is not 0, and the word stored (43_bitplane.md R138). -/
def decSign (addr m : Nat) (s : State) : Option State :=
  if m = 0 then some (memWrite addr 0#32 s)
  else (decodeBit ctxAux s).bind fun x =>
    some (memWrite addr (storeInt 32 (if x.1 then -(m : Int) else m)) x.2)

theorem decTerminal_eq_bind (blk : Block) (inf : Nat) (pos : Axes Nat) (p : Nat) (s : State) :
    decTerminal blk inf pos p s =
      (decMagnitude (planesDown p inf) 0 s).bind fun x => decSign (blk.addr pos) x.1 x.2 := by
  unfold decTerminal decSign
  cases decMagnitude (planesDown p inf) 0 s with
  | none => rfl
  | some x =>
    dsimp only [Option.bind_some]
    split
    · rfl
    · cases decodeBit ctxAux x.2 <;> rfl

theorem walkDecLoop_of_lt (hp : p < inf) (n : Nat) (s : State) :
    walkDecLoop blk inf (n + 1) b p s = some (fill0 blk b s) := by
  simp only [walkDecLoop, if_pos hp]

theorem walkDecLoop_of_single (hp : ¬p < inf) (hb : b.single = true) (n : Nat) (s : State) :
    walkDecLoop blk inf (n + 1) b p s = decTerminal blk inf b.pos p.toNat s := by
  simp only [walkDecLoop, if_neg hp, if_pos hb]

theorem walkDecLoop_of_flag (hp : ¬p < inf) (hb : ¬b.single = true) (n : Nat) (s : State) :
    walkDecLoop blk inf (n + 1) b p s = (decodeBit (ctxSeg p.toNat 0) s).bind fun x =>
      if x.1 then some (fill0 blk b x.2) else walkDecSecond blk inf n b p x.2 := by
  rcases hx : decodeBit (ctxSeg p.toNat 0) s with _ | ⟨_ | _, u⟩
  · simp only [walkDecLoop, if_neg hp, if_neg hb, hx, Option.bind_none]
  · exact walkDecLoop_of_not_zeroBlock hp hb hx
  · exact walkDecLoop_of_zeroBlock hp hb hx

theorem walkDecSecond_eq_bind (blk : Block) (inf n : Nat) (b : Sub) (p : Int) (s : State) :
    walkDecSecond blk inf n b p s = (decodeBit (ctxSeg p.toNat 1) s).bind fun x =>
      if x.1 then (children b).foldlM (fun st child => walkDecLoop blk inf n child p st) x.2
      else walkDecLoop blk inf n b (p - 1) x.2 := by
  rcases hx : decodeBit (ctxSeg p.toNat 1) s with _ | ⟨_ | _, u⟩
  · simp only [walkDecSecond, hx, Option.bind_none]
  · exact walkDecSecond_of_lowerBitPlane hx
  · exact walkDecSecond_of_splitBlock hx

theorem decodeHeader_true (s : State) :
    decodeHeader true s = (decodeInt 5 s).bind fun x => some { x.2 with inf := BitVec.ofNat 5 x.1 } := by
  rw [decodeHeader, if_pos rfl]
  cases decodeInt 5 s <;> rfl

theorem decodeBlock_eq_bind (h : Bool) (s : State) :
    decodeBlock h s = (decodeHeader h s).bind fun u => walkDec (currentBlock s) s.sup.toNat u.inf.toNat u := by
  rw [decodeBlock]
  cases decodeHeader h s <;> rfl

/-! ### The bits left -/

/-- How many bits `GetBit` can still give: those in `DB` and those of the bytes behind the cursor (R120). -/
def bitsLeft (s : State) : Nat := s.dbn.toNat + 8 * (s.inp.length - s.cur)

theorem getBit_eq_none_iff_bitsLeft (s : State) : getBit s = none ↔ bitsLeft s = 0 := by
  rw [getBit_eq_none_iff, bitsLeft, Nat.add_eq_zero_iff, ← BitVec.toNat_inj]
  simp only [BitVec.toNat_ofNat]
  omega

/-- A bit taken is a bit less. -/
theorem getBit_bitsLeft {x : Bool} (h : getBit s = some (x, t)) : bitsLeft s = bitsLeft t + 1 := by
  rcases getBit_cases h with ⟨b, h0, hb, -, rfl⟩ | ⟨h0, -, rfl⟩
  · have hlt := (List.getElem?_eq_some_iff.mp hb).1
    simp only [bitsLeft, h0, BitVec.toNat_ofNat]
    omega
  · have hpred := dbn_pred_toNat h0
    simp only [bitsLeft]
    omega

theorem primeCode_bitsLeft (n : Nat) (h : primeCode n s = some t) : bitsLeft s = bitsLeft t + n := by
  induction n generalizing s with
  | zero =>
    cases h
    rfl
  | succ n ih =>
    rw [primeCode_succ] at h
    obtain ⟨⟨x, u⟩, hx, h⟩ := Option.bind_eq_some_iff.mp h
    have hrest : bitsLeft u = bitsLeft t + n := ih (s := { u with code := shiftIn u.code x }) h
    rw [getBit_bitsLeft hx, hrest]
    rfl

/-! ### How many bits an operation takes -/

/-- An operation with `n` bits before it: `k` of them are enough, and it leaves what it does not take. -/
def Lasts {β : Type} (left : β → Nat) (k n : Nat) (r : Option β) : Prop :=
  k ≤ n → ∃ x, r = some x ∧ n ≤ left x + k

theorem Lasts.done {β : Type} {left : β → Nat} {k n : Nat} {x : β} (h : n ≤ left x) : Lasts left k n (some x) :=
  fun _ => ⟨x, rfl, Nat.le_add_right_of_le h⟩

theorem Lasts.map {β γ : Type} {left : β → Nat} {left' : γ → Nat} {k n : Nat} {r : Option β} {f : β → γ}
    (h : Lasts left k n r) (hf : ∀ x, left x ≤ left' (f x)) : Lasts left' k n (r.bind fun x => some (f x)) := by
  intro hn
  obtain ⟨x, rfl, hx⟩ := h hn
  exact ⟨f x, rfl, hx.trans (Nat.add_le_add_right (hf x) k)⟩

theorem Lasts.mono {β : Type} {left : β → Nat} {j k n : Nat} {r : Option β} (h : Lasts left j n r) (hk : j ≤ k) :
    Lasts left k n r := fun hn =>
  have ⟨x, hx, hleft⟩ := h (hk.trans hn)
  ⟨x, hx, hleft.trans (Nat.add_le_add_left hk _)⟩

/-- One operation after another takes the bits of both. -/
theorem Lasts.bind {β γ : Type} {left : β → Nat} {left' : γ → Nat} {j k n : Nat} {r : Option β}
    {f : β → Option γ} (h : Lasts left j n r) (hf : ∀ x, Lasts left' k (left x) (f x)) : Lasts left' (j + k) n (r.bind f) := by
  intro hn
  obtain ⟨x, rfl, hx⟩ := h (by omega)
  obtain ⟨y, hy, hleft⟩ := hf x (by omega)
  exact ⟨y, hy, by omega⟩

theorem getBit_lasts (s : State) : Lasts (fun q => bitsLeft q.2) 1 (bitsLeft s) (getBit s) := by
  intro hn
  obtain ⟨q, hq⟩ := Option.ne_none_iff_exists'.mp (mt (getBit_eq_none_iff_bitsLeft s).mp (by omega))
  exact ⟨q, hq, (getBit_bitsLeft hq).le⟩

theorem decRenormLoop_lasts (n : Nat) (s : State) : Lasts bitsLeft n (bitsLeft s) (decRenormLoop n s) := by
  induction n generalizing s with
  | zero => exact Lasts.done le_rfl
  | succ n ih =>
    by_cases hc : renormCase s.low s.high = .settled
    · rw [decRenormLoop_settled hc]
      exact Lasts.done le_rfl
    · rw [decRenormLoop_succ hc, Nat.add_comm]
      exact (getBit_lasts s).bind fun q => ih (decPass s q)

/-- A symbol takes at most a bit for each pass. -/
theorem decodeBit_lasts (c : Nat) (s : State) :
    Lasts (fun q => bitsLeft q.2) 16 (bitsLeft s) (decodeBit c s) := by
  rw [decodeBit_eq_bind]
  have hn : bitsLeft (narrow c (decodedBit c s) s) = bitsLeft s := by cases decodedBit c s <;> rfl
  exact hn ▸ (decRenormLoop_lasts renormPasses _).map fun _ => le_rfl

theorem decodeIntLoop_lasts (n v : Nat) (s : State) :
    Lasts (fun q => bitsLeft q.2) (16 * n) (bitsLeft s) (decodeIntLoop n v s) := by
  induction n generalizing v s with
  | zero => exact Lasts.done le_rfl
  | succ n ih =>
    rw [decodeIntLoop_succ, Nat.mul_succ, Nat.add_comm]
    exact (decodeBit_lasts _ s).bind fun q => ih _ q.2

theorem decMagnitude_lasts (l : List Nat) (m : Nat) (s : State) :
    Lasts (fun q => bitsLeft q.2) (16 * l.length) (bitsLeft s) (decMagnitude l m s) := by
  induction l generalizing m s with
  | nil => exact Lasts.done le_rfl
  | cons q rest ih =>
    rw [decMagnitude_cons, List.length_cons, Nat.mul_succ, Nat.add_comm]
    exact (decodeBit_lasts _ s).bind fun x => ih _ x.2

theorem decSign_lasts (addr m : Nat) (s : State) : Lasts bitsLeft 16 (bitsLeft s) (decSign addr m s) := by
  unfold decSign
  split
  · exact Lasts.done le_rfl
  · exact (decodeBit_lasts ctxAux s).map fun _ => le_rfl

/-- An element takes a symbol for each plane and its sign. -/
theorem decTerminal_lasts (blk : Block) (inf : Nat) (pos : Axes Nat) (p : Nat) (s : State) :
    Lasts bitsLeft (16 * (p + 2)) (bitsLeft s) (decTerminal blk inf pos p s) := by
  have hlen := planesDown_length p inf
  rw [decTerminal_eq_bind]
  exact ((decMagnitude_lasts (planesDown p inf) 0 s).bind fun x => decSign_lasts _ _ x.2).mono (by omega)

theorem fill0_bitsLeft (blk : Block) (b : Sub) (s : State) : bitsLeft (fill0 blk b s) = bitsLeft s := by
  rw [fill0_sameDecoder blk b s]
  rfl

theorem foldlM_lasts {α : Type} {f : State → α → Option State} {cost : α → Nat} (l : List α)
    (hf : ∀ x ∈ l, ∀ s, Lasts bitsLeft (cost x) (bitsLeft s) (f s x)) (s : State) :
    Lasts bitsLeft (l.map cost).sum (bitsLeft s) (l.foldlM f s) := by
  induction l generalizing s with
  | nil => exact Lasts.done le_rfl
  | cons x rest ih =>
    obtain ⟨hx, hrest⟩ := List.forall_mem_cons.mp hf
    exact (hx s).bind fun t => ih hrest t

/-- More symbols than a walk from plane `p` decodes for each element of a sub-block within `2^k`: two flags for each
plane and each halving, and one. -/
def walkCost (k : Nat) (p : Int) : Nat := 2 * (p + 1).toNat + 2 * k + 1

theorem walkCost_lower (hp : 0 ≤ p) (k : Nat) : walkCost k p = walkCost k (p - 1) + 2 := by
  unfold walkCost
  omega

theorem walkDecSecond_lasts (hb : b.within k) (hp : 0 ≤ p) (h1 : ¬b.single = true)
    (ih : ∀ {b : Sub} {k : Nat} (p : Int) (s : State), b.within k →
      Lasts bitsLeft (16 * (b.len.product * walkCost k p)) (bitsLeft s) (walkDecLoop blk inf n b p s)) (s : State) :
    Lasts bitsLeft (16 + 16 * (b.len.product * (walkCost k p - 2))) (bitsLeft s) (walkDecSecond blk inf n b p s) := by
  rw [walkDecSecond_eq_bind]
  refine (decodeBit_lasts _ s).bind fun x => ?_
  split
  · obtain ⟨j, rfl⟩ : ∃ j, k = j + 1 := Nat.exists_eq_succ_of_ne_zero fun hk =>
      h1 (Sub.single_of_within_zero (hk ▸ hb))
    have hchildren := foldlM_lasts (f := fun st child => walkDecLoop blk inf n child p st) (children b)
      (fun child hc t => ih p t (children_within hb hc)) x.2
    rwa [List.sum_map_mul_left, List.sum_map_mul_right, children_product] at hchildren
  · rw [walkCost_lower hp, Nat.add_sub_cancel]
    exact ih (p - 1) x.2 hb

theorem walkDecLoop_lasts (blk : Block) (inf n : Nat) (p : Int) (s : State) (hb : b.within k) :
    Lasts bitsLeft (16 * (b.len.product * walkCost k p)) (bitsLeft s) (walkDecLoop blk inf n b p s) := by
  induction n generalizing b k p s with
  | zero => exact Lasts.done le_rfl
  | succ n ih =>
    have hpos := product_pos hb
    by_cases hp : p < inf
    · rw [walkDecLoop_of_lt hp]
      exact Lasts.done (fill0_bitsLeft blk b s).ge
    · have hone : walkCost k p ≤ b.len.product * walkCost k p := Nat.le_mul_of_pos_left _ hpos
      by_cases h1 : b.single = true
      · rw [walkDecLoop_of_single hp h1]
        refine (decTerminal_lasts blk inf b.pos p.toNat s).mono ?_
        rw [walkCost] at hone ⊢
        omega
      · rw [walkDecLoop_of_flag hp h1]
        have hsecond (x : Bool × State) := walkDecSecond_lasts (p := p) hb (by omega) h1
          (fun p s hb => ih p s hb) x.2
        refine ((decodeBit_lasts _ s).bind (k := 16 + 16 * (b.len.product * (walkCost k p - 2))) fun x => ?_).mono ?_
        · split
          · exact Lasts.done (fill0_bitsLeft blk b x.2).ge
          · exact hsecond x
        · have htwo : b.len.product * (walkCost k p - 2) + b.len.product * 2 = b.len.product * walkCost k p := by
            rw [← Nat.mul_add, Nat.sub_add_cancel]
            rw [walkCost]
            omega
          omega

theorem decodeHeader_lasts (h : Bool) (s : State) : Lasts bitsLeft 80 (bitsLeft s) (decodeHeader h s) := by
  cases h with
  | false => exact Lasts.done le_rfl
  | true =>
    rw [decodeHeader_true]
    exact (decodeIntLoop_lasts 5 0 s).map fun _ => le_rfl

theorem decodeBlock_lasts (h : Bool) (s : State) (hb : (currentBlock s).root.within k) :
    Lasts bitsLeft (80 + 16 * ((currentBlock s).len.product * walkCost k s.sup.toNat)) (bitsLeft s)
      (decodeBlock h s) := by
  rw [decodeBlock_eq_bind]
  exact (decodeHeader_lasts h s).bind fun u => walkDecLoop_lasts _ _ walkDepth _ u hb

end DecoderSequences

end Sys2Proof.Machine

/-! PROOF. The decoding commands with enough of the source before them (42_arith_decoder.md R121 to R125;
43_bitplane.md R140). -/

namespace Sys2Proof.Machine

open Sys2Proof.Claims

section DecodingCommands

variable {s t u : State} {c n : Nat} {b : Bool}

/-! ### The commands as a check and a decoding -/

/-- What a decoding command finds wrong before it takes a bit, in order (R123 to R125; 43_bitplane.md R140). -/
def decodeCheck : Instr → State → Option (FaultCode × Word)
  | .dinit m, s => if s.mode ≠ .idle then some (.mode, encode (.dinit m)) else none
  | .decb ctx, s =>
    if s.mode ≠ .dec then some (.mode, encode (.decb ctx))
    else if Config.nctx ≤ ctx.toNat then some (.arg, encode (.decb ctx))
    else none
  | .deci n, s =>
    if s.mode ≠ .dec then some (.mode, encode (.deci n))
    else if n = 0#5 ∨ 16 < n.toNat then some (.arg, encode (.deci n))
    else none
  | .deblk h, s =>
    if s.mode ≠ .dec then some (.mode, encode (.deblk h)) else deblkCheck h (encode (.deblk h)) s
  | _, _ => none

/-- What a decoding command makes of the state behind its check, but for `CMDCNT`; nothing where the source runs out. -/
def decodeWork : Instr → State → Option State
  | .dinit m, s => primeCode 16 (openDecoder (if m then resetBank s else s))
  | .decb ctx, s => (decodeBit ctx.toNat s).bind fun x => some { x.2 with result := BitVec.ofNat 32 (bit x.1) }
  | .deci n, s => (decodeInt n.toNat s).bind fun x => some { x.2 with result := BitVec.ofNat 32 x.1 }
  | .deblk h, s => decodeBlock h s
  | _, _ => none

/-- A decoding command that runs out of the source behind its check, or does its work. -/
def decodeOutcome (i : Instr) (s : State) : Option State → Result
  | none => .next (exhaustion i s)
  | some u => retired u

theorem exec_of_decodeCheck {i : Instr} (hi : decodes i = true) {e : FaultCode} {info : Word}
    (hc : decodeCheck i s = some (e, info)) : exec i s = raise e info s := by
  cases i with
  | dinit m =>
    simp only [decodeCheck] at hc
    split at hc
    · cases hc
      exact if_pos ‹_›
    · cases hc
  | decb ctx | deci n =>
    simp only [decodeCheck] at hc
    split at hc
    · cases hc
      exact if_pos ‹_›
    · split at hc
      · cases hc
        exact (if_neg ‹_›).trans (if_pos ‹_›)
      · cases hc
  | deblk h =>
    simp only [decodeCheck] at hc
    split at hc
    · cases hc
      exact if_pos ‹_›
    · simp only [exec, execDeblk, if_neg ‹_›, hc]
  | _ => cases hi

theorem exec_of_decodeWork {i : Instr} (hi : decodes i = true) (hc : decodeCheck i s = none) :
    exec i s = decodeOutcome i s (decodeWork i s) := by
  cases i with
  | dinit m =>
    simp only [decodeCheck, ite_eq_right_iff, reduceCtorEq, imp_false] at hc
    simp only [exec, execDinit, if_neg hc, decodeWork]
    cases primeCode 16 (openDecoder (if m then resetBank s else s)) <;> rfl
  | decb ctx =>
    simp only [decodeCheck, ite_eq_iff, reduceCtorEq, and_false, false_or, and_true] at hc
    obtain ⟨hmode, hctx⟩ := hc
    simp only [exec, execDecb, if_neg hmode, if_neg hctx, decodeWork]
    cases decodeBit ctx.toNat s <;> rfl
  | deci n =>
    simp only [decodeCheck, ite_eq_iff, reduceCtorEq, and_false, false_or, and_true] at hc
    obtain ⟨hmode, hn⟩ := hc
    simp only [exec, execDeci, if_neg hmode, if_neg hn, decodeWork]
    cases decodeInt n.toNat s <;> rfl
  | deblk h =>
    simp only [decodeCheck, ite_eq_iff, reduceCtorEq, and_false, false_or] at hc
    obtain ⟨hmode, hchk⟩ := hc
    simp only [exec, execDeblk, if_neg hmode, hchk, decodeWork]
    cases decodeBlock h s <;> rfl
  | _ => cases hi

theorem exec_of_decodeWork_some {i : Instr} (hi : decodes i = true) (hc : decodeCheck i s = none)
    (hu : decodeWork i s = some u) : exec i s = .next (retire u) := by
  rw [exec_of_decodeWork hi hc, hu]
  rfl

theorem exec_of_decodeWork_none {i : Instr} (hi : decodes i = true) (hc : decodeCheck i s = none)
    (hu : decodeWork i s = none) : exec i s = .next (exhaustion i s) := by
  rw [exec_of_decodeWork hi hc, hu]
  rfl

theorem effect_of_decodeWork {i : Instr} (hc : decodeCheck i s = none) (hu : decodeWork i s = some u) :
    effect i s u := by
  cases i with
  | dinit m => exact hu
  | decb ctx | deci n =>
    obtain ⟨⟨r, v⟩, hv, hr⟩ := Option.bind_eq_some_iff.mp hu
    exact ⟨r, v, hv, (Option.some.inj hr).symm⟩
  | deblk h =>
    simp only [decodeCheck, ite_eq_iff, reduceCtorEq, and_false, false_or] at hc
    obtain ⟨-, hchk⟩ := hc
    exact ⟨deblkCheck_none_blockCheck hchk, hu⟩
  | _ => cases hu

/-! ### `DEBLK` -/

theorem decodeCheck_deblk (hm : s.mode = .dec) (hb : blockLegal s) (hs : s.sup.toNat ≤ 30) {h : Bool}
    (hi : h = false → s.inf.toNat ≤ s.sup.toNat) : decodeCheck (.deblk h) s = none :=
  (if_neg (not_not_intro hm)).trans (deblkCheck_of_legal hb hs hi _)

theorem root_within_seven (hb : blockLegal s) : (currentBlock s).root.within 7 := fun a => by
  have hlen : (currentBlock s).root.len.get a = (s.blkLen.get a).toNat := currentBlock_len_get a
  rw [hlen]
  exact ⟨(hb.1 a).1, (s.blkLen.get a).isLt.le⟩

/-- Settles O42: a walk takes at most 77 symbols of 16 bits for each element, and the header five. -/
theorem deblkCompletes : Obligations.DeblkCompletes := by
  intro s h hm hb hs hi hlen
  have hnel : (currentBlock s).len.product = nel s := rfl
  have henough : 80 + 16 * ((currentBlock s).len.product * walkCost 7 s.sup.toNat) ≤ bitsLeft s := by
    have hcost : walkCost 7 s.sup.toNat ≤ 77 := by
      unfold walkCost
      omega
    have hmul := Nat.mul_le_mul_left (nel s) hcost
    rw [hnel, bitsLeft]
    omega
  obtain ⟨u, hu, -⟩ := decodeBlock_lasts h s (root_within_seven hb) henough
  have hc := decodeCheck_deblk hm hb hs hi
  have hfixed := (effect_frame (effect_of_decodeWork hc hu)).fixed
  refine ⟨retire u, exec_of_decodeWork_some rfl hc hu, ?_, ?_, ?_⟩ <;> rw [hfixed] <;> rfl

/-! ### `DECI` -/

/-- `s` with other values of `RESULT` and `CMDCNT`, which no decoding looks at. -/
def withRecord (r k : Word) (s : State) : State := { s with result := r, cmdCnt := k }

theorem getBit_withRecord {x : Bool} (h : getBit s = some (x, t)) (r k : Word) :
    getBit (withRecord r k s) = some (x, withRecord r k t) := by
  rcases getBit_cases h with ⟨b, h0, hb, rfl, rfl⟩ | ⟨h0, rfl, rfl⟩
  · exact getBit_of_byte (s := withRecord r k s) h0 hb
  · exact getBit_of_buffered (s := withRecord r k s) h0

theorem decRenormLoop_withRecord (n : Nat) (h : decRenormLoop n s = some t) (r k : Word) :
    decRenormLoop n (withRecord r k s) = some (withRecord r k t) := by
  induction n generalizing s with
  | zero =>
    cases h
    rfl
  | succ n ih =>
    by_cases hc : renormCase s.low s.high = .settled
    · rw [decRenormLoop_settled hc] at h
      cases h
      exact decRenormLoop_settled (s := withRecord r k _) hc _
    · rw [decRenormLoop_succ hc] at h
      obtain ⟨⟨x, u⟩, hx, h⟩ := Option.bind_eq_some_iff.mp h
      rw [decRenormLoop_succ (s := withRecord r k s) hc, getBit_withRecord hx]
      exact ih h

theorem decodeBit_withRecord (h : decodeBit c s = some (b, t)) (r k : Word) :
    decodeBit c (withRecord r k s) = some (b, withRecord r k t) := by
  obtain ⟨hb, u, hu, rfl⟩ := decodeBit_eq_some.mp h
  have hn : narrow c b (withRecord r k s) = withRecord r k (narrow c b s) := by cases b <;> rfl
  exact decodeBit_eq_some.mpr ⟨hb, withRecord r k u, hn ▸ decRenormLoop_withRecord _ hu r k, rfl⟩

theorem decodeIntLoop_withRecord (n v : Nat) {w : Nat} (h : decodeIntLoop n v s = some (w, t)) (r k : Word) :
    decodeIntLoop n v (withRecord r k s) = some (w, withRecord r k t) := by
  induction n generalizing v s with
  | zero =>
    cases h
    rfl
  | succ n ih =>
    rw [decodeIntLoop_succ] at h ⊢
    obtain ⟨⟨x, u⟩, hx, h⟩ := Option.bind_eq_some_iff.mp h
    rw [decodeBit_withRecord hx]
    exact ih _ h

/-- `DECB 0` commands decode the bits that `DecodeInt` decodes; they differ in what they record. -/
theorem decodeRun_replicate (n v : Nat) (hm : s.mode = .dec) (hf : s.fault = false) (hn : 16 * n ≤ bitsLeft s) :
    ∃ rs t u, decodeRun (List.replicate n 0#8) s = some (rs, t) ∧
      decodeIntLoop n v s = some (rs.foldl (fun v r => 2 * v + r.toNat) v, u) ∧
      t = withRecord t.result t.cmdCnt u := by
  induction n generalizing s v with
  | zero => exact ⟨[], s, s, rfl, rfl, rfl⟩
  | succ n ih =>
    obtain ⟨⟨b, d⟩, hd, hleft⟩ := decodeBit_lasts 0 s (by omega)
    have ho := decodeBit_onlyDecoder _ hd
    have hdm : d.mode = .dec := by rw [ho]; exact hm
    have hdf : d.fault = false := by rw [ho]; exact hf
    have hexec := exec_decb (ctx := 0#8) hm (by decide) hd
    have hbit : (BitVec.ofNat 32 (bit b)).toNat = bit b := by cases b <;> rfl
    have hrest : 16 * n ≤ bitsLeft d := by
      dsimp only at hleft
      omega
    obtain ⟨rs, t, u, hrun, hint, ht⟩ :=
      ih (s := retire { d with result := BitVec.ofNat 32 (bit b) }) (2 * v + bit b) hdm hdf hrest
    refine ⟨BitVec.ofNat 32 (bit b) :: rs, t, withRecord d.result d.cmdCnt u, ?_, ?_, ht⟩
    · have hnext : (retire { d with result := BitVec.ofNat 32 (bit b) }).fault = false := hdf
      simp only [List.replicate_succ, decodeRun, hexec, hnext, Bool.false_eq_true, if_false, hrun]
      rfl
    · rw [decodeIntLoop_succ, hd, List.foldl_cons, hbit]
      exact decodeIntLoop_withRecord n _ hint d.result d.cmdCnt

theorem decodeCheck_deci {n : BitVec 5} (hm : s.mode = .dec) (h1 : 1 ≤ n.toNat) (h16 : n.toNat ≤ 16) :
    decodeCheck (.deci n) s = none := by
  have hn : ¬(n = 0#5 ∨ 16 < n.toNat) := by
    rw [operandLength_eq_zero_iff]
    omega
  exact (if_neg (not_not_intro hm)).trans (if_neg hn)

/-- Settles O28, by the bits that both decode alike. -/
theorem deciResult : Obligations.DeciResult := by
  intro s n hm hf h1 h16 hlen
  obtain ⟨rs, t, u, hrun, hint, ht⟩ := decodeRun_replicate (s := s) n.toNat 0 hm hf (by rw [bitsLeft]; omega)
  have ho := decodeIntLoop_onlyDecoder _ _ hint
  have hwork : decodeWork (.deci n) s =
      some { u with result := BitVec.ofNat 32 (rs.foldl (fun v r => 2 * v + r.toNat) 0) } := by
    rw [decodeWork, decodeInt, hint]
    rfl
  refine ⟨rs, t, hrun, ?_, ?_⟩
  · rw [exec_of_decodeWork_some rfl (decodeCheck_deci hm h1 h16) hwork, ht]
    have hcnt : u.cmdCnt = s.cmdCnt := by rw [ho]
    rw [← hcnt]
    rfl
  · rw [ht, ho]
    rfl

/-! ### `DECB` -/

/-- A decoded bit updates its model and no other. -/
theorem decodeBit_bank (h : decodeBit c s = some (b, t)) :
    t.bank = s.bank.setIfInBounds c ((bankGet s c).update b) := by
  obtain ⟨-, u, hu, rfl⟩ := decodeBit_eq_some.mp h
  have hbank : u.bank = s.bank := (decRenormLoop_bank _ hu).trans (narrow_bank c b s)
  rw [update, bankSet_bank, bankGet_congr hbank, hbank]

/-- Every pass keeps `CODE` inside, whatever stands in `DBN`. -/
theorem decRenormLoop_codeInside (n : Nat) (hcode : s.codeInside) (h : decRenormLoop n s = some t) :
    t.codeInside := by
  induction n generalizing s with
  | zero =>
    cases h
    exact hcode
  | succ n ih =>
    by_cases hc : renormCase s.low s.high = .settled
    · rw [decRenormLoop_settled hc] at h
      cases h
      exact hcode
    · rw [decRenormLoop_succ hc] at h
      obtain ⟨⟨x, u⟩, -, h⟩ := Option.bind_eq_some_iff.mp h
      obtain ⟨-, hinside⟩ := pass_interval (hcode.1.trans hcode.2) hc
      exact ih (s := decPass s (x, u)) (hinside s.code x hcode.1 hcode.2) h

/-- After a decoded bit the interval is settled and holds `CODE` (42_arith_decoder.md R121, R122). -/
theorem decodeBit_settled (hi : intervalOk s.low s.high) (hm : (bankGet s c).ok) (hcode : s.codeInside)
    (h : decodeBit c s = some (b, t)) : intervalOk t.low t.high ∧ t.codeInside := by
  obtain ⟨hb, u, hu, rfl⟩ := decodeBit_eq_some.mp h
  obtain ⟨hlh, hin⟩ := narrow_interval hi hm b
  obtain ⟨hl, hh⟩ := decRenormLoop_interval renormPasses (e := narrow c b s) rfl rfl hu
  have hok := encRenormLoop_intervalOk renormPasses hlh (renormPasses_suffice hlh)
  rw [← hl, ← hh] at hok
  have hinside := decRenormLoop_codeInside renormPasses (hin hcode hb.symm) hu
  exact ⟨hok, hinside⟩

/-- Which symbol `CODE` decides for, on natural numbers. -/
theorem decodedBit_eq_decide (hcode : s.codeInside) (c : Nat) :
    decodedBit c s = decide (splitNat s c ≤ s.code.toNat - s.low.toNat) := by
  have hlow := hcode.1
  rw [decodedBit, split_eq_splitNat (hlow.trans hcode.2), decide_eq_decide]
  omega

/-- A decoder that went on from the source position of `s`: where it took a byte, less than a byte is buffered. -/
structure FetchedFrom (s t : State) : Prop where
  source : t.inp = s.inp
  cursor : s.cur ≤ t.cur
  inSource : t.cur ≤ t.inp.length
  buffered : t.cur = s.cur ∨ t.dbn.toNat ≤ 7

theorem getBit_fetchedFrom {x : Bool} (h : FetchedFrom s t) (hx : getBit t = some (x, u)) : FetchedFrom s u := by
  obtain ⟨hsource, hcursor, hin, hbuf⟩ := h
  rcases getBit_cases hx with ⟨b, -, hb, -, rfl⟩ | ⟨h0, -, rfl⟩
  · obtain ⟨hlt, -⟩ := List.getElem?_eq_some_iff.mp hb
    exact ⟨hsource, Nat.le_succ_of_le hcursor, hlt, .inr (Nat.le_of_ble_eq_true rfl)⟩
  · have hpred := dbn_pred_toNat h0
    exact ⟨hsource, hcursor, hin, hbuf.imp_right (by dsimp only; omega)⟩

theorem decodeBit_fetchedFrom (hlen : s.cur ≤ s.inp.length) (h : decodeBit c s = some (b, t)) : FetchedFrom s t := by
  obtain ⟨-, u, hu, rfl⟩ := decodeBit_eq_some.mp h
  have hstart : FetchedFrom s (narrow c b s) := by cases b <;> exact ⟨rfl, le_rfl, hlen, .inl rfl⟩
  have hend := decRenormLoop_preserves (P := FetchedFrom s) (fun _ _ _ hu hx => getBit_fetchedFrom hu hx)
    (fun _ _ _ _ hu => { hu with }) renormPasses hstart hu
  exact { hend with }

/-- Settles O27: the passes take at most 16 bits, and the interval's rules hold after them. -/
theorem decbResult : Obligations.DecbResult := by
  intro s ctx hm hctx hok hi hlow hhigh hlen
  obtain ⟨⟨b, u⟩, hu, hleft⟩ := decodeBit_lasts ctx.toNat s (by rw [bitsLeft]; omega)
  have hcode : s.codeInside := ⟨hlow, hhigh⟩
  have hfrom := decodeBit_fetchedFrom (by omega) hu
  obtain ⟨hset, hinside⟩ := decodeBit_settled hi hok hcode hu
  have hb : b = decide (splitNat s ctx.toNat ≤ s.code.toNat - s.low.toNat) := by
    rw [← decodedBit_eq_decide hcode, (decodeBit_eq_some.mp hu).1]
  have ho := decodeBit_onlyDecoder _ hu
  have hbank := decodeBit_bank hu
  have hresult : BitVec.ofNat 32 (bit b) =
      if splitNat s ctx.toNat ≤ s.code.toNat - s.low.toNat then 1#32 else 0#32 := by
    rw [hb]
    by_cases h : splitNat s ctx.toNat ≤ s.code.toNat - s.low.toNat <;> simp [h, bit]
  refine ⟨_, exec_decb hm hctx hu, ?_, hset, hinside.1, hinside.2, hfrom.cursor, ?_⟩
  · unfold onlyDecoder at ho
    rw [hbank, hb] at ho
    rw [hresult, ho]
    rfl
  · obtain ⟨hinp, hcur, hend, hbuf⟩ := hfrom
    dsimp only at hleft
    rw [bitsLeft, bitsLeft, hinp] at hleft
    rw [hinp] at hend
    simp only [retire_cur]
    omega

/-! ### `DINIT` -/

theorem decodeCheck_dinit (hm : s.mode = .idle) (m : Bool) : decodeCheck (.dinit m) s = none :=
  if_neg (not_not_intro hm)

/-- The bits of `DB` not yet consumed are its top ones: the others are zero. -/
def topAligned (s : State) : Prop := s.db <<< s.dbn.toNat = 0#8

theorem getBit_topAligned (s : State) (x : Bool) (t : State) (hs : topAligned s) (h : getBit s = some (x, t)) :
    topAligned t := by
  unfold topAligned at hs ⊢
  rcases getBit_cases h with ⟨b, -, -, -, rfl⟩ | ⟨h0, -, rfl⟩
  · dsimp only
    rw [← BitVec.shiftLeft_add]
    exact BitVec.shiftLeft_eq_zero (le_refl 8)
  · dsimp only
    rwa [← BitVec.shiftLeft_add, Nat.add_comm, dbn_pred_toNat h0]

theorem bitsValue_byteBits (b : Byte) : bitsValue (byteBits b) = b.toNat :=
  (bitsValue_testBits 8 b.toNat).trans (Nat.mod_eq_of_lt b.isLt)

/-- Two bytes make a `CODE`, and none of their bits is left over. -/
theorem primeCode_twoBytes {x y : Byte} (hn : s.dbn = 0#4) (hb : s.db = 0#8) (hc : s.code = 0#16)
    (hx : s.inp[s.cur]? = some x) (hy : s.inp[s.cur + 1]? = some y) :
    primeCode 16 s = some { s with code := x ++ y, db := 0#8, dbn := 0#4, cur := s.cur + 2 } := by
  obtain ⟨hltx, hx⟩ := List.getElem?_eq_some_iff.mp hx
  obtain ⟨hlty, hy⟩ := List.getElem?_eq_some_iff.mp hy
  have hread : Reading s := ⟨by rw [hn]; decide, hltx.le⟩
  have hun : unread s = (byteBits x ++ byteBits y) ++ (s.inp.drop (s.cur + 2)).flatMap byteBits := by
    rw [unread, hn, List.drop_eq_getElem_cons hltx, List.drop_eq_getElem_cons hlty, hx, hy, List.flatMap_cons,
      List.flatMap_cons, List.append_assoc]
    rfl
  have htwo : (byteBits x ++ byteBits y).length = 16 := by
    rw [List.length_append, byteBits_length, byteBits_length]
  have htake : (unread s).take 16 = byteBits x ++ byteBits y := by
    rw [hun]
    exact List.take_left' htwo
  have henough : 16 ≤ (unread s).length := by
    rw [hun, List.length_append, htwo]
    exact Nat.le_add_right _ _
  obtain ⟨u, hu, -, hru, hframe, hcode⟩ := primeCode_of_unread 16 hread henough
  have hcodeEq : u.code = x ++ y := by
    apply BitVec.eq_of_toNat_eq
    rw [hcode, htake, bitsValue_append, bitsValue_byteBits, bitsValue_byteBits, byteBits_length, hc, append_toNat]
    have := x.isLt
    have := y.isLt
    simp only [BitVec.toNat_ofNat]
    omega
  have hinp : u.inp = s.inp := by rw [hframe]
  have hend : u.dbn.toNat = 0 ∧ u.cur = s.cur + 2 := by
    have hleft := primeCode_bitsLeft 16 hu
    obtain ⟨hbuf, hcur⟩ := hru
    rw [bitsLeft, bitsLeft, hinp, hn] at hleft
    rw [hinp] at hcur
    simp only [BitVec.toNat_ofNat] at hleft
    omega
  have hdb : u.db = 0#8 := by
    have hstart : topAligned s := by rw [topAligned, hn, hb]; rfl
    have hlast := primeCode_preserves getBit_topAligned (fun _ _ h => h) 16 hstart hu
    rwa [topAligned, hend.1, BitVec.shiftLeft_zero] at hlast
  have hdbn : u.dbn = 0#4 := BitVec.eq_of_toNat_eq hend.1
  rw [hu, hframe, hcodeEq, hdb, hdbn, hend.2]

/-- Settles O25: the sixteen bits are the two bytes. -/
theorem dinitResult : Obligations.DinitResult := by
  intro s m x y hm hx hy
  cases m with
  | false =>
    exact exec_of_decodeWork_some rfl (decodeCheck_dinit hm false)
      (primeCode_twoBytes (s := openDecoder s) rfl rfl rfl hx hy)
  | true =>
    exact exec_of_decodeWork_some rfl (decodeCheck_dinit hm true)
      (primeCode_twoBytes (s := openDecoder (resetBank s)) rfl rfl rfl hx hy)

end DecodingCommands

end Sys2Proof.Machine

/-! PROOF. The source cut short: a decoding needs exactly the bytes it moves the cursor past, and takes the imprecise
`E_EOS` where one of them is missing (42_arith_decoder.md R120, R129). -/

namespace Sys2Proof.Machine

open Sys2Proof.Claims

section SourceCut

variable {s t u : State} {m c : Nat} {b : Bool}

/-! ### Cutting the source -/

/-- `s` with no more than the first `m` bytes of its source. -/
def cutSource (m : Nat) (s : State) : State := { s with inp := s.inp.take m }

/-- What an operation that moves the cursor from `i` to `j` answers with the source cut to `m` bytes: `x` where the
cut is behind the bytes it passed, nothing where it is at one of them. -/
structure NeedsPassed {β : Type} (m i j : Nat) (x : β) (r : Option β) : Prop where
  cursor : i ≤ j
  enough : j ≤ m → r = some x
  short : i ≤ m → m < j → r = none

theorem NeedsPassed.done {β : Type} (m i : Nat) (x : β) : NeedsPassed m i i x (some x) :=
  ⟨le_rfl, fun _ => rfl, fun hle hlt => absurd hlt (Nat.not_lt.mpr hle)⟩

/-- One operation after another needs the bytes of both. -/
theorem NeedsPassed.bind {β γ : Type} {i j k : Nat} {x : β} {y : γ} {r : Option β} {f : β → Option γ}
    (h : NeedsPassed m i j x r) (hf : NeedsPassed m j k y (f x)) : NeedsPassed m i k y (r.bind f) where
  cursor := h.cursor.trans hf.cursor
  enough hk := by rw [h.enough (hf.cursor.trans hk), Option.bind_some, hf.enough hk]
  short hi hk := by
    by_cases hj : j ≤ m
    · rw [h.enough hj, Option.bind_some, hf.short hj hk]
    · rw [h.short hi (Nat.lt_of_not_le hj), Option.bind_none]

/-! ### The operations -/

theorem getBit_needsPassed {x : Bool} (h : getBit s = some (x, t)) (m : Nat) :
    NeedsPassed m s.cur t.cur (x, cutSource m t) (getBit (cutSource m s)) := by
  rcases getBit_cases h with ⟨b, h0, hb, rfl, rfl⟩ | ⟨h0, rfl, rfl⟩
  · refine ⟨Nat.le_succ _, fun hm => ?_, fun hle hlt => ?_⟩
    · exact getBit_of_byte (s := cutSource m s) h0 ((List.getElem?_take_of_lt hm).trans hb)
    · refine (getBit_eq_none_iff _).mpr ⟨h0, (List.length_take_le _ _).trans ?_⟩
      exact Nat.le_of_lt_succ hlt
  · rw [getBit_of_buffered (s := cutSource m s) h0]
    exact .done m _ _

theorem decRenormLoop_needsPassed (n : Nat) (h : decRenormLoop n s = some t) (m : Nat) :
    NeedsPassed m s.cur t.cur (cutSource m t) (decRenormLoop n (cutSource m s)) := by
  induction n generalizing s with
  | zero =>
    cases h
    exact .done m _ _
  | succ n ih =>
    by_cases hc : renormCase s.low s.high = .settled
    · rw [decRenormLoop_settled hc] at h
      cases h
      rw [decRenormLoop_settled (s := cutSource m _) hc]
      exact .done m _ _
    · rw [decRenormLoop_succ hc] at h
      obtain ⟨⟨x, u⟩, hx, h⟩ := Option.bind_eq_some_iff.mp h
      rw [decRenormLoop_succ (s := cutSource m s) hc]
      exact (getBit_needsPassed hx m).bind (ih (s := decPass s (x, u)) h)

theorem decodeBit_needsPassed (h : decodeBit c s = some (b, t)) (m : Nat) :
    NeedsPassed m s.cur t.cur (b, cutSource m t) (decodeBit c (cutSource m s)) := by
  obtain ⟨rfl, u, hu, rfl⟩ := decodeBit_eq_some.mp h
  have hloop := decRenormLoop_needsPassed renormPasses hu m
  rw [decodeBit_eq_bind]
  cases hb : decodedBit c s with
  | false | true =>
    have hcut : decodedBit c (cutSource m s) = _ := hb
    rw [hb] at hloop
    rw [hcut]
    exact hloop.bind (.done m _ _)

theorem primeCode_needsPassed (n : Nat) (h : primeCode n s = some t) (m : Nat) :
    NeedsPassed m s.cur t.cur (cutSource m t) (primeCode n (cutSource m s)) := by
  induction n generalizing s with
  | zero =>
    cases h
    exact .done m _ _
  | succ n ih =>
    rw [primeCode_succ] at h ⊢
    obtain ⟨⟨x, u⟩, hx, h⟩ := Option.bind_eq_some_iff.mp h
    exact (getBit_needsPassed hx m).bind (ih (s := { u with code := shiftIn u.code x }) h)

theorem decodeIntLoop_needsPassed (n v : Nat) {w : Nat} (h : decodeIntLoop n v s = some (w, t)) (m : Nat) :
    NeedsPassed m s.cur t.cur (w, cutSource m t) (decodeIntLoop n v (cutSource m s)) := by
  induction n generalizing v s with
  | zero =>
    cases h
    exact .done m _ _
  | succ n ih =>
    rw [decodeIntLoop_succ] at h ⊢
    obtain ⟨⟨x, u⟩, hx, h⟩ := Option.bind_eq_some_iff.mp h
    exact (decodeBit_needsPassed hx m).bind (ih _ h)

theorem decMagnitude_needsPassed (l : List Nat) (v : Nat) {w : Nat} (h : decMagnitude l v s = some (w, t)) (m : Nat) :
    NeedsPassed m s.cur t.cur (w, cutSource m t) (decMagnitude l v (cutSource m s)) := by
  induction l generalizing v s with
  | nil =>
    cases h
    exact .done m _ _
  | cons q rest ih =>
    rw [decMagnitude_cons] at h ⊢
    obtain ⟨⟨x, u⟩, hx, h⟩ := Option.bind_eq_some_iff.mp h
    exact (decodeBit_needsPassed hx m).bind (ih _ h)

theorem decSign_needsPassed {a v : Nat} (h : decSign a v s = some t) (m : Nat) :
    NeedsPassed m s.cur t.cur (cutSource m t) (decSign a v (cutSource m s)) := by
  unfold decSign at h ⊢
  by_cases hv : v = 0
  · rw [if_pos hv] at h ⊢
    cases h
    exact .done m _ _
  · rw [if_neg hv] at h ⊢
    obtain ⟨⟨x, u⟩, hx, h⟩ := Option.bind_eq_some_iff.mp h
    cases h
    exact (decodeBit_needsPassed hx m).bind (.done m _ _)

theorem decTerminal_needsPassed {blk : Block} {inf p : Nat} {pos : Axes Nat} (h : decTerminal blk inf pos p s = some t)
    (m : Nat) : NeedsPassed m s.cur t.cur (cutSource m t) (decTerminal blk inf pos p (cutSource m s)) := by
  rw [decTerminal_eq_bind] at h ⊢
  obtain ⟨⟨v, u⟩, hv, h⟩ := Option.bind_eq_some_iff.mp h
  exact (decMagnitude_needsPassed _ _ hv m).bind (decSign_needsPassed h m)

/-- `Fill0` reads nothing. -/
theorem fill0_needsPassed (blk : Block) (b : Sub) (s : State) (m : Nat) :
    NeedsPassed m s.cur (fill0 blk b s).cur (cutSource m (fill0 blk b s)) (some (fill0 blk b (cutSource m s))) := by
  have hcut : fill0 blk b (cutSource m s) = cutSource m (fill0 blk b s) :=
    List.foldl_hom (cutSource m) fun _ _ => rfl
  have hcur : (fill0 blk b s).cur = s.cur := by rw [fill0_sameDecoder blk b s]
  rw [hcut, hcur]
  exact .done m _ _

theorem foldlM_needsPassed {α : Type} {f : State → α → Option State} (l : List α) (m : Nat)
    (hf : ∀ s t x, f s x = some t → NeedsPassed m s.cur t.cur (cutSource m t) (f (cutSource m s) x))
    (h : l.foldlM f s = some t) : NeedsPassed m s.cur t.cur (cutSource m t) (l.foldlM f (cutSource m s)) := by
  induction l generalizing s with
  | nil =>
    cases h
    exact .done m _ _
  | cons x rest ih =>
    obtain ⟨u, hu, h⟩ := Option.bind_eq_some_iff.mp h
    exact (hf s u x hu).bind (ih h)

theorem walkDecLoop_needsPassed {blk : Block} {inf : Nat} (n : Nat) {b : Sub} {p : Int}
    (h : walkDecLoop blk inf n b p s = some t) (m : Nat) :
    NeedsPassed m s.cur t.cur (cutSource m t) (walkDecLoop blk inf n b p (cutSource m s)) := by
  induction n generalizing b p s t with
  | zero =>
    cases h
    exact .done m _ _
  | succ n ih =>
    by_cases hp : p < inf
    · rw [walkDecLoop_of_lt hp] at h ⊢
      cases h
      exact fill0_needsPassed blk b s m
    · by_cases h1 : b.single = true
      · rw [walkDecLoop_of_single hp h1] at h ⊢
        exact decTerminal_needsPassed h m
      · rw [walkDecLoop_of_flag hp h1] at h ⊢
        obtain ⟨⟨x, u⟩, hx, h⟩ := Option.bind_eq_some_iff.mp h
        refine (decodeBit_needsPassed hx m).bind ?_
        cases x with
        | true =>
          cases h
          exact fill0_needsPassed blk b u m
        | false =>
          rw [if_neg Bool.false_ne_true] at h ⊢
          rw [walkDecSecond_eq_bind] at h ⊢
          obtain ⟨⟨y, v⟩, hy, h⟩ := Option.bind_eq_some_iff.mp h
          refine (decodeBit_needsPassed hy m).bind ?_
          cases y with
          | true => exact foldlM_needsPassed _ m (fun _ _ _ hw => ih hw) h
          | false => exact ih h

theorem decodeHeader_needsPassed {h : Bool} (hd : decodeHeader h s = some t) (m : Nat) :
    NeedsPassed m s.cur t.cur (cutSource m t) (decodeHeader h (cutSource m s)) := by
  cases h with
  | false =>
    cases hd
    exact .done m _ _
  | true =>
    rw [decodeHeader_true] at hd ⊢
    obtain ⟨⟨v, u⟩, hv, hd⟩ := Option.bind_eq_some_iff.mp hd
    cases hd
    exact (decodeIntLoop_needsPassed 5 0 hv m).bind (.done m _ _)

theorem decodeBlock_needsPassed {h : Bool} (hd : decodeBlock h s = some t) (m : Nat) :
    NeedsPassed m s.cur t.cur (cutSource m t) (decodeBlock h (cutSource m s)) := by
  rw [decodeBlock_eq_bind] at hd ⊢
  obtain ⟨u, hu, hd⟩ := Option.bind_eq_some_iff.mp hd
  exact (decodeHeader_needsPassed hu m).bind (walkDecLoop_needsPassed walkDepth hd m)

/-- A decoding command needs exactly the bytes it moves the cursor past. -/
theorem decodeWork_needsPassed {i : Instr} (h : decodeWork i s = some u) (m : Nat) :
    NeedsPassed m s.cur u.cur (cutSource m u) (decodeWork i (cutSource m s)) := by
  cases i with
  | dinit k => cases k <;> exact primeCode_needsPassed 16 h m
  | decb ctx =>
    obtain ⟨⟨x, v⟩, hx, h⟩ := Option.bind_eq_some_iff.mp h
    cases h
    exact (decodeBit_needsPassed hx m).bind (.done m _ _)
  | deci n =>
    obtain ⟨⟨x, v⟩, hx, h⟩ := Option.bind_eq_some_iff.mp h
    cases h
    exact (decodeIntLoop_needsPassed _ _ hx m).bind (.done m _ _)
  | deblk hd => exact decodeBlock_needsPassed h m
  | _ => cases h

theorem decodeCheck_cutSource (i : Instr) (s : State) (m : Nat) :
    decodeCheck i (cutSource m s) = decodeCheck i s := by
  cases i <;> rfl

/-! ### How a decoding command ends -/

theorem deblkCheck_ne_eos {h : Bool} {w info : Word} {e : FaultCode} (hc : deblkCheck h w s = some (e, info)) :
    e ≠ .eos := by
  unfold deblkCheck blockCheck planeCheckDec at hc
  dsimp only at hc
  split_ifs at hc <;> cases hc <;> decide

/-- `E_EOS` is no fault of the checks. -/
theorem decodeCheck_ne_eos {i : Instr} {e : FaultCode} {info : Word} (hc : decodeCheck i s = some (e, info)) :
    e ≠ .eos := by
  cases i with
  | dinit m | decb ctx | deci n =>
    simp only [decodeCheck] at hc
    split_ifs at hc <;> cases hc <;> decide
  | deblk h =>
    simp only [decodeCheck] at hc
    split at hc
    · cases hc
      decide
    · exact deblkCheck_ne_eos hc
  | _ => cases hc

theorem FaultCode.code_eq_eos {e : FaultCode} (h : e.code = 7#8) : e = .eos := by
  cases e with
  | eos => rfl
  | _ => exact absurd h (by decide)

/-- `E_EOS` of a decoding command is the imprecise one. -/
theorem exec_decodes_eos {i : Instr} (hi : decodes i = true) (hf : s.fault = false) (h : exec i s = .next t)
    (ht : t.fault = true) (herr : t.err = 7#8) : t = exhaustion i s := by
  cases hc : decodeCheck i s with
  | some q =>
    obtain ⟨e, info⟩ := q
    rw [exec_of_decodeCheck hi hc] at h
    cases h
    exact absurd (FaultCode.code_eq_eos herr) (decodeCheck_ne_eos hc)
  | none =>
    cases hw : decodeWork i s with
    | none =>
      rw [exec_of_decodeWork_none hi hc hw] at h
      cases h
      rfl
    | some u =>
      rw [exec_of_decodeWork_some hi hc hw] at h
      cases h
      have hu := effect_fault (effect_of_decodeWork hc hw)
      exact absurd (hu.symm.trans ht) (by rw [hf]; nofun)

/-- A decoding command that counted has passed its check and done its work. -/
theorem exec_decodes_counted {i : Instr} (hi : decodes i = true) (h : exec i s = .next t)
    (hcnt : t.cmdCnt = s.cmdCnt + 1#32) :
    decodeCheck i s = none ∧ ∃ u, decodeWork i s = some u ∧ t = retire u := by
  have hne : s.cmdCnt ≠ s.cmdCnt + 1#32 := by simp
  cases hc : decodeCheck i s with
  | some q =>
    rw [exec_of_decodeCheck hi hc] at h
    cases h
    exact absurd hcnt hne
  | none =>
    cases hw : decodeWork i s with
    | none =>
      rw [exec_of_decodeWork_none hi hc hw] at h
      cases h
      rw [(exhaustion_frame i s).fixed] at hcnt
      exact absurd hcnt hne
    | some u =>
      rw [exec_of_decodeWork_some hi hc hw] at h
      cases h
      exact ⟨rfl, u, rfl, rfl⟩

/-- What stands in `FAULT`, `ERR` and `ERRINFO` after the imprecise `E_EOS`. -/
theorem exhaustion_record (i : Instr) (s : State) :
    (exhaustion i s).fault = true ∧ (exhaustion i s).err = 7#8 ∧ (exhaustion i s).errInfo = encode i := by
  rw [(exhaustion_frame i s).fixed]
  exact ⟨rfl, rfl, rfl⟩

/-- The imprecise `E_EOS` writes no word outside the current block (R129). -/
theorem exhaustion_read (i : Instr) (hwf : s.mem.wf) {a : Nat} (ha : ¬inBlock s a) :
    (exhaustion i s).mem.read a = s.mem.read a := by
  unfold exhaustion
  split
  · rfl
  · exact (freeWords_writesOnly _ _ _ { exhausted _ s with inf := _ } hwf).other a ha
  · rfl

/-! ### The four parts of the statement -/

theorem exhaustion_changes {i : Instr} (hi : decodes i = true) (hf : s.fault = false) (h : exec i s = .next t)
    (ht : t.fault = true) (herr : t.err = 7#8) :
    t = { s with
          fault := true, err := 7#8, errInfo := encode i, cur := s.inp.length
          low := t.low, high := t.high, code := t.code, db := t.db, dbn := t.dbn, result := t.result
          bank := t.bank, mode := t.mode, inf := t.inf, mem := t.mem, freeCtr := t.freeCtr } ∧
    ((∀ m, i ≠ .dinit m) → t.mode = s.mode) ∧
    ((∀ h, i ≠ .deblk h) → t.inf = s.inf ∧ t.mem = s.mem) ∧
    (s.mem.wf → ∀ a, ¬inBlock s a → t.mem.read a = s.mem.read a) := by
  rw [exec_decodes_eos hi hf h ht herr]
  obtain ⟨hfixed, hmode, hinf, hmem⟩ := exhaustion_frame i s
  refine ⟨by rw [hfixed], fun hne => hmode.resolve_right fun ⟨k, hk⟩ => hne k hk, fun hne => ⟨?_, ?_⟩,
    fun hwf a ha => exhaustion_read i hwf ha⟩
  · exact hinf.resolve_right fun ⟨k, hk⟩ => hne k hk
  · exact hmem.resolve_right fun ⟨k, hk⟩ => hne k hk

theorem exec_dinit_short (hm : s.mode = .idle) (hlen : s.inp.length < s.cur + 2) (m : Bool) :
    ∃ t, exec (.dinit m) s = .next t ∧ t.fault = true ∧ t.err = 7#8 := by
  have hfew : bitsLeft (openDecoder (if m then resetBank s else s)) < 16 := by
    have heq : bitsLeft (openDecoder (if m then resetBank s else s)) = 0 + 8 * (s.inp.length - s.cur) := by
      cases m <;> rfl
    omega
  have hnone : decodeWork (.dinit m) s = none := by
    refine Option.eq_none_iff_forall_ne_some.mpr fun u hu => ?_
    have hall := primeCode_bitsLeft 16 hu
    omega
  obtain ⟨hfault, herr, -⟩ := exhaustion_record (.dinit m) s
  exact ⟨_, exec_of_decodeWork_none rfl (decodeCheck_dinit hm m) hnone, hfault, herr⟩

theorem exec_cutSource {i : Instr} (hi : decodes i = true) (h : exec i s = .next t)
    (hcnt : t.cmdCnt = s.cmdCnt + 1#32) (hm : s.cur ≤ m) :
    (t.cur ≤ m → exec i (cutSource m s) = .next { t with inp := s.inp.take m }) ∧
    (m < t.cur →
      ∃ u, exec i (cutSource m s) = .next u ∧ u.fault = true ∧ u.err = 7#8 ∧ u.errInfo = encode i) := by
  obtain ⟨hc, u, hu, rfl⟩ := exec_decodes_counted hi h hcnt
  have hcut := decodeWork_needsPassed hu m
  have hcheck := (decodeCheck_cutSource i s m).trans hc
  refine ⟨fun hle => ?_, fun hlt => ?_⟩
  · have hinp : u.inp = s.inp := by rw [(effect_frame (effect_of_decodeWork hc hu)).fixed]
    rw [exec_of_decodeWork_some hi hcheck (hcut.enough hle), ← hinp]
    rfl
  · exact ⟨_, exec_of_decodeWork_none hi hcheck (hcut.short hm hlt), exhaustion_record i (cutSource m s)⟩

theorem decodeBit_of_settled (hset : renormCase (narrow c (decodedBit c s) s).low
    (narrow c (decodedBit c s) s).high = .settled) :
    decodeBit c s = some (decodedBit c s, update c (decodedBit c s) (narrow c (decodedBit c s) s)) :=
  decodeBit_eq_some.mpr ⟨rfl, _, decRenormLoop_settled hset _, rfl⟩

/-- A narrowed interval that is not settled asks for a bit at once. -/
theorem decodeBit_of_no_bits (hask : renormCase (narrow c (decodedBit c s) s).low
    (narrow c (decodedBit c s) s).high ≠ .settled) (hbits : bitsLeft s = 0) : decodeBit c s = none := by
  have hn : bitsLeft (narrow c (decodedBit c s) s) = bitsLeft s := by cases decodedBit c s <;> rfl
  rw [decodeBit_eq_bind, decRenormLoop_succ hask, (getBit_eq_none_iff_bitsLeft _).mpr (hn.trans hbits)]
  rfl

theorem decodeCheck_decb {ctx : BitVec 8} (hm : s.mode = .dec) (hctx : ctx.toNat < 161) :
    decodeCheck (.decb ctx) s = none :=
  (if_neg (not_not_intro hm)).trans (if_neg (Nat.not_le.mpr hctx))

theorem exec_decb_of_no_bits {ctx : BitVec 8} (hm : s.mode = .dec) (hctx : ctx.toNat < 161)
    (hask : renormCase (narrow ctx.toNat (decodedBit ctx.toNat s) s).low
      (narrow ctx.toNat (decodedBit ctx.toNat s) s).high ≠ .settled) (hbits : bitsLeft s = 0) :
    ∃ t, exec (.decb ctx) s = .next t ∧ t.fault = true ∧ t.err = 7#8 ∧ t.errInfo = encode (.decb ctx) := by
  have hnone : decodeWork (.decb ctx) s = none := by
    rw [decodeWork, decodeBit_of_no_bits hask hbits]
    rfl
  exact ⟨_, exec_of_decodeWork_none rfl (decodeCheck_decb hm hctx) hnone, exhaustion_record (.decb ctx) s⟩

theorem exec_decb_of_settled {ctx : BitVec 8} (hm : s.mode = .dec) (hctx : ctx.toNat < 161)
    (hset : renormCase (narrow ctx.toNat (decodedBit ctx.toNat s) s).low
      (narrow ctx.toNat (decodedBit ctx.toNat s) s).high = .settled) :
    ∃ t, exec (.decb ctx) s = .next t ∧ t.cmdCnt = s.cmdCnt + 1#32 ∧ t.fault = s.fault ∧ t.err = s.err := by
  have hbit := decodeBit_of_settled hset
  have ho := decodeBit_onlyDecoder _ hbit
  refine ⟨_, exec_decb hm hctx hbit, ?_, ?_, ?_⟩ <;> rw [ho] <;> rfl

/-- Settles O26, part by part. -/
theorem exhaustionFrame : Obligations.ExhaustionFrame :=
  ⟨fun _ _ _ hi hf h ht herr => exhaustion_changes hi hf h ht herr,
    fun _ m hm hlen => exec_dinit_short hm hlen m,
    fun _ _ _ _ hi _ h hcnt hm => exec_cutSource hi h hcnt hm,
    fun _ _ hm hctx h0 hend =>
      ⟨fun hask => exec_decb_of_no_bits hm hctx hask
        ((getBit_eq_none_iff_bitsLeft _).mp ((getBit_eq_none_iff _).mpr ⟨h0, hend⟩)),
        fun hset => exec_decb_of_settled hm hctx hset⟩⟩

end SourceCut

end Sys2Proof.Machine

/-! PROOF. The children of a sub-block partition it, and walks nest no deeper than the model's bound (43_bitplane.md
R132, R136, R139). -/

namespace Sys2Proof.Machine

open Sys2Proof.Claims

section WalkShape

variable {blk : Block} {b child : Sub} {inf k n : Nat} {p : Int}

/-! ### Children -/

theorem Sub.cells_length (b : Sub) : b.cells.length = b.len.product := by
  simp only [Sub.cells_eq_product, List.length_map, List.length_product, List.length_range, Axes.product, Nat.mul_assoc]

theorem children_cells_length (b : Sub) : ((children b).flatMap Sub.cells).length = b.cells.length := by
  rw [List.length_flatMap, Sub.cells_length, ← children_product]
  simp only [Sub.cells_length]

/-- The children cover their parent and have no more elements than it. -/
theorem children_cells_perm (b : Sub) : ((children b).flatMap Sub.cells).Perm b.cells :=
  ((List.subperm_of_subset b.cells_nodup (cells_subset_children b)).perm_of_length_le
    (children_cells_length b).le).symm

theorem children_nonempty (hb : ∀ a, 1 ≤ b.len.get a) (hc : child ∈ children b) (a : Axis) :
    1 ≤ child.len.get a :=
  have ⟨_, _, hpos, _⟩ := mem_halves_bounds (k := 0) (mem_children.mp hc a) (hb a)
  hpos

/-- An axis longer than 1 has two halves, one of length 1 is its only half. -/
theorem halves_length {l : Nat} (hl : 1 ≤ l) (x : Nat) :
    (halves x l).length = 2 ^ if decide (1 < l) = true then 1 else 0 := by
  by_cases h1 : l = 1
  · simp [halves, h1]
  · have hlt : 1 < l := by omega
    simp [halves_of_ne_one h1, hlt]

theorem children_length (b : Sub) :
    (children b).length = (allAxes.map fun a => (halves (b.pos.get a) (b.len.get a)).length).prod := by
  simp only [children, List.length_flatMap, List.length_map, List.map_const', List.sum_replicate, smul_eq_mul,
    allAxes, List.map_cons, List.map_nil, List.prod_cons, List.prod_nil, Axes.get, mul_one]

theorem children_length_eq_two_pow (hb : ∀ a, 1 ≤ b.len.get a) :
    (children b).length = 2 ^ (allAxes.filter fun a => 1 < b.len.get a).length := by
  have hlen (a : Axis) := halves_length (hb a) (b.pos.get a)
  simp only [children_length, hlen, ← List.countP_eq_length_filter, allAxes, List.map_cons, List.map_nil,
    List.prod_cons, List.prod_nil, mul_one, ← Nat.pow_add, List.countP_cons, List.countP_nil]
  congr 1
  ring

/-- Settles O36: each axis longer than 1 doubles the number of children. -/
theorem childrenPartition : Obligations.ChildrenPartition := fun b hb =>
  ⟨children_cells_perm b, fun _ hc => children_nonempty hb hc, children_length_eq_two_pow hb⟩

/-! ### The depth of a walk -/

/-- Every call after the first goes down a plane or into a half (43_bitplane.md R136, R139): more calls than a walk from
plane `p` over a sub-block within `2^k` nests. -/
def nesting (k : Nat) (p : Int) : Nat := (p + 1).toNat + k + 1

theorem nesting_lower (hp : ¬p < inf) (k : Nat) : nesting k p = nesting k (p - 1) + 1 := by
  unfold nesting
  omega

theorem nesting_half (k : Nat) (p : Int) : nesting (k + 1) p = nesting k p + 1 := by
  unfold nesting
  omega

/-- A sub-block that is split has an axis to halve. -/
theorem Sub.within.exists_half (hb : b.within k) (h1 : ¬b.single = true) : ∃ j, k = j + 1 :=
  Nat.exists_eq_succ_of_ne_zero fun hk => h1 (Sub.single_of_within_zero (hk ▸ hb))

/-- One call more changes nothing where the calls suffice. -/
theorem walkSymbols_succ (inf : Nat) (x : Words) (hb : b.within k) (hn : nesting k p ≤ n) :
    walkSymbols inf x (n + 1) b p = walkSymbols inf x n b p := by
  induction n generalizing b k p with
  | zero => exact absurd hn (Nat.not_succ_le_zero _)
  | succ n ih =>
    unfold walkSymbols
    split
    · rfl
    · split
      · rfl
      · cases flagOf inf x b p.toNat with
        | zeroBlock => rfl
        | lowerBitPlane =>
          have hlower := ih (p := p - 1) hb (by rw [nesting_lower ‹_›] at hn; omega)
          simp only [hlower]
        | splitBlock =>
          obtain ⟨j, rfl⟩ := hb.exists_half ‹_›
          have hsplit : ((children b).flatMap fun child => walkSymbols inf x (n + 1) child p) =
              (children b).flatMap fun child => walkSymbols inf x n child p :=
            List.flatMap_congr fun c hc => ih (children_within hb hc) (by rw [nesting_half] at hn; omega)
          simp only [hsplit]

theorem foldlM_congr_of_mem {α : Type} {f g : State → α → Option State} (l : List α)
    (h : ∀ x ∈ l, ∀ s, f s x = g s x) (s : State) : l.foldlM f s = l.foldlM g s := by
  induction l generalizing s with
  | nil => rfl
  | cons x rest ih =>
    obtain ⟨hx, hrest⟩ := List.forall_mem_cons.mp h
    simp only [List.foldlM_cons, hx, ih hrest]

theorem walkDecLoop_succ (blk : Block) (inf : Nat) (hb : b.within k) (hn : nesting k p ≤ n) (s : State) :
    walkDecLoop blk inf (n + 1) b p s = walkDecLoop blk inf n b p s := by
  induction n generalizing b k p s with
  | zero => exact absurd hn (Nat.not_succ_le_zero _)
  | succ n ih =>
    by_cases hp : p < inf
    · rw [walkDecLoop_of_lt hp, walkDecLoop_of_lt hp]
    · by_cases h1 : b.single = true
      · rw [walkDecLoop_of_single hp h1, walkDecLoop_of_single hp h1]
      · obtain ⟨j, rfl⟩ := hb.exists_half h1
        have hlower (u : State) := ih (p := p - 1) hb (by rw [nesting_lower hp] at hn; omega) u
        have hsplit (u : State) :
            ((children b).foldlM (fun st c => walkDecLoop blk inf (n + 1) c p st) u) =
              (children b).foldlM (fun st c => walkDecLoop blk inf n c p st) u :=
          foldlM_congr_of_mem _ (fun c hc => ih (children_within hb hc) (by rw [nesting_half] at hn; omega)) u
        simp only [walkDecLoop_of_flag hp h1, walkDecSecond_eq_bind, hlower, hsplit]

/-- The model's bound is enough for 31 planes and lengths up to `2^6`. -/
theorem nesting_le_walkDepth (hp : p ≤ 30) : nesting 6 p ≤ walkDepth := by
  rw [nesting, walkDepth]
  omega

/-- Settles O37: from the bound on, each further call changes nothing. -/
theorem walkDepthSuffices : Obligations.WalkDepthSuffices := by
  intro blk inf n b p s hn hp hb
  have hdepth := nesting_le_walkDepth hp
  have hwithin : b.within 6 := hb
  refine ⟨fun c => ?_, ?_⟩
  · rw [walkEncLoop_eq_codeAll blk c n b p rfl, walkEncLoop_eq_codeAll blk c walkDepth b p rfl]
    congr 1
    induction n, hn using Nat.le_induction with
    | base => rfl
    | succ m hm ih => rw [walkSymbols_succ inf _ hwithin (hdepth.trans hm), ih]
  · induction n, hn using Nat.le_induction with
    | base => rfl
    | succ m hm ih => rw [walkDecLoop_succ blk inf hwithin (hdepth.trans hm), ih]

end WalkShape

end Sys2Proof.Machine

/-! PROOF. `ENBLK` retires behind its checks, and two of its walks bit by bit (43_bitplane.md R134 to R137, R144). -/

namespace Sys2Proof.Machine

open Sys2Proof.Claims

section KnownWalks

variable {s : State} {c h : Bool} {inf p n : Nat} {x : Words} {b : Sub}

/-- `ENBLK` behind its checks: what it codes, and one command more in `CMDCNT` (43_bitplane.md R137). -/
theorem exec_enblk_of_legal (hm : c = false → s.mode = .enc) (hb : blockLegal s) (hs : s.sup.toNat ≤ 30)
    (hi : s.inf.toNat ≤ s.sup.toNat)
    (hx : ∀ a, inBlock s a → (memRead s a).natAbs < 2 ^ (s.sup.toNat + 1)) :
    exec (.enblk c h) s = .next { codeBlock c h s with cmdCnt := s.cmdCnt + 1#32 } := by
  have hadm : admits s.mode (.enblk c h) = true := costOnly_admitted.mpr fun hbad => hbad.2 (hm hbad.1)
  have hcnt : (codeBlock c h s).cmdCnt = s.cmdCnt := by rw [codeBlock_onlyEncoder c h s]
  rw [exec_enblk hadm (enblkCheck_of_legal hb hs hi hx _), retire, hcnt]

/-- Settles O38: `codeBlock` is the header and the walk. -/
theorem enblkCompletes : Obligations.EnblkCompletes := fun _ _ _ hm hb hs hi hx =>
  exec_enblk_of_legal hm hb hs hi hx

/-! ### All words small -/

theorem Sub.single_iff_product (b : Sub) : b.single = true ↔ b.len.product = 1 := by
  rw [Sub.single, decide_eq_true_eq]
  refine ⟨fun hlen => by rw [hlen]; rfl, fun hprod => Axes.ext_get fun a => ?_⟩
  simp only [Axes.product, mul_eq_one] at hprod
  obtain ⟨⟨⟨ht, hs⟩, hv⟩, hu⟩ := hprod
  cases a <;> assumption

/-- The root of the current block is a single element exactly where `NEL` is 1. -/
theorem root_single_iff (s : State) : (currentBlock s).root.single = true ↔ nel s = 1 :=
  Sub.single_iff_product _

theorem flagOf_of_small (hx : ∀ pos ∈ b.cells, (x pos).natAbs < 2 ^ inf) : flagOf inf x b p = .zeroBlock :=
  if_pos ((largest_lt_iff (Nat.two_pow_pos inf)).mpr hx)

theorem walkSymbols_of_small (hp : inf ≤ p) (h1 : ¬b.single = true)
    (hx : ∀ pos ∈ b.cells, (x pos).natAbs < 2 ^ inf) :
    walkSymbols inf x (n + 1) b p = [(ctxSeg p 0, true)] := by
  rw [walkSymbols, if_neg (by omega), if_neg h1, Int.toNat_natCast, flagOf_of_small hx]

theorem walkSymbols_of_single (hp : inf ≤ p) (h1 : b.single = true) :
    walkSymbols inf x (n + 1) b p = terminalSymbols inf p (x b.pos) := by
  rw [walkSymbols, if_neg (by omega), if_pos h1, Int.toNat_natCast]

/-- Without the header a block codes the symbols of its walk. -/
theorem codeBlock_eq_walkSymbols (c : Bool) (s : State) :
    codeBlock c false s = codeAll c (walkSymbols s.inf.toNat (blockWords (currentBlock s) s) walkDepth
      (currentBlock s).root s.sup.toNat) s :=
  codeBlock_eq_codeAll c false s

theorem codeBlock_of_small (hi : s.inf.toNat ≤ s.sup.toNat) (h1 : nel s ≠ 1)
    (hx : ∀ a, inBlock s a → (memRead s a).natAbs < 2 ^ s.inf.toNat) :
    codeBlock c false s = codeBit (33 + 2 * s.sup.toNat) true c s := by
  have hcells : ∀ pos ∈ (currentBlock s).root.cells,
      (blockWords (currentBlock s) s pos).natAbs < 2 ^ s.inf.toNat := fun pos hpos =>
    hx _ (Block.addr_bounds ((Block.root_inside _).cells hpos))
  rw [codeBlock_eq_walkSymbols, walkSymbols_of_small hi (mt (root_single_iff s).mp h1) hcells]
  rfl

/-! ### One element -/

theorem codeBlock_of_single (hi : s.inf.toNat ≤ s.sup.toNat) (h1 : nel s = 1) :
    codeBlock c false s =
      codeAll c (terminalSymbols s.inf.toNat s.sup.toNat (memRead s s.blkBase.toNat)) s := by
  have hfirst : blockWords (currentBlock s) s (currentBlock s).root.pos = memRead s s.blkBase.toNat := by
    simp only [blockWords, Block.root, Block.addr, Nat.zero_mul, Nat.add_zero]
    rfl
  rw [codeBlock_eq_walkSymbols, walkSymbols_of_single hi ((root_single_iff s).mpr h1), hfirst]

/-- The magnitude bits of a terminal, then its sign if one of them was 1 (43_bitplane.md R135). -/
theorem terminalSymbols_eq (inf p : Nat) (v : Int) :
    let bits := (List.range (p + 1 - inf)).map fun i => (1 + (p - i), v.natAbs.testBit (p - i))
    terminalSymbols inf p v = bits ++ if bits.any Prod.snd then [(0, decide (v < 0))] else [] := by
  simp only [terminalSymbols, planesDown, List.map_map, List.any_map]
  rfl

/-- The only word of a one-element block. -/
theorem inBlock_iff_of_nel_one (h1 : nel s = 1) {a : Nat} : inBlock s a ↔ a = s.blkBase.toNat := by
  rw [inBlock, h1]
  omega

/-- Settles O39: the walk ends at the root in both cases. -/
theorem enblkKnownWalks : Obligations.EnblkKnownWalks := by
  intro s c hm hb hs hi
  refine ⟨fun h1 hx => ?_, fun h1 hx => ?_⟩
  · have hrange (a : Nat) (ha : inBlock s a) : (memRead s a).natAbs < 2 ^ (s.sup.toNat + 1) :=
      (hx a ha).trans_le (Nat.pow_le_pow_right (by decide) (by omega))
    rw [exec_enblk_of_legal hm hb hs hi hrange, codeBlock_of_small hi h1 hx]
  · have hrange (a : Nat) (ha : inBlock s a) : (memRead s a).natAbs < 2 ^ (s.sup.toNat + 1) := by
      rwa [(inBlock_iff_of_nel_one h1).mp ha]
    rw [exec_enblk_of_legal hm hb hs hi hrange, codeBlock_of_single hi h1, terminalSymbols_eq]
    rfl

end KnownWalks

end Sys2Proof.Machine

/-! PROOF. What `DEBLK` writes: every word of the block anew, a multiple of `2^INF` within the planes, and no other word
(43_bitplane.md R138 to R140). -/

namespace Sys2Proof.Machine

open Sys2Proof.Claims

section DecodedWords

variable {s t u : State} {blk : Block} {inf sup p k : Nat} {cells more : List (Axes Nat)} {good : Int → Prop}

/-! ### Words written -/

/-- A word of the planes `sup` down to `inf`. -/
def ofPlanes (inf sup : Nat) (v : Int) : Prop := (2 ^ inf : Int) ∣ v ∧ v.natAbs < 2 ^ (sup + 1)

theorem ofPlanes_zero (inf sup : Nat) : ofPlanes inf sup 0 := ⟨dvd_zero _, Nat.two_pow_pos _⟩

/-- From `s` to `t` the elements `cells` got good words, and no good word was lost. -/
structure Filled (good : Int → Prop) (blk : Block) (cells : List (Axes Nat)) (s t : State) : Prop where
  wf : t.mem.wf
  words : ∀ pos ∈ cells, good (memRead t (blk.addr pos))
  kept : ∀ a, good (memRead s a) → good (memRead t a)

theorem Filled.trans (h1 : Filled good blk cells s t) (h2 : Filled good blk more t u) :
    Filled good blk (cells ++ more) s u where
  wf := h2.wf
  words := List.forall_mem_append.mpr ⟨fun pos hp => h2.kept _ (h1.words pos hp), h2.words⟩
  kept a ha := h2.kept a (h1.kept a ha)

theorem Filled.of_mem_eq (h : Filled good blk cells t u) (hmem : t.mem = s.mem) : Filled good blk cells s u :=
  { h with kept := fun a ha => h.kept a ((memRead_congr hmem a).symm ▸ ha) }

theorem memWrite_filled (hwf : s.mem.wf) (pos : Axes Nat) {v : Word} (hv : good v.toInt) :
    Filled good blk [pos] s (memWrite (blk.addr pos) v s) := by
  have hread (a : Nat) : memRead (memWrite (blk.addr pos) v s) a =
      if a = blk.addr pos then v.toInt else memRead s a := by
    simp only [memRead, memWrite, Memory.read_write s.mem hwf, apply_ite BitVec.toInt]
  refine ⟨s.mem.write_wf _ _ hwf, ?_, fun a ha => ?_⟩
  · simpa [hread] using hv
  · rw [hread]
    split
    · exact hv
    · exact ha

theorem fill0_filled (hgood : good 0) (b : Sub) (hwf : s.mem.wf) : Filled good blk b.cells s (fill0 blk b s) := by
  unfold fill0
  generalize b.cells = l
  induction l generalizing s with
  | nil => exact ⟨hwf, nofun, fun _ ha => ha⟩
  | cons pos rest ih =>
    have h1 := memWrite_filled (blk := blk) (v := 0#32) hwf pos (good := good) hgood
    exact h1.trans (ih h1.wf)

/-! ### Decodings that fill -/

/-- Where `g` decodes, it fills the elements `cells` with good words. -/
def Fills (good : Int → Prop) (blk : Block) (cells : List (Axes Nat)) (g : State → Option State) : Prop :=
  ∀ s t, s.mem.wf → g s = some t → Filled good blk cells s t

theorem Fills.congr {g g' : State → Option State} (h : Fills good blk cells g') (hg : ∀ s, g s = g' s) :
    Fills good blk cells g := fun s t hwf ht => h s t hwf ((hg s).symm.trans ht)

theorem Fills.subset {g : State → Option State} (h : Fills good blk cells g) (hsub : more ⊆ cells) :
    Fills good blk more g := fun s t hwf ht =>
  { h s t hwf ht with words := fun pos hp => (h s t hwf ht).words pos (hsub hp) }

/-- A bit decoded before it writes nothing. -/
theorem Fills.afterBit {f : Bool → State → Option State} (h : ∀ x, Fills good blk cells (f x)) (c : Nat) :
    Fills good blk cells fun s => (decodeBit c s).bind fun q => f q.1 q.2 := by
  intro s t hwf ht
  obtain ⟨⟨x, u⟩, hu, ht⟩ := Option.bind_eq_some_iff.mp ht
  have hmem : u.mem = s.mem := by rw [decodeBit_onlyDecoder c hu]
  exact (h x u t (hmem ▸ hwf) ht).of_mem_eq hmem

/-- A bit decoded before two ways, each of which fills. -/
theorem Fills.branch {g one zero : State → Option State} {c : Nat} (h1 : Fills good blk cells one)
    (h0 : Fills good blk cells zero)
    (hg : ∀ s, g s = (decodeBit c s).bind fun q => if q.1 then one q.2 else zero q.2) : Fills good blk cells g :=
  Fills.congr (Fills.afterBit (f := fun x u => if x then one u else zero u)
    (fun x => by cases x <;> assumption) c) hg

theorem fill0_fills (hgood : good 0) (b : Sub) : Fills good blk b.cells fun s => some (fill0 blk b s) := by
  intro s t hwf ht
  cases ht
  exact fill0_filled hgood b hwf

/-- Sub-blocks one after another. -/
theorem foldlM_fills (g : Sub → State → Option State) (l : List Sub)
    (hg : ∀ c ∈ l, Fills good blk c.cells (g c)) :
    Fills good blk (l.flatMap Sub.cells) fun s => l.foldlM (fun st c => g c st) s := by
  induction l with
  | nil =>
    intro s t hwf ht
    cases ht
    exact ⟨hwf, nofun, fun _ ha => ha⟩
  | cons c rest ih =>
    obtain ⟨hc, hrest⟩ := List.forall_mem_cons.mp hg
    intro s t hwf ht
    simp only [List.foldlM_cons, Option.bind_eq_bind, Option.bind_eq_some_iff] at ht
    obtain ⟨u, hu, ht⟩ := ht
    have h1 := hc s u hwf hu
    exact h1.trans (ih hrest u t h1.wf ht)

/-! ### One element -/

/-- The magnitude decoded is built from the planes' powers of two alone. -/
theorem decMagnitude_bounds {l : List Nat} {m r d : Nat} (hm : d ∣ m) (hl : ∀ q ∈ l, d ∣ 2 ^ q)
    (h : decMagnitude l m s = some (r, t)) : d ∣ r ∧ r ≤ m + (l.map (2 ^ ·)).sum := by
  induction l generalizing m s with
  | nil =>
    cases h
    exact ⟨hm, Nat.le_add_right _ _⟩
  | cons q rest ih =>
    obtain ⟨hq, hrest⟩ := List.forall_mem_cons.mp hl
    rw [decMagnitude_cons] at h
    obtain ⟨⟨x, u⟩, -, h⟩ := Option.bind_eq_some_iff.mp h
    obtain ⟨hdvd, hle⟩ := ih (hm.add (hq.mul_right (bit x))) hrest h
    have hbit : 2 ^ q * bit x ≤ 2 ^ q := by cases x <;> simp [bit]
    rw [List.map_cons, List.sum_cons]
    exact ⟨hdvd, by omega⟩

theorem planesDown_powers_lt (p inf : Nat) : ((planesDown p inf).map (2 ^ ·)).sum < 2 ^ (p + 1) := by
  have hsum (n : Nat) (hn : n ≤ p + 1) :
      ((List.range n).map fun i => 2 ^ (p - i)).sum + 2 ^ (p + 1 - n) = 2 ^ (p + 1) := by
    induction n with
    | zero => simp
    | succ n ih =>
      have hpow : 2 ^ (p + 1 - n) = 2 * 2 ^ (p - n) := by rw [Nat.sub_add_comm (by omega), Nat.pow_succ']
      have hprev := ih (by omega)
      rw [List.range_succ, List.map_append, List.sum_append, List.map_singleton, List.sum_singleton,
        Nat.add_sub_add_right]
      omega
  have htotal := hsum (p + 1 - inf) (Nat.sub_le _ _)
  have hpos := Nat.two_pow_pos (p + 1 - (p + 1 - inf))
  rw [planesDown, List.map_map]
  simp only [Function.comp_def]
  omega

theorem le_of_mem_planesDown {q : Nat} (hq : q ∈ planesDown p inf) : inf ≤ q := by
  obtain ⟨i, hi, rfl⟩ := List.mem_map.mp hq
  have := List.mem_range.mp hi
  omega

/-- A signed magnitude of at most 31 planes fits its word. -/
theorem storeInt_ofPlanes {m : Nat} (hm : 2 ^ inf ∣ m) (hlt : m < 2 ^ (sup + 1)) (hs : sup ≤ 30) (sign : Bool) :
    ofPlanes inf sup (storeInt 32 (if sign then -(m : Int) else m)).toInt := by
  have hfit : m < 2 ^ 31 := hlt.trans_le (Nat.pow_le_pow_right (by decide) (by omega))
  have hdvd : (2 ^ inf : Int) ∣ (m : Int) := by exact_mod_cast hm
  rw [storeInt, BitVec.toInt_ofInt_eq_self (by decide) (by split <;> omega) (by split <;> omega)]
  cases sign with
  | false => exact ⟨hdvd, hlt⟩
  | true => exact ⟨(dvd_neg (a := (2 ^ inf : Int))).mpr hdvd, by rwa [if_pos rfl, Int.natAbs_neg]⟩

theorem decSign_fills {m : Nat} (hm : 2 ^ inf ∣ m) (hlt : m < 2 ^ (sup + 1)) (hs : sup ≤ 30) (pos : Axes Nat) :
    Fills (ofPlanes inf sup) blk [pos] (decSign (blk.addr pos) m) := by
  by_cases h0 : m = 0
  · refine Fills.congr (fun s t hwf ht => ?_) fun s => if_pos h0
    cases ht
    exact memWrite_filled hwf pos (ofPlanes_zero inf sup)
  · have hstore (sign : Bool) : Fills (ofPlanes inf sup) blk [pos] fun u =>
        some (memWrite (blk.addr pos) (storeInt 32 (if sign then -(m : Int) else m)) u) := by
      intro s t hwf ht
      cases ht
      exact memWrite_filled hwf pos (storeInt_ofPlanes hm hlt hs sign)
    exact (Fills.afterBit hstore ctxAux).congr fun s => if_neg h0

theorem decTerminal_fills (hp : p ≤ sup) (hs : sup ≤ 30) (pos : Axes Nat) :
    Fills (ofPlanes inf sup) blk [pos] (decTerminal blk inf pos p) := by
  intro s t hwf ht
  rw [decTerminal_eq_bind] at ht
  obtain ⟨⟨m, u⟩, hu, ht⟩ := Option.bind_eq_some_iff.mp ht
  obtain ⟨hdvd, hle⟩ := decMagnitude_bounds (dvd_zero (2 ^ inf))
    (fun q hq => Nat.pow_dvd_pow 2 (le_of_mem_planesDown hq)) hu
  have hlt : m < 2 ^ (sup + 1) :=
    calc m ≤ ((planesDown p inf).map (2 ^ ·)).sum := by omega
      _ < 2 ^ (p + 1) := planesDown_powers_lt p inf
      _ ≤ 2 ^ (sup + 1) := Nat.pow_le_pow_right (by decide) (by omega)
  have hmem : u.mem = s.mem := by rw [decMagnitude_onlyDecoder _ _ hu]
  exact (decSign_fills hdvd hlt hs pos u t (hmem ▸ hwf) ht).of_mem_eq hmem

/-! ### The walk -/

theorem Sub.cells_of_single {b : Sub} (h1 : b.single = true) : b.cells = [b.pos] := by
  have hlen : b.len = ⟨1, 1, 1, 1⟩ := of_decide_eq_true h1
  simp [Sub.cells, hlen]

/-- The walk fills its sub-block, as long as its calls do not run out. -/
theorem walkDecLoop_fills (hs : sup ≤ 30) (blk : Block) (inf n : Nat) {b : Sub} {q : Int} (hb : b.within k)
    (hn : nesting k q ≤ n) (hq : q ≤ sup) :
    Fills (ofPlanes inf sup) blk b.cells (walkDecLoop blk inf n b q) := by
  have hzero := fill0_fills (blk := blk) (ofPlanes_zero inf sup)
  induction n generalizing b k q with
  | zero => exact absurd hn (Nat.not_succ_le_zero _)
  | succ n ih =>
    by_cases hinf : q < inf
    · exact (hzero b).congr fun s => walkDecLoop_of_lt hinf n s
    · by_cases h1 : b.single = true
      · rw [Sub.cells_of_single h1]
        exact (decTerminal_fills (by omega) hs b.pos).congr fun s => walkDecLoop_of_single hinf h1 n s
      · obtain ⟨j, rfl⟩ := hb.exists_half h1
        have hlower := ih (q := q - 1) hb (by rw [nesting_lower hinf] at hn; omega) (by omega)
        have hsplit := (foldlM_fills (fun c => walkDecLoop blk inf n c q) (children b) fun c hc =>
          ih (children_within hb hc) (by rw [nesting_half] at hn; omega) hq).subset (cells_subset_children b)
        have hsecond := hsplit.branch hlower fun s => walkDecSecond_eq_bind blk inf n b q s
        exact (hzero b).branch hsecond fun s => walkDecLoop_of_flag hinf h1 n s

/-! ### The command -/

theorem deblkCheck_of_decodeCheck {h : Bool} (hc : decodeCheck (.deblk h) s = none) :
    deblkCheck h (encode (.deblk h)) s = none := by
  simp only [decodeCheck, ite_eq_iff, reduceCtorEq, and_false, false_or] at hc
  obtain ⟨-, hchk⟩ := hc
  exact hchk

/-- With and without `H` the planes checked reach up to 30 (43_bitplane.md R140). -/
theorem sup_le_of_deblkCheck {h : Bool} {w : Word} (hc : deblkCheck h w s = none) : s.sup.toNat ≤ 30 := by
  rw [deblkCheck, deblkCheck_none_blockCheck hc] at hc
  refine Nat.le_of_not_lt fun hbad => ?_
  rw [planeCheckDec, if_pos hbad] at hc
  cases hc

/-- A block whose lengths are 7-bit numbers other than 0. -/
theorem root_within_of_blockCheck {w : Word} (hc : blockCheck w s = none) : (currentBlock s).root.within 7 := by
  obtain ⟨hlen, hcap⟩ := (blockCheck_eq_none_iff w s).mp hc
  exact root_within_seven ⟨lengthsLegal_iff.mpr ((badLength_eq_false_iff _ _).mpr hlen), hcap⟩

/-- The header writes `INF` alone. -/
theorem decodeHeader_mem {h : Bool} (hh : decodeHeader h s = some t) : t.mem = s.mem := by
  cases h with
  | false =>
    cases hh
    rfl
  | true =>
    rw [decodeHeader_true] at hh
    obtain ⟨⟨v, u⟩, hu, hh⟩ := Option.bind_eq_some_iff.mp hh
    cases hh
    rw [decodeIntLoop_onlyDecoder 5 0 hu]

theorem decodeBlock_filled {h : Bool} (hb : (currentBlock s).root.within 7) (hs : s.sup.toNat ≤ 30) (hwf : s.mem.wf)
    (hu : decodeBlock h s = some u) :
    Filled (ofPlanes u.inf.toNat s.sup.toNat) (currentBlock s) (currentBlock s).root.cells s u := by
  rw [decodeBlock_eq_bind] at hu
  obtain ⟨v, hv, hu⟩ := Option.bind_eq_some_iff.mp hu
  have hmem := decodeHeader_mem hv
  have hinf : u.inf = v.inf := by rw [walkDecLoop_onlyBlockDecoder _ _ _ _ _ hu]
  rw [hinf]
  exact (walkDecLoop_fills hs (currentBlock s) v.inf.toNat walkDepth hb
    (by rw [nesting, walkDepth]; omega) le_rfl v u (hmem ▸ hwf) hu).of_mem_eq hmem

/-- Every address of the block is that of an element of the root (20_memory.md R55). -/
theorem exists_mem_root_cells {a : Nat} (ha : inBlock s a) :
    ∃ pos ∈ (currentBlock s).root.cells, (currentBlock s).addr pos = a := by
  obtain ⟨hbase, hend⟩ := ha
  obtain ⟨pos, hpos, haddr⟩ := exists_pos_of_lt (len := (currentBlock s).len) (i := a - s.blkBase.toNat)
    (Nat.sub_lt_left_of_lt_add hbase hend)
  refine ⟨pos, Sub.mem_cells.mpr fun b => ?_, (haddr _).trans (Nat.add_sub_cancel' hbase)⟩
  have hzero : (currentBlock s).root.pos.get b = 0 := by cases b <;> rfl
  rw [hzero, Nat.zero_add]
  exact ⟨Nat.zero_le _, hpos b⟩

/-- `DEBLK` writes words of its block only. -/
theorem decodeBlock_writesOnly {h : Bool} (hwf : s.mem.wf) (hu : decodeBlock h s = some u) :
    WritesOnly (inBlock s) s.mem u.mem := by
  refine decodeBlock_preserves (P := fun v => WritesOnly (inBlock s) s.mem v.mem) h ?_ ?_ (fun _ _ _ hv => hv)
    (.refl _ _ hwf) hu
  · intro c v b w hv hw
    rw [decodeBit_onlyDecoder c hw]
    exact hv
  · exact fun pos v w hpos hw => hw.trans (.write _ _ hw.wf _ v (Block.addr_bounds hpos))

/-- Settles O43: the walk fills the whole block with words of the planes and writes nowhere else. -/
theorem deblkFrameAndWords : Obligations.DeblkFrameAndWords := by
  intro s t h hwf hexec hcnt
  obtain ⟨hc, u, hu, rfl⟩ := exec_decodes_counted rfl hexec hcnt
  obtain ⟨honly, hinf⟩ := decodeBlock_only h hu
  have hcheck := deblkCheck_of_decodeCheck hc
  have hfill := decodeBlock_filled (root_within_of_blockCheck (deblkCheck_none_blockCheck hcheck))
    (sup_le_of_deblkCheck hcheck) hwf hu
  refine ⟨?_, hinf, (decodeBlock_writesOnly hwf hu).other, fun a ha => ?_⟩
  · rw [honly]
    rfl
  · obtain ⟨pos, hpos, rfl⟩ := exists_mem_root_cells ha
    exact hfill.words pos hpos

end DecodedWords

end Sys2Proof.Machine

/-! SUPPORT. The transform's caches beside the rest of the state: the lines of a pass never look at them, and the touches
change nothing else (10_state.md R18; 44_transform.md R157, R159, R160). -/

namespace Sys2Proof.Machine

section TransformCaches

variable {s : State} {blk : Block} {a b : Axis} {d e : Dir} {n m : Nat}

/-- The transform's caches with their fill counters (10_state.md R18). -/
structure Caches where
  fwd : List Nat
  inv : List Nat
  gain : Axes (List Nat)
  tcFills : Word
  gcFills : Word

def State.caches (s : State) : Caches := ⟨s.tcvFwd, s.tcvInv, s.gcv, s.tcFills, s.gcFills⟩

def State.withCaches (s : State) (c : Caches) : State :=
  { s with tcvFwd := c.fwd, tcvInv := c.inv, gcv := c.gain, tcFills := c.tcFills, gcFills := c.gcFills }

@[simp] theorem caches_withCaches (s : State) (c : Caches) : (s.withCaches c).caches = c := rfl

@[simp] theorem withCaches_withCaches (s : State) (c k : Caches) :
    (s.withCaches c).withCaches k = s.withCaches k := rfl

/-- The lengths in the coefficient cache of a direction (R159). -/
def Caches.coeffKeys (c : Caches) : Dir → List Nat
  | .fwd => c.fwd
  | .inv => c.inv

/-- What a pass along `a` in the direction `d` looks up for the length `n` is there (R159, R160). -/
def Caches.holds (c : Caches) (d : Dir) (a : Axis) (n : Nat) : Prop := n ∈ c.coeffKeys d ∧ n ∈ c.gain.get a

/-! ### Touches -/

theorem touchTC_eq_withCaches (d : Dir) (n : Nat) (s : State) : touchTC d n s = s.withCaches (touchTC d n s).caches := by
  cases d <;> (unfold touchTC; dsimp only; split <;> rfl)

theorem touchGC_eq_withCaches (a : Axis) (n : Nat) (s : State) :
    touchGC a n s = s.withCaches (touchGC a n s).caches := by
  unfold touchGC
  split <;> rfl

theorem touched_eq_withCaches (d : Dir) (a : Axis) (n : Nat) (s : State) :
    touchGC a n (touchTC d n s) = s.withCaches (touchGC a n (touchTC d n s)).caches := by
  rw [touchTC_eq_withCaches d n s, touchGC_eq_withCaches, withCaches_withCaches, caches_withCaches]

theorem touchTC_of_mem (h : n ∈ s.caches.coeffKeys d) : touchTC d n s = s := by
  cases d <;> exact if_pos h

theorem touchGC_of_mem (h : n ∈ s.caches.gain.get a) : touchGC a n s = s := if_pos h

theorem touchTC_gain (d : Dir) (n : Nat) (s : State) : (touchTC d n s).caches.gain = s.caches.gain := by
  cases d <;> (unfold touchTC; dsimp only; split <;> rfl)

theorem touchGC_coeffKeys (a : Axis) (n : Nat) (s : State) :
    (touchGC a n s).caches.coeffKeys = s.caches.coeffKeys := by
  unfold touchGC
  split <;> rfl

theorem touchTC_coeffKeys_other (h : e ≠ d) (n : Nat) (s : State) :
    (touchTC d n s).caches.coeffKeys e = s.caches.coeffKeys e := by
  cases d with
  | fwd =>
    obtain rfl : e = .inv := by cases e <;> trivial
    unfold touchTC
    dsimp only
    split <;> rfl
  | inv =>
    obtain rfl : e = .fwd := by cases e <;> trivial
    unfold touchTC
    dsimp only
    split <;> rfl

theorem mem_coeffKeys_touchTC : m ∈ (touchTC d n s).caches.coeffKeys d ↔ m = n ∨ m ∈ s.caches.coeffKeys d := by
  by_cases hn : n ∈ s.caches.coeffKeys d
  · rw [touchTC_of_mem hn]
    exact ⟨.inr, fun h => h.elim (· ▸ hn) id⟩
  · have hkeys : (touchTC d n s).caches.coeffKeys d = keyInsert n (s.caches.coeffKeys d) := by
      cases d <;> exact congrArg (fun v : State => v.caches.coeffKeys _) (if_neg hn)
    rw [hkeys, mem_keyInsert]

theorem mem_gain_touchGC :
    m ∈ (touchGC a n s).caches.gain.get b ↔ (b = a ∧ m = n) ∨ m ∈ s.caches.gain.get b := by
  by_cases hn : n ∈ s.caches.gain.get a
  · rw [touchGC_of_mem hn]
    exact ⟨.inr, fun h => h.elim (fun ⟨hb, hm⟩ => hb ▸ hm ▸ hn) id⟩
  · have hkeys : (touchGC a n s).caches.gain = s.caches.gain.set a (keyInsert n (s.caches.gain.get a)) :=
      congrArg (fun v : State => v.caches.gain) (if_neg hn)
    rw [hkeys, Axes.get_set]
    split
    · rename_i hb
      rw [mem_keyInsert, hb]
      simp only [true_and]
    · simp only [*, false_and, false_or]

/-- After its touches a pass finds what it looks up, and nothing that was there is gone. -/
theorem touched_holds (h : (b = a ∧ m = n) ∨ s.caches.holds d b m) :
    (touchGC a n (touchTC d n s)).caches.holds d b m := by
  rw [Caches.holds, touchGC_coeffKeys, mem_coeffKeys_touchTC, mem_gain_touchGC, touchTC_gain]
  exact ⟨h.imp And.right And.left, h.imp_right And.right⟩

/-! ### Lines -/

theorem writeLine_withCaches (addrs : List Nat) (ys : List Int) (s : State) (c : Caches) :
    writeLine addrs ys (s.withCaches c) = (writeLine addrs ys s).withCaches c := by
  induction addrs generalizing ys s with
  | nil => rfl
  | cons x rest ih =>
    cases ys with
    | nil => rfl
    | cons y ys => exact ih ys (noteClamp y (memWrite x (sat32 y) s))

theorem transformLines_withCaches (f : List Int → List Int) (blk : Block) (a : Axis) (s : State) (c : Caches) :
    transformLines f blk a (s.withCaches c) = (transformLines f blk a s).withCaches c := by
  unfold transformLines
  induction lines blk a generalizing s with
  | nil => rfl
  | cons line rest ih =>
    have hline : transformLine f (s.withCaches c) line = (transformLine f s line).withCaches c :=
      writeLine_withCaches ..
    rw [List.foldl_cons, hline, ih, List.foldl_cons]

/-! ### Passes -/

/-- The words and `TSAT` after a pass are those of its lines, the caches those of its touches. -/
theorem pass_eq_withCaches (d : Dir) (blk : Block) (wgt : Axis → Nat) (s : State) (a : Axis) :
    pass d blk wgt s a = (transformLines (lineTransform (wgt a) d) blk a s).withCaches
      (touchGC a (blk.len.get a) (touchTC d (blk.len.get a) s)).caches := by
  rw [pass_eq, touched_eq_withCaches, transformLines_withCaches, caches_withCaches]

/-- The caches before the passes decide nothing but the caches after them (R164). -/
theorem passes_withCaches (d : Dir) (blk : Block) (wgt : Axis → Nat) (axes : List Axis) (s : State) (c : Caches) :
    ∃ k, axes.foldl (pass d blk wgt) (s.withCaches c) = (axes.foldl (pass d blk wgt) s).withCaches k := by
  induction axes generalizing s c with
  | nil => exact ⟨c, rfl⟩
  | cons a rest ih =>
    have hpass : pass d blk wgt (s.withCaches c) a =
        (pass d blk wgt s a).withCaches (pass d blk wgt (s.withCaches c) a).caches := by
      simp only [pass_eq_withCaches, transformLines_withCaches, withCaches_withCaches, caches_withCaches]
    rw [List.foldl_cons, hpass]
    exact ih _ _

theorem passes_hold (d : Dir) (blk : Block) (wgt : Axis → Nat) {axes : List Axis}
    (h : b ∈ axes ∨ s.caches.holds d b (blk.len.get b)) :
    (axes.foldl (pass d blk wgt) s).caches.holds d b (blk.len.get b) := by
  induction axes generalizing s with
  | nil => exact h.resolve_left List.not_mem_nil
  | cons a rest ih =>
    refine ih ?_
    rw [pass_eq_withCaches, caches_withCaches]
    rcases h with hmem | hheld
    · rcases List.mem_cons.mp hmem with rfl | hrest
      · exact .inr (touched_holds (.inl ⟨rfl, rfl⟩))
      · exact .inl hrest
    · exact .inr (touched_holds (.inr hheld))

/-! ### The four passes -/

theorem transformBlock_withCaches (d : Dir) (s : State) (c : Caches) :
    ∃ k, transformBlock d (s.withCaches c) = (transformBlock d s).withCaches k :=
  passes_withCaches d _ _ (passOrder d) s c

theorem mem_passOrder (d : Dir) (a : Axis) : a ∈ passOrder d := by cases d <;> cases a <;> decide

theorem transformBlock_holds (d : Dir) (s : State) (a : Axis) :
    (transformBlock d s).caches.holds d a ((currentBlock s).len.get a) :=
  passes_hold d _ _ (.inl (mem_passOrder d a))

/-- Where every length is cached, a transform fills nothing (R159, R160). -/
theorem transformBlock_caches_of_holds (h : ∀ a, s.caches.holds d a ((currentBlock s).len.get a)) :
    (transformBlock d s).caches = s.caches := by
  refine transformBlock_preserves (P := fun v => v.caches = s.caches) d (fun _ _ _ _ hv => hv) (fun _ _ hv => hv)
    (fun a v hv => ?_) (fun a v hv => ?_) rfl
  · rwa [touchTC_of_mem (hv ▸ (h a).1)]
  · rwa [touchGC_of_mem (hv ▸ (h a).2)]

theorem transformBlock_coeffKeys_other (h : e ≠ d) (s : State) :
    (transformBlock d s).caches.coeffKeys e = s.caches.coeffKeys e :=
  transformBlock_preserves (P := fun v => v.caches.coeffKeys e = s.caches.coeffKeys e) d (fun _ _ _ _ hv => hv)
    (fun _ _ hv => hv) (fun _ v hv => (touchTC_coeffKeys_other h _ v).trans hv)
    (fun a v hv => (congrFun (touchGC_coeffKeys a _ v) e).trans hv) rfl

end TransformCaches

end Sys2Proof.Machine

/-! PROOF. `TFWD` and `TINV` as whole commands: what they change, what is cached afterwards, and that the caches change
no result (44_transform.md R159 to R162, R164). -/

namespace Sys2Proof.Machine

open Sys2Proof.Claims

section TransformCommands

variable {s t : State}

theorem exists_transformCommand {i : Instr} (hi : i = .tfwd ∨ i = .tinv) : ∃ d, i = transformCommand d :=
  hi.elim (⟨.fwd, ·⟩) (⟨.inv, ·⟩)

/-- `TSAT` is sticky (R154). -/
theorem transformBlock_tsat (d : Dir) (h : s.tsat = true) : (transformBlock d s).tsat = true := by
  refine transformBlock_preserves (P := fun v => v.tsat = true) d (fun _ _ _ _ hv => hv) (fun x v hv => ?_)
    (fun a v hv => ?_) (fun a v hv => ?_) h
  · rw [noteClamp_tsat, hv, Bool.true_or]
  · rw [touchTC_eq_withCaches]
    exact hv
  · rw [touchGC_eq_withCaches]
    exact hv

/-- A transform writes words of its block only. -/
theorem transformBlock_writesOnly (d : Dir) (hwf : s.mem.wf) :
    WritesOnly (inBlock s) s.mem (transformBlock d s).mem := by
  refine transformBlock_preserves (P := fun v => WritesOnly (inBlock s) s.mem v.mem) d
    (fun pos w v hpos hv => hv.trans (.write _ _ hv.wf _ w (Block.addr_bounds hpos))) (fun _ _ hv => hv)
    (fun a v hv => ?_) (fun a v hv => ?_) (.refl _ _ hwf)
  · rwa [touchTC_mem]
  · rwa [touchGC_mem]

/-- What `TxCheck` looks at, a transform leaves unchanged. -/
theorem onlyTransform.transformLegal (ho : onlyTransform s t) (h : transformLegal s) : transformLegal t := by
  rw [ho]
  exact h

theorem currentBlock_transformBlock (d : Dir) (s : State) : currentBlock (transformBlock d s) = currentBlock s := by
  rw [transformBlock_onlyTransform d s]
  rfl

/-- The same transform again fills no cache. -/
theorem transformBlock_twice_caches (d : Dir) (s : State) :
    (transformBlock d (retire (transformBlock d s))).caches = (transformBlock d s).caches :=
  transformBlock_caches_of_holds (s := retire (transformBlock d s)) fun a => by
    have hblk : currentBlock (retire (transformBlock d s)) = currentBlock s := currentBlock_transformBlock d s
    rw [hblk]
    exact transformBlock_holds d s a

/-- Settles O46: the passes one after another, then their touches along every axis. -/
theorem transformCompletes : Obligations.TransformCompletes := by
  intro s i hi hlegal hwf
  obtain ⟨d, rfl⟩ := exists_transformCommand hi
  have honly := transformBlock_onlyTransform d s
  refine ⟨_, exec_transformCommand hlegal d, congrArg retire honly, transformBlock_tsat d,
    (transformBlock_writesOnly d hwf).other, fun h => ?_, fun h => ?_, fun a => ?_, fun u hu => ?_⟩
  · cases d with
    | fwd => exact transformBlock_coeffKeys_other (d := .fwd) (e := .inv) (by decide) s
    | inv => cases h
  · cases d with
    | fwd => cases h
    | inv => exact transformBlock_coeffKeys_other (d := .inv) (e := .fwd) (by decide) s
  · have hheld := transformBlock_holds d s a
    rw [currentBlock_len_get] at hheld
    cases d <;> exact hheld
  · have hagain : transformLegal (retire (transformBlock d s)) := honly.transformLegal hlegal
    rw [exec_transformCommand hagain d] at hu
    cases hu
    have hcaches := transformBlock_twice_caches d s
    exact ⟨congrArg Caches.tcFills hcaches, congrArg Caches.gcFills hcaches⟩

theorem transformCommand_eq (d : Dir) : transformCommand d = .tfwd ∨ transformCommand d = .tinv := by
  cases d with
  | fwd => exact .inl rfl
  | inv => exact .inr rfl

theorem exec_of_txCheck_none {d : Dir} (hc : txCheck (encode (transformCommand d)) s = none) :
    exec (transformCommand d) s = .next (retire (transformBlock d s)) := by
  cases d with
  | fwd =>
    simp only [transformCommand] at hc
    simp only [exec, transformCommand, execTfwd, hc]
    rfl
  | inv =>
    simp only [transformCommand] at hc
    simp only [exec, transformCommand, execTinv, hc]
    rfl

/-- A transform on other caches ends as it did, but for the caches. -/
theorem exec_withCaches {d : Dir} (h : exec (transformCommand d) s = .next t) (c : Caches) :
    ∃ k, exec (transformCommand d) (s.withCaches c) = .next (t.withCaches k) := by
  have hcheck : txCheck (encode (transformCommand d)) (s.withCaches c) = txCheck (encode (transformCommand d)) s := rfl
  cases hc : txCheck (encode (transformCommand d)) s with
  | some f =>
    rw [exec_of_txCheck (transformCommand_eq d) hc] at h
    cases h
    exact ⟨c, exec_of_txCheck (transformCommand_eq d) (hcheck.trans hc)⟩
  | none =>
    rw [exec_of_txCheck_none hc] at h
    cases h
    obtain ⟨k, hk⟩ := transformBlock_withCaches d s c
    refine ⟨k, ?_⟩
    rw [exec_of_txCheck_none (hcheck.trans hc), hk]
    rfl

/-- Settles O48: the second run is the first one on the second state's caches. -/
theorem transformIgnoresCaches : Obligations.TransformIgnoresCaches := by
  intro s s' t t' i hi hs ht ht'
  obtain ⟨d, rfl⟩ := exists_transformCommand hi
  obtain ⟨k, hk⟩ := exec_withCaches ht s'.caches
  have hs : s' = s.withCaches s'.caches := hs
  rw [← hs, ht'] at hk
  cases hk
  exact ⟨rfl, rfl, rfl, rfl⟩

end TransformCommands

end Sys2Proof.Machine

/-! PROOF. The weights of an axis and their bound (00_scope.md section 5; 44_transform.md R153). -/

namespace Sys2Proof.Machine

section Weights

variable {tl g l : Nat}

/-- `R(a, L)` is a number of 16 fraction bits: the root of the ratio with 32. -/
theorem ratioRoot_eq_sqrt (htl : tl ≤ 64) : ratioRoot tl l = Nat.sqrt (tl * 2 ^ 32 / l) :=
  isqrt_eq_sqrt ((Nat.div_le_self _ _).trans_lt (by omega))

theorem ratioRoot_self (hl : 1 ≤ l) : ratioRoot l l = 2 ^ 16 := by
  rw [ratioRoot, Nat.mul_div_cancel_left _ hl, isqrt_eq_sqrt (by decide), show 2 ^ 32 = 2 ^ 16 * 2 ^ 16 from rfl,
    Nat.sqrt_eq]

/-- The ratio of the lengths is 64 at most, its root 8. -/
theorem ratioRoot_le (htl : tl ≤ 64) : ratioRoot tl l ≤ 8 * 2 ^ 16 := by
  rw [ratioRoot_eq_sqrt htl, ← Nat.sqrt_eq (8 * 2 ^ 16)]
  exact Nat.sqrt_le_sqrt ((Nat.div_le_self _ _).trans (by omega))

theorem weightOf_self (g : Nat) (hl : 1 ≤ l) : weightOf l g l = g := by
  rw [weightOf, ratioRoot_self hl, Nat.mul_div_cancel _ (by decide)]

theorem weightOf_le (htl : tl ≤ 64) (hg : g < 2 ^ 24) : weightOf tl g l ≤ 0x7FFFFF8 :=
  calc weightOf tl g l ≤ (2 ^ 24 - 1) * (8 * 2 ^ 16) / 2 ^ 16 :=
        Nat.div_le_div_right (Nat.mul_le_mul (Nat.le_pred_of_lt hg) (ratioRoot_le htl))
    _ = 0x7FFFFF8 := by norm_num

/-- Settles O49: the loop computes the exact root, and the rest is arithmetic on it. -/
theorem weightArithmetic : Obligations.WeightArithmetic := by
  refine ⟨fun x hx => ?_, fun g l => weightOf_self g, fun tl g l _ _ => weightOf_le⟩
  rw [isqrt_eq_sqrt hx]
  exact ⟨Nat.sqrt_le x, Nat.lt_succ_sqrt x⟩

end Weights

end Sys2Proof.Machine

/-! PROOF. The table of the transform for the lengths 1 to 4 against the real cosines: the first quadrant by its squares,
the rest of the circle by the symmetries the table folds by (44_transform.md R151). -/

namespace Sys2Proof.Machine

section Cosines

variable {len m : Nat}

/-- A natural number is within one half of a real `v` as soon as the squares are in this order. -/
theorem abs_sub_natCast_lt_half {v : ℝ} {c : Nat} (hv : 0 ≤ v) (hlo : ((c : ℝ) - 1 / 2) ^ 2 < v ^ 2)
    (hhi : v ^ 2 < ((c : ℝ) + 1 / 2) ^ 2) : |v - c| < 1 / 2 := by
  have hlow := (abs_lt_of_sq_lt_sq' hlo hv).2
  have hhigh := lt_of_pow_lt_pow_left₀ 2 (by positivity) hhi
  rw [abs_lt]
  constructor <;> linarith

/-- What the table holds at the angle `m` quarter turns over `len` (R151). -/
noncomputable def scaledCos (len m : Nat) : ℝ := 2 ^ 30 * Real.sqrt (2 / len) * Real.cos (Real.pi * m / (2 * len))

/-- Entry `m` of the first-quadrant row of `len`. -/
def quadrantEntry (len m : Nat) : Nat := (cosRows.getD (len - 1) []).getD m 0

/-! ### The symmetries -/

theorem scaledCos_mod (h : 1 ≤ len) (m : Nat) : scaledCos len (m % (4 * len)) = scaledCos len m := by
  have hlen : (len : ℝ) ≠ 0 := by positivity
  have hm : (m : ℝ) = (m % (4 * len) : Nat) + 4 * len * (m / (4 * len) : Nat) := by
    exact_mod_cast (Nat.mod_add_div m (4 * len)).symm
  have hangle : Real.pi * m / (2 * len) =
      Real.pi * (m % (4 * len) : Nat) / (2 * len) + (m / (4 * len) : Nat) * (2 * Real.pi) := by
    rw [hm]
    field_simp
    ring
  rw [scaledCos, scaledCos, hangle, Real.cos_add_nat_mul_two_pi]

theorem scaledCos_halfTurn_sub (h : 1 ≤ len) (hm : m ≤ 2 * len) : scaledCos len (2 * len - m) = -scaledCos len m := by
  have hlen : (len : ℝ) ≠ 0 := by positivity
  have hangle : Real.pi * (2 * len - m : Nat) / (2 * len) = Real.pi - Real.pi * m / (2 * len) := by
    rw [Nat.cast_sub hm]
    push_cast
    field_simp
  rw [scaledCos, scaledCos, hangle, Real.cos_pi_sub, mul_neg]

theorem scaledCos_fullTurn_sub (h : 1 ≤ len) (hm : m ≤ 4 * len) : scaledCos len (4 * len - m) = scaledCos len m := by
  have hlen : (len : ℝ) ≠ 0 := by positivity
  have hangle : Real.pi * (4 * len - m : Nat) / (2 * len) = 2 * Real.pi - Real.pi * m / (2 * len) := by
    rw [Nat.cast_sub hm]
    push_cast
    field_simp
    ring
  rw [scaledCos, scaledCos, hangle, Real.cos_two_pi_sub]

/-- A row right on the first quadrant is right on the whole circle. -/
theorem cosEntry_near (h : 1 ≤ len) (hrow : ∀ i ≤ len, |scaledCos len i - quadrantEntry len i| < 1 / 2) (m : Nat) :
    |scaledCos len m - cosEntry len m| < 1 / 2 := by
  have hr : m % (4 * len) < 4 * len := Nat.mod_lt m (by omega)
  rw [← scaledCos_mod h m]
  unfold cosEntry
  dsimp only
  generalize m % (4 * len) = r at hr
  have hneg {x : ℝ} {c : Nat} (hx : |x - c| < 1 / 2) : |-x - ((-(c : Int) : Int) : ℝ)| < 1 / 2 := by
    rw [Int.cast_neg, Int.cast_natCast, ← neg_sub', abs_neg]
    exact hx
  split
  · exact hrow r ‹_›
  · split
    · have hfold := hneg (hrow (2 * len - r) (by omega))
      rwa [scaledCos_halfTurn_sub h ‹_›, neg_neg] at hfold
    · split
      · have hsum : scaledCos len r = -scaledCos len (r - 2 * len) := by
          rw [← scaledCos_fullTurn_sub h hr.le, ← scaledCos_halfTurn_sub h (by omega)]
          congr 1
          omega
        rw [hsum]
        exact hneg (hrow (r - 2 * len) (by omega))
      · have hfold := hrow (4 * len - r) (by omega)
        rwa [scaledCos_fullTurn_sub h hr.le] at hfold

/-! ### The first quadrant -/

/-- Squares are free of the root and of the half angle. -/
theorem scaledCos_sq (h : 1 ≤ len) (m : Nat) :
    scaledCos len m ^ 2 = 2 ^ 60 * (1 + Real.cos (Real.pi * m / len)) / len := by
  have hlen : (len : ℝ) ≠ 0 := by positivity
  have hdouble : Real.pi * m / len = 2 * (Real.pi * m / (2 * len)) := by field_simp
  rw [hdouble, Real.cos_two_mul, scaledCos, mul_pow, mul_pow, Real.sq_sqrt (by positivity)]
  ring

theorem scaledCos_nonneg (h : 1 ≤ len) (hm : m ≤ len) : 0 ≤ scaledCos len m := by
  have hpi := Real.pi_pos
  have hangle : Real.pi * m / (2 * len) ≤ Real.pi / 2 := by
    rw [div_le_div_iff₀ (by positivity) two_pos]
    have : (m : ℝ) ≤ len := by exact_mod_cast hm
    nlinarith
  refine mul_nonneg (by positivity) (Real.cos_nonneg_of_mem_Icc ⟨?_, hangle⟩)
  exact (by linarith : -(Real.pi / 2) ≤ 0).trans (by positivity)

theorem scaledCos_self (h : 1 ≤ len) : scaledCos len len = 0 := by
  have hlen : (len : ℝ) ≠ 0 := by positivity
  have hangle : Real.pi * len / (2 * len) = Real.pi / 2 := by field_simp
  rw [scaledCos, hangle, Real.cos_pi_div_two, mul_zero]

/-- Bounds of the cosine of the doubled angle that single out the nearest integer. -/
theorem scaledCos_near_of_cos_bounds (h : 1 ≤ len) (hm : m ≤ len) {c : Nat} {lo hi : ℝ}
    (hlo : lo ≤ Real.cos (Real.pi * m / len)) (hhi : Real.cos (Real.pi * m / len) ≤ hi)
    (hc : ((c : ℝ) - 1 / 2) ^ 2 < 2 ^ 60 * (1 + lo) / len ∧ 2 ^ 60 * (1 + hi) / len < ((c : ℝ) + 1 / 2) ^ 2) :
    |scaledCos len m - c| < 1 / 2 := by
  apply abs_sub_natCast_lt_half (scaledCos_nonneg h hm)
  · rw [scaledCos_sq h]
    exact hc.1.trans_le (by gcongr)
  · rw [scaledCos_sq h]
    exact lt_of_le_of_lt (by gcongr) hc.2

theorem scaledCos_near_of_cos (h : 1 ≤ len) (hm : m ≤ len) {c : Nat} {x : ℝ}
    (hcos : Real.cos (Real.pi * m / len) = x)
    (hc : ((c : ℝ) - 1 / 2) ^ 2 < 2 ^ 60 * (1 + x) / len ∧ 2 ^ 60 * (1 + x) / len < ((c : ℝ) + 1 / 2) ^ 2) :
    |scaledCos len m - c| < 1 / 2 :=
  scaledCos_near_of_cos_bounds h hm hcos.ge hcos.le hc

theorem sqrt_two_bounds : 1.4142135623 < Real.sqrt 2 ∧ Real.sqrt 2 < 1.4142135624 :=
  ⟨Real.lt_sqrt_of_sq_lt (by norm_num), (Real.sqrt_lt' (by norm_num)).mpr (by norm_num)⟩

theorem cos_reflect (h : 1 ≤ len) (hm : m ≤ len) :
    Real.cos (Real.pi * (len - m : Nat) / len) = -Real.cos (Real.pi * m / len) := by
  have hlen : (len : ℝ) ≠ 0 := by positivity
  have hangle : Real.pi * (len - m : Nat) / len = Real.pi - Real.pi * m / len := by
    rw [Nat.cast_sub hm]
    field_simp
  rw [hangle, Real.cos_pi_sub]

theorem quadrantEntry_zero_near (h1 : 1 ≤ len) (h4 : len ≤ 4) : |scaledCos len 0 - quadrantEntry len 0| < 1 / 2 := by
  refine scaledCos_near_of_cos h1 (Nat.zero_le _) (x := 1) (by simp) ?_
  interval_cases len <;> norm_num [quadrantEntry, cosRows, cosRows1to8]

theorem quadrantEntry_self_near (h1 : 1 ≤ len) (h4 : len ≤ 4) :
    |scaledCos len len - quadrantEntry len len| < 1 / 2 := by
  have hentry : quadrantEntry len len = 0 := by interval_cases len <;> rfl
  rw [scaledCos_self h1, hentry]
  norm_num

/-- Between the ends of the quadrant the doubled angles are quarters and sixths of the circle and, for `len = 4`, odd
eighths. -/
theorem quadrantEntry_inner_near (h0 : 1 ≤ m) (hm : m < len) (h4 : len ≤ 4) :
    |scaledCos len m - quadrantEntry len m| < 1 / 2 := by
  have hthird : Real.cos (Real.pi * (1 : Nat) / (3 : Nat)) = 1 / 2 := by simp
  have hquarter : Real.cos (Real.pi * (1 : Nat) / (4 : Nat)) = Real.sqrt 2 / 2 := by simp
  have hhalf : Real.cos (Real.pi * (2 : Nat) / (4 : Nat)) = 0 := by
    rw [show Real.pi * (2 : Nat) / (4 : Nat) = Real.pi / 2 by push_cast; ring, Real.cos_pi_div_two]
  obtain ⟨hlo, hhi⟩ := sqrt_two_bounds
  have hcases : (len = 2 ∧ m = 1) ∨ (len = 3 ∧ (m = 1 ∨ m = 2)) ∨ (len = 4 ∧ (m = 1 ∨ m = 2 ∨ m = 3)) := by omega
  obtain ⟨rfl, rfl⟩ | ⟨rfl, rfl | rfl⟩ | ⟨rfl, rfl | rfl | rfl⟩ := hcases
  · exact scaledCos_near_of_cos (by decide) hm.le (x := 0) (by simp) (by norm_num [quadrantEntry, cosRows, cosRows1to8])
  · exact scaledCos_near_of_cos (by decide) hm.le hthird (by norm_num [quadrantEntry, cosRows, cosRows1to8])
  · have hcos := cos_reflect (len := 3) (m := 1) (by decide) (by decide)
    rw [hthird] at hcos
    exact scaledCos_near_of_cos (by decide) hm.le hcos (by norm_num [quadrantEntry, cosRows, cosRows1to8])
  · exact scaledCos_near_of_cos_bounds (by decide) hm.le (lo := 0.70710678115) (hi := 0.7071067812)
      (by linarith) (by linarith) (by norm_num [quadrantEntry, cosRows, cosRows1to8])
  · exact scaledCos_near_of_cos (by decide) hm.le hhalf (by norm_num [quadrantEntry, cosRows, cosRows1to8])
  · have hcos := cos_reflect (len := 4) (m := 1) (by decide) (by decide)
    rw [hquarter] at hcos
    exact scaledCos_near_of_cos_bounds (by decide) hm.le (lo := -0.7071067812) (hi := -0.70710678115)
      (by linarith) (by linarith) (by norm_num [quadrantEntry, cosRows, cosRows1to8])

theorem quadrantEntry_near (h1 : 1 ≤ len) (h4 : len ≤ 4) (hm : m ≤ len) :
    |scaledCos len m - quadrantEntry len m| < 1 / 2 := by
  obtain rfl | h0 := Nat.eq_zero_or_pos m
  · exact quadrantEntry_zero_near h1 h4
  · obtain rfl | hlt := hm.eq_or_lt
    · exact quadrantEntry_self_near h1 h4
    · exact quadrantEntry_inner_near h0 hlt h4

/-! ### The table -/

/-- The constant row: `s_0` is the root of `1 / len`. -/
theorem dcRow_near (h1 : 1 ≤ len) (h4 : len ≤ 4) :
    |2 ^ 30 * Real.sqrt (1 / len) - (dcRow.getD (len - 1) 0 : Nat)| < 1 / 2 := by
  have hsq : (2 ^ 30 * Real.sqrt (1 / len)) ^ 2 = 2 ^ 60 / len := by
    rw [mul_pow, Real.sq_sqrt (by positivity)]
    ring
  apply abs_sub_natCast_lt_half (by positivity)
  · rw [hsq]
    interval_cases len <;> norm_num [dcRow]
  · rw [hsq]
    interval_cases len <;> norm_num [dcRow]

/-- Settles O50: row 0 is constant, and the others are entries of the circle. -/
theorem cosineTable : Obligations.CosineTable := by
  intro len k n h1 h4 _ _
  by_cases hk : k = 0
  · have hdc := dcRow_near h1 h4
    simpa [hk, cf] using hdc
  · have hentry := cosEntry_near h1 (fun i hi => quadrantEntry_near h1 h4 hi) ((2 * n + 1) * k)
    rw [cf, if_neg hk, if_neg hk]
    convert hentry using 4
    rw [scaledCos]
    push_cast
    ring_nf

end Cosines

end Sys2Proof.Machine

/-! PROOF. What moves `CMDCNT`: a command that retires, and the resets (45_system_codestream.md R175, R176). -/

namespace Sys2Proof.Machine

open Sys2Proof.Claims

section RetireCounter

variable {s t u : State}

/-! ### Commands -/

theorem effect_cmdCnt {i : Instr} (hu : effect i s u) : u.cmdCnt = s.cmdCnt := by
  rw [(effect_frame hu).fixed]

theorem exhaustion_cmdCnt (i : Instr) (s : State) : (exhaustion i s).cmdCnt = s.cmdCnt := by
  rw [(exhaustion_frame i s).fixed]

/-- A command that does not fault retires, and counts. -/
theorem exec_noFault_cmdCnt {i : Instr} (h : exec i s = .next t) (hi : i ≠ .srst) (ht : t.fault = false) :
    t.cmdCnt = s.cmdCnt + 1#32 := by
  obtain ⟨-, u, hu, rfl⟩ := exec_noFault h ht hi
  rw [retire_cmdCnt, effect_cmdCnt hu]

/-- A command that faults, precisely or not, does not count. -/
theorem exec_fault_cmdCnt {i : Instr} (hf : s.fault = false) (h : exec i s = .next t) (ht : t.fault = true) :
    t.cmdCnt = s.cmdCnt := by
  cases exec_executes h with
  | reset _ => cases ht
  | fault e info _ => exact takeFault_cmdCnt s e info
  | exhausted _ _ _ => exact exhaustion_cmdCnt i s
  | retired _ hu => exact absurd ((effect_fault hu).symm.trans ht) (by simp [hf])

/-- The fault state drops every word but `SRST`'s (45_system_codestream.md R176). -/
theorem cmdWrite_dropped {w : Word} (hf : s.fault = true) (hw : w ≠ srstWord) : cmdWrite w s = .next s := by
  rw [cmdWrite, if_pos hf, if_neg hw]

/-! ### Host actions -/

/-- `CMD` has one offset (10_state.md R22). -/
theorem regAt_eq_cmd {off : Nat} (h : regAt off = some .cmd) : off = 4 := by
  unfold regAt at h
  split at h <;> cases h
  rfl

theorem accessed_eq_cmd {bits off : Nat} (h : accessed bits off = some .cmd) : bits = 32 ∧ off = 4 := by
  unfold accessed at h
  split at h
  · exact ⟨‹_›, regAt_eq_cmd h⟩
  · cases h

@[simp] theorem readEffect_cmdCnt (r : Reg) (s : State) : (readEffect r s).cmdCnt = s.cmdCnt := by
  unfold readEffect
  split <;> rfl

@[simp] theorem writeEffect_cmdCnt (r : Reg) (v : Word) (s : State) : (writeEffect r v s).cmdCnt = s.cmdCnt := by
  cases r with
  | status | midx =>
    unfold writeEffect
    dsimp only
    split <;> rfl
  | _ => rfl

@[simp] theorem hostLoad_cmdCnt (bytes : List Byte) (s : State) : (hostLoad bytes s).cmdCnt = s.cmdCnt := by
  rw [hostLoad_frame]

theorem busRead_cmdCnt {bits off : Nat} (h : busRead bits off s = .next t) : t.cmdCnt = s.cmdCnt := by
  unfold busRead at h
  split at h
  · cases h
    rfl
  · split at h
    · cases h
    · cases h
      simp

theorem busWrite_cmdCnt {bits off : Nat} {v : Word} (hne : accessed bits off ≠ some .cmd)
    (h : busWrite bits off v s = .next t) : t.cmdCnt = s.cmdCnt := by
  unfold busWrite at h
  split at h
  · cases h
    rfl
  · rename_i r hr
    rw [if_neg fun hcmd : r = .cmd => hne (hcmd ▸ hr)] at h
    split at h
    · cases h
    · cases h
      simp

/-- A host action that neither writes `CMD` nor resets leaves `CMDCNT` alone. -/
theorem hostStep_cmdCnt {a : HostAction} (hcmd : ∀ w, a ≠ .write 32 4 w) (hline : a ≠ .resetLine)
    (hpower : a ≠ .powerOn) (h : hostStep a s = .next t) : t.cmdCnt = s.cmdCnt := by
  cases a with
  | read bits off => exact busRead_cmdCnt h
  | write bits off v =>
    refine busWrite_cmdCnt (fun hacc => ?_) h
    obtain ⟨rfl, rfl⟩ := accessed_eq_cmd hacc
    exact hcmd v rfl
  | load bytes =>
    cases h
    simp
  | append bytes | take start =>
    cases h
    rfl
  | resetLine => exact absurd rfl hline
  | powerOn => exact absurd rfl hpower

/-- Settles O34: the four ways a command ends, the word the fault state drops, and the other host actions. -/
theorem retireCounts : Obligations.RetireCounts := by
  refine ⟨fun i s t hf h => ⟨exec_noFault_cmdCnt h, ?_, exec_fault_cmdCnt hf h⟩,
    fun s t w hf hw h => ?_, fun s t a rest ha h hcmd hline hpower => ?_⟩
  · rintro rfl
    cases h
    rfl
  · rw [cmdWrite_dropped hf hw] at h
    cases h
    rfl
  · rw [step_of_host ha] at h
    exact hostStep_cmdCnt (s := { s with host := rest }) hcmd hline hpower h

end RetireCounter

end Sys2Proof.Machine

/-! PROOF. Faults: what a command that faults leaves, what the fault state drops and what ends it, and that no command
and no host action stops the model (60_exceptions.md R181, R183 to R185). -/

namespace Sys2Proof.Machine

open Sys2Proof.Claims

section Faults

variable {s t : State}

/-! ### Precise faults (60_exceptions.md R181) -/

/-- A command that faults takes a precise fault, or is a decoding command that ran out of the source. -/
theorem exec_faulted {i : Instr} (hf : s.fault = false) (h : exec i s = .next t) (ht : t.fault = true) :
    (∃ e info, t = takeFault e info s) ∨ (decodes i = true ∧ t = exhaustion i s) := by
  cases exec_executes h with
  | reset _ => cases ht
  | fault e info _ => exact .inl ⟨e, info, rfl⟩
  | exhausted _ hdec _ => exact .inr ⟨hdec, rfl⟩
  | retired _ hu => exact absurd ((effect_fault hu).symm.trans ht) (by simp [hf])

/-- Settles O33: of the two faults a command can end in, the imprecise one is the excluded one. -/
theorem preciseFaults : Obligations.PreciseFaults := by
  intro i s t hf h ht hne
  rcases exec_faulted hf h ht with ⟨e, info, rfl⟩ | ⟨hdec, rfl⟩
  · rfl
  · obtain ⟨-, herr, -⟩ := exhaustion_record i s
    exact absurd ⟨hdec, herr⟩ hne

/-! ### The fault state (60_exceptions.md R184, R185) -/

/-- The fault state runs `SRST` (45_system_codestream.md R176). -/
theorem cmdWrite_srst (hf : s.fault = true) : cmdWrite srstWord s = exec .srst s := by
  rw [cmdWrite, if_pos hf, if_pos rfl]

/-- Settles O7: a `CMD` write in the fault state, by its word. -/
theorem faultStateDropsCommands : Obligations.FaultStateDropsCommands := by
  refine fun s w rest hf ha => ⟨fun hw => ?_, fun hw => ?_⟩
  · rw [step_cmdWrite ha]
    exact cmdWrite_dropped hf hw
  · rw [step_cmdWrite ha, hw]
    exact cmdWrite_srst hf

@[simp] theorem readEffect_fault (r : Reg) (s : State) : (readEffect r s).fault = s.fault := by
  unfold readEffect
  split <;> rfl

@[simp] theorem writeEffect_fault (r : Reg) (v : Word) (s : State) : (writeEffect r v s).fault = s.fault := by
  cases r with
  | status | midx =>
    unfold writeEffect
    dsimp only
    split <;> rfl
  | _ => rfl

@[simp] theorem hostLoad_fault (bytes : List Byte) (s : State) : (hostLoad bytes s).fault = s.fault := by
  rw [hostLoad_frame]

/-- What a bus read can do (20_memory.md R53, R61). -/
theorem busRead_cases {bits off : Nat} (h : busRead bits off s = .next t) :
    t = answer .busError s ∨ ∃ r, t = answer (.data (regValue s r)) (readEffect r s) := by
  unfold busRead at h
  split at h
  · cases h
    exact .inl rfl
  · split at h
    · cases h
    · cases h
      exact .inr ⟨_, rfl⟩

/-- What a bus write can do; a command starts only at the offset of `CMD` (10_state.md R22; 20_memory.md R53). -/
theorem busWrite_cases {bits off : Nat} {v : Word} (h : busWrite bits off v s = .next t) :
    t = answer .busError s ∨ (∃ r, t = answer .done (writeEffect r v s)) ∨
      (bits = 32 ∧ off = 4 ∧ cmdWrite v (answer .done s) = .next t) := by
  unfold busWrite at h
  split at h
  · cases h
    exact .inl rfl
  · rename_i r hacc
    split at h
    · rename_i hr
      obtain ⟨hbits, hoff⟩ := accessed_eq_cmd (hr ▸ hacc)
      exact .inr (.inr ⟨hbits, hoff, h⟩)
    · split at h
      · cases h
      · cases h
        exact .inr (.inl ⟨r, rfl⟩)

/-- A host action that neither writes `SRST` to `CMD` nor resets leaves the machine in the fault state. -/
theorem hostStep_keeps_fault {a : HostAction} (hf : s.fault = true) (hsrst : a ≠ .write 32 4 srstWord)
    (hline : a ≠ .resetLine) (hpower : a ≠ .powerOn) (h : hostStep a s = .next t) : t.fault = true := by
  cases a with
  | read bits off =>
    obtain rfl | ⟨r, rfl⟩ := busRead_cases h <;> simpa using hf
  | write bits off v =>
    obtain rfl | ⟨r, rfl⟩ | ⟨rfl, rfl, hcmd⟩ := busWrite_cases h
    · exact hf
    · simpa using hf
    · have hv : v ≠ srstWord := fun hv => hsrst (hv ▸ rfl)
      rw [cmdWrite_dropped (s := answer .done s) hf hv] at hcmd
      cases hcmd
      exact hf
  | load bytes =>
    cases h
    simpa using hf
  | append bytes | take start =>
    cases h
    exact hf
  | resetLine => exact absurd rfl hline
  | powerOn => exact absurd rfl hpower

/-- Settles O8: an action that is none of the three leaves `FAULT` set, and so does the step with no action left. -/
theorem onlyResetLeavesFaultState : Obligations.OnlyResetLeavesFaultState := by
  intro s t hf h ht
  cases ha : s.host with
  | nil =>
    rw [step, ha] at h
    cases h
    exact absurd (hf.symm.trans ht) nofun
  | cons a rest =>
    refine ⟨a, rest, rfl, ?_⟩
    by_contra hother
    simp only [not_or] at hother
    obtain ⟨hsrst, hline, hpower⟩ := hother
    rw [step_of_host ha] at h
    have hkept := hostStep_keeps_fault (s := { s with host := rest }) hf hsrst hline hpower h
    exact absurd (hkept.symm.trans ht) nofun

/-! ### Every fault is a next state (60_exceptions.md R183) -/

/-- A check that raises its fault stops nothing. -/
theorem guarded_next {p : Prop} [Decidable p] {e : FaultCode} {info : Word} {r : Result} (h : ∃ t, r = .next t) :
    ∃ t, (if p then raise e info s else r) = .next t := by
  split
  · exact ⟨_, rfl⟩
  · exact h

/-- A decoding command fails its check, runs out of the source, or does its work. -/
theorem exec_decodes_next {i : Instr} (hi : decodes i = true) (s : State) : ∃ t, exec i s = .next t := by
  cases hc : decodeCheck i s with
  | some q => exact ⟨_, exec_of_decodeCheck hi hc⟩
  | none =>
    cases hw : decodeWork i s with
    | none => exact ⟨_, exec_of_decodeWork_none hi hc hw⟩
    | some u => exact ⟨_, exec_of_decodeWork_some hi hc hw⟩

theorem exec_transformCommand_next (d : Dir) (s : State) : ∃ t, exec (transformCommand d) s = .next t := by
  cases hc : txCheck (encode (transformCommand d)) s with
  | some q => exact ⟨_, exec_of_txCheck (transformCommand_eq d) hc⟩
  | none => exact ⟨_, exec_of_txCheck_none hc⟩

/-- No command stops the model: each check raises its fault as a next state, and what follows the checks is one. -/
theorem exec_next (i : Instr) (s : State) : ∃ t, exec i s = .next t := by
  cases i with
  | nop | srst | mrst | rclr | tflush => exact ⟨_, rfl⟩
  | mrst1 ctx | mupd b ctx | mrate b ctx | snap slot | einit m | efin | dfin | csput byte =>
    exact guarded_next ⟨_, rfl⟩
  | encb c b ctx | enci c n v | csrw k => exact guarded_next (guarded_next ⟨_, rfl⟩)
  | rest slot | csget | enblk c hd =>
    refine guarded_next ?_
    split <;> exact ⟨_, rfl⟩
  | dinit m | decb ctx | deci n | deblk hd => exact exec_decodes_next rfl s
  | tfwd => exact exec_transformCommand_next .fwd s
  | tinv => exact exec_transformCommand_next .inv s

theorem cmdWrite_next (w : Word) (s : State) : ∃ t, cmdWrite w s = .next t := by
  unfold cmdWrite
  split
  · split
    · exact exec_next .srst s
    · exact ⟨s, rfl⟩
  · split
    · exact ⟨_, rfl⟩
    · exact exec_next _ s

theorem busRead_next (hin : s.bmAddr.toNat < s.par.blkCap) (bits off : Nat) : ∃ t, busRead bits off s = .next t := by
  unfold busRead
  split
  · exact ⟨_, rfl⟩
  · rw [outsideBmem_of_lt hin]
    exact ⟨_, rfl⟩

theorem busWrite_next (hin : s.bmAddr.toNat < s.par.blkCap) (bits off : Nat) (v : Word) :
    ∃ t, busWrite bits off v s = .next t := by
  unfold busWrite
  split
  · exact ⟨_, rfl⟩
  · split
    · exact cmdWrite_next v _
    · rw [outsideBmem_of_lt hin]
      exact ⟨_, rfl⟩

/-- No host action stops the model where `BM_ADDR` names a word (10_state.md R41). -/
theorem hostStep_next (hin : s.bmAddr.toNat < s.par.blkCap) (a : HostAction) : ∃ t, hostStep a s = .next t := by
  cases a with
  | read bits off => exact busRead_next hin bits off
  | write bits off v => exact busWrite_next hin bits off v
  | load bytes | append bytes | take start | resetLine | powerOn => exact ⟨_, rfl⟩

/-- Settles O9: every command answers, and of the invariant the step needs that `BM_ADDR` names a word. -/
theorem stepNeverStops : Obligations.StepNeverStops := by
  refine ⟨exec_next, fun s hinv => ?_⟩
  cases ha : s.host with
  | nil => exact ⟨s, by rw [step, ha]⟩
  | cons a rest =>
    rw [step_of_host ha]
    exact hostStep_next (s := { s with host := rest }) hinv.bmAddr a

end Faults

end Sys2Proof.Machine
